-- ==== Sys2Proof/Word.lean ====
section
/-! DEFINITION. The word types of the Zepoward: a 64-bit register or address, a byte. -/

namespace Sys2Proof

/-- A 64-bit register, address or instruction word (R67, R113). -/
abbrev Word := BitVec 64

/-- One byte of memory, of a local store or of a host record. -/
abbrev Byte := BitVec 8

end Sys2Proof
end

