-- ==== Sys2Proof/Syntax.lean ====
section
/-! DEFINITION. The instructions of the Tezonen set and the events of the device, one constructor for each row of
spec/opcode_table.json, and the fields they carry (R67 to R86). The events are the rows from RESYNC_ISSUE on: they have no
instruction word, and the agenda of the state names them. -/

namespace Sys2Proof

/-- Scalar register number (R69). -/
abbrev XReg := BitVec 6
/-- Vector register number: 56 to 63 name f0 to f7 in a far word (R70). -/
abbrev VReg := BitVec 6
/-- Predicate number (R69). -/
abbrev KReg := BitVec 4
/-- Tile number (R69). -/
abbrev ZReg := BitVec 3

/-- The sixteen element formats (R32). -/
inductive Fmt where
  | s4 | s8 | s16 | s32 | s64 | n4 | n8 | n16 | n32 | n64 | e4m3 | e5m2 | e2m1 | bf16 | fp16 | fp32
  deriving DecidableEq, Repr

/-- Condition codes (R85). -/
inductive Cond where
  | eq | ne | lt | ge | le | gt | ltu | geu | leu | gtu | un | ord
  deriving DecidableEq, Repr

/-- The RM field (R78). -/
inductive Rm where
  | frm | rne | rz | ru | rd | sr
  deriving DecidableEq, Repr

/-- The replicate codes (R79). -/
inductive Rep where
  | none | e | s4 | s32 | row | re
  deriving DecidableEq, Repr

/-- The ORD field (R82). -/
inductive Ord where
  | plain | acquire | release | acqRel | ordered
  deriving DecidableEq, Repr

/-- The SCOPE field (R82, R247). -/
inductive Scope where
  | none | group | device | system
  deriving DecidableEq, Repr

/-- Width of a scalar access: 8, 16, 32 or 64 bits (R275). -/
inductive Width where
  | w8 | w16 | w32 | w64
  deriving DecidableEq, Repr

/-- The test of KTEST (R157). -/
inductive KTest where
  | any | all | none
  deriving DecidableEq, Repr

/-- The state registers of MFS and MTS (R86). -/
inductive SReg where
  | vl | rc | vstart | vtail | vcfg | sc | fflags | iflags | frm | srseed | srctr | fsite | wid | hartno | ctgen
  | plive | tick | trapvec | epc | ecause | einfo
  deriving DecidableEq, Repr

/-- The guard: a truth table over three predicates (R68, R71). -/
structure Guard where
  tt : BitVec 8
  ga : KReg
  gb : KReg
  gc : KReg
  deriving DecidableEq, Repr

/-- Placement and the X field of format V (R77, R78). -/
structure VMod where
  far : Bool
  rm : Rm
  zm : Bool
  repa : Rep
  repb : Rep
  w : Bool
  deriving DecidableEq, Repr

/-- Placement, ORD, SCOPE and FF of format M (R77, R82). -/
structure MMod where
  far : Bool
  ord : Ord
  scope : Scope
  ff : Bool
  deriving DecidableEq, Repr

/-- Target format of a KV-decoding copy (R332). -/
inductive KvDt where
  | bf16 | fp16 | fp32
  deriving DecidableEq, Repr

/-- The second word of ECPY, EMCAST and EFILL (R332): `kv = none` is MODE 00. -/
structure CopyWord where
  kv : Option KvDt
  rot : BitVec 3
  nrows : BitVec 9
  cmask : BitVec 4
  spitch : BitVec 22
  dpitch : BitVec 22
  deriving DecidableEq, Repr

/-- Index width of EGATH and ESCAT (R336). -/
inductive IndexWidth where
  | n16 | n32 | n64
  deriving DecidableEq, Repr

/-- The second word of EGATH and ESCAT (R336). -/
structure RowsWord where
  iw : IndexWidth
  nidx : BitVec 12
  rowbytes : BitVec 16
  tpitch : BitVec 34
  deriving DecidableEq, Repr

/-- The first-word fields an engine command adds to its registers (R324). -/
structure EngMod where
  ahead : BitVec 2
  queue : BitVec 2
  deriving DecidableEq, Repr

/-- The kinds of a contribution (R305). -/
inductive RedKind where
  | sum | max | min
  deriving DecidableEq, Repr

/-- A contribution on its way to a target word (R305). `hart` is the HARTNO of the issuer. -/
structure Contribution where
  hart : Nat
  pa : Nat
  kind : RedKind
  fmt : Fmt
  value : Nat
  deriving DecidableEq, Repr

/-- The atomics that a peer may send beside those the host has too (R286, R288, R457). -/
inductive PeerAmo where
  | and | or | xor | fadd | min (fmt : Fmt) | max (fmt : Fmt)
  deriving DecidableEq, Repr

/-- The operation of a request that arrives from the host or a peer (R448, R451, R457). -/
inductive OuterOp where
  | read | write | fetchAdd | swap | cas | amo (f : PeerAmo)
  deriving DecidableEq, Repr

/-- A request from outside for device memory: through BAR2 or CXL.mem (R450, R451), or from a peer (R457).
`expect` is the compare value of a CAS. -/
structure OuterReq where
  op : OuterOp
  addr : Nat
  len : Nat
  data : List Byte
  expect : Nat
  relaxed : Bool
  deriving DecidableEq, Repr

/-- What became of a remote or host access (R459). -/
inductive RemoteResult where
  | ack | data (bytes : List Byte) | poisoned | refused | failed
  deriving DecidableEq, Repr

/-- The units a control-logic error can strike (R466). -/
inductive UnitId where
  | core (n : Nat) | quad (n : Nat) | stack (n : Nat) | compass | span | meridian
  deriving DecidableEq, Repr

/-- Targets of the per-master access tables (R468); a register block is named by the offset in register space at which it
begins. -/
inductive Target where
  | stackMem (stack : Nat) | regBlock (block : Nat) | keyStore
  deriving DecidableEq, Repr

/-- Masters of the per-master access tables (R468). -/
inductive Master where
  | core (n : Nat) | copyEngine (n : Nat) | chord (stack : Nat) | host | port (p : Nat) | compass | meridian
  deriving DecidableEq, Repr

/-- One entry of an access table (R468). -/
structure AccessEntry where
  target : Target
  master : Master
  read : Bool
  write : Bool
  deriving DecidableEq, Repr

/-- The non-volatile boot configuration (R20, R221, R454, R460, R461): striped share in GiB, retired stacks, the
read-lane ratio k, the package's number and its domain (packages minus 1). -/
structure BootConfig where
  share : Nat
  retired : BitVec 16
  ratio : Nat
  pkg : BitVec 10
  domain : BitVec 10
  deriving DecidableEq, Repr

/-- A near register that a far instruction from another package carries. -/
structure FarNear where
  reg : Nat
  bits : Nat
  fmt : Fmt
  blk : Bool
  deriving DecidableEq, Repr

/-- A page that the issuing core has translated for it: virtual page, physical address, and the bits of its leaf. -/
structure FarPage where
  vpn : Nat
  pa : Nat
  w : Bool
  kv : Bool
  cp : Nat
  deriving DecidableEq, Repr

/-- What travels beside the word of a far instruction to another package (R295, R458): the values its entry captured, its near
registers and predicates, its pages, and what the core has read for FEMBAG and FATT: the descriptor, the end of the stretch,
its blocks with the addresses of their pages. -/
structure FarOperands where
  hpc : Fin 3
  vl : Nat
  start : Nat
  rc : Fin 6
  vtail : Nat
  vtag : Fmt
  vblk : Bool
  frm : Nat
  bank : List (BitVec 16)
  srctr : Word
  srseed : Word
  xa : Word
  xb : Word
  near : List FarNear
  preds : List Nat
  plive : BitVec 16
  pages : List FarPage
  desc : Nat
  fin : Nat
  blocks : List (Nat × Nat × Nat)
  deriving DecidableEq, Repr

/-- A far instruction as it travels to another package: its word, and what goes with it. -/
structure FarCommand where
  word : Word
  ops : FarOperands
  deriving DecidableEq, Repr

/-- An instruction of the Tezonen set, or an event of the device. -/
inductive Instr where
  -- scalar (R144 to R147)
  | nop
  | add (g : Guard) (d a b : XReg)
  | sub (g : Guard) (d a b : XReg)
  | and (g : Guard) (d a b : XReg)
  | or (g : Guard) (d a b : XReg)
  | xor (g : Guard) (d a b : XReg)
  | shl (g : Guard) (d a b : XReg)
  | shr (g : Guard) (d a b : XReg)
  | sra (g : Guard) (d a b : XReg)
  | mul (g : Guard) (d a b : XReg)
  | mulh (g : Guard) (d a b : XReg)
  | mulhu (g : Guard) (d a b : XReg)
  | div (g : Guard) (d a b : XReg)
  | divu (g : Guard) (d a b : XReg)
  | rem (g : Guard) (d a b : XReg)
  | remu (g : Guard) (d a b : XReg)
  | min (g : Guard) (d a b : XReg)
  | max (g : Guard) (d a b : XReg)
  | minu (g : Guard) (d a b : XReg)
  | maxu (g : Guard) (d a b : XReg)
  | clz (g : Guard) (d a : XReg)
  | ctz (g : Guard) (d a : XReg)
  | popc (g : Guard) (d a : XReg)
  | ext (g : Guard) (d a : XReg) (pos wm1 : BitVec 6) (sx : Bool)
  | ins (g : Guard) (d a : XReg) (pos wm1 : BitVec 6)
  | addsh (g : Guard) (d a b : XReg) (sh : BitVec 6)
  | addi (g : Guard) (d a : XReg) (imm : BitVec 17)
  | andi (g : Guard) (d a : XReg) (imm : BitVec 17)
  | ori (g : Guard) (d a : XReg) (imm : BitVec 17)
  | xori (g : Guard) (d a : XReg) (imm : BitVec 17)
  | shli (g : Guard) (d a : XReg) (n : BitVec 6)
  | shri (g : Guard) (d a : XReg) (n : BitVec 6)
  | srai (g : Guard) (d a : XReg) (n : BitVec 6)
  | li (g : Guard) (d : XReg) (imm : BitVec 17)
  | li64 (g : Guard) (d : XReg) (imm : Word)
  -- control (R148 to R150)
  | br (g : Guard) (off : BitVec 29)
  | call (g : Guard) (d : XReg) (off : BitVec 29)
  | jr (g : Guard) (d a : XReg)
  | addpc (g : Guard) (d : XReg) (off : BitVec 29)
  | bstrip (g : Guard) (d : XReg) (off : BitVec 29)
  -- compares and predicates (R151 to R159)
  | cmp (g : Guard) (c : Cond) (d : KReg) (a b : XReg)
  | cmpi (g : Guard) (c : Cond) (d : KReg) (a : XReg) (imm : BitVec 17)
  | vcmp (g : Guard) (m : VMod) (c : Cond) (d : KReg) (a b : VReg)
  | klog (g : Guard) (d a b c : KReg) (table : BitVec 8)
  | kset (g : Guard) (d : KReg) (a : XReg)
  | ktest (g : Guard) (t : KTest) (d : XReg) (a : KReg)
  | kfirst (g : Guard) (d : XReg) (a : KReg)
  | kdead (g : Guard) (mask : BitVec 16)
  | ktox (g : Guard) (d : XReg) (a : KReg) (b : XReg)
  | kfromx (g : Guard) (d : KReg) (a b : XReg)
  -- vector length, rows, tags, state registers (R161 to R165)
  | setvl (g : Guard) (d a : XReg) (t : Fmt) (blk step : Bool)
  | setrc (g : Guard) (code : Fin 6)
  | vtag (g : Guard) (d : VReg) (t : Fmt) (blk : Bool)
  | mfs (g : Guard) (d : XReg) (r : SReg)
  | mts (g : Guard) (r : SReg) (a : XReg)
  -- vector arithmetic (R174 to R180)
  | vadd (g : Guard) (m : VMod) (d a b : VReg)
  | vsub (g : Guard) (m : VMod) (d a b : VReg)
  | vmul (g : Guard) (m : VMod) (d a b : VReg)
  | vmulh (g : Guard) (m : VMod) (d a b : VReg)
  | vfma (g : Guard) (m : VMod) (d a b c : VReg)
  | vfms (g : Guard) (m : VMod) (d a b c : VReg)
  | vfnma (g : Guard) (m : VMod) (d a b c : VReg)
  | vdiv (g : Guard) (m : VMod) (d a b : VReg)
  | vmin (g : Guard) (m : VMod) (d a b : VReg)
  | vmax (g : Guard) (m : VMod) (d a b : VReg)
  | vadds (g : Guard) (m : VMod) (d a b : VReg)
  | vsubs (g : Guard) (m : VMod) (d a b : VReg)
  | vand (g : Guard) (m : VMod) (d a b : VReg)
  | vor (g : Guard) (m : VMod) (d a b : VReg)
  | vxor (g : Guard) (m : VMod) (d a b : VReg)
  | vshl (g : Guard) (m : VMod) (d a b : VReg)
  | vshr (g : Guard) (m : VMod) (d a b : VReg)
  | vscale (g : Guard) (m : VMod) (d a b : VReg)
  | vsqrt (g : Guard) (m : VMod) (d a : VReg)
  | vrsqrt (g : Guard) (m : VMod) (d a : VReg)
  | vrcp (g : Guard) (m : VMod) (d a : VReg)
  | vexp2 (g : Guard) (m : VMod) (d a : VReg)
  | vlog2 (g : Guard) (m : VMod) (d a : VReg)
  | vabs (g : Guard) (m : VMod) (d a : VReg)
  | vneg (g : Guard) (m : VMod) (d a : VReg)
  -- reductions and other whole-sweep forms (R182 to R187); sc: the C field, a scalar result
  | vredsum (g : Guard) (m : VMod) (d : BitVec 6) (a : VReg) (sc : Bool)
  | vredmax (g : Guard) (m : VMod) (d : BitVec 6) (a : VReg) (sc : Bool)
  | vredmin (g : Guard) (m : VMod) (d : BitVec 6) (a : VReg) (sc : Bool)
  | vredand (g : Guard) (m : VMod) (d : BitVec 6) (a : VReg) (sc : Bool)
  | vredor (g : Guard) (m : VMod) (d : BitVec 6) (a : VReg) (sc : Bool)
  | vargmax (g : Guard) (m : VMod) (d : BitVec 6) (a : VReg) (sc : Bool)
  | vdot (g : Guard) (m : VMod) (d : BitVec 6) (a b : VReg) (sc : Bool)
  | vsmax (g : Guard) (m : VMod) (d a : VReg)
  | vtopk (g : Guard) (m : VMod) (d a : VReg) (b : XReg)
  -- conversion (R188 to R192)
  | vcvt (g : Guard) (m : VMod) (d a : VReg) (t : Fmt) (blk sat : Bool)
  | vqmx (g : Guard) (m : VMod) (d a : VReg) (t : Fmt)
  | vpack (g : Guard) (m : VMod) (d a b : VReg)
  | vunpk (g : Guard) (m : VMod) (d a : VReg) (hi : Bool)
  -- movement and permutation (R193 to R200)
  | vmov (g : Guard) (m : VMod) (d a : VReg)
  | vgathr (g : Guard) (m : VMod) (d a b : VReg)
  | vslideup (g : Guard) (m : VMod) (d a : VReg) (b : XReg)
  | vslidedn (g : Guard) (m : VMod) (d a : VReg) (b : XReg)
  | vcompress (g : Guard) (m : VMod) (d a : VReg) (b : KReg)
  | vexpand (g : Guard) (m : VMod) (d a : VReg) (b : KReg)
  | viota (g : Guard) (m : VMod) (d : VReg) (a : KReg)
  | vtransp (g : Guard) (m : VMod) (d a : VReg)
  | vins (g : Guard) (m : VMod) (d : VReg) (a b : XReg)
  | vextr (g : Guard) (m : VMod) (d : XReg) (a : VReg) (b : XReg)
  -- tiles (R204 to R215); rne: RM 001 where 000 and 001 mean the same
  | zopa (g : Guard) (rne : Bool) (d : ZReg) (a b : VReg)
  | zopaL (g : Guard) (rne : Bool) (d : ZReg) (a b : XReg)
  | zzero (g : Guard) (d : ZReg)
  | zfill (g : Guard) (zm : Bool) (d : ZReg) (a : VReg) (b : XReg)
  | zdrain (g : Guard) (rm : Rm) (zm : Bool) (d : VReg) (a : ZReg) (b : XReg)
  | zld (g : Guard) (d : ZReg) (a b : XReg)
  | zst (g : Guard) (d : ZReg) (a b : XReg)
  -- loads and stores (R275 to R285)
  | ld (g : Guard) (w : Width) (sx : Bool) (o : Ord) (sc : Scope) (d a : XReg)
  | st (g : Guard) (w : Width) (o : Ord) (sc : Scope) (d a : XReg)
  | vld (g : Guard) (m : MMod) (d : VReg) (a : XReg)
  | vlds (g : Guard) (m : MMod) (d : VReg) (a b : XReg)
  | vldx (g : Guard) (m : MMod) (d : VReg) (a : XReg) (b : VReg)
  | vldff (g : Guard) (m : MMod) (d : VReg) (a : XReg)
  | vst (g : Guard) (m : MMod) (d : VReg) (a : XReg)
  | vsts (g : Guard) (m : MMod) (d : VReg) (a b : XReg)
  | vstx (g : Guard) (m : MMod) (d : VReg) (a : XReg) (b : VReg)
  | vldt (g : Guard) (m : MMod) (d : VReg) (a : XReg)
  | vldtCt (g : Guard) (m : MMod) (d : VReg) (a : XReg)
  -- atomics (R286 to R289); w64: the 64-bit form
  | amoadd (g : Guard) (w64 : Bool) (o : Ord) (sc : Scope) (d a b : XReg)
  | amoand (g : Guard) (w64 : Bool) (o : Ord) (sc : Scope) (d a b : XReg)
  | amoor (g : Guard) (w64 : Bool) (o : Ord) (sc : Scope) (d a b : XReg)
  | amoxor (g : Guard) (w64 : Bool) (o : Ord) (sc : Scope) (d a b : XReg)
  | amomin (g : Guard) (w64 : Bool) (o : Ord) (sc : Scope) (d a b : XReg)
  | amomax (g : Guard) (w64 : Bool) (o : Ord) (sc : Scope) (d a b : XReg)
  | amoswp (g : Guard) (w64 : Bool) (o : Ord) (sc : Scope) (d a b : XReg)
  | amocas (g : Guard) (w64 : Bool) (o : Ord) (sc : Scope) (d a b c : XReg)
  | amofadd (g : Guard) (o : Ord) (sc : Scope) (d a b : XReg)
  | vamoadd (g : Guard) (m : MMod) (ret : Bool) (d : VReg) (a : XReg) (b c : VReg)
  | vamofadd (g : Guard) (m : MMod) (ret : Bool) (d : VReg) (a : XReg) (b c : VReg)
  | vamomin (g : Guard) (m : MMod) (ret : Bool) (d : VReg) (a : XReg) (b c : VReg)
  | vamomax (g : Guard) (m : MMod) (ret : Bool) (d : VReg) (a : XReg) (b c : VReg)
  -- fences (R290 to R292)
  | fence (g : Guard) (o : Ord) (sc : Scope)
  | fenceSv (g : Guard)
  | fenceVs (g : Guard)
  | fenceVv (g : Guard)
  | fenceStk (g : Guard) (mask : BitVec 16)
  -- far-only (R306 to R321)
  | fredadd (g : Guard) (elem : Bool) (t : Fmt) (a b : XReg)
  | fredmax (g : Guard) (elem : Bool) (t : Fmt) (a b : XReg)
  | fscadd (g : Guard) (rne : Bool) (a : XReg) (b c : VReg)
  | fembag (g : Guard) (rne wgt : Bool) (d a : VReg) (b : XReg) (c : VReg)
  | fatt (g : Guard) (rne zm acc : Bool) (d a : VReg) (b : XReg)
  | fmerge (g : Guard) (rne zm norm : Bool) (d a : VReg)
  -- key-value pages and the code table (R378 to R385)
  | kvput (g : Guard) (o : Ord) (sc : Scope) (d : VReg) (a b : XReg)
  | kvinv (g : Guard) (o : Ord) (sc : Scope) (a b : XReg)
  | ctw (g : Guard) (a b : XReg)
  | ctswap (g : Guard)
  -- barriers (R355 to R358)
  | binit (g : Guard) (a b : XReg)
  | bexp (g : Guard) (a b : XReg) (ahead : BitVec 2)
  | barr (g : Guard) (a : XReg)
  | barrd (g : Guard) (a : XReg)
  | bwait (g : Guard) (a : XReg) (dist : BitVec 2)
  | btest (g : Guard) (d a : XReg) (dist : BitVec 2)
  -- engine queues (R332 to R342)
  | qfence (g : Guard) (mask : BitVec 4)
  | ecpy (g : Guard) (e : EngMod) (d a b c : XReg) (w2 : CopyWord)
  | emcast (g : Guard) (e : EngMod) (d a b c : XReg) (w2 : CopyWord)
  | efill (g : Guard) (e : EngMod) (d a b c : XReg) (w2 : CopyWord)
  | egath (g : Guard) (e : EngMod) (d a b c : XReg) (w2 : RowsWord)
  | escat (g : Guard) (e : EngMod) (d a b c : XReg) (w2 : RowsWord)
  -- system (R394 to R396, R415 to R418, R442 to R444)
  | trap (g : Guard) (n : BitVec 16)
  | eret (g : Guard)
  | bkpt (g : Guard) (n : BitVec 16)
  | qsub (g : Guard) (a b : XReg)
  | qsig (g : Guard) (a b : XReg)
  | hrput (g : Guard) (a b : XReg)
  | klaunch (g : Guard) (d a : XReg)
  | hyield (g : Guard)
  | hexit (g : Guard)
  -- events of a hart, named by its HARTNO
  | resyncIssue (h : Nat)
  | trapEntry (h : Nat)
  -- events of the Compass over groups and kernels (R105 to R112, R391, R409 to R414)
  | groupPlace (grp quad : Nat)
  | groupPreempt (quad : Nat)
  | groupStopComplete (grp : Nat)
  | groupRetire (grp : Nat)
  | kernelDispatch
  | kernelComplete (kern : Nat)
  | priorityAging (grp : Nat)
  | candidateHold
  -- far work (R295 to R305, R458)
  | farDispatch (h : Nat)
  | guestBindAnswer (h : Nat) (bound : Bool)
  | farPieceComplete (h stack : Nat)
  | reduceContribution (c : Contribution)
  -- engine queues and barriers (R327 to R341, R359, R360)
  | engineCmdStart (h q : Nat)
  | engineRangeRelease (h q : Nat)
  | engineCmdComplete (h q : Nat)
  | barrierSubtract (h q bytes : Nat)
  | barrierWake (h : Nat)
  -- waits of the front end that end (R384, R394, R415, R418)
  | qsubResume (h : Nat)
  | hrputResume (h : Nat)
  | ctwResume (h : Nat)
  | klaunchAnswer (h : Nat)
  -- translation and migration (R230 to R243)
  | pageWalk (core ctx : Nat) (va : Word)
  | tlbInvPage (ctx vpn : Nat)
  | tlbInvContext (ctx : Nat)
  | tlbInvAll
  | tlbInvComplete
  | migOpen
  | migArm (slot : Nat)
  | migRelease (slot : Nat)
  | l1Writeback (core sector : Nat)
  | migHeldAccess (h pa : Nat)
  | migLineFill (pa : Nat)
  | migBackgroundFill (slot : Nat)
  -- stacks (R302, R368 to R372)
  | rqeVisit (stack frame : Nat)
  | rqeSlotStep (stack frame : Nat)
  | rqeDisable (stack : Nat)
  | farcfgWrite (stack : Nat) (value : Word)
  -- work queues and graphs (R397 to R411)
  | qsubmit (q : Nat) (value : Word) (wide : Bool)
  | qcfgWrite (q : Nat) (value : Word)
  | qctlSuspend (q : Nat)
  | qctlResume (q : Nat)
  | qctlReset (q : Nat)
  | submissionTake (q : Nat)
  | nodeSelect
  | nodeEnd (q : Nat)
  | waitNodePoll (q : Nat) (node : Word)
  | kernelSlotFree (q : Nat) (node : Word)
  | nodeComplete (q : Nat) (node : Word)
  -- host rings (R417 to R419)
  | rcfgWrite (r : Nat) (value : Word)
  | rconsWrite (r : Nat) (value : Word)
  | ringTimer (r : Nat)
  -- contexts (R420 to R447)
  | ctxCreate (c : Nat)
  | ctxBind (c : Nat)
  | ctxUnbind (c : Nat)
  | ctxSuspend (c : Nat)
  | ctxResume (c : Nat)
  | ctxReset (c : Nat)
  | ctxDestroy (c : Nat)
  | ctxFree (c : Nat)
  | replyResume (c slot : Nat)
  | replyAbort (c slot : Nat)
  | replyRelease (c slot : Nat)
  | dbgcmdCont (c slot f0 : Nat)
  | frconsWrite (c : Nat) (value : Word)
  | faultRecordDrain (c : Nat)
  -- host, peers and links (R448 to R459)
  | hostMemAccess (r : OuterReq)
  | peerAccess (port pkg : Nat) (r : OuterReq)
  | remoteResponse (r : RemoteResult)
  | linkTrain (p : Nat)
  | linkDown (p : Nat)
  | linkRetire (p : Nat)
  | linkTrainDone (p lanes : Nat)
  | linkTrainAttemptFail (p : Nat)
  | linkLaneFail (p lanes : Nat)
  | linkFail (p : Nat)
  -- reset, power, reliability, security (R460 to R471)
  | coldReset
  | hostPortReset
  | powerThrottle (watts : Nat)
  | thermalTrip
  | sramScrub
  | dramScrub
  | controlError (u : UnitId)
  | rowSpare (stack row : Nat)
  | rowSpareCommit (stack row : Nat)
  | mbAttest
  | mbTelemetry
  | mbRasLog
  | mbWriteAccessTable (e : AccessEntry)
  | mbSetAlarm (a : BitVec 2)
  | mbWriteBootConfig (c : BootConfig)
  | mbCommandDone
  | registerWrite (off : Nat) (wide : Bool) (value : Word)
  | illegalInstruction
  | fetchFault (code reason : BitVec 8) (va : Word)
  | powerLoss
  | hostPortTrained (rate width : Nat) (flit : Bool)
  | hostCxlEnable (mem cache : Bool)
  | cxlSnoop (pa : Nat) (data : List Byte)
  | guestBindingRequest (stack pkg ctx : Nat) (wid : Word)
  | remoteFarCommand (stack pkg ctx : Nat) (wid : Word) (word : FarCommand)
  | guestSetRelease (stack pkg ctx : Nat) (wid : Word)
  deriving DecidableEq, Repr

end Sys2Proof
end

