-- ==== Sys2Proof/Config.lean ====
section
/-! DEFINITION. What one module fixes, and the free values: what the manual leaves open. A free value is an opaque constant,
so nothing can be proved of its value; most are applied to the state's counter `free`, which each use advances. -/

namespace Sys2Proof

/-- Microseconds that pass before TICK is read (R119, R66). DESIGN CHOICE, log 2: time is open, so a statement holds for
every amount. -/
opaque Config.elapsed : Nat → Nat

/-- Clocks a resynchronisation takes beyond those R130 states (R66, R131). -/
opaque Config.waitClocks : Nat → Nat

/-- Promotions of R133 a vector entry sees (R131): timing. -/
opaque Config.starve : Nat → Nat

/-- Bytes whose value the manual leaves open: data of an unanswered remote access (R459), telemetry and log
bytes (R471). -/
opaque Config.openByte : Nat → Nat → Byte

/-- Byte `i` of the caller's nonce in the buffer of an attestation, given as one number (R470): the manual leaves the layout of
arguments open. -/
opaque Config.nonceByte : Nat → Nat → Byte

/-- Meridian's ROM, and the firmware image in non-volatile storage with its signature (R30, R31, R460): the manual gives no
image. -/
opaque Config.romImage : List Byte

opaque Config.firmware : List Byte

opaque Config.firmwareSignature : Nat × Nat

/-- The public key fused in the module, and the private device identity key in the key store (R31, R460, R470). -/
opaque Config.fusedKey : Nat × Nat

opaque Config.identityKey : Nat

/-- The bank of a row of a stack's DRAM, and how many spare rows its pool has (R467). -/
opaque Config.rowBank : Nat → Nat → Nat

opaque Config.spareRows : Nat → Nat → Nat

/-- Which of two elements of one instruction writes a common byte last (R250): the element with the greater rank. -/
opaque Config.elemRank : Nat → Nat → Nat

/-- PWRCTL.PNOW: the power drawn (R462). -/
opaque Config.power : Nat → BitVec 16

/-- The stack that a peer package's own address map assigns to a line, before it is taken mod 16 (R294, log 9). -/
opaque Config.peerStack : Nat → Nat → Nat

/-- Which of the usable ports of a package a 512 B line travels on, by the line and the set of those ports, before it is taken
mod their number (R457). -/
opaque Config.linePort : Nat → Nat → Nat

/-- The host's translation of an address under a process address-space identifier (R453), or none. -/
opaque Config.hostTranslate : Nat → Nat → Option Nat

/-- Which of several allowed choices the device takes: a quad, a victim, the next agent. -/
opaque Config.pick : Nat → Nat → Nat

/-- What Meridian finds in a command's buffer, whose layout the manual leaves open (R471): the arguments, or none where they
are bad. The buffer is given as one number. -/
opaque Config.accessArg : Nat → Option AccessEntry

opaque Config.alarmArg : Nat → Option (BitVec 2)

opaque Config.bootArg : Nat → Option BootConfig

/-- Whether a stack trains, at a boot (R460). -/
opaque Config.stackTrains : Nat → Nat → Bool

end Sys2Proof
end

