-- ==== Sys2Proof/WellFormed.lean ====
section
/-! DEFINITION. Which instructions are legal words (R69, R77, R78, R82 to R85, R312, R315, R321, R324, R332, R336), and which
operands an event may carry. A word that decodes to an ill-formed instruction is an illegal instruction (R87). -/

namespace Sys2Proof

/-- Which RM codes an opcode admits (R78). -/
inductive RmClass where
  | all | rne | zero
  deriving DecidableEq, Repr

def RmClass.admits : RmClass → Rm → Bool
  | .all, _ => true
  | .rne, .frm => true
  | .rne, .rne => true
  | .rne, _ => false
  | .zero, .frm => true
  | .zero, _ => false

/-- The X field of format V against the columns of R78; `far` false forbids the placement bit (R77). -/
def VMod.ok (m : VMod) (far : Bool) (c : RmClass) (zm repa repb w : Bool) : Bool :=
  (far || !m.far) && c.admits m.rm && (zm || !m.zm) && (repa || decide (m.repa = .none)) &&
    (repb || decide (m.repb = .none)) && (w || !m.w)

/-- SCOPE is given exactly when ORD is an acquire or a release (R82). -/
def ordScopeOk (o : Ord) (s : Scope) : Bool :=
  match o with
  | .plain | .ordered => decide (s = .none)
  | .acquire | .release | .acqRel => !decide (s = .none)

/-- Vector loads: ORD 000, 001 and 100; FF per opcode (R82). -/
def MMod.okLoad (m : MMod) (ffMay : Bool) : Bool :=
  (decide (m.ord = .plain) || decide (m.ord = .acquire) || decide (m.ord = .ordered)) && ordScopeOk m.ord m.scope && (ffMay || !m.ff)

/-- Vector stores: ORD 000, 010 and 100 (R82). -/
def MMod.okStore (m : MMod) : Bool :=
  (decide (m.ord = .plain) || decide (m.ord = .release) || decide (m.ord = .ordered)) && ordScopeOk m.ord m.scope && !m.ff

/-- Vector atomics: ORD 000 to 100 (R82). -/
def MMod.okAtomic (m : MMod) : Bool := ordScopeOk m.ord m.scope && !m.ff

def okLoadOrd (o : Ord) (s : Scope) : Bool :=
  (decide (o = .plain) || decide (o = .acquire)) && ordScopeOk o s

def okStoreOrd (o : Ord) (s : Scope) : Bool :=
  (decide (o = .plain) || decide (o = .release)) && ordScopeOk o s

/-- Scalar atomics: ORD 000 to 011 (R82). -/
def okAtomicOrd (o : Ord) (s : Scope) : Bool :=
  !decide (o = .ordered) && ordScopeOk o s

def evenReg {n : Nat} (b : BitVec n) : Bool := b.toNat % 2 == 0

/-- Conditions of CMP and CMPI: codes 0 to 9 (R151). -/
def Cond.scalarOk : Cond → Bool
  | .un | .ord => false
  | _ => true

/-- Conditions of VCMP: codes 6 to 9 are illegal (R85). -/
def Cond.vectorOk : Cond → Bool
  | .ltu | .geu | .leu | .gtu => false
  | _ => true

/-- E4M3, E5M2 and E2M1, the formats a block may have (R33). -/
def Fmt.blockOk : Fmt → Bool
  | .e4m3 | .e5m2 | .e2m1 => true
  | _ => false

/-- Position plus width at most 64 (R84). -/
def fieldOk (pos wm1 : BitVec 6) : Bool := decide (pos.toNat + (wm1.toNat + 1) ≤ 64)

/-- A far register number: 56 to 63 (R70). -/
def isFarReg (r : VReg) : Bool := decide (56 ≤ r.toNat)

/-- AH is 0 when no barrier is named (R324). -/
def engOk (e : EngMod) (d : XReg) : Bool := !decide (d = 0) || decide (e.ahead = 0)

/-- The second word of a copy (R332): CMASK on EMCAST only, bits [43:38] zero in KV mode. -/
def CopyWord.ok (w : CopyWord) (mcast fill : Bool) : Bool :=
  (mcast || decide (w.cmask = 0)) && (!fill || (decide (w.kv = none) && decide (w.spitch = 0))) &&
    (decide (w.kv = none) || decide (w.spitch.toNat < 2 ^ 16))

/-- The VCVT saturation toggle: E4M3 and E5M2 targets only (R84). -/
def Fmt.satOk : Fmt → Bool
  | .e4m3 | .e5m2 => true
  | _ => false

/-- HARTNO names one of the 384 hart slots (R119). -/
def hartNoOk (h : Nat) : Bool := decide (h < 384)

def reduceOk : VMod → Bool → Bool → Bool
  | m, sc, w => m.ok true .rne (!sc) true false w

/-- Legal words, and operands of events inside the ranges of the objects they name. -/
def Instr.wf : Instr → Bool
  | .ext _ _ _ pos wm1 _ => fieldOk pos wm1
  | .ins _ _ _ pos wm1 => fieldOk pos wm1
  | .cmp _ c d _ _ => c.scalarOk && evenReg d
  | .cmpi _ c d _ _ => c.scalarOk && evenReg d
  | .vcmp _ m c d _ _ => c.vectorOk && evenReg d && m.ok true .zero false true true false
  | .mts _ r _ =>
    match r with
    | .vstart | .sc | .fflags | .iflags | .frm | .srseed | .srctr | .fsite | .plive | .trapvec | .epc | .ecause
    | .einfo => true
    | _ => false
  | .vadd _ m _ _ _ | .vsub _ m _ _ _ | .vmul _ m _ _ _ => m.ok true .all true true true true
  | .vfma _ m _ _ _ _ | .vfms _ m _ _ _ _ | .vfnma _ m _ _ _ _ => m.ok true .all true true true true
  | .vmulh _ m _ _ _ | .vdiv _ m _ _ _ | .vmin _ m _ _ _ | .vmax _ m _ _ _ | .vadds _ m _ _ _ | .vsubs _ m _ _ _
  | .vscale _ m _ _ _ => m.ok true .all true true true false
  | .vand _ m _ _ _ | .vor _ m _ _ _ | .vxor _ m _ _ _ | .vshl _ m _ _ _ | .vshr _ m _ _ _ =>
    m.ok true .zero true true true false
  | .vsqrt _ m _ _ | .vrsqrt _ m _ _ | .vrcp _ m _ _ | .vexp2 _ m _ _ | .vlog2 _ m _ _ | .vabs _ m _ _
  | .vneg _ m _ _ => m.ok true .all true true false false
  | .vredsum _ m _ _ sc => reduceOk m sc true
  | .vredmax _ m _ _ sc | .vredmin _ m _ _ sc | .vredand _ m _ _ sc | .vredor _ m _ _ sc
  | .vargmax _ m _ _ sc => reduceOk m sc false
  | .vdot _ m _ _ _ sc => m.ok true .rne (!sc) true true true
  | .vsmax _ m _ _ => m.ok true .rne true true false false
  | .vtopk _ m d _ _ => evenReg d && m.ok false .zero true true false false
  | .vcvt _ m _ _ t _ sat => (t.satOk || !sat) && m.ok true .all true true false false
  | .vqmx _ m d _ t => t.blockOk && evenReg d && m.ok true .all true true false false
  | .vpack _ m _ _ _ => m.ok true .all true true true false
  | .vunpk _ m _ _ _ | .vmov _ m _ _ => m.ok true .zero true true false false
  | .vgathr _ m _ _ _ => m.ok true .zero true true true false
  | .vslideup _ m _ _ _ | .vslidedn _ m _ _ _ | .vcompress _ m _ _ _ | .vexpand _ m _ _ _ =>
    m.ok true .zero true true false false
  | .viota _ m _ _ | .vins _ m _ _ _ => m.ok true .zero true false false false
  | .vtransp _ m _ _ => m.ok false .zero true true false false
  | .vextr _ m _ _ _ => m.ok false .zero false true false false
  | .ld _ w sx o sc _ _ => okLoadOrd o sc && !(decide (w = .w64) && sx)
  | .st _ _ o sc _ _ => okStoreOrd o sc
  | .vld _ m _ _ => m.okLoad false
  | .vlds _ m _ _ _ | .vldx _ m _ _ _ | .vldt _ m _ _ | .vldtCt _ m _ _ => m.okLoad true
  | .vldff _ m _ _ => m.okLoad true && m.ff
  | .vst _ m _ _ | .vsts _ m _ _ _ | .vstx _ m _ _ _ => m.okStore
  | .amoadd _ _ o sc _ _ _ | .amoand _ _ o sc _ _ _ | .amoor _ _ o sc _ _ _ | .amoxor _ _ o sc _ _ _
  | .amomin _ _ o sc _ _ _ | .amomax _ _ o sc _ _ _ | .amoswp _ _ o sc _ _ _ => okAtomicOrd o sc
  | .amocas _ _ o sc _ _ _ _ => okAtomicOrd o sc
  | .amofadd _ o sc _ _ _ => okAtomicOrd o sc
  | .vamoadd _ m ret d _ _ _ | .vamofadd _ m ret d _ _ _ | .vamomin _ m ret d _ _ _ | .vamomax _ m ret d _ _ _ =>
    m.okAtomic && (ret || decide (d = 0))
  | .fence _ o sc =>
    (decide (o = .acquire) || decide (o = .release) || decide (o = .acqRel)) && !decide (sc = .none)
  | .fembag _ _ wgt d _ _ c => isFarReg d && (wgt || decide (c = 0))
  | .fatt _ _ _ _ d _ _ => isFarReg d && evenReg d
  | .fmerge _ _ _ _ d a => isFarReg d && evenReg d && evenReg a
  | .kvput _ o sc _ _ _ | .kvinv _ o sc _ _ => okStoreOrd o sc
  | .ecpy _ e d _ _ _ w => engOk e d && w.ok false false
  | .emcast _ e d _ _ _ w => engOk e d && w.ok true false
  | .efill _ e d _ _ _ w => engOk e d && w.ok false true
  | .egath _ e d _ _ _ _ | .escat _ e d _ _ _ _ => engOk e d
  | .resyncIssue h | .trapEntry h | .farDispatch h | .guestBindAnswer h _ | .barrierWake h | .qsubResume h
  | .hrputResume h | .ctwResume h | .klaunchAnswer h => hartNoOk h
  | .farPieceComplete h s => hartNoOk h && decide (s < 16)
  | .engineCmdStart h q | .engineRangeRelease h q | .engineCmdComplete h q | .barrierSubtract h q _ =>
    hartNoOk h && decide (q < 4)
  | .groupPlace _ q | .groupPreempt q => decide (q < 24)
  | .reduceContribution c => decide (c.pa < 2 ^ 48)
  | .pageWalk core ctx _ => decide (core < 96) && decide (ctx < 4096)
  | .tlbInvPage ctx vpn => decide (ctx < 4096) && decide (vpn < 2 ^ 36)
  | .tlbInvContext ctx => decide (ctx < 4096)
  | .migArm s | .migRelease s | .migBackgroundFill s => decide (s < 64)
  | .migHeldAccess _ pa | .migLineFill pa => decide (pa < 2 ^ 48)
  | .rqeVisit s f | .rqeSlotStep s f => decide (s < 16) && decide (f < 2 ^ 20)
  | .rqeDisable s | .farcfgWrite s _ => decide (s < 16)
  | .qsubmit q _ _ | .qcfgWrite q _ | .qctlSuspend q | .qctlResume q | .qctlReset q | .submissionTake q
  | .nodeEnd q | .waitNodePoll q _ | .kernelSlotFree q _ | .nodeComplete q _ => decide (q < 1024)
  | .rcfgWrite r _ | .rconsWrite r _ | .ringTimer r => decide (r < 256)
  | .ctxCreate c | .ctxBind c | .ctxUnbind c | .ctxSuspend c | .ctxResume c | .ctxReset c | .ctxDestroy c
  | .ctxFree c | .frconsWrite c _ | .faultRecordDrain c => decide (c < 4096)
  | .replyResume c s | .replyAbort c s | .replyRelease c s => decide (c < 4096) && decide (s < 65536)
  | .dbgcmdCont c s f => decide (c < 4096) && decide (s < 65536) && decide (f < 16)
  | .peerAccess p k _ => decide (p < 12) && decide (k < 1024)
  | .linkTrain p | .linkDown p | .linkRetire p | .linkTrainAttemptFail p | .linkFail p => decide (p < 12)
  | .linkTrainDone p lanes | .linkLaneFail p lanes =>
    decide (p < 12) && (decide (lanes = 1) || decide (lanes = 2) || decide (lanes = 4))
  | .registerWrite off _ _ => decide (off < 2 ^ 33)
  | .l1Writeback core _ => decide (core < 96)
  | .hostPortTrained r w _ => decide (1 ≤ r) && decide (r ≤ 6) &&
      (decide (w = 1) || decide (w = 2) || decide (w = 4) || decide (w = 8) || decide (w = 16))
  | .guestBindingRequest s k c _ | .guestSetRelease s k c _ => decide (s < 16) && decide (k < 1024) && decide (c < 4096)
  | .remoteFarCommand s k c _ _ => decide (s < 16) && decide (k < 1024) && decide (c < 4096)
  | _ => true

/-- The rows of the opcode table that have no instruction word: the events of the device. -/
def Instr.isEvent : Instr → Bool
  | .resyncIssue _ | .trapEntry _ | .groupPlace _ _ | .groupPreempt _ | .groupStopComplete _ | .groupRetire _
  | .kernelDispatch | .kernelComplete _ | .priorityAging _ | .candidateHold | .farDispatch _ | .guestBindAnswer _ _
  | .farPieceComplete _ _ | .reduceContribution _ | .engineCmdStart _ _ | .engineRangeRelease _ _
  | .engineCmdComplete _ _ | .barrierSubtract _ _ _ | .barrierWake _ | .qsubResume _ | .hrputResume _
  | .ctwResume _ | .klaunchAnswer _ | .pageWalk _ _ _ | .tlbInvPage _ _ | .tlbInvContext _ | .tlbInvAll
  | .tlbInvComplete | .migOpen | .migArm _ | .migRelease _ | .migHeldAccess _ _ | .migLineFill _
  | .migBackgroundFill _ | .rqeVisit _ _ | .rqeSlotStep _ _ | .rqeDisable _ | .farcfgWrite _ _ | .qsubmit _ _ _
  | .qcfgWrite _ _ | .qctlSuspend _ | .qctlResume _ | .qctlReset _ | .submissionTake _ | .nodeSelect | .nodeEnd _
  | .waitNodePoll _ _ | .kernelSlotFree _ _ | .nodeComplete _ _ | .rcfgWrite _ _ | .rconsWrite _ _ | .ringTimer _
  | .ctxCreate _ | .ctxBind _ | .ctxUnbind _ | .ctxSuspend _ | .ctxResume _ | .ctxReset _ | .ctxDestroy _
  | .ctxFree _ | .replyResume _ _ | .replyAbort _ _ | .replyRelease _ _ | .dbgcmdCont _ _ _ | .frconsWrite _ _
  | .faultRecordDrain _ | .hostMemAccess _ | .peerAccess _ _ _ | .remoteResponse _ | .linkTrain _ | .linkDown _
  | .linkRetire _ | .linkTrainDone _ _ | .linkTrainAttemptFail _ | .linkLaneFail _ _ | .linkFail _ | .coldReset
  | .hostPortReset | .powerThrottle _ | .thermalTrip | .sramScrub | .dramScrub | .controlError _ | .rowSpare _ _
  | .rowSpareCommit _ _ | .mbAttest | .mbTelemetry | .mbRasLog | .mbWriteAccessTable _ | .mbSetAlarm _
  | .mbWriteBootConfig _ | .mbCommandDone | .registerWrite _ _ _ | .illegalInstruction | .fetchFault _ _ _
  | .l1Writeback _ _ | .powerLoss | .hostPortTrained _ _ _ | .hostCxlEnable _ _ | .cxlSnoop _ _
  | .guestBindingRequest _ _ _ _ | .remoteFarCommand _ _ _ _ _ | .guestSetRelease _ _ _ _ => true
  | _ => false

end Sys2Proof
end

