-- ==== Sys2Proof/Decode.lean ====
section
/-! DEFINITION. Decoding and encoding of instruction words (R67 to R88). The decoder is total on any bytes: it answers an
instruction and its length, or refuses by name. -/

namespace Sys2Proof

/-- The fields of an instruction's first word (R68). -/
structure Fields where
  tt : BitVec 8
  ga : BitVec 4
  gb : BitVec 4
  gc : BitVec 4
  p : Bool
  opc : BitVec 8
  d : BitVec 6
  a : BitVec 6
  b : BitVec 6
  c : BitVec 6
  x : BitVec 11
  deriving DecidableEq, Repr

/-- Cut a first word into its fields (R68). -/
def Fields.ofWord (w : Word) : Fields where
  tt := w.extractLsb' 56 8
  ga := w.extractLsb' 52 4
  gb := w.extractLsb' 48 4
  gc := w.extractLsb' 44 4
  p := w.getLsbD 43
  opc := w.extractLsb' 35 8
  d := w.extractLsb' 29 6
  a := w.extractLsb' 23 6
  b := w.extractLsb' 17 6
  c := w.extractLsb' 11 6
  x := w.extractLsb' 0 11

/-- Put the fields together again (R68). -/
def Fields.toWord (f : Fields) : Word :=
  f.tt ++ f.ga ++ f.gb ++ f.gc ++ BitVec.ofBool f.p ++ f.opc ++ f.d ++ f.a ++ f.b ++ f.c ++ f.x

/-- The guard of a word. -/
def Fields.guard (f : Fields) : Guard := ⟨f.tt, f.ga, f.gb, f.gc⟩

/-- imm17 of format I (R80). -/
def Fields.imm (f : Fields) : BitVec 17 := f.c ++ f.x

/-- The offset of format B (R81). -/
def Fields.off (f : Fields) : BitVec 29 := f.a ++ f.b ++ f.c ++ f.x

/-- Format codes (R32). -/
def Fmt.code : Fmt → BitVec 4
  | .s4 => 0 | .s8 => 1 | .s16 => 2 | .s32 => 3 | .s64 => 4 | .n4 => 5 | .n8 => 6 | .n16 => 7 | .n32 => 8 | .n64 => 9
  | .e4m3 => 10 | .e5m2 => 11 | .e2m1 => 12 | .bf16 => 13 | .fp16 => 14 | .fp32 => 15

def Fmt.ofCode (c : BitVec 4) : Fmt :=
  match c.toNat with
  | 0 => .s4 | 1 => .s8 | 2 => .s16 | 3 => .s32 | 4 => .s64 | 5 => .n4 | 6 => .n8 | 7 => .n16 | 8 => .n32 | 9 => .n64
  | 10 => .e4m3 | 11 => .e5m2 | 12 => .e2m1 | 13 => .bf16 | 14 => .fp16 | _ => .fp32

/-- Condition codes (R85). -/
def Cond.code : Cond → BitVec 6
  | .eq => 0 | .ne => 1 | .lt => 2 | .ge => 3 | .le => 4 | .gt => 5 | .ltu => 6 | .geu => 7 | .leu => 8 | .gtu => 9
  | .un => 10 | .ord => 11

def Cond.ofCode (c : BitVec 6) : Option Cond :=
  match c.toNat with
  | 0 => some .eq | 1 => some .ne | 2 => some .lt | 3 => some .ge | 4 => some .le | 5 => some .gt | 6 => some .ltu
  | 7 => some .geu | 8 => some .leu | 9 => some .gtu | 10 => some .un | 11 => some .ord | _ => none

def Rm.code : Rm → BitVec 3
  | .frm => 0 | .rne => 1 | .rz => 2 | .ru => 3 | .rd => 4 | .sr => 5

/-- RM codes (R78); 110 and 111 are illegal. -/
def Rm.ofCode (c : BitVec 3) : Option Rm :=
  match c.toNat with
  | 0 => some .frm | 1 => some .rne | 2 => some .rz | 3 => some .ru | 4 => some .rd | 5 => some .sr | _ => none

def Rep.code : Rep → BitVec 3
  | .none => 0 | .e => 1 | .s4 => 2 | .s32 => 3 | .row => 4 | .re => 5

/-- Replicate codes (R79); 110 and 111 are illegal. -/
def Rep.ofCode (c : BitVec 3) : Option Rep :=
  match c.toNat with
  | 0 => some .none | 1 => some .e | 2 => some .s4 | 3 => some .s32 | 4 => some .row | 5 => some .re | _ => Option.none

def Ord.code : Ord → BitVec 3
  | .plain => 0 | .acquire => 1 | .release => 2 | .acqRel => 3 | .ordered => 4

/-- ORD codes (R82); 101 to 111 are illegal. -/
def Ord.ofCode (c : BitVec 3) : Option Ord :=
  match c.toNat with
  | 0 => some .plain | 1 => some .acquire | 2 => some .release | 3 => some .acqRel | 4 => some .ordered | _ => none

def Scope.code : Scope → BitVec 2
  | .none => 0 | .group => 1 | .device => 2 | .system => 3

def Scope.ofCode (c : BitVec 2) : Scope :=
  match c.toNat with
  | 0 => .none | 1 => .group | 2 => .device | _ => .system

def Width.code : Width → BitVec 2
  | .w8 => 0 | .w16 => 1 | .w32 => 2 | .w64 => 3

def Width.ofCode (c : BitVec 2) : Width :=
  match c.toNat with
  | 0 => .w8 | 1 => .w16 | 2 => .w32 | _ => .w64

def KTest.code : KTest → BitVec 11
  | .any => 0 | .all => 1 | .none => 2

def KTest.ofCode (c : BitVec 11) : Option KTest :=
  match c.toNat with
  | 0 => some .any | 1 => some .all | 2 => some .none | _ => Option.none

/-- Selectors of MFS and MTS (R86). -/
def SReg.code : SReg → BitVec 11
  | .vl => 0 | .rc => 1 | .vstart => 2 | .vtail => 3 | .vcfg => 4 | .sc => 5 | .fflags => 6 | .iflags => 7 | .frm => 8
  | .srseed => 9 | .srctr => 10 | .fsite => 11 | .wid => 12 | .hartno => 13 | .ctgen => 14 | .plive => 15 | .tick => 16
  | .trapvec => 17 | .epc => 18 | .ecause => 19 | .einfo => 20

def SReg.ofCode (c : BitVec 11) : Option SReg :=
  match c.toNat with
  | 0 => some .vl | 1 => some .rc | 2 => some .vstart | 3 => some .vtail | 4 => some .vcfg | 5 => some .sc
  | 6 => some .fflags | 7 => some .iflags | 8 => some .frm | 9 => some .srseed | 10 => some .srctr | 11 => some .fsite
  | 12 => some .wid | 13 => some .hartno | 14 => some .ctgen | 15 => some .plive | 16 => some .tick
  | 17 => some .trapvec | 18 => some .epc | 19 => some .ecause | 20 => some .einfo | _ => none

/-- The X field of format V (R78). -/
def VMod.x (m : VMod) : BitVec 11 :=
  m.rm.code ++ BitVec.ofBool m.zm ++ m.repa.code ++ m.repb.code ++ BitVec.ofBool m.w

def Fields.vmod (f : Fields) : Option VMod :=
  match Rm.ofCode (f.x.extractLsb' 8 3), Rep.ofCode (f.x.extractLsb' 4 3), Rep.ofCode (f.x.extractLsb' 1 3) with
  | some rm, some ra, some rb => some ⟨f.p, rm, f.x.getLsbD 7, ra, rb, f.x.getLsbD 0⟩
  | _, _, _ => none

/-- ORD, SCOPE and FF of the X field of format M (R82). -/
def MMod.x (m : MMod) (func : BitVec 5) : BitVec 11 :=
  m.ord.code ++ m.scope.code ++ BitVec.ofBool m.ff ++ func

def Fields.mmod (f : Fields) : Option MMod :=
  (Ord.ofCode (f.x.extractLsb' 8 3)).map fun o => ⟨f.p, o, Scope.ofCode (f.x.extractLsb' 6 2), f.x.getLsbD 5⟩

def Fields.func (f : Fields) : BitVec 5 := f.x.extractLsb' 0 5

/-- RM 000 or 001 where nothing else is admitted (R78). -/
def rneOf (c : BitVec 3) : Option Bool :=
  match c.toNat with
  | 0 => some false | 1 => some true | _ => none

def rneCode (b : Bool) : BitVec 3 := if b then 1 else 0

/-- A 4-bit predicate field: 16 to 63 are out of range (R69). -/
def kreg (r : BitVec 6) : Option KReg := if r.toNat < 16 then some (r.setWidth 4) else none

/-- A tile field: 8 to 63 are out of range (R69). -/
def zreg (r : BitVec 6) : Option ZReg := if r.toNat < 8 then some (r.setWidth 3) else none

/-- `some i` when the fields that must be zero are. -/
def guardZero (ok : Bool) (i : Instr) : Option Instr := if ok then some i else none

/-- The C field of a reduction: 0 or 1 (R84). -/
def redC (c : BitVec 6) : Option Bool :=
  match c.toNat with
  | 0 => some false | 1 => some true | _ => none

/-- The second word of a copy (R332). -/
def CopyWord.toWord (w : CopyWord) : Word :=
  (match w.kv with
    | none => (0#4)
    | some .bf16 => 0b0100#4
    | some .fp16 => 0b0101#4
    | some .fp32 => 0b0110#4) ++ w.rot ++ w.nrows ++ w.cmask ++ w.spitch ++ w.dpitch

def CopyWord.ofWord (w : Word) : Option CopyWord :=
  let rest (kv : Option KvDt) : CopyWord :=
    ⟨kv, w.extractLsb' 57 3, w.extractLsb' 48 9, w.extractLsb' 44 4, w.extractLsb' 22 22, w.extractLsb' 0 22⟩
  match (w.extractLsb' 60 4).toNat with
  | 0 => some (rest none)
  | 4 => some (rest (some .bf16))
  | 5 => some (rest (some .fp16))
  | 6 => some (rest (some .fp32))
  | _ => none

/-- The second word of a gather or scatter (R336). -/
def RowsWord.toWord (w : RowsWord) : Word :=
  (match w.iw with
    | .n16 => (0#2)
    | .n32 => 1#2
    | .n64 => 2#2) ++ w.nidx ++ w.rowbytes ++ w.tpitch

def RowsWord.ofWord (w : Word) : Option RowsWord :=
  let rest (iw : IndexWidth) : RowsWord := ⟨iw, w.extractLsb' 50 12, w.extractLsb' 34 16, w.extractLsb' 0 34⟩
  match (w.extractLsb' 62 2).toNat with
  | 0 => some (rest .n16)
  | 1 => some (rest .n32)
  | 2 => some (rest .n64)
  | _ => none

/-- Register forms `OP xd, xa, xb` (R144): C and X zero. -/
def Fields.r3 (f : Fields) (k : Guard → XReg → XReg → XReg → Instr) : Option Instr :=
  guardZero (f.c == 0 && f.x == 0) (k f.guard f.d f.a f.b)

def decodeScalar (f : Fields) : Option Instr :=
  match f.opc.toNat with
  | 0x00 => if f = ⟨0xFF, 0, 0, 0, false, 0, 0, 0, 0, 0, 0⟩ then some .nop else none
  | 0x01 => f.r3 .add
  | 0x02 => f.r3 .sub
  | 0x03 => f.r3 .and
  | 0x04 => f.r3 .or
  | 0x05 => f.r3 .xor
  | 0x06 => f.r3 .shl
  | 0x07 => f.r3 .shr
  | 0x08 => f.r3 .sra
  | 0x09 => f.r3 .mul
  | 0x0A => f.r3 .mulh
  | 0x0B => f.r3 .mulhu
  | 0x0C => f.r3 .div
  | 0x0D => f.r3 .divu
  | 0x0E => f.r3 .rem
  | 0x0F => f.r3 .remu
  | 0x10 => f.r3 .min
  | 0x11 => f.r3 .max
  | 0x12 => f.r3 .minu
  | 0x13 => f.r3 .maxu
  | 0x14 => guardZero (f.b == 0 && f.c == 0 && f.x == 0) (.clz f.guard f.d f.a)
  | 0x15 => guardZero (f.b == 0 && f.c == 0 && f.x == 0) (.ctz f.guard f.d f.a)
  | 0x16 => guardZero (f.b == 0 && f.c == 0 && f.x == 0) (.popc f.guard f.d f.a)
  | 0x17 => guardZero (f.x.extractLsb' 1 10 == 0) (.ext f.guard f.d f.a f.b f.c (f.x.getLsbD 0))
  | 0x18 => guardZero (f.x == 0) (.ins f.guard f.d f.a f.b f.c)
  | 0x19 => guardZero (f.c == 0 && f.x.extractLsb' 6 5 == 0) (.addsh f.guard f.d f.a f.b (f.x.extractLsb' 0 6))
  | 0x1A => guardZero (f.b == 0) (.addi f.guard f.d f.a f.imm)
  | 0x1B => guardZero (f.b == 0) (.andi f.guard f.d f.a f.imm)
  | 0x1C => guardZero (f.b == 0) (.ori f.guard f.d f.a f.imm)
  | 0x1D => guardZero (f.b == 0) (.xori f.guard f.d f.a f.imm)
  | 0x1E =>
    if f.c == 0 && f.x.extractLsb' 6 5 == 0 then
      match f.b.toNat with
      | 0 => some (.shli f.guard f.d f.a (f.x.extractLsb' 0 6))
      | 1 => some (.shri f.guard f.d f.a (f.x.extractLsb' 0 6))
      | 2 => some (.srai f.guard f.d f.a (f.x.extractLsb' 0 6))
      | _ => none
    else none
  | 0x1F => guardZero (f.a == 0 && f.b == 0) (.li f.guard f.d f.imm)
  | _ => none

/-- The code of SETRC: 000 to 101 (R84). -/
def rcCode (x : BitVec 11) : Option (Fin 6) := if h : x.toNat < 6 then some ⟨x.toNat, h⟩ else none

def decodeControl (f : Fields) : Option Instr :=
  match f.opc.toNat with
  | 0x20 => guardZero (f.d == 0) (.br f.guard f.off)
  | 0x21 => some (.call f.guard f.d f.off)
  | 0x22 => guardZero (f.b == 0 && f.c == 0 && f.x == 0) (.jr f.guard f.d f.a)
  | 0x24 => some (.addpc f.guard f.d f.off)
  | 0x25 => some (.bstrip f.guard f.d f.off)
  | 0x28 =>
    match Cond.ofCode f.c, kreg f.d with
    | some c, some d => guardZero (f.x == 0) (.cmp f.guard c d f.a f.b)
    | _, _ => none
  | 0x29 =>
    match Cond.ofCode f.b, kreg f.d with
    | some c, some d => some (.cmpi f.guard c d f.a f.imm)
    | _, _ => none
  | 0x2A =>
    match f.vmod, Cond.ofCode f.c, kreg f.d with
    | some m, some c, some d => some (.vcmp f.guard m c d f.a f.b)
    | _, _, _ => none
  | 0x2B =>
    match kreg f.d, kreg f.a, kreg f.b, kreg f.c with
    | some d, some a, some b, some c =>
      guardZero (f.x.extractLsb' 8 3 == 0) (.klog f.guard d a b c (f.x.extractLsb' 0 8))
    | _, _, _, _ => none
  | 0x2C =>
    match kreg f.d with
    | some d => guardZero (f.b == 0 && f.c == 0 && f.x == 0) (.kset f.guard d f.a)
    | none => none
  | 0x2D =>
    match KTest.ofCode f.x, kreg f.a with
    | some t, some a => guardZero (f.b == 0 && f.c == 0) (.ktest f.guard t f.d a)
    | _, _ => none
  | 0x2E =>
    match kreg f.a with
    | some a => guardZero (f.b == 0 && f.c == 0 && f.x == 0) (.kfirst f.guard f.d a)
    | none => none
  | 0x2F => guardZero (f.d == 0 && f.a == 0 && f.b == 0 && !f.imm.getLsbD 16) (.kdead f.guard (f.imm.setWidth 16))
  | 0x30 =>
    match kreg f.a with
    | some a => guardZero (f.c == 0 && f.x == 0) (.ktox f.guard f.d a f.b)
    | none => none
  | 0x31 =>
    match kreg f.d with
    | some d => guardZero (f.c == 0 && f.x == 0) (.kfromx f.guard d f.a f.b)
    | none => none
  | 0x38 =>
    guardZero (f.b == 0 && f.c == 0 && f.x.extractLsb' 6 5 == 0)
      (.setvl f.guard f.d f.a (Fmt.ofCode (f.x.extractLsb' 0 4)) (f.x.getLsbD 4) (f.x.getLsbD 5))
  | 0x39 =>
    match rcCode f.x with
    | some n => guardZero (f.d == 0 && f.a == 0 && f.b == 0 && f.c == 0) (.setrc f.guard n)
    | none => none
  | 0x3A =>
    guardZero (f.a == 0 && f.b == 0 && f.c == 0 && f.x.extractLsb' 5 6 == 0)
      (.vtag f.guard f.d (Fmt.ofCode (f.x.extractLsb' 0 4)) (f.x.getLsbD 4))
  | 0x3B =>
    match SReg.ofCode f.x with
    | some r => guardZero (f.a == 0 && f.b == 0 && f.c == 0) (.mfs f.guard f.d r)
    | none => none
  | 0x3C =>
    match SReg.ofCode f.x with
    | some r => guardZero (f.d == 0 && f.b == 0 && f.c == 0) (.mts f.guard r f.a)
    | none => none
  | _ => none

/-- Vector forms `OP vd, va, vb` with C zero. -/
def Fields.v3 (f : Fields) (k : Guard → VMod → VReg → VReg → BitVec 6 → Instr) : Option Instr :=
  f.vmod.bind fun m => guardZero (f.c == 0) (k f.guard m f.d f.a f.b)

/-- Vector forms `OP vd, va` with B and C zero. -/
def Fields.v2 (f : Fields) (k : Guard → VMod → VReg → VReg → Instr) : Option Instr :=
  f.vmod.bind fun m => guardZero (f.b == 0 && f.c == 0) (k f.guard m f.d f.a)

/-- The fused forms. -/
def Fields.v4 (f : Fields) (k : Guard → VMod → VReg → VReg → VReg → VReg → Instr) : Option Instr :=
  f.vmod.map fun m => k f.guard m f.d f.a f.b f.c

/-- The reductions with B zero and C 0 or 1. -/
def Fields.red (f : Fields) (k : Guard → VMod → BitVec 6 → VReg → Bool → Instr) : Option Instr :=
  match f.vmod, redC f.c with
  | some m, some sc => guardZero (f.b == 0) (k f.guard m f.d f.a sc)
  | _, _ => none

def decodeVector (f : Fields) : Option Instr :=
  match f.opc.toNat with
  | 0x40 => f.v3 .vadd
  | 0x41 => f.v3 .vsub
  | 0x42 => f.v3 .vmul
  | 0x43 => f.v3 .vmulh
  | 0x44 => f.v4 .vfma
  | 0x45 => f.v4 .vfms
  | 0x46 => f.v4 .vfnma
  | 0x47 => f.v3 .vdiv
  | 0x48 => f.v2 .vsqrt
  | 0x49 => f.v2 .vrsqrt
  | 0x4A => f.v2 .vrcp
  | 0x4B => f.v2 .vexp2
  | 0x4C => f.v2 .vlog2
  | 0x4D => f.v3 .vmin
  | 0x4E => f.v3 .vmax
  | 0x4F => f.v2 .vabs
  | 0x50 => f.v2 .vneg
  | 0x51 => f.v3 .vadds
  | 0x52 => f.v3 .vsubs
  | 0x53 => f.v3 .vand
  | 0x54 => f.v3 .vor
  | 0x55 => f.v3 .vxor
  | 0x56 => f.v3 .vshl
  | 0x57 => f.v3 .vshr
  | 0x5A => f.v3 .vscale
  | 0x60 => f.red .vredsum
  | 0x61 => f.red .vredmax
  | 0x62 => f.red .vredmin
  | 0x63 => f.red .vredand
  | 0x64 => f.red .vredor
  | 0x65 => f.red .vargmax
  | 0x66 =>
    match f.vmod, redC f.c with
    | some m, some sc => some (.vdot f.guard m f.d f.a f.b sc)
    | _, _ => none
  | 0x67 => f.v2 .vsmax
  | 0x68 => f.v3 .vtopk
  | 0x70 =>
    f.vmod.bind fun m =>
      guardZero (f.c == 0) (.vcvt f.guard m f.d f.a (Fmt.ofCode (f.b.extractLsb' 0 4)) (f.b.getLsbD 4) (f.b.getLsbD 5))
  | 0x71 =>
    f.vmod.bind fun m =>
      guardZero (f.c == 0 && f.b.extractLsb' 4 2 == 0) (.vqmx f.guard m f.d f.a (Fmt.ofCode (f.b.extractLsb' 0 4)))
  | 0x72 => f.v3 .vpack
  | 0x73 =>
    match f.vmod, redC f.b with
    | some m, some hi => guardZero (f.c == 0) (.vunpk f.guard m f.d f.a hi)
    | _, _ => none
  | 0x74 => f.v3 .vgathr
  | 0x75 => f.v3 .vslideup
  | 0x76 => f.v3 .vslidedn
  | 0x77 =>
    match f.vmod, kreg f.b with
    | some m, some b => guardZero (f.c == 0) (.vcompress f.guard m f.d f.a b)
    | _, _ => none
  | 0x78 =>
    match f.vmod, kreg f.b with
    | some m, some b => guardZero (f.c == 0) (.vexpand f.guard m f.d f.a b)
    | _, _ => none
  | 0x79 =>
    match f.vmod, kreg f.a with
    | some m, some a => guardZero (f.b == 0 && f.c == 0) (.viota f.guard m f.d a)
    | _, _ => none
  | 0x7A => f.v2 .vmov
  | 0x7B => f.v3 .vins
  | 0x7C => f.v3 .vextr
  | 0x7D => f.v2 .vtransp
  | _ => none

def decodeTile (f : Fields) : Option Instr :=
  match f.opc.toNat with
  | 0x80 =>
    match rneOf (f.x.extractLsb' 8 3), zreg f.d with
    | some r, some d => guardZero (f.c == 0 && f.x.extractLsb' 0 8 == 0) (.zopa f.guard r d f.a f.b)
    | _, _ => none
  | 0x81 =>
    match rneOf (f.x.extractLsb' 8 3), zreg f.d with
    | some r, some d => guardZero (f.c == 0 && f.x.extractLsb' 0 8 == 0) (.zopaL f.guard r d f.a f.b)
    | _, _ => none
  | 0x82 =>
    match zreg f.d with
    | some d => guardZero (f.a == 0 && f.b == 0 && f.c == 0 && f.x == 0) (.zzero f.guard d)
    | none => none
  | 0x83 =>
    match Rm.ofCode (f.x.extractLsb' 8 3), zreg f.a with
    | some r, some a => guardZero (f.c == 0 && f.x.extractLsb' 0 7 == 0) (.zdrain f.guard r (f.x.getLsbD 7) f.d a f.b)
    | _, _ => none
  | 0x84 =>
    match zreg f.d with
    | some d =>
      guardZero (f.c == 0 && f.x.extractLsb' 8 3 == 0 && f.x.extractLsb' 0 7 == 0)
        (.zfill f.guard (f.x.getLsbD 7) d f.a f.b)
    | none => none
  | 0x85 =>
    match zreg f.d with
    | some d => guardZero (f.c == 0 && f.x == 0) (.zld f.guard d f.a f.b)
    | none => none
  | 0x86 =>
    match zreg f.d with
    | some d => guardZero (f.c == 0 && f.x == 0) (.zst f.guard d f.a f.b)
    | none => none
  | _ => none

/-- Vector memory forms with C and FUNC zero. -/
def Fields.vm (f : Fields) (k : Guard → MMod → VReg → XReg → BitVec 6 → Instr) : Option Instr :=
  f.mmod.bind fun m => guardZero (f.c == 0 && f.func == 0) (k f.guard m f.d f.a f.b)

/-- Vector memory forms with B, C and FUNC zero. -/
def Fields.vm1 (f : Fields) (k : Guard → MMod → VReg → XReg → Instr) : Option Instr :=
  f.mmod.bind fun m => guardZero (f.b == 0 && f.c == 0 && f.func == 0) (k f.guard m f.d f.a)

/-- Scalar atomics: FUNC[1:0] 10 or 11, FUNC[4:2] and FF zero (R84). -/
def Fields.amo (f : Fields) (k : Guard → Bool → Ord → Scope → XReg → XReg → XReg → Instr) : Option Instr :=
  f.mmod.bind fun m =>
    guardZero (f.c == 0 && f.func.extractLsb' 1 4 == 1 && !m.ff) (k f.guard (f.func.getLsbD 0) m.ord m.scope f.d f.a f.b)

/-- Vector atomics: FUNC[4] is RET (R84). -/
def Fields.vamo (f : Fields) (k : Guard → MMod → Bool → VReg → XReg → VReg → VReg → Instr) : Option Instr :=
  f.mmod.bind fun m => guardZero (f.func.extractLsb' 0 4 == 0) (k f.guard m (f.func.getLsbD 4) f.d f.a f.b f.c)

def decodeMemory (f : Fields) : Option Instr :=
  match f.opc.toNat with
  | 0x90 =>
    f.mmod.bind fun m =>
      guardZero (f.b == 0 && f.c == 0 && !f.func.getLsbD 2 && !f.func.getLsbD 4 && !m.ff)
        (.ld f.guard (Width.ofCode (f.func.extractLsb' 0 2)) (f.func.getLsbD 3) m.ord m.scope f.d f.a)
  | 0x91 =>
    f.mmod.bind fun m =>
      guardZero (f.b == 0 && f.c == 0 && f.func.extractLsb' 2 3 == 0 && !m.ff)
        (.st f.guard (Width.ofCode (f.func.extractLsb' 0 2)) m.ord m.scope f.d f.a)
  | 0x92 => f.vm1 .vld
  | 0x93 => f.vm .vlds
  | 0x94 => f.vm .vldx
  | 0x95 => f.vm1 .vldff
  | 0x96 => f.vm1 .vst
  | 0x97 => f.vm .vsts
  | 0x98 => f.vm .vstx
  | 0x99 =>
    f.mmod.bind fun m =>
      if f.b == 0 && f.c == 0 && f.func.extractLsb' 1 4 == 0 then
        some (if f.func.getLsbD 0 then .vldtCt f.guard m f.d f.a else .vldt f.guard m f.d f.a)
      else none
  | 0xB0 => f.amo .amoadd
  | 0xB1 => f.amo .amoand
  | 0xB2 => f.amo .amoor
  | 0xB3 => f.amo .amoxor
  | 0xB4 => f.amo .amomin
  | 0xB5 => f.amo .amomax
  | 0xB6 => f.amo .amoswp
  | 0xB7 =>
    f.mmod.bind fun m =>
      guardZero (f.func.extractLsb' 1 4 == 1 && !m.ff)
        (.amocas f.guard (f.func.getLsbD 0) m.ord m.scope f.d f.a f.b f.c)
  | 0xB8 =>
    f.mmod.bind fun m =>
      guardZero (f.c == 0 && f.func == 2 && !m.ff) (.amofadd f.guard m.ord m.scope f.d f.a f.b)
  | 0xB9 => f.vamo .vamoadd
  | 0xBA => f.vamo .vamofadd
  | 0xBB => f.vamo .vamomin
  | 0xBC => f.vamo .vamomax
  | _ => none

def decodeFar (f : Fields) : Option Instr :=
  match f.opc.toNat with
  | 0xC0 =>
    guardZero (f.d == 0 && f.c == 0 && f.x.extractLsb' 5 6 == 0)
      (.fredadd f.guard (f.x.getLsbD 4) (Fmt.ofCode (f.x.extractLsb' 0 4)) f.a f.b)
  | 0xC1 =>
    guardZero (f.d == 0 && f.c == 0 && f.x.extractLsb' 5 6 == 0)
      (.fredmax f.guard (f.x.getLsbD 4) (Fmt.ofCode (f.x.extractLsb' 0 4)) f.a f.b)
  | 0xC2 =>
    (rneOf (f.x.extractLsb' 8 3)).bind fun r =>
      guardZero (f.d == 0 && f.x.extractLsb' 0 8 == 0) (.fscadd f.guard r f.a f.b f.c)
  | 0xC3 =>
    (rneOf (f.x.extractLsb' 8 3)).bind fun r =>
      guardZero (f.x.extractLsb' 1 7 == 0) (.fembag f.guard r (f.x.getLsbD 0) f.d f.a f.b f.c)
  | 0xC4 =>
    (rneOf (f.x.extractLsb' 8 3)).bind fun r =>
      guardZero (f.c == 0 && f.x.extractLsb' 1 6 == 0) (.fatt f.guard r (f.x.getLsbD 7) (f.x.getLsbD 0) f.d f.a f.b)
  | 0xC5 =>
    (rneOf (f.x.extractLsb' 8 3)).bind fun r =>
      guardZero (f.b == 0 && f.c == 0 && f.x.extractLsb' 1 6 == 0)
        (.fmerge f.guard r (f.x.getLsbD 7) (f.x.getLsbD 0) f.d f.a)
  | _ => none

def decodeSystem (f : Fields) : Option Instr :=
  match f.opc.toNat with
  | 0xC6 =>
    f.mmod.bind fun m =>
      guardZero (f.c == 0 && f.func == 0 && !m.ff) (.kvput f.guard m.ord m.scope f.d f.a f.b)
  | 0xC7 =>
    f.mmod.bind fun m =>
      guardZero (f.d == 0 && f.c == 0 && f.func == 0 && !m.ff) (.kvinv f.guard m.ord m.scope f.a f.b)
  | 0xD0 => guardZero (f.d == 0 && f.c == 0 && f.x == 0) (.binit f.guard f.a f.b)
  | 0xD1 => guardZero (f.d == 0 && f.c == 0 && f.x.extractLsb' 2 9 == 0) (.bexp f.guard f.a f.b (f.x.extractLsb' 0 2))
  | 0xD2 => guardZero (f.d == 0 && f.b == 0 && f.c == 0 && f.x == 0) (.barr f.guard f.a)
  | 0xD3 => guardZero (f.d == 0 && f.b == 0 && f.c == 0 && f.x == 0) (.barrd f.guard f.a)
  | 0xD4 => guardZero (f.d == 0 && f.b == 0 && f.c == 0 && f.x.extractLsb' 2 9 == 0) (.bwait f.guard f.a (f.x.extractLsb' 0 2))
  | 0xD5 => guardZero (f.b == 0 && f.c == 0 && f.x.extractLsb' 2 9 == 0) (.btest f.guard f.d f.a (f.x.extractLsb' 0 2))
  | 0xD8 =>
    f.mmod.bind fun m =>
      guardZero (f.d == 0 && f.a == 0 && f.b == 0 && f.c == 0 && f.func == 0 && !m.ff) (.fence f.guard m.ord m.scope)
  | 0xD9 =>
    if f.d == 0 && f.a == 0 && f.b == 0 && f.c == 0 then
      match f.x.toNat with
      | 0 => some (.fenceSv f.guard)
      | 1 => some (.fenceVs f.guard)
      | 2 => some (.fenceVv f.guard)
      | _ => none
    else none
  | 0xDA => guardZero (f.d == 0 && f.a == 0 && f.b == 0 && !f.imm.getLsbD 16) (.fenceStk f.guard (f.imm.setWidth 16))
  | 0xDB =>
    guardZero (f.d == 0 && f.a == 0 && f.b == 0 && f.c == 0 && f.x.extractLsb' 4 7 == 0)
      (.qfence f.guard (f.x.extractLsb' 0 4))
  | 0xE0 => guardZero (f.d == 0 && f.a == 0 && f.b == 0 && !f.imm.getLsbD 16) (.trap f.guard (f.imm.setWidth 16))
  | 0xE1 => guardZero (f.d == 0 && f.a == 0 && f.b == 0 && f.c == 0 && f.x == 0) (.eret f.guard)
  | 0xE2 => guardZero (f.d == 0 && f.a == 0 && f.b == 0 && !f.imm.getLsbD 16) (.bkpt f.guard (f.imm.setWidth 16))
  | 0xE4 => guardZero (f.d == 0 && f.c == 0 && f.x == 0) (.ctw f.guard f.a f.b)
  | 0xE5 => guardZero (f.d == 0 && f.a == 0 && f.b == 0 && f.c == 0 && f.x == 0) (.ctswap f.guard)
  | 0xE6 => guardZero (f.d == 0 && f.c == 0 && f.x == 0) (.qsub f.guard f.a f.b)
  | 0xE7 => guardZero (f.d == 0 && f.c == 0 && f.x == 0) (.qsig f.guard f.a f.b)
  | 0xE8 => guardZero (f.d == 0 && f.c == 0 && f.x == 0) (.hrput f.guard f.a f.b)
  | 0xE9 => guardZero (f.b == 0 && f.c == 0 && f.x == 0) (.klaunch f.guard f.d f.a)
  | 0xEA => guardZero (f.d == 0 && f.a == 0 && f.b == 0 && f.c == 0 && f.x == 0) (.hyield f.guard)
  | 0xEB => guardZero (f.d == 0 && f.a == 0 && f.b == 0 && f.c == 0 && f.x == 0) (.hexit f.guard)
  | _ => none

/-- The AH and Q fields of an engine command (R324). -/
def Fields.eng (f : Fields) : EngMod := ⟨f.x.extractLsb' 2 2, f.x.extractLsb' 0 2⟩

def EngMod.x (e : EngMod) : BitVec 11 := (0#7) ++ e.ahead ++ e.queue

/-- The copies and fills with their second word (R324, R332). -/
def Fields.copy (f : Fields) (w2 : Word) (k : Guard → EngMod → XReg → XReg → XReg → XReg → CopyWord → Instr) :
    Option Instr :=
  (CopyWord.ofWord w2).bind fun c => guardZero (f.x.extractLsb' 4 7 == 0) (k f.guard f.eng f.d f.a f.b f.c c)

/-- The gathers and scatters with their second word (R324, R336). -/
def Fields.rows (f : Fields) (w2 : Word) (k : Guard → EngMod → XReg → XReg → XReg → XReg → RowsWord → Instr) :
    Option Instr :=
  (RowsWord.ofWord w2).bind fun c => guardZero (f.x.extractLsb' 4 7 == 0) (k f.guard f.eng f.d f.a f.b f.c c)

def decodeLong (f : Fields) (w2 : Word) : Option Instr :=
  match f.opc.toNat with
  | 0xF0 => guardZero (f.a == 0 && f.b == 0 && f.c == 0 && f.x == 0) (.li64 f.guard f.d w2)
  | 0xF1 => f.copy w2 .ecpy
  | 0xF2 => f.copy w2 .emcast
  | 0xF3 => f.rows w2 .egath
  | 0xF4 => f.rows w2 .escat
  | 0xF5 => f.copy w2 .efill
  | _ => none

/-- The placement bit an opcode admits (R77); `none` where both values are legal. -/
def placementOf (opc : Nat) : Option Bool :=
  if 0xC0 ≤ opc ∧ opc ≤ 0xC5 then some true
  else if opc = 0x2A ∨ (0x40 ≤ opc ∧ opc ≤ 0x5A) ∨ (0x60 ≤ opc ∧ opc ≤ 0x67) ∨ (0x70 ≤ opc ∧ opc ≤ 0x7B) ∨
      (0x92 ≤ opc ∧ opc ≤ 0x99) ∨ (0xB9 ≤ opc ∧ opc ≤ 0xBC) then none
  else some false

/-- Why a word is refused: fault 0x01 or fault 0x02 (R87). -/
inductive DecodeError where
  | illegal
  | placement
  deriving DecidableEq, Repr

/-- The word's instruction, the placement bit apart. -/
def parse (f : Fields) (w2 : Word) : Option Instr :=
  if f.opc.toNat < 0x20 then decodeScalar f
  else if f.opc.toNat < 0x40 then decodeControl f
  else if f.opc.toNat < 0x80 then decodeVector f
  else if f.opc.toNat < 0x90 then decodeTile f
  else if f.opc.toNat < 0xC0 then decodeMemory f
  else if f.opc.toNat < 0xC6 then decodeFar f
  else if f.opc.toNat < 0xF0 then decodeSystem f
  else decodeLong f w2

/-- P against R77, where the opcode fixes it, is checked after every bit of the word (R89). -/
def Fields.placementOk (f : Fields) : Bool :=
  match placementOf f.opc.toNat with
  | some p => f.p == p
  | none => true

/-- The fields with P as the opcode fixes it, so that the other bits are judged apart from it (R89). -/
def Fields.settle (f : Fields) : Fields :=
  match placementOf f.opc.toNat with
  | some p => if f.opc = 0 then f else { f with p := p }
  | none => f

/-- Decode one instruction from its first word and the word behind it (R67, R87). -/
def decodeWords (w1 w2 : Word) : Except DecodeError Instr :=
  match parse (Fields.ofWord w1).settle w2 with
  | some i =>
    if i.wf then
      if (Fields.ofWord w1).placementOk then .ok i else .error .placement
    else .error .illegal
  | none => .error .illegal

/-- Length in bytes of the instruction a first word begins: 16 from OPC 0xF0 on (R67). -/
def lengthOf (w1 : Word) : Nat := if 0xF0 ≤ (w1.extractLsb' 35 8).toNat then 16 else 8

/-- The little-endian number a list of bytes holds (R2). -/
def leNat : List Byte → Nat
  | [] => 0
  | b :: bs => b.toNat + 256 * leNat bs

/-- The `n` bytes of a number, least significant first (R2). -/
def leBytes : Nat → Nat → List Byte
  | 0, _ => []
  | n + 1, v => BitVec.ofNat 8 v :: leBytes n (v / 256)

/-- Decode the instruction at the start of a byte string; bytes past its end count as zero. The answer carries the
instruction's length. -/
def decodeBytes (bs : List Byte) : Except DecodeError (Instr × Nat) :=
  let w1 := BitVec.ofNat 64 (leNat (bs.take 8))
  let w2 := BitVec.ofNat 64 (leNat ((bs.drop 8).take 8))
  (decodeWords w1 w2).map fun i => (i, lengthOf w1)

/-- The instruction the decoder reads from an instruction whose bits are `w`, numbered as spec/opcode_table.json numbers
them; the bits above `nbits` are zero. -/
def decodeTableWord (nbits w : Nat) : Option Instr :=
  match decodeBytes (leBytes 16 (w % 2 ^ (min nbits 128))) with
  | .ok (i, _) => some i
  | .error _ => none

/-! The encoder, from the same tables. -/

def Guard.fields (g : Guard) (p : Bool) (opc : BitVec 8) (d a b c : BitVec 6) (x : BitVec 11) : Fields :=
  ⟨g.tt, g.ga, g.gb, g.gc, p, opc, d, a, b, c, x⟩

/-- A 4-bit predicate number in a 6-bit field. -/
def KReg.f (k : KReg) : BitVec 6 := k.setWidth 6
/-- A tile number in a 6-bit field. -/
def ZReg.f (z : ZReg) : BitVec 6 := z.setWidth 6

def boolX (b : Bool) (n : Nat) : BitVec 11 := if b then BitVec.ofNat 11 (2 ^ n) else 0

/-- Format I: imm17 fills C and X (R80). -/
def Guard.fieldsI (g : Guard) (opc : BitVec 8) (d a b : BitVec 6) (imm : BitVec 17) : Fields :=
  g.fields false opc d a b (imm.extractLsb' 11 6) (imm.extractLsb' 0 11)

/-- Format B: the offset fills A, B, C and X (R81). -/
def Guard.fieldsB (g : Guard) (opc : BitVec 8) (d : BitVec 6) (off : BitVec 29) : Fields :=
  g.fields false opc d (off.extractLsb' 23 6) (off.extractLsb' 17 6) (off.extractLsb' 11 6) (off.extractLsb' 0 11)

def Guard.fieldsV (g : Guard) (m : VMod) (opc : BitVec 8) (d a b c : BitVec 6) : Fields :=
  g.fields m.far opc d a b c m.x

def Guard.fieldsM (g : Guard) (m : MMod) (opc : BitVec 8) (d a b c : BitVec 6) (func : BitVec 5) : Fields :=
  g.fields m.far opc d a b c (m.x func)

/-- X of a scalar access of format M. -/
def scalarX (o : Ord) (s : Scope) (func : BitVec 5) : BitVec 11 := o.code ++ s.code ++ (0#1) ++ func

def amoFunc (w64 : Bool) : BitVec 5 := if w64 then 3 else 2

/-- The fields of an instruction's first word and its second word, where it has one. Events have none. -/
def encodeFields : Instr → Option (Fields × Option Word)
  | .nop => some (⟨0xFF, 0, 0, 0, false, 0, 0, 0, 0, 0, 0⟩, none)
  | .add g d a b => some (g.fields false 0x01 d a b 0 0, none)
  | .sub g d a b => some (g.fields false 0x02 d a b 0 0, none)
  | .and g d a b => some (g.fields false 0x03 d a b 0 0, none)
  | .or g d a b => some (g.fields false 0x04 d a b 0 0, none)
  | .xor g d a b => some (g.fields false 0x05 d a b 0 0, none)
  | .shl g d a b => some (g.fields false 0x06 d a b 0 0, none)
  | .shr g d a b => some (g.fields false 0x07 d a b 0 0, none)
  | .sra g d a b => some (g.fields false 0x08 d a b 0 0, none)
  | .mul g d a b => some (g.fields false 0x09 d a b 0 0, none)
  | .mulh g d a b => some (g.fields false 0x0A d a b 0 0, none)
  | .mulhu g d a b => some (g.fields false 0x0B d a b 0 0, none)
  | .div g d a b => some (g.fields false 0x0C d a b 0 0, none)
  | .divu g d a b => some (g.fields false 0x0D d a b 0 0, none)
  | .rem g d a b => some (g.fields false 0x0E d a b 0 0, none)
  | .remu g d a b => some (g.fields false 0x0F d a b 0 0, none)
  | .min g d a b => some (g.fields false 0x10 d a b 0 0, none)
  | .max g d a b => some (g.fields false 0x11 d a b 0 0, none)
  | .minu g d a b => some (g.fields false 0x12 d a b 0 0, none)
  | .maxu g d a b => some (g.fields false 0x13 d a b 0 0, none)
  | .clz g d a => some (g.fields false 0x14 d a 0 0 0, none)
  | .ctz g d a => some (g.fields false 0x15 d a 0 0 0, none)
  | .popc g d a => some (g.fields false 0x16 d a 0 0 0, none)
  | .ext g d a pos wm1 sx => some (g.fields false 0x17 d a pos wm1 (boolX sx 0), none)
  | .ins g d a pos wm1 => some (g.fields false 0x18 d a pos wm1 0, none)
  | .addsh g d a b sh => some (g.fields false 0x19 d a b 0 (sh.setWidth 11), none)
  | .addi g d a imm => some (g.fieldsI 0x1A d a 0 imm, none)
  | .andi g d a imm => some (g.fieldsI 0x1B d a 0 imm, none)
  | .ori g d a imm => some (g.fieldsI 0x1C d a 0 imm, none)
  | .xori g d a imm => some (g.fieldsI 0x1D d a 0 imm, none)
  | .shli g d a n => some (g.fields false 0x1E d a 0 0 (n.setWidth 11), none)
  | .shri g d a n => some (g.fields false 0x1E d a 1 0 (n.setWidth 11), none)
  | .srai g d a n => some (g.fields false 0x1E d a 2 0 (n.setWidth 11), none)
  | .li g d imm => some (g.fieldsI 0x1F d 0 0 imm, none)
  | .li64 g d imm => some (g.fields false 0xF0 d 0 0 0 0, some imm)
  | .br g off => some (g.fieldsB 0x20 0 off, none)
  | .call g d off => some (g.fieldsB 0x21 d off, none)
  | .jr g d a => some (g.fields false 0x22 d a 0 0 0, none)
  | .addpc g d off => some (g.fieldsB 0x24 d off, none)
  | .bstrip g d off => some (g.fieldsB 0x25 d off, none)
  | .cmp g c d a b => some (g.fields false 0x28 (KReg.f d) a b c.code 0, none)
  | .cmpi g c d a imm => some (g.fieldsI 0x29 (KReg.f d) a c.code imm, none)
  | .vcmp g m c d a b => some (g.fieldsV m 0x2A (KReg.f d) a b c.code, none)
  | .klog g d a b c t => some (g.fields false 0x2B (KReg.f d) (KReg.f a) (KReg.f b) (KReg.f c) (t.setWidth 11), none)
  | .kset g d a => some (g.fields false 0x2C (KReg.f d) a 0 0 0, none)
  | .ktest g t d a => some (g.fields false 0x2D d (KReg.f a) 0 0 t.code, none)
  | .kfirst g d a => some (g.fields false 0x2E d (KReg.f a) 0 0 0, none)
  | .kdead g mask => some (g.fieldsI 0x2F 0 0 0 (mask.setWidth 17), none)
  | .ktox g d a b => some (g.fields false 0x30 d (KReg.f a) b 0 0, none)
  | .kfromx g d a b => some (g.fields false 0x31 (KReg.f d) a b 0 0, none)
  | .setvl g d a t blk step =>
    some (g.fields false 0x38 d a 0 0 ((0#5) ++ BitVec.ofBool step ++ BitVec.ofBool blk ++ t.code), none)
  | .setrc g n => some (g.fields false 0x39 0 0 0 0 (BitVec.ofNat 11 n.val), none)
  | .vtag g d t blk => some (g.fields false 0x3A d 0 0 0 ((0#6) ++ BitVec.ofBool blk ++ t.code), none)
  | .mfs g d r => some (g.fields false 0x3B d 0 0 0 r.code, none)
  | .mts g r a => some (g.fields false 0x3C 0 a 0 0 r.code, none)
  | .vadd g m d a b => some (g.fieldsV m 0x40 d a b 0, none)
  | .vsub g m d a b => some (g.fieldsV m 0x41 d a b 0, none)
  | .vmul g m d a b => some (g.fieldsV m 0x42 d a b 0, none)
  | .vmulh g m d a b => some (g.fieldsV m 0x43 d a b 0, none)
  | .vfma g m d a b c => some (g.fieldsV m 0x44 d a b c, none)
  | .vfms g m d a b c => some (g.fieldsV m 0x45 d a b c, none)
  | .vfnma g m d a b c => some (g.fieldsV m 0x46 d a b c, none)
  | .vdiv g m d a b => some (g.fieldsV m 0x47 d a b 0, none)
  | .vsqrt g m d a => some (g.fieldsV m 0x48 d a 0 0, none)
  | .vrsqrt g m d a => some (g.fieldsV m 0x49 d a 0 0, none)
  | .vrcp g m d a => some (g.fieldsV m 0x4A d a 0 0, none)
  | .vexp2 g m d a => some (g.fieldsV m 0x4B d a 0 0, none)
  | .vlog2 g m d a => some (g.fieldsV m 0x4C d a 0 0, none)
  | .vmin g m d a b => some (g.fieldsV m 0x4D d a b 0, none)
  | .vmax g m d a b => some (g.fieldsV m 0x4E d a b 0, none)
  | .vabs g m d a => some (g.fieldsV m 0x4F d a 0 0, none)
  | .vneg g m d a => some (g.fieldsV m 0x50 d a 0 0, none)
  | .vadds g m d a b => some (g.fieldsV m 0x51 d a b 0, none)
  | .vsubs g m d a b => some (g.fieldsV m 0x52 d a b 0, none)
  | .vand g m d a b => some (g.fieldsV m 0x53 d a b 0, none)
  | .vor g m d a b => some (g.fieldsV m 0x54 d a b 0, none)
  | .vxor g m d a b => some (g.fieldsV m 0x55 d a b 0, none)
  | .vshl g m d a b => some (g.fieldsV m 0x56 d a b 0, none)
  | .vshr g m d a b => some (g.fieldsV m 0x57 d a b 0, none)
  | .vscale g m d a b => some (g.fieldsV m 0x5A d a b 0, none)
  | .vredsum g m d a sc => some (g.fieldsV m 0x60 d a 0 (if sc then 1 else 0), none)
  | .vredmax g m d a sc => some (g.fieldsV m 0x61 d a 0 (if sc then 1 else 0), none)
  | .vredmin g m d a sc => some (g.fieldsV m 0x62 d a 0 (if sc then 1 else 0), none)
  | .vredand g m d a sc => some (g.fieldsV m 0x63 d a 0 (if sc then 1 else 0), none)
  | .vredor g m d a sc => some (g.fieldsV m 0x64 d a 0 (if sc then 1 else 0), none)
  | .vargmax g m d a sc => some (g.fieldsV m 0x65 d a 0 (if sc then 1 else 0), none)
  | .vdot g m d a b sc => some (g.fieldsV m 0x66 d a b (if sc then 1 else 0), none)
  | .vsmax g m d a => some (g.fieldsV m 0x67 d a 0 0, none)
  | .vtopk g m d a b => some (g.fieldsV m 0x68 d a b 0, none)
  | .vcvt g m d a t blk sat => some (g.fieldsV m 0x70 d a (BitVec.ofBool sat ++ BitVec.ofBool blk ++ t.code) 0, none)
  | .vqmx g m d a t => some (g.fieldsV m 0x71 d a (t.code.setWidth 6) 0, none)
  | .vpack g m d a b => some (g.fieldsV m 0x72 d a b 0, none)
  | .vunpk g m d a hi => some (g.fieldsV m 0x73 d a (if hi then 1 else 0) 0, none)
  | .vmov g m d a => some (g.fieldsV m 0x7A d a 0 0, none)
  | .vgathr g m d a b => some (g.fieldsV m 0x74 d a b 0, none)
  | .vslideup g m d a b => some (g.fieldsV m 0x75 d a b 0, none)
  | .vslidedn g m d a b => some (g.fieldsV m 0x76 d a b 0, none)
  | .vcompress g m d a b => some (g.fieldsV m 0x77 d a (KReg.f b) 0, none)
  | .vexpand g m d a b => some (g.fieldsV m 0x78 d a (KReg.f b) 0, none)
  | .viota g m d a => some (g.fieldsV m 0x79 d (KReg.f a) 0 0, none)
  | .vtransp g m d a => some (g.fieldsV m 0x7D d a 0 0, none)
  | .vins g m d a b => some (g.fieldsV m 0x7B d a b 0, none)
  | .vextr g m d a b => some (g.fieldsV m 0x7C d a b 0, none)
  | .zopa g r d a b => some (g.fields false 0x80 (ZReg.f d) a b 0 (rneCode r ++ (0#8)), none)
  | .zopaL g r d a b => some (g.fields false 0x81 (ZReg.f d) a b 0 (rneCode r ++ (0#8)), none)
  | .zzero g d => some (g.fields false 0x82 (ZReg.f d) 0 0 0 0, none)
  | .zdrain g r zm d a b => some (g.fields false 0x83 d (ZReg.f a) b 0 (r.code ++ BitVec.ofBool zm ++ (0#7)), none)
  | .zfill g zm d a b => some (g.fields false 0x84 (ZReg.f d) a b 0 ((0#3) ++ BitVec.ofBool zm ++ (0#7)), none)
  | .zld g d a b => some (g.fields false 0x85 (ZReg.f d) a b 0 0, none)
  | .zst g d a b => some (g.fields false 0x86 (ZReg.f d) a b 0 0, none)
  | .ld g w sx o sc d a =>
    some (g.fields false 0x90 d a 0 0 (scalarX o sc ((0#1) ++ BitVec.ofBool sx ++ (0#1) ++ w.code)), none)
  | .st g w o sc d a => some (g.fields false 0x91 d a 0 0 (scalarX o sc (w.code.setWidth 5)), none)
  | .vld g m d a => some (g.fieldsM m 0x92 d a 0 0 0, none)
  | .vlds g m d a b => some (g.fieldsM m 0x93 d a b 0 0, none)
  | .vldx g m d a b => some (g.fieldsM m 0x94 d a b 0 0, none)
  | .vldff g m d a => some (g.fieldsM m 0x95 d a 0 0 0, none)
  | .vst g m d a => some (g.fieldsM m 0x96 d a 0 0 0, none)
  | .vsts g m d a b => some (g.fieldsM m 0x97 d a b 0 0, none)
  | .vstx g m d a b => some (g.fieldsM m 0x98 d a b 0 0, none)
  | .vldt g m d a => some (g.fieldsM m 0x99 d a 0 0 0, none)
  | .vldtCt g m d a => some (g.fieldsM m 0x99 d a 0 0 1, none)
  | .amoadd g w o sc d a b => some (g.fields false 0xB0 d a b 0 (scalarX o sc (amoFunc w)), none)
  | .amoand g w o sc d a b => some (g.fields false 0xB1 d a b 0 (scalarX o sc (amoFunc w)), none)
  | .amoor g w o sc d a b => some (g.fields false 0xB2 d a b 0 (scalarX o sc (amoFunc w)), none)
  | .amoxor g w o sc d a b => some (g.fields false 0xB3 d a b 0 (scalarX o sc (amoFunc w)), none)
  | .amomin g w o sc d a b => some (g.fields false 0xB4 d a b 0 (scalarX o sc (amoFunc w)), none)
  | .amomax g w o sc d a b => some (g.fields false 0xB5 d a b 0 (scalarX o sc (amoFunc w)), none)
  | .amoswp g w o sc d a b => some (g.fields false 0xB6 d a b 0 (scalarX o sc (amoFunc w)), none)
  | .amocas g w o sc d a b c => some (g.fields false 0xB7 d a b c (scalarX o sc (amoFunc w)), none)
  | .amofadd g o sc d a b => some (g.fields false 0xB8 d a b 0 (scalarX o sc 2), none)
  | .vamoadd g m ret d a b c => some (g.fieldsM m 0xB9 d a b c (if ret then 16 else 0), none)
  | .vamofadd g m ret d a b c => some (g.fieldsM m 0xBA d a b c (if ret then 16 else 0), none)
  | .vamomin g m ret d a b c => some (g.fieldsM m 0xBB d a b c (if ret then 16 else 0), none)
  | .vamomax g m ret d a b c => some (g.fieldsM m 0xBC d a b c (if ret then 16 else 0), none)
  | .fence g o sc => some (g.fields false 0xD8 0 0 0 0 (scalarX o sc 0), none)
  | .fenceSv g => some (g.fields false 0xD9 0 0 0 0 0, none)
  | .fenceVs g => some (g.fields false 0xD9 0 0 0 0 1, none)
  | .fenceVv g => some (g.fields false 0xD9 0 0 0 0 2, none)
  | .fenceStk g mask => some (g.fieldsI 0xDA 0 0 0 (mask.setWidth 17), none)
  | .fredadd g el t a b => some (g.fields true 0xC0 0 a b 0 ((0#6) ++ BitVec.ofBool el ++ t.code), none)
  | .fredmax g el t a b => some (g.fields true 0xC1 0 a b 0 ((0#6) ++ BitVec.ofBool el ++ t.code), none)
  | .fscadd g r a b c => some (g.fields true 0xC2 0 a b c (rneCode r ++ (0#8)), none)
  | .fembag g r wgt d a b c => some (g.fields true 0xC3 d a b c (rneCode r ++ (0#7) ++ BitVec.ofBool wgt), none)
  | .fatt g r zm acc d a b =>
    some (g.fields true 0xC4 d a b 0 (rneCode r ++ BitVec.ofBool zm ++ (0#6) ++ BitVec.ofBool acc), none)
  | .fmerge g r zm norm d a =>
    some (g.fields true 0xC5 d a 0 0 (rneCode r ++ BitVec.ofBool zm ++ (0#6) ++ BitVec.ofBool norm), none)
  | .kvput g o sc d a b => some (g.fields false 0xC6 d a b 0 (scalarX o sc 0), none)
  | .kvinv g o sc a b => some (g.fields false 0xC7 0 a b 0 (scalarX o sc 0), none)
  | .ctw g a b => some (g.fields false 0xE4 0 a b 0 0, none)
  | .ctswap g => some (g.fields false 0xE5 0 0 0 0 0, none)
  | .binit g a b => some (g.fields false 0xD0 0 a b 0 0, none)
  | .bexp g a b n => some (g.fields false 0xD1 0 a b 0 (n.setWidth 11), none)
  | .barr g a => some (g.fields false 0xD2 0 a 0 0 0, none)
  | .barrd g a => some (g.fields false 0xD3 0 a 0 0 0, none)
  | .bwait g a n => some (g.fields false 0xD4 0 a 0 0 (n.setWidth 11), none)
  | .btest g d a n => some (g.fields false 0xD5 d a 0 0 (n.setWidth 11), none)
  | .qfence g mask => some (g.fields false 0xDB 0 0 0 0 (mask.setWidth 11), none)
  | .ecpy g e d a b c w => some (g.fields false 0xF1 d a b c e.x, some w.toWord)
  | .emcast g e d a b c w => some (g.fields false 0xF2 d a b c e.x, some w.toWord)
  | .egath g e d a b c w => some (g.fields false 0xF3 d a b c e.x, some w.toWord)
  | .escat g e d a b c w => some (g.fields false 0xF4 d a b c e.x, some w.toWord)
  | .efill g e d a b c w => some (g.fields false 0xF5 d a b c e.x, some w.toWord)
  | .trap g n => some (g.fieldsI 0xE0 0 0 0 (n.setWidth 17), none)
  | .eret g => some (g.fields false 0xE1 0 0 0 0 0, none)
  | .bkpt g n => some (g.fieldsI 0xE2 0 0 0 (n.setWidth 17), none)
  | .qsub g a b => some (g.fields false 0xE6 0 a b 0 0, none)
  | .qsig g a b => some (g.fields false 0xE7 0 a b 0 0, none)
  | .hrput g a b => some (g.fields false 0xE8 0 a b 0 0, none)
  | .klaunch g d a => some (g.fields false 0xE9 d a 0 0 0, none)
  | .hyield g => some (g.fields false 0xEA 0 0 0 0 0, none)
  | .hexit g => some (g.fields false 0xEB 0 0 0 0 0, none)
  | _ => none

/-- The words of an instruction, the first word first; an event has none. -/
def encode (i : Instr) : List Word :=
  match encodeFields i with
  | some (f, some w2) => [f.toWord, w2]
  | some (f, none) => [f.toWord]
  | none => []

/-- The bytes of an instruction as memory holds them (R2, R67). -/
def encodeBytes (i : Instr) : List Byte := (encode i).flatMap fun w => leBytes 8 w.toNat

end Sys2Proof
end

