-- ==== Sys2Proof/Machine/Bits.lean ====
section
/-! DEFINITION. Bit strings held as naturals: bit 0 is the least significant bit of byte 0 (R2, R34). Registers of many
bytes (vector and far registers, tiles, predicates) are such strings. -/

namespace Sys2Proof.Machine

/-- Bits [pos + w - 1 : pos] of a bit string. -/
def bits (x pos w : Nat) : Nat := (x >>> pos) % 2 ^ w

/-- The string with bits [pos + w - 1 : pos] replaced by the low `w` bits of `v`. -/
def putBits (x pos w v : Nat) : Nat := x ^^^ ((bits x pos w ^^^ v % 2 ^ w) <<< pos)

/-- One bit of a string. -/
def bitAt (x pos : Nat) : Bool := bits x pos 1 == 1

/-- Two's-complement value of a `w`-bit pattern. -/
def sextInt (w v : Nat) : Int := if 2 ^ (w - 1) ≤ v then (v : Int) - (2 ^ w : Nat) else v

/-- An integer modulo 2^w. -/
def wrapInt (w : Nat) (i : Int) : Nat := (i % (2 ^ w : Nat)).toNat

/-- The `n` bytes of a string from byte `pos` on. -/
def bytesOf (x pos n : Nat) : List Byte := leBytes n (x >>> (8 * pos))

/-- The string with the bytes `bs` put at byte `pos`. -/
def putBytes (x pos : Nat) (bs : List Byte) : Nat := putBits x (8 * pos) (8 * bs.length) (leNat bs)

/-- Least `n < bound` with `p n`, counted from `i`. -/
def firstFrom (p : Nat → Bool) : Nat → Nat → Option Nat
  | 0, _ => none
  | k + 1, i => if p i then some i else firstFrom p k (i + 1)

/-- Number of `1` bits among the low `w`. -/
def popcount (x : Nat) : Nat → Nat
  | 0 => 0
  | w + 1 => popcount x w + (if bitAt x w then 1 else 0)

/-- Number of leading zero bits of a `w`-bit value. -/
def leadingZeros (x w : Nat) : Nat := if x = 0 then w else w - 1 - Nat.log2 x

/-- Number of trailing zero bits of a `w`-bit value. -/
def trailingZeros (x w : Nat) : Nat := (firstFrom (fun i => bitAt x i) w 0).getD w

/-- `n` copies of the `w`-bit pattern `v`. -/
def repeatBits (w v : Nat) : Nat → Nat
  | 0 => 0
  | n + 1 => repeatBits w v n <<< w ||| v

/-- A string of `n` ones. -/
def onesN (n : Nat) : Nat := 2 ^ n - 1

/-- `a` divided by `b`, rounded up. -/
def ceilDiv (a b : Nat) : Nat := (a + b - 1) / b

/-- `a` rounded down to a multiple of `b`. -/
def alignDown (a b : Nat) : Nat := a / b * b

/-- Fold over the numbers below `n`, from 0 up. -/
def foldUpTo {α : Type} (n : Nat) (a : α) (f : α → Nat → α) : α := (List.range n).foldl f a

end Sys2Proof.Machine
end

