-- ==== Sys2Proof/Machine/Flags.lean ====
section
/-! DEFINITION. The exception flags and how operations collect them (R48, R58, R59, R61). Which flag an operation raises is
computed with its result, in Num.lean and NumOps.lean. -/

namespace Sys2Proof.Machine

/-- The flags an operation raises: FFLAGS (R58) and IFLAGS (R59). -/
structure Flags where
  ff : BitVec 5
  fi : BitVec 2
  deriving DecidableEq, Repr

def Flags.none : Flags := ⟨0, 0⟩
def Flags.nv : Flags := ⟨16, 0⟩
def Flags.dz : Flags := ⟨8, 0⟩
def Flags.ofl : Flags := ⟨4, 0⟩
def Flags.uf : Flags := ⟨2, 0⟩
def Flags.nx : Flags := ⟨1, 0⟩
def Flags.isat : Flags := ⟨0, 2⟩
def Flags.idz : Flags := ⟨0, 1⟩
/-- OF and NX, which an overflow sets (R48). -/
def Flags.overflow : Flags := ⟨5, 0⟩

/-- Flags are sticky: they are ORed (R61). -/
def Flags.or (a b : Flags) : Flags := ⟨a.ff ||| b.ff, a.fi ||| b.fi⟩

def Flags.when (c : Bool) (f : Flags) : Flags := if c then f else .none

end Sys2Proof.Machine
end

