-- ==== Sys2Proof/Machine/Num.lean ====
section
/-! DEFINITION. Element formats, exact values and rounding (R32 to R50): what a code means and how an exact value becomes a
code. -/

namespace Sys2Proof.Machine

/-- Width of a format in bits (R32). -/
def fmtWidth : Fmt → Nat
  | .s4 | .n4 | .e2m1 => 4
  | .s8 | .n8 | .e4m3 | .e5m2 => 8
  | .s16 | .n16 | .bf16 | .fp16 => 16
  | .s32 | .n32 | .fp32 => 32
  | .s64 | .n64 => 64

/-- The three kinds of format (R32). -/
inductive FmtKind where
  | signed | unsigned | float
  deriving DecidableEq, Repr

def fmtKind : Fmt → FmtKind
  | .s4 | .s8 | .s16 | .s32 | .s64 => .signed
  | .n4 | .n8 | .n16 | .n32 | .n64 => .unsigned
  | _ => .float

def fmtIsFloat (f : Fmt) : Bool := fmtKind f == .float

/-- Fraction bits m of a floating-point format (R37). -/
def mantBits : Fmt → Nat
  | .fp32 => 23 | .fp16 => 10 | .bf16 => 7 | .e5m2 => 2 | .e4m3 => 3 | _ => 1

/-- Exponent bits (R37). -/
def expBits : Fmt → Nat
  | .fp32 | .bf16 => 8 | .fp16 | .e5m2 => 5 | .e4m3 => 4 | _ => 2

/-- Bias (R37). -/
def expBias : Fmt → Nat
  | .fp32 | .bf16 => 127 | .fp16 | .e5m2 => 15 | .e4m3 => 7 | _ => 1

/-- Formats with infinities and NaN in the top exponent (R37). -/
def ieeeLike : Fmt → Bool
  | .fp32 | .fp16 | .bf16 | .e5m2 => true
  | _ => false

/-- Code of the largest finite magnitude (R37). -/
def maxCode (f : Fmt) : Nat :=
  if ieeeLike f then ((2 ^ expBits f - 1) <<< mantBits f) - 1
  else match f with
    | .e4m3 => 0x7E
    | _ => 0x7

/-- Code of the infinity, for formats that have one. -/
def infCode (f : Fmt) : Nat := (2 ^ expBits f - 1) <<< mantBits f

/-- Canonical NaN (R37); E2M1 has none and takes +0 (R48). -/
def nanCode : Fmt → Nat
  | .fp32 => 0x7FC00000 | .fp16 => 0x7E00 | .bf16 => 0x7FC0 | .e5m2 => 0x7E | .e4m3 => 0x7F | _ => 0

/-- The sign bit of a format, set or not. -/
def signBit (f : Fmt) (neg : Bool) : Nat := if neg then 2 ^ (fmtWidth f - 1) else 0

/-- An exact value: a NaN, an infinity, or (−1)^neg × m × 2^e. A zero keeps its sign. -/
inductive FVal where
  | nan (signalling : Bool)
  | inf (neg : Bool)
  | fin (neg : Bool) (m : Nat) (e : Int)
  deriving DecidableEq, Repr

def FVal.zero (neg : Bool) : FVal := .fin neg 0 0
def FVal.one : FVal := .fin false 1 0
def FVal.qnan : FVal := .nan false

def FVal.isNan : FVal → Bool
  | .nan _ => true
  | _ => false

def FVal.isSnan : FVal → Bool
  | .nan s => s
  | _ => false

def FVal.isZero : FVal → Bool
  | .fin _ m _ => m == 0
  | _ => false

def FVal.isInf : FVal → Bool
  | .inf _ => true
  | _ => false

/-- The sign of a value that is not a NaN. -/
def FVal.sign : FVal → Bool
  | .nan _ => false
  | .inf n => n
  | .fin n _ _ => n

def FVal.negate : FVal → FVal
  | .nan s => .nan s
  | .inf n => .inf (!n)
  | .fin n m e => .fin (!n) m e

def FVal.abs : FVal → FVal
  | .nan s => .nan s
  | .inf _ => .inf false
  | .fin _ m e => .fin false m e

/-- The value times 2^k, exactly. -/
def FVal.scale (v : FVal) (k : Int) : FVal :=
  match v with
  | .fin n m e => .fin n m (e + k)
  | v => v

/-- The integer `i` as an exact value. -/
def FVal.ofInt (i : Int) : FVal := .fin (decide (i < 0)) i.natAbs 0

/-- Value of a floating-point code (R37, R38, R41). -/
def decodeFloat (f : Fmt) (c : Nat) : FVal :=
  let mb := mantBits f
  let neg := bitAt c (fmtWidth f - 1)
  let e := bits c mb (expBits f)
  let m := bits c 0 mb
  if ieeeLike f && e == 2 ^ expBits f - 1 then
    if m = 0 then .inf neg else .nan (!bitAt m (mb - 1))
  else if f = .e4m3 && e == 15 && m == 7 then .nan false
  else if e = 0 then .fin neg m (1 - (expBias f : Int) - mb)
  else .fin neg (2 ^ mb + m) ((e : Int) - expBias f - mb)

/-- Integer a code of an integer format means (R35). -/
def decodeInt (f : Fmt) (c : Nat) : Int :=
  match fmtKind f with
  | .signed => sextInt (fmtWidth f) c
  | _ => c

/-- The exact value of a code in its format. -/
def decodeFmt (f : Fmt) (c : Nat) : FVal :=
  if fmtIsFloat f then decodeFloat f c else .ofInt (decodeInt f c)

/-- `mxdecode(c, S)` (R40). -/
def mxdecode (f : Fmt) (c s : Nat) : FVal :=
  match decodeFloat f c with
  | .nan sg => .nan sg
  | .inf n => if s = 255 then .nan false else .inf n
  | .fin n m e => if s = 255 then .nan false else .fin n m (e + s - 127)

/-- The rounding modes (R45, R46). -/
inductive RMode where
  | rne | rz | ru | rd | sr
  deriving DecidableEq, Repr

/-- FRM.MODE codes (R60); 000, 110 and 111 are never held. -/
def RMode.ofCode (c : BitVec 3) : Option RMode :=
  match c.toNat with
  | 1 => some .rne | 2 => some .rz | 3 => some .ru | 4 => some .rd | 5 => some .sr | _ => none

/-- A non-zero real to be rounded: (−1)^neg × (m + δ) × 2^e, with 0 < δ < 1 when `more` holds and δ = 0 otherwise. -/
structure Real where
  neg : Bool
  m : Nat
  e : Int
  more : Bool
  deriving DecidableEq, Repr

/-- The quotient of the rounding of (m + δ) × 2^e to a multiple of 2^q, and whether it is inexact (R46, R47). `draw` is
the 32-bit draw of R47. -/
def roundMag (x : Real) (q : Int) (mode : RMode) (draw : Nat) : Nat × Bool :=
  let up := (x.e - q).toNat
  let down := (q - x.e).toNat
  let t := (x.m <<< up) >>> down
  let den := 2 ^ down
  let rem := x.m % den
  let inexact := rem != 0 || x.more
  let inc := match mode with
    | .rne => decide (den < 2 * rem) || (decide (den = 2 * rem) && (x.more || t % 2 == 1))
    | .rz => false
    | .ru => inexact && !x.neg
    | .rd => inexact && x.neg
    | .sr => inexact && decide (2 ^ 32 ≤ (rem <<< 32) / den + draw)
  (if inc then t + 1 else t, inexact)

/-- The overflow result of a format under a mode, and its flags (R48). `toggle` selects the .SAT or .NSAT row. -/
def overflowTo (f : Fmt) (mode : RMode) (neg toggle : Bool) : Nat × Flags :=
  let code :=
    match f with
    | .e4m3 => if toggle then 0x7F else 0x7E + signBit f neg
    | .e2m1 => 0x7 + signBit f neg
    | _ =>
      let toInf := match mode with
        | .rne | .sr => true
        | .rz => false
        | .ru => !neg
        | .rd => neg
      if toInf && !toggle then infCode f + signBit f neg else maxCode f + signBit f neg
  (code, .overflow)

/-- An infinite operand delivered into a format (R48). -/
def deliverInf (f : Fmt) (neg toggle : Bool) : Nat × Flags :=
  match f with
  | .e4m3 => if toggle then (0x7F, .nv) else (0x7E + signBit f neg, .nv)
  | .e2m1 => (0x7 + signBit f neg, .nv)
  | _ => if toggle then (maxCode f + signBit f neg, .nv) else (infCode f + signBit f neg, .none)

/-- An exact infinity that an operation on finite operands gives (R42): the overflow rule of the format applies where it
has no infinity. -/
def exactInf (f : Fmt) (mode : RMode) (neg : Bool) : Nat × Flags :=
  if ieeeLike f then (infCode f + signBit f neg, .none) else overflowTo f mode neg false

/-- A NaN result (R41, R48): canonical NaN; for E2M1 code +0 with NV. -/
def deliverNan (f : Fmt) : Nat × Flags :=
  if f = .e2m1 then (0, .nv) else (nanCode f, .none)

/-- Smallest normal exponent of a format. -/
def expMin (f : Fmt) : Int := 1 - (expBias f : Int)

/-- Exponent of the leading bit of a non-zero real. -/
def Real.lead (x : Real) : Int := x.e + Nat.log2 x.m

/-- x is tiny after rounding (R46). -/
def tinyAfter (x : Real) (f : Fmt) (mode : RMode) : Bool :=
  let q := x.lead - mantBits f
  let t := (roundMag x q (if mode = .sr then .rne else mode) 0).1
  decide (x.lead + 1 < expMin f) || (decide (x.lead + 1 = expMin f) && decide (t < 2 ^ (mantBits f + 1)))

/-- `round(x, F, m)` of a non-zero real: the code and the flags (R46 to R48). `toggle` selects the .SAT or .NSAT row of
R48, `clamp` the clamp of R50 and R189. -/
def roundReal (x : Real) (f : Fmt) (mode : RMode) (draw : Nat) (toggle clamp : Bool) : Nat × Flags :=
  let qmin := expMin f - mantBits f
  let q := max (x.lead - mantBits f) qmin
  let (t, inexact) := roundMag x q mode draw
  let mag := ((q - qmin).toNat <<< mantBits f) + t
  if maxCode f < mag then
    if clamp then (maxCode f + signBit f x.neg, .nx) else overflowTo f mode x.neg toggle
  else
    (mag + signBit f x.neg,
      (Flags.when inexact .nx).or (Flags.when (inexact && tinyAfter x f mode) .uf))

/-- `round(v, F, m)` of any exact value into a floating-point format. -/
def roundVal (v : FVal) (f : Fmt) (mode : RMode) (draw : Nat) : Nat × Flags :=
  match v with
  | .nan _ => deliverNan f
  | .inf n => deliverInf f n false
  | .fin n m e => if m = 0 then (signBit f n, .none) else roundReal ⟨n, m, e, false⟩ f mode draw false false

/-- `sat(x, F)` (R36). -/
def satInt (f : Fmt) (i : Int) : Nat × Flags :=
  let w := fmtWidth f
  let lo : Int := if fmtKind f = .signed then -(2 ^ (w - 1) : Nat) else 0
  let hi : Int := if fmtKind f = .signed then (2 ^ (w - 1) : Nat) - 1 else (2 ^ w : Nat) - 1
  if i < lo then (wrapInt w lo, .isat) else if hi < i then (wrapInt w hi, .isat) else (wrapInt w i, .none)

/-- Conversion of an exact value to an integer format (R48, integer row): `sat` of R36, so SAT is set beside NV where it changes
the value. DEDUCED (log 50). -/
def toIntFmt (v : FVal) (f : Fmt) (mode : RMode) (draw : Nat) : Nat × Flags :=
  let hi : Int := if fmtKind f = .signed then (2 ^ (fmtWidth f - 1) : Nat) - 1 else (2 ^ fmtWidth f : Nat) - 1
  let lo : Int := if fmtKind f = .signed then -(2 ^ (fmtWidth f - 1) : Nat) else 0
  match v with
  | .nan _ => (0, .nv)
  | .inf n => (wrapInt (fmtWidth f) (if n then lo else hi), Flags.nv.or .isat)
  | .fin n m e =>
    let (t, inexact) := roundMag ⟨n, m, e, false⟩ 0 mode draw
    let i : Int := if n then -(t : Int) else t
    if i < lo then (wrapInt (fmtWidth f) lo, Flags.nv.or .isat)
    else if hi < i then (wrapInt (fmtWidth f) hi, Flags.nv.or .isat)
    else (wrapInt (fmtWidth f) i, Flags.when inexact .nx)

/-- Widening map of R171. -/
def wideFmt : Fmt → Option Fmt
  | .s4 => some .s8 | .s8 => some .s16 | .s16 => some .s32 | .s32 => some .s64
  | .n4 => some .n8 | .n8 => some .n16 | .n16 => some .n32 | .n32 => some .n64
  | .bf16 | .fp16 => some .fp32 | .e2m1 => some .e4m3 | .e4m3 => some .bf16 | .e5m2 => some .fp16
  | .s64 | .n64 | .fp32 => none

/-- Narrowing map of R191. -/
def halfFmt : Fmt → Option Fmt
  | .s8 => some .s4 | .s16 => some .s8 | .s32 => some .s16 | .s64 => some .s32
  | .n8 => some .n4 | .n16 => some .n8 | .n32 => some .n16 | .n64 => some .n32
  | .fp32 => some .bf16 | .fp16 => some .e5m2 | .bf16 => some .e4m3 | .e4m3 => some .e2m1
  | .s4 | .n4 | .e5m2 | .e2m1 => none

/-- The Isanas counter mixer (R51). -/
def icm (seed ctr : Word) (row elem : Nat) : BitVec 32 :=
  let h := seed ^^^ (ctr * 0x9E3779B97F4A7C15#64)
  let h := h ^^^ BitVec.ofNat 64 (row * 2 ^ 32 + elem)
  let h := h ^^^ (h >>> 33)
  let h := h * 0x8F3A5C6E91D72B4D#64
  let h := h ^^^ (h >>> 29)
  let h := h * 0xC2B6E5713A9F0D87#64
  let h := h ^^^ (h >>> 32)
  let h := h * 0xA5E91C4B7D03F6B1#64
  let h := h ^^^ (h >>> 31)
  h.extractLsb' 32 32

end Sys2Proof.Machine
end

