-- ==== Sys2Proof/Machine/NumOps.lean ====
section
/-! DEFINITION. Operations on exact values: sums, products, quotients, the one-source functions, order, reduction trees and
block quantisation (R36, R42, R43, R49 to R57, R175 to R185). -/

namespace Sys2Proof.Machine

/-- A value and the flags its making raised. -/
abbrev Flagged (α : Type) := α × Flags

/-- `a` aligned to exponent `e`, as an integer. -/
def alignInt (neg : Bool) (m : Nat) (ev e : Int) : Int :=
  let k := m <<< (ev - e).toNat
  if neg then -(k : Int) else k

/-- Least exponent among the non-zero finite terms. -/
def minExp : List FVal → Int → Int
  | [], e => e
  | .fin _ m ev :: r, e => minExp r (if m = 0 then e else min ev e)
  | _ :: r, e => minExp r e

/-- Sum of the finite terms at exponent `e`. -/
def sumAt (e : Int) : List FVal → Int
  | [] => 0
  | .fin n m ev :: r => (if m = 0 then 0 else alignInt n m ev e) + sumAt e r
  | _ :: r => sumAt e r

/-- Zero of a given sign, as a term of a sum. -/
def isZeroSigned (neg : Bool) : FVal → Bool
  | .fin n m _ => m == 0 && n == neg
  | _ => false

/-- Infinities of both signs among the terms: ∞ − ∞ (R42, R57). -/
def infClash (ts : List FVal) : Bool := ts.any (fun t => t == .inf true) && ts.any (fun t => t == .inf false)

/-- Exact sum of terms (R42): NaN, infinities and the sign of a zero sum. An invalid combination sets NV beside a quiet NaN
too (R57). -/
def sumVals (ts : List FVal) (mode : RMode) : Flagged FVal :=
  if ts.any FVal.isNan then (.qnan, Flags.when (ts.any FVal.isSnan || infClash ts) .nv)
  else if ts.any FVal.isInf then
    if infClash ts then (.qnan, .nv)
    else (.inf (ts.any (fun t => t == .inf true)), .none)
  else
    let e := minExp ts 2000
    let i := sumAt e ts
    if i = 0 then
      (.zero (ts.all (isZeroSigned true) || (mode == .rd && !ts.all (isZeroSigned false))), .none)
    else (.fin (decide (i < 0)) i.natAbs e, .none)

/-- Exact product (R42): 0 × ∞ is invalid. -/
def mulVals (a b : FVal) : Flagged FVal :=
  let sn := Flags.when (a.isSnan || b.isSnan) .nv
  match a, b with
  | .nan _, _ => (.qnan, sn)
  | _, .nan _ => (.qnan, sn)
  | .inf x, .inf y => (.inf (x != y), .none)
  | .inf x, .fin y m _ => if m = 0 then (.qnan, .nv) else (.inf (x != y), .none)
  | .fin x m _, .inf y => if m = 0 then (.qnan, .nv) else (.inf (x != y), .none)
  | .fin x m e, .fin y n f => (.fin (x != y) (m * n) (e + f), .none)

/-- Round a flagged value into a format, keeping the flags. -/
def roundF (v : Flagged FVal) (f : Fmt) (mode : RMode) (draw : Nat) : Flagged Nat :=
  let (c, g) := roundVal v.1 f mode draw
  (c, v.2.or g)

/-- Floating-point a + b (R174). -/
def addF (a b : FVal) (f : Fmt) (mode : RMode) (draw : Nat) : Flagged Nat := roundF (sumVals [a, b] mode) f mode draw

/-- Floating-point a × b. -/
def mulF (a b : FVal) (f : Fmt) (mode : RMode) (draw : Nat) : Flagged Nat := roundF (mulVals a b) f mode draw

/-- Floating-point a × b + c, formed exactly and rounded once (R49). 0 × ∞ sets NV beside a quiet-NaN addend too. DESIGN
CHOICE (log 50). -/
def fmaF (a b c : FVal) (f : Fmt) (mode : RMode) (draw : Nat) : Flagged Nat :=
  let (p, g) := mulVals a b
  let (s, h) := sumVals [p, c] mode
  roundF (s, g.or h) f mode draw

/-- Quotient of two non-zero magnitudes, to more bits than any rounding reads. -/
def divReal (neg : Bool) (ma : Nat) (ea : Int) (mb : Nat) (eb : Int) : Real :=
  let k := 96 + Nat.log2 mb
  ⟨neg, (ma <<< k) / mb, ea - eb - k, (ma <<< k) % mb != 0⟩

/-- Floating-point a / b (R42, R175). -/
def divF (a b : FVal) (f : Fmt) (mode : RMode) (draw : Nat) : Flagged Nat :=
  let sn := Flags.when (a.isSnan || b.isSnan) .nv
  let bad (g : Flags) : Flagged Nat := let (c, h) := deliverNan f; (c, g.or h)
  match a, b with
  | .nan _, _ => bad sn
  | _, .nan _ => bad sn
  | .inf _, .inf _ => bad .nv
  | .inf x, .fin y _ _ => deliverInf f (x != y) false
  | .fin x _ _, .inf y => (signBit f (x != y), .none)
  | .fin x m e, .fin y n g =>
    if n = 0 then
      if m = 0 then bad .nv
      else let (c, h) := exactInf f mode (x != y); (c, Flags.dz.or h)
    else if m = 0 then (signBit f (x != y), .none)
    else roundReal (divReal (x != y) m e n g) f mode draw false false

/-- Floor of the square root, one bit at a time. -/
def isqrtFrom (n : Nat) : Nat → Nat → Nat
  | 0, acc => acc
  | k + 1, acc => if (acc + 2 ^ k) * (acc + 2 ^ k) ≤ n then isqrtFrom n k (acc + 2 ^ k) else isqrtFrom n k acc

def isqrt (n : Nat) : Nat := isqrtFrom n (Nat.log2 n / 2 + 1) 0

/-- √(m × 2^e). -/
def sqrtReal (m : Nat) (e : Int) : Real :=
  let k := 160 + (e % 2).toNat
  let n := m <<< k
  ⟨false, isqrt n, (e - k) / 2, isqrt n * isqrt n != n⟩

/-- 1 / √(m × 2^e). -/
def rsqrtReal (m : Nat) (e : Int) : Real :=
  let k0 := 200 + 2 * Nat.log2 m
  let k := k0 + (((k0 : Int) + e) % 2).toNat
  let n := 2 ^ k / m
  ⟨false, isqrt n, (-(k : Int) - e) / 2, isqrt n * isqrt n != n || 2 ^ k % m != 0⟩

/-- floor(ln 2 × 2^256). -/
def ln2Fixed : Nat := 0xb17217f7d1cf79abc9e3b39803f2f6af40f343267298b62d8a0d175b8baafa2b

/-- Terms of the exponential series of `t` (256 fraction bits), `k` of them from index `i` on. -/
def expSeries (t : Nat) : Nat → Nat → Nat → Nat
  | 0, _, _ => 0
  | k + 1, i, term => term + expSeries t k (i + 1) (((term * t) >>> 256) / (i + 1))

/-- Terms of the inverse hyperbolic tangent series of `z`, with z² = `z2` (256 fraction bits). -/
def atanhSeries (z2 : Nat) : Nat → Nat → Nat → Nat
  | 0, _, _ => 0
  | k + 1, i, pow => pow / (2 * i + 1) + atanhSeries z2 k (i + 1) ((pow * z2) >>> 256)

/-- Floor of m × 2^e with its sign. -/
def floorInt (neg : Bool) (m : Nat) (e : Int) : Int :=
  let t : Int := ((m <<< e.toNat) >>> (-e).toNat : Nat)
  if neg then (if m % 2 ^ (-e).toNat = 0 then -t else -t - 1) else t

/-- 2^x for a finite x. UNVERIFIED (log 10): 256 fraction bits decide every rounding. -/
def exp2Real (neg : Bool) (m : Nat) (e : Int) : Real :=
  let k := (-e).toNat
  if m = 0 then ⟨false, 1, 0, false⟩
  else if 12 < (Nat.log2 m : Int) + e then (if neg then ⟨false, 1, -5000, true⟩ else ⟨false, 1, 5000, true⟩)
  else
    let n := floorInt neg m e
    let r := m % 2 ^ k
    if r = 0 then ⟨false, 1, n, false⟩
    else
      let f := if neg then 2 ^ k - r else r
      let fixed := (f <<< 256) >>> k
      ⟨false, expSeries ((fixed * ln2Fixed) >>> 256) 64 0 (2 ^ 256), n - 256, true⟩

/-- log2 of m × 2^e with m ≠ 0; `none` when it is zero. UNVERIFIED (log 10): as `exp2Real`. -/
def log2Real (m : Nat) (e : Int) : Option Real :=
  let l := Nat.log2 m
  let i := e + l
  if m = 2 ^ l then (if i = 0 then none else some ⟨decide (i < 0), i.natAbs, 0, false⟩)
  else
    let z := ((m - 2 ^ l) <<< 256) / (m + 2 ^ l)
    let s := atanhSeries ((z * z) >>> 256) 100 0 z
    let t : Int := i * (2 ^ 256 : Nat) + (((2 * s) <<< 256) / ln2Fixed : Nat)
    some ⟨decide (t < 0), t.natAbs, -256, true⟩

/-- The one-source float functions (R179). -/
inductive Fn1 where
  | sqrt | rsqrt | rcp | exp2 | log2
  deriving DecidableEq, Repr

/-- R179: value and special operands. -/
def fn1F (fn : Fn1) (a : FVal) (f : Fmt) (mode : RMode) (draw : Nat) : Flagged Nat :=
  let bad (g : Flags) : Flagged Nat := let (c, h) := deliverNan f; (c, g.or h)
  let inf (neg : Bool) (g : Flags) : Flagged Nat := let (c, h) := exactInf f mode neg; (c, g.or h)
  let rr (x : Real) : Flagged Nat := roundReal x f mode draw false false
  match a with
  | .nan s => bad (Flags.when s .nv)
  | .inf n =>
    match fn with
    | .sqrt | .log2 => if n then bad .nv else deliverInf f false false
    | .rsqrt => if n then bad .nv else (0, .none)
    | .rcp => (signBit f n, .none)
    | .exp2 => if n then (0, .none) else deliverInf f false false
  | .fin n m e =>
    if m = 0 then
      match fn with
      | .sqrt => (signBit f n, .none)
      | .rsqrt | .rcp => inf n .dz
      | .exp2 => roundReal ⟨false, 1, 0, false⟩ f mode draw false false
      | .log2 => inf true .dz
    else
      match fn with
      | .sqrt => if n then bad .nv else rr (sqrtReal m e)
      | .rsqrt => if n then bad .nv else rr (rsqrtReal m e)
      | .rcp => rr (divReal n 1 0 m e)
      | .exp2 => rr (exp2Real n m e)
      | .log2 =>
        if n then bad .nv
        else match log2Real m e with
          | none => (0, .none)
          | some x => rr x

/-- Order key: NaN below everything when ranked (R184), then −∞, finite values with −0 below +0, +∞. -/
def rankLt (a b : FVal) : Bool :=
  match a, b with
  | .nan _, .nan _ => false
  | .nan _, _ => true
  | _, .nan _ => false
  | .inf x, .inf y => x && !y
  | .inf x, .fin _ _ _ => x
  | .fin _ _ _, .inf y => !y
  | .fin x m e, .fin y n f =>
    if m = 0 && n = 0 then x && !y
    else
      let k := min (if m = 0 then f else e) (if n = 0 then e else f)
      decide (alignInt x m (if m = 0 then k else e) k < alignInt y n (if n = 0 then k else f) k)

/-- Minimum and maximum of R43. -/
def minmaxVals (wantMax : Bool) (a b : FVal) : Flagged FVal :=
  let g := Flags.when (a.isSnan || b.isSnan) .nv
  if a.isNan && b.isNan then (.qnan, g)
  else if a.isNan then (b, g)
  else if b.isNan then (a, g)
  else if wantMax then (if rankLt a b then b else a, g)
  else (if rankLt b a then b else a, g)

/-- Less-than and equality with −0 equal to +0, on values that are not NaN (R85). -/
def valEq (a b : FVal) : Bool :=
  (a.isZero && b.isZero) || (!rankLt a b && !rankLt b a)

def valLt (a b : FVal) : Bool := !(a.isZero && b.isZero) && rankLt a b

/-- A condition on two exact values (R85). -/
def condVals (c : Cond) (a b : FVal) : Bool :=
  let un := a.isNan || b.isNan
  match c with
  | .eq => !un && valEq a b
  | .ne => un || !valEq a b
  | .lt | .ltu => !un && valLt a b
  | .ge | .geu => !un && !valLt a b
  | .le | .leu => !un && !valLt b a
  | .gt | .gtu => !un && valLt b a
  | .un => un
  | .ord => !un

/-- The reduction operations (R55, R56). -/
inductive RedOp where
  | sum | max | min | and | or
  deriving DecidableEq, Repr

/-- Identity of a floating-point reduction (R56, R183). -/
def identityF (op : RedOp) (f : Fmt) : FVal :=
  let lim : FVal := match f with
    | .e4m3 => .fin false 7 6
    | .e2m1 => .fin false 3 1
    | _ => .inf false
  match op with
  | .max => lim.negate
  | .min => lim
  | _ => .zero true

/-- Identity of an integer reduction (R56). -/
def identityI (op : RedOp) (f : Fmt) : Int :=
  let w := fmtWidth f
  match op, fmtKind f with
  | .max, .signed => -(2 ^ (w - 1) : Nat)
  | .min, .signed => (2 ^ (w - 1) : Nat) - 1
  | .min, _ => (2 ^ w : Nat) - 1
  | .and, .signed => -1
  | .and, _ => (2 ^ w : Nat) - 1
  | _, _ => 0

/-- One operation of the tree, rounded RNE at the format (R55). -/
def redStepF (op : RedOp) (f : Fmt) (a b : FVal) : Flagged FVal :=
  let (v, g) := match op with
    | .max => minmaxVals true a b
    | .min => minmaxVals false a b
    | _ => sumVals [a, b] .rne
  let (c, h) := roundVal v f .rne 0
  (decodeFmt f c, g.or h)

/-- One level of the tree. -/
def treeLevel (op : RedOp) (f : Fmt) : List FVal → Flagged (List FVal)
  | a :: b :: r =>
    let (v, g) := redStepF op f a b
    let (vs, h) := treeLevel op f r
    (v :: vs, g.or h)
  | l => (l, .none)

/-- The levels of the tree. -/
def treeLevels (op : RedOp) (f : Fmt) : Nat → List FVal → Flagged (List FVal)
  | 0, l => (l, .none)
  | k + 1, l =>
    let (l', g) := treeLevel op f l
    let (l'', h) := treeLevels op f k l'
    (l'', g.or h)

/-- Exponent of the smallest power of two that is at least `n`. -/
def ceilLog2 (n : Nat) : Nat := if n ≤ 1 then 0 else Nat.log2 (n - 1) + 1

/-- `tree(a, N, op, fmt)` for a floating-point format, delivered in the format (R55, R185). -/
def treeF (op : RedOp) (f : Fmt) (a : List FVal) : Flagged Nat :=
  let k := ceilLog2 a.length
  let padded := a ++ List.replicate (2 ^ k - a.length) (identityF op f)
  let (l, g) := treeLevels op f k padded
  let v := l.headD (identityF op f)
  let (c, h) := roundVal v f .rne 0
  (c, (g.or h).or (Flags.when v.isSnan .nv))

/-- A reduction of integers, exact and then reduced modulo 2^w (R36, R55). -/
def treeI (op : RedOp) (f : Fmt) (a : List Int) : Nat :=
  let w := fmtWidth f
  match op with
  | .sum => wrapInt w (a.foldl (· + ·) 0)
  | .max => wrapInt w (a.foldl max (identityI .max f))
  | .min => wrapInt w (a.foldl min (identityI .min f))
  | .and => a.foldl (fun x i => x &&& wrapInt w i) (2 ^ w - 1)
  | .or => a.foldl (fun x i => x ||| wrapInt w i) 0

/-- Leading exponent of a finite value, none for zero. -/
def leadExp : FVal → Option Int
  | .fin _ m e => if m = 0 then none else some (e + Nat.log2 m)
  | _ => none

/-- Greatest leading exponent of a block. -/
def maxLead : List FVal → Option Int
  | [] => none
  | v :: r =>
    match leadExp v, maxLead r with
    | some a, some b => some (max a b)
    | some a, none => some a
    | none, b => b

/-- emax of R50. -/
def mxEmax : Fmt → Int
  | .e4m3 => 8 | .e5m2 => 15 | _ => 2

/-- The scale of a block of exact values (R50, steps 1 to 3). -/
def mxScaleOf (v : List FVal) (f : Fmt) : Nat :=
  if v.any (fun x => x.isNan || x.isInf) then 255
  else match maxLead v with
    | none => 127
    | some e => (min (max (e - mxEmax f + 127) 0) 254).toNat

/-- The code of one element of a block under its scale (R50). -/
def mxCode (x : FVal) (s : Nat) (f : Fmt) (mode : RMode) (draw : Nat) : Flagged Nat :=
  if s = 255 then (0, .none)
  else match x.scale (127 - s) with
    | .fin n m e => if m = 0 then (signBit f n, .none) else roundReal ⟨n, m, e, false⟩ f mode draw false true
    | _ => (0, .none)

/-- `mxscale(v, F, m)` under RNE or a mode without draws (R50). -/
def mxscale (v : List FVal) (f : Fmt) (mode : RMode) : List Nat × Nat × Flags :=
  let s := mxScaleOf v f
  let cs := v.map fun x => mxCode x s f mode 0
  (cs.map (·.1), s, (cs.foldl (fun g c => g.or c.2) Flags.none).or (Flags.when (s == 255) .nv))

/-- Integer a / b truncated toward zero, and the remainder (R36, R144): quotient 0 and remainder a with DZ for b = 0. -/
def divInt (a b : Int) : Int × Int × Flags :=
  if b = 0 then (0, a, .idz) else (Int.tdiv a b, Int.tmod a b, .none)

end Sys2Proof.Machine
end

