-- ==== Sys2Proof/Machine/Types.lean ====
section
/-! DEFINITION. The pieces of state of a hart: register tags, entries of the vector queue, engine commands, waits, the
registers of a hart (R105 to R131, R201 to R203, R301, R328, R426 to R429, R436). -/

namespace Sys2Proof.Machine

/-- The tags of a vector or far register (R32, R33). -/
structure RegTag where
  fmt : Fmt
  blk : Bool
  deriving DecidableEq, Repr

/-- The tags every register takes at placement (R108). -/
def RegTag.n8 : RegTag := ⟨.n8, false⟩

/-- A far register at one far site: 4,096 bytes, tags, and whether it has been written (R113, R426, R427). -/
structure FarReg where
  bits : Nat
  tag : RegTag
  dirty : Bool
  deriving DecidableEq, Repr

def FarReg.fresh : FarReg := ⟨0, .n8, false⟩

/-- One GSITE entry (R427): the package and stack of a guest set, and whether the set is bound at that stack now. -/
structure GuestSite where
  pkg : BitVec 10
  stack : BitVec 4
  bound : Bool
  deriving DecidableEq, Repr

/-- A fault as it is found: code, reason, faulting virtual address, EINFO and TRAPNO (R434, R436, R439). -/
structure FaultInfo where
  code : BitVec 8
  reason : BitVec 8
  va : Word
  info : Word
  trapno : BitVec 16
  deriving DecidableEq, Repr

def FaultInfo.of (code : BitVec 8) : FaultInfo := ⟨code, 0, 0, 0, 0⟩
def FaultInfo.withReason (code reason : BitVec 8) : FaultInfo := ⟨code, reason, 0, 0, 0⟩

/-- What an entry performed in parts, without a stop between them, carries from its beginning: the tags of the near registers
(R169), its start position, the header of its key-value page (R284, R381), and the tag and slot of the row it stands in by
row number (R269). -/
structure Begun where
  tags : Vector RegTag 64
  start : Nat
  header : Option Nat
  row : Option (Nat × Nat × Nat)
  deriving DecidableEq, Repr

/-- An entry of the vector queue with the values captured at its enqueue (R128, R429). `bankVals` are the sixteen values
of the captured code-table bank (R383). `begun`: it has been performed in part since it was last entered. -/
structure VqEntry where
  instr : Instr
  addr : Word
  vl : Nat
  start : Nat
  rc : Fin 6
  vtail : Nat
  vtag : Fmt
  vblk : Bool
  frm : RMode
  bank : Bool
  bankVals : List (BitVec 16)
  sr : Bool
  fsite : Word
  srctr : Word
  srseed : Word
  xa : Word
  xb : Word
  begun : Option Begun := none
  deriving DecidableEq, Repr

/-- What a front end waits for (R125, R130, R282, R292, R342, R353, R384, R394, R415, R418). -/
inductive HartWait where
  /-- nothing -/
  | none
  /-- a resynchronisation of R130, R282 -/
  | resync
  /-- room in the VQ or an engine queue (R125) -/
  | room
  /-- a barrier record (R353) or an engine issue on one (R360): the key of the record's first byte, and the place of the
  instruction's class in R352 -/
  | barrier (key cls : Nat)
  /-- QSUB on a full list (R415) -/
  | qsub
  /-- HRPUT on a full ring (R418): the ring, and whether its EN was cleared during the wait -/
  | hrput (r : Nat) (off : Bool)
  /-- CTW on a captured bank (R384) -/
  | ctw
  /-- KLAUNCH on the Compass's answer (R394) -/
  | klaunch
  /-- QFENCE (R342) -/
  | qfence
  /-- FENCE.STK, or a release point on earlier accesses (R252, R265, R292) -/
  | fenceStk
  /-- earlier VQ entries, before TRAP, BKPT, ERET or an arrival is performed (R361, R442, R443, R444) -/
  | drain
  /-- an access held by a migration record (R240) -/
  | held
  deriving DecidableEq, Repr

/-- A wait on a full ring. -/
def HartWait.onRing : HartWait → Bool
  | .hrput _ _ => true
  | _ => false

/-- The life of a hart within its group (R106, R109, R446). -/
inductive HartPhase where
  /-- not placed -/
  | absent
  | running
  /-- HEXIT issued and not complete -/
  | exiting
  /-- HEXIT complete -/
  | exited
  /-- halted by a breakpoint -/
  | halted
  deriving DecidableEq, Repr

/-- A front-end or decode fault that waits until every earlier VQ entry has completed (R89, R142): `resume` is the resume
address. -/
structure PendFault where
  fault : FaultInfo
  epc : Word
  resume : Word
  deriving DecidableEq, Repr

/-- What a page's leaf gives an access (R230, R231): the physical address of the page's first byte under the leaf, the
package that owns it when remote, the policy and the bits the access rules read; the entry as it was read, and the addresses
of the entries the walk read, the root's first: none for a translation that was held (R233, R236). -/
structure Leaf where
  base : Nat
  size : Nat
  peer : Option Nat
  cp : Nat
  mig : Bool
  kv : Bool
  r : Bool
  w : Bool
  x : Bool
  /-- physical address of the entry (R233) -/
  pte : Nat
  entry : Nat
  path : List Nat
  deriving DecidableEq, Repr

/-- The commands of an engine queue (R322). -/
inductive EngKind where
  | ecpy | emcast | efill | egath | escat
  deriving DecidableEq, Repr

/-- Where the bytes of an engine's write come from: they have been read; they lie at an address, in a table row or not; or they
are bytes of a row that a KV page of a code RPS gives, from an offset on (R333, R334, R337). -/
inductive EngSrc where
  | bytes (bs : List Byte)
  | mem (va : Nat) (table : Bool)
  | kv (rps row off : Nat)
  deriving DecidableEq, Repr

/-- A write of an engine command that has begun: its address and bytes, where they come from, whether it goes to a table row,
and the stack whose Chord makes it (R260, R322). -/
structure EngPut where
  va : Nat
  n : Nat
  src : EngSrc
  table : Bool
  chord : Option Nat
  deriving DecidableEq, Repr

/-- Source bytes that a command has read in one sector (R248, R335): whether they lie in table rows, their first address. -/
structure SourceSector where
  table : Bool
  va : Nat
  bytes : List Byte
  deriving DecidableEq, Repr

/-- A queued engine command: its x operands, its second word, the barrier record it names and its phase, the leaves of its
pages, its place in the issue order, the FENCE.VV entries and acquire points that must complete before it begins (R252,
R291), and those of them that wait in a trap image (`parked`); once it has begun, its writes to come, the source sectors and
the tags and slots of a KV page it has read, the bytes written, those not yet subtracted, and its flags (R323, R326, R330,
R339, R340). -/
structure EngCmd where
  kind : EngKind
  addr : Word
  xa : Word
  xb : Word
  xc : Word
  copy : CopyWord
  rows : RowsWord
  bar : Option Word
  phase : BitVec 32
  leaves : List (Nat × Leaf)
  seq : Nat
  fences : Nat
  parked : Nat
  started : Bool
  puts : List EngPut
  sectors : List SourceSector
  slots : List (Nat × Nat × Nat)
  landed : Nat
  left : Nat
  flags : BitVec 5
  deriving DecidableEq, Repr

/-- EQSTAT.STATE (R328, R329). -/
inductive EqState where
  | empty | running | held | faulted
  deriving DecidableEq, Repr

/-- One engine queue (R328, R329). -/
structure EngQueue where
  cmds : List EngCmd
  st : EqState
  done : BitVec 32
  deriving DecidableEq, Repr

def EngQueue.reset : EngQueue := ⟨[], .empty, 0⟩

/-- The registers a trap writes (R436). TRAPVEC holds address bits [51:3]. -/
structure TrapRegs where
  vec : BitVec 49
  epc : Word
  trapno : BitVec 16
  inh : Bool
  ret : Bool
  qpos : BitVec 6
  reason : BitVec 8
  code : BitVec 8
  einfo : Word
  deriving DecidableEq, Repr

/-- The sweep and scalar state registers of a hart (R119, R54, R58 to R60). -/
structure CtlRegs where
  vl : BitVec 18
  rc : Fin 6
  vstart : BitVec 18
  vtail : BitVec 5
  vtag : Fmt
  vblk : Bool
  hpc : Fin 3
  sc : BitVec 32
  fflags : BitVec 5
  iflags : BitVec 2
  frm : RMode
  srseed : Word
  srctr : Word
  fpkg : BitVec 10
  fstack : BitVec 4
  wid : Word
  deriving DecidableEq, Repr

/-- The counters of the hart's status block (R131). -/
structure HartCounts where
  rsyncn : Word
  rsyncc : Word
  issued : Word
  starve : Word
  deriving DecidableEq, Repr

/-- The register files of the vector side, and the tiles. -/
inductive RegFile where
  | k | v | f | z
  deriving DecidableEq, Repr

/-- A sector of a register that holds an error beyond correction (R465): the file, the register, the number of its 64 bytes,
and the mask of the bits that no write has covered since. -/
structure BadSector where
  file : RegFile
  n : Nat
  sector : Nat
  left : Nat
  deriving DecidableEq, Repr

/-- The vector-side storage of a hart: predicates, near and far registers, tiles, and what has been written (R113, R201,
R203, R426 to R428); `bad` lists its uncorrectable sectors (R465). Bit strings: bit 0 is the least significant bit of byte 0. -/
structure VecRegs where
  k : Vector Nat 16
  plive : BitVec 16
  v : Vector Nat 64
  vtags : Vector RegTag 64
  vdirty : BitVec 64
  vhwe : Vector Nat 64
  far : Vector FarReg 160
  gsite : Vector (Option GuestSite) 4
  z : Vector Nat 8
  zdirty : BitVec 8
  bad : List BadSector
  deriving DecidableEq, Repr

/-- A hart. `xbad` marks the x registers that hold an error beyond correction (R465). `core` and `slot` are HARTNO (R119); `ctx`, `kern`, `grp` and `f0` name its context, kernel, group and index in
the group. `owes`: the head of the queue must reach the end of an element group before a stop: it stands inside one, or it
was re-entered and has not performed one (R140). -/
structure Hart where
  x : Vector Word 64
  xbad : BitVec 64
  pc : Word
  ctl : CtlRegs
  trap : TrapRegs
  vec : VecRegs
  vq : List VqEntry
  trapImage : List VqEntry
  tresume : Word
  eng : Vector EngQueue 4
  counts : HartCounts
  phase : HartPhase
  wait : HartWait
  pend : Option PendFault
  owes : Bool
  core : Nat
  slot : Nat
  ctx : Nat
  kern : Nat
  grp : Nat
  f0 : Nat
  deriving DecidableEq, Repr

end Sys2Proof.Machine
end

