-- ==== Sys2Proof/Machine/Units.lean ====
section
/-! DEFINITION. The pieces of state outside a hart: caches, translation and migration, stacks, far work, work queues,
kernels, groups, contexts, rings, ports, the management registers (the chapters from "Page" to "Reset, power, reliability
and security"). -/

namespace Sys2Proof.Machine

/-- A sparse table: the entries that differ from the table's default, by rising key. -/
abbrev Table (α : Type) := List (Nat × α)

/-- A 64 B sector held in a core's L1 data cache (R218, R262), or whose writes the core has not performed yet (R257): its bytes,
the mask of 4-bit units the core wrote (R248), whether they go to the MSC (CP 10, R228), and the mask of bytes written by
accesses that are single-copy atomic for each byte alone (R248). -/
structure L1Sector where
  core : Nat
  sector : Nat
  data : Nat
  dirty : Nat
  raw : Bool
  loose : Nat
  deriving DecidableEq, Repr

/-- A release write of a hart whose release point is not complete (R254, R257): the core that still has to perform the
earlier near writes, the hart's group, and the scope. -/
structure OpenRelease where
  core : Nat
  grp : Nat
  sc : Scope
  deriving DecidableEq, Repr

/-- Bytes that a hart has read ahead of the plain load that will return them (R251, R252). -/
structure EarlyRead where
  hart : Nat
  pa : Nat
  bytes : List Byte
  deriving DecidableEq, Repr

/-- A host write that is not performed yet, and whether a later host write released it (R264). -/
structure OuterWrite where
  pa : Nat
  bytes : List Byte
  released : Bool
  deriving DecidableEq, Repr

/-- A hart that issued something whose effect comes later: its group and its index there (R63, R433). -/
structure Owner where
  grp : Nat
  f0 : Nat
  deriving DecidableEq, Repr

/-- A line in reduce state (R305): line number PA div 512, its kind and format, the partials by word address, and the hart
that contributed last to each. -/
structure ReduceLine where
  line : Nat
  kind : RedKind
  fmt : Fmt
  parts : Table Nat
  who : Table Owner
  deriving DecidableEq, Repr

/-- Flags that a merge raised for a hart and that have not reached it yet (R63, R305). -/
structure Owed where
  who : Owner
  fl : Flags
  deriving DecidableEq, Repr

/-- An 8-byte word of a core's L1 instruction cache (R90): its physical address and the value held. -/
structure CodeWord where
  core : Nat
  pa : Nat
  value : Nat
  deriving DecidableEq, Repr

/-- A TLB entry (R236): core, context, virtual page (the first of the leaf), pages covered, and the leaf. -/
structure TlbEntry where
  core : Nat
  ctx : Nat
  vpn : Nat
  pages : Nat
  leaf : Leaf
  deriving DecidableEq, Repr

/-- An invalidation command (R238): one page of a context, a context, or everything. -/
inductive TiCmd where
  | page (ctx vpn : Nat)
  | context (ctx : Nat)
  | all
  deriving DecidableEq, Repr

/-- The translation invalidation block (R238): TIADDR.VPN, and the command in progress while BUSY is 1. -/
structure TiBlock where
  vpn : BitVec 36
  cmd : Option TiCmd
  refused : Bool
  deriving DecidableEq, Repr

/-- MREC.STATE (R239). -/
inductive MigState where
  | free | pending | armed | done
  deriving DecidableEq, Repr

/-- A migration record (R239): frames PA[47:16], the leaf's address, counts, and the filled lines. -/
structure MigRec where
  st : MigState
  new : Nat
  old : Nat
  pte : Nat
  filled : Nat
  err : Nat
  lines : Nat
  deriving DecidableEq, Repr

def MigRec.reset : MigRec := ⟨.free, 0, 0, 0, 0, 0, 0⟩

/-- A write that a PENDING record holds at the stack's controller (R240): bytes at a physical address, a status word of a
context by its virtual address, the atomic OR of flags into a FLAGW of a context (R433), the atomic AND that clears PTE.MIG,
or a contribution. -/
inductive HeldWrite where
  | bytes (pa : Nat) (bs : List Byte)
  | status (ctx va n v : Nat)
  | flags (ctx pa : Nat) (f : Flags)
  | endMig (pte : Nat)
  | contribution (who : Owner) (pa : Nat) (kind : RedKind) (fmt : Fmt) (v : Nat)
  deriving DecidableEq, Repr

/-- The migration block's registers (R239) and records; `held` lists harts whose access a PENDING record holds, `writes` the
writes held, oldest first (R240). -/
structure MigBlock where
  new : BitVec 32
  old : BitVec 32
  pte : BitVec 45
  refused : Bool
  slot : BitVec 6
  recs : Vector MigRec 64
  held : List (Nat × Nat)
  writes : List HeldWrite
  deriving DecidableEq, Repr

/-- A guest set bound at a stack (R301): the issuing package, context and WID, and the eight registers. -/
structure GuestSet where
  pkg : Nat
  ctx : Nat
  wid : Word
  regs : Vector FarReg 8
  deriving DecidableEq, Repr

/-- A far instruction, or a piece of one, that a hart of another package sent (R303, R458). -/
structure GuestPiece where
  pkg : Nat
  ctx : Nat
  wid : Word
  word : Word
  ops : FarOperands
  deriving DecidableEq, Repr

/-- One frame pool of a stack's RQE (R371). -/
structure RqePool where
  base : BitVec 20
  count : BitVec 21
  deriving DecidableEq, Repr

/-- A memory stack's base die: far block, guest sets, what harts of other packages sent, oldest first, RQE (R301 to R303, R370,
R371). `offPending` is a write of EN := 0 that
waits for the page in CONVERTING; `cursor` is the frame from which the RQE goes on in its pools. -/
structure StackUnit where
  guest : Bool
  sets : List GuestSet
  guests : List GuestPiece
  pieces : Word
  rqeEn : Bool
  offPending : Bool
  agethr : BitVec 32
  done : BitVec 32
  aborted : BitVec 32
  pools : Vector RqePool 4
  cursor : Nat
  deriving DecidableEq, Repr

def StackUnit.reset : StackUnit := ⟨false, [], [], 0, false, false, 0, 0, 0, Vector.replicate 4 ⟨0, 0⟩, 0⟩

/-- A near register a far instruction reads, as it carries it to its site (R295). -/
structure NearSrc where
  reg : Nat
  bits : Nat
  tag : RegTag
  deriving DecidableEq, Repr

/-- What a site instruction has read before its work begins at its site: FEMBAG's descriptor; FATT's descriptor, the end of
its stretch, and of every block its number, the addresses of its pages and their headers (R313, R317). -/
inductive FarPre where
  | none
  | bag (desc : Nat)
  | attn (desc fin : Nat) (blocks : List (Nat × Nat × Nat × Nat × Nat))
  deriving DecidableEq, Repr

/-- What a piece does: all of its elements; the reads of a row-mode reduction, at the owner of their lines; its top, which
contributes (R307). -/
inductive PieceRole where
  | whole | read | top
  deriving DecidableEq, Repr

/-- A piece of a far instruction in a stack's far queue (R303): the hart, the stack and its package, its role, the number of
its instruction, the entry, what was read before it was sent, the near registers and the predicates it carries, the sweep
positions it performs, the source codes a top piece has received by position, the leaves of its pages by virtual page, and for another package the port
it was sent on (R458). -/
structure FarPiece where
  hart : Nat
  pkg : Nat
  stack : Nat
  role : PieceRole
  seq : Nat
  entry : VqEntry
  pre : FarPre
  srcs : List NearSrc
  preds : List Nat
  plive : BitVec 16
  sel : List Nat
  got : List (Nat × Nat)
  leaves : List (Nat × Leaf)
  port : Option Nat
  deriving DecidableEq, Repr

/-- Answers to binding requests and outstanding ones (R458): the context and WID of the hart, package, stack, and the answer
once known. -/
structure BindRequest where
  ctx : Nat
  wid : Word
  pkg : Nat
  stack : Nat
  answer : Option Bool
  deriving DecidableEq, Repr

/-- A node of a running submission that is READY, RUNNING or BLOCKED (R405): its words as the Compass read them, the order
it became READY in, the kernel a KERN node launched, the copy of its header while it waits for a kernel slot (R386), and
whether its work is done but for acknowledgements, and its fault if it had one (R406, R408). -/
inductive NodeSt where
  | ready | running | blocked
  deriving DecidableEq, Repr

structure RunNode where
  addr : Word
  st : NodeSt
  words : List Word
  order : Nat
  kern : Option Nat
  copy : Option Nat
  worked : Bool
  failing : Option FaultInfo
  deriving DecidableEq, Repr

/-- A work queue (R397, R400, R401). -/
structure WorkQueue where
  ctx : BitVec 12
  weight : BitVec 6
  prio : BitVec 3
  en : Bool
  subs : List Word
  badsub : Bool
  ovf : Bool
  fcode : BitVec 8
  qfnode : Word
  cur : Option Word
  qdone : Word
  suspended : Bool
  faulted : Bool
  resetting : Bool
  nodes : List RunNode
  deriving DecidableEq, Repr

def WorkQueue.reset : WorkQueue := ⟨0, 0, 0, false, [], false, false, 0, 0, none, 0, false, false, false, []⟩

/-- The Compass's current queue and credit of one priority level (R411). -/
structure LevelState where
  current : Option Nat
  credit : Nat
  deriving DecidableEq, Repr

def LevelState.reset : LevelState := ⟨none, 0⟩

/-- A host ring (R417, R419). -/
structure Ring where
  base : Word
  ctx : BitVec 12
  vec : BitVec 11
  log2n : BitVec 5
  en : Bool
  count : BitVec 16
  time : BitVec 16
  prod : BitVec 32
  cons : BitVec 32
  pend : BitVec 16
  ints : BitVec 32
  timer : Bool
  deriving DecidableEq, Repr

def Ring.reset : Ring := ⟨0, 0, 0, 0, false, 0, 0, 0, 0, 0, 0, false⟩

/-- CTXSTAT.STATE (R420). -/
inductive CtxState where
  | free | created | bound | active | preempted | faulted | destroying
  deriving DecidableEq, Repr

/-- The fault ring of a context (R420, R440): `held` are the records waiting for space, eight words each. -/
structure FaultRing where
  base : BitVec 42
  vec : BitVec 11
  log2n : BitVec 4
  en : Bool
  prod : BitVec 32
  cons : BitVec 32
  lost : BitVec 32
  held : List (List Word)
  deriving DecidableEq, Repr

/-- A context (R420): registers, code table of two banks (R383), the save slots in use. -/
structure Context where
  st : CtxState
  refused : Bool
  ptroot : BitVec 32
  pasidEn : Bool
  pasidId : BitVec 20
  savebase : BitVec 32
  saven : BitVec 16
  ring : FaultRing
  dbgEn : Bool
  ctgen : Word
  bank0 : Vector (BitVec 16) 16
  bank1 : Vector (BitVec 16) 16
  slots : List Nat
  deriving DecidableEq, Repr

def Context.reset : Context :=
  ⟨.free, false, 0, false, 0, 0, 0, ⟨0, 0, 0, false, 0, 0, 0, []⟩, false, 0, Vector.replicate 16 0, Vector.replicate 16 0, []⟩

/-- KSTATUS.STATE of an accepted kernel (R387, R391). -/
inductive KernState where
  | pending | dispatching | running | draining | complete | faulted
  deriving DecidableEq, Repr

/-- The Compass's copy of a launch header (R386, R387). -/
structure LaunchHeader where
  entry : Word
  trap : Word
  widths : List Nat
  exts : List Nat
  hpc : Fin 3
  barriers : Nat
  plive : BitVec 16
  lstore : Nat
  prio : Nat
  minstk : Nat
  args : List Word
  deriving DecidableEq, Repr

/-- A kernel in a kernel slot (R391): `key` names it and gives the order of acceptance; `queue` and `node` are those of the
KERN node that led to it (R439); `faultG` the number of the group whose code FAULT holds. `told`: the write of KSTATUS that its state calls for has been made (R392). -/
structure Kernel where
  key : Nat
  ctx : Nat
  va : Word
  hdr : LaunchHeader
  st : KernState
  fault : BitVec 8
  faultG : Option Nat
  gretired : Nat
  base : Nat
  queue : Option Nat
  node : Option Word
  told : Bool
  deriving DecidableEq, Repr

/-- A group's state (R106). -/
inductive GroupState where
  | waiting | running | stopping | preempted | faulted | retired
  deriving DecidableEq, Repr

/-- Why a group stops (R106, R391, R422). -/
inductive StopReason where
  | preempt | replay | fault
  deriving DecidableEq, Repr

/-- A group (R105, R106, R409 to R414, R424). `recs` are fault records that wait for its image, each with the index of its
hart (R107, R430); `order` is the time
stamp of its entry into WAITING or PREEMPTED; `aged` counts whole 10 ms of waiting; the local-store cells are keyed by the
group. -/
structure Group where
  key : Nat
  kern : Nat
  ctx : Nat
  g : Nat
  st : GroupState
  held : Bool
  slot : Option Nat
  quad : Nat
  reason : StopReason
  code : BitVec 8
  recs : List (Nat × List Word)
  eff : Nat
  order : Nat
  aged : Nat
  placed : Bool
  hold1ms : Bool
  deriving DecidableEq, Repr

/-- LSTAT.STATE (R455). -/
inductive PortState where
  | down | training | up | degraded | retired
  deriving DecidableEq, Repr

/-- A peer port (R455, R456): lanes 0, 1, 2 or 4. -/
structure Port where
  st : PortState
  lanes : Nat
  fails : BitVec 16
  attempts : Nat
  replay : Word
  failed : Word
  deriving DecidableEq, Repr

def Port.reset : Port := ⟨.down, 0, 0, 0, 0, 0⟩

/-- A command of Meridian (R471): by name with its arguments, or an operation code of MBCMD, whose arguments are in the
buffer. -/
inductive MbCommand where
  | attest | telemetry | rasLog | accessTable (e : AccessEntry) | setAlarm (a : BitVec 2) | bootConfig (c : BootConfig)
  | op (code : BitVec 8)
  deriving DecidableEq, Repr

/-- An entry of the security alarm's log (R469). -/
structure AlarmEntry where
  master : Master
  target : Target
  addr : Nat
  deriving DecidableEq, Repr

/-- An event of the reliability log (R465): an error corrected, in a row of a stack's DRAM or in an SRAM array, and when; an
uncorrectable sector of memory or of a local store, or a register of a hart; a control-logic error. -/
inductive RasEvent where
  | corrected (row : Option (Nat × Nat)) (tick : Word)
  | uncorrectable (sector : Nat)
  | localStore (sector : Nat)
  | register (hart : Nat)
  | control (u : UnitId)
  deriving DecidableEq, Repr

/-- A command that Meridian has not performed yet: whether it was written into MBCMD, or came over a management transport
(R471). -/
structure MbEntry where
  written : Bool
  cmd : MbCommand
  deriving DecidableEq, Repr

/-- The mailbox with the commands of its three paths in arrival order (R471), the access tables and the alarm (R468, R469),
and the reliability state (R465 to R467). With `aer` the module has stopped (R466). -/
structure Management where
  mbbuf : BitVec 36
  busy : Bool
  result : BitVec 8
  queue : List MbEntry
  tables : List AccessEntry
  alarm : BitVec 2
  alarmLog : List AlarmEntry
  alarms : Nat
  locked : Bool
  keyErased : Bool
  ras : List RasEvent
  fenced : List UnitId
  sparing : List (Nat × Nat)
  spared : List (Nat × Nat)
  aer : Bool
  deriving DecidableEq, Repr

def Management.reset : Management := ⟨0, false, 0, [], [], 0, [], 0, false, false, [], [], [], [], false⟩

/-- Boot, power and host-port registers (R221, R449, R454, R461 to R463). -/
structure Platform where
  powered : Bool
  stage : BitVec 3
  err : BitVec 8
  boot : BootConfig
  share : BitVec 8
  active : BitVec 16
  pkg : BitVec 10
  domain : BitVec 10
  ratio : Nat
  plimit : BitVec 16
  pstate : BitVec 2
  pnow : BitVec 16
  lowered : Bool
  flit : Bool
  cxlmem : Bool
  cxlcache : Bool
  width : BitVec 5
  rate : BitVec 3
  tick : Word
  deriving DecidableEq, Repr

/-- What the device sends out: an MSI-X message of a vector (R264), the completion of a request from outside (R451), the
acknowledgement of a peer's write (R265), the answer to a binding request (R458), the fatal error of R466, the result of a command of a
management transport (R471), the completion of a far instruction of another package with its fault code, flags and near
result (R458). -/
inductive OutMsg where
  | msix (vec : Nat)
  | ack
  | completion (bytes : List Byte)
  | poisoned (bytes : List Byte)
  | unsupported
  | abort
  | bindAnswer (pkg ctx : Nat) (bound : Bool)
  | fatal
  | mbResult (result : BitVec 8)
  | farAnswer (pkg ctx : Nat) (wid : Word) (code : BitVec 8) (flags : Nat) (near : List Byte)
  deriving DecidableEq, Repr

/-- Who posts a write to the host or to a peer: HARTNO, group, index in it, kernel and WID of the hart; the engine queue and
the command's place in the issue order; the work queue and node of the Compass (R257, R341, R406, R459). -/
structure Poster where
  no : Nat
  grp : Nat
  f0 : Nat
  kern : Nat
  wid : Word
  eng : Option (Nat × Nat)
  node : Option (Nat × Word)
  deriving DecidableEq, Repr

def Poster.owner (p : Poster) : Owner := ⟨p.grp, p.f0⟩

/-- A store to the host, or to a peer, that has not been acknowledged (R257, R459): its virtual address, the bytes its leaf
covers, and for a peer the package, the physical line and the port it was sent on (R457). -/
structure PostedStore where
  src : Poster
  ctx : Nat
  va : Nat
  size : Nat
  peer : Option (Nat × Nat)
  port : Option Nat
  deriving DecidableEq, Repr

/-- An MSI-X message held back until every store posted before it is acknowledged: its vector, and how many of the stores that
wait, the oldest first, come before it (R264). -/
structure HeldMsi where
  vec : Nat
  behind : Nat
  deriving DecidableEq, Repr

/-- The host and peer side: messages sent and held back, routes, ports, the stores that await an acknowledgement, oldest
first, and the answers that have arrived (R454 to R459). -/
structure LinkState where
  out : List OutMsg
  msis : List HeldMsi
  routes : Table (BitVec 12)
  ports : Vector Port 12
  waiting : List PostedStore
  answers : List RemoteResult
  deriving DecidableEq, Repr

/-- Whether a side runs behind the front end (log 1): the vector side, far work, the write-back of stores, the
invalidation of clean sectors, the engines; whether releases at group scope leave their core's writes for the acquires of
their group (R247, R254), whether an access uses a translation that an invalidation in progress affects (R238), and whether
a fetch may use a word an instruction cache holds (R90). All false is the machine that performs everything in program
order. -/
structure Lag where
  vq : Bool
  far : Bool
  cache : Bool
  clean : Bool
  eng : Bool
  release : Bool
  stale : Bool
  code : Bool
  deriving DecidableEq, Repr

def Lag.none : Lag := ⟨false, false, false, false, false, false, false, false⟩

/-- The vector side, far work and the engines run behind the front end; stores are performed at once. -/
def Lag.behind : Lag := ⟨true, true, false, false, true, false, false, false⟩

/-- A move of one agent (log 1): the front end or the vector side of a hart, the vector side for so many element groups of
the head of its queue (R140) or for so many sweep positions of it or of its
oldest piece at a stack (R248, R289), a piece of a hart of another package, the release of its guest set (R301, R303), the write of one part of an engine command
(R260), a datapath error at the head of a hart's queue that comes a second time (R465), a sector that enters a core's L1 data cache or an
aligned word that enters its instruction cache, bytes that a hart reads ahead of a plain load (R251), a byte of a misaligned
store that is performed alone (R248), a host write that is performed (R264), an error of storage that a read detects (R465), the sparing of a row
and its end (R467), a sector the L2 writes
back to the MSC, an event of the device, or a change of which sides run behind. -/
inductive Move where
  | front (h : Nat)
  | vector (h : Nat)
  | groups (h n : Nat)
  | elems (h n : Nat)
  | pieces (h stack n : Nat)
  | guest (stack pkg ctx : Nat) (wid : Word)
  | guestRelease (stack pkg ctx : Nat) (wid : Word)
  | land (h q i : Nat)
  | datapath (h : Nat)
  | prefetch (core sector : Nat)
  | code (core pa : Nat)
  | early (h pa n : Nat)
  | spill (core pa : Nat)
  | outer
  | storage (dram : Bool)
  | spare (stack row : Nat)
  | spareCommit (stack row : Nat)
  | evict (sector : Nat)
  | event (i : Instr)
  | lag (l : Lag)
  deriving DecidableEq, Repr

end Sys2Proof.Machine
end

