-- ==== Sys2Proof/Machine/State.lean ====
section
/-! DEFINITION. The state of a module: one hart in focus, the other harts, memory and every unit of the device; why a step
can stop; the state after reset. Plain data throughout. -/

namespace Sys2Proof.Machine

/-- Why the machine stops with a fault. Faults of the instruction set are not these: they are taken, and give a next
state (R435). -/
inductive Fault where
  /-- Raised by `step` when module power is off and the next move is not a cold reset (R30, R464): no part runs. Safe: a
  stuck state. -/
  | unpowered
  deriving DecidableEq, Repr

/-- Why an instruction is refused. -/
inductive Refusal where
  /-- Raised by an arm of `exec` for an instruction that has no meaning yet. Safe. -/
  | notModelled (mnemonic : String)
  deriving DecidableEq, Repr

/-- Memory, caches and translation (R218 to R241, R305). `mem` holds physical memory and the host region as the L2 gives them,
`msc` the bytes whose older value the memory-side cache still holds (R218, R367), `ls` the local stores keyed by group, core
of the quad and offset, `lsw` the written sectors; both cell lists are in canonical form. `poison` lists the uncorrectable
sectors of device memory and `lsBad` those of the local stores, `l1` the sectors of the L1 data caches and `code` the words of the L1 instruction caches, the oldest first; `owed`
the flags of merges on their way to their harts; `rel` the release writes whose release points are not complete (R254),
`early` what harts have read ahead (R251), `outer` the host writes that are not performed yet, oldest first (R264). -/
structure MemSys where
  mem : List Host.Cell
  msc : Table Byte
  ls : List Host.Cell
  lsw : List Nat
  lsBad : List Nat
  poison : List Nat
  l1 : List L1Sector
  code : List CodeWord
  reduce : List ReduceLine
  owed : List Owed
  rel : List OpenRelease
  early : List EarlyRead
  outer : List OuterWrite
  tlb : List TlbEntry
  ti : TiBlock
  mig : MigBlock
  deriving DecidableEq, Repr

/-- The Compass and the contexts (R386 to R447). `nextKey` and `nextOrder` give keys and time stamps; `making` lists the groups
that room is being made for (R414). -/
structure Compass where
  queues : Table WorkQueue
  levels : Table LevelState
  rings : Table Ring
  contexts : Table Context
  kernels : List Kernel
  groups : List Group
  making : List Nat
  nextKey : Nat
  nextOrder : Nat
  deriving DecidableEq, Repr

/-- Far work (R295 to R303); `nextSeq` numbers the instructions whose pieces run behind. -/
structure FarSys where
  dies : Vector StackUnit 16
  pieces : List FarPiece
  binds : List BindRequest
  nextSeq : Nat
  deriving DecidableEq, Repr

/-- The machine. `hart` is the hart in focus and `harts` the other harts; `agenda` the moves still to come; `lag` which
sides run behind; `free` the counter of free values: these four are the model's own (log 1, log 5). -/
structure State where
  hart : Hart
  harts : List Hart
  ms : MemSys
  far : FarSys
  cmp : Compass
  mgmt : Management
  plat : Platform
  link : LinkState
  agenda : List Move
  lag : Lag
  free : Nat
  deriving DecidableEq, Repr

/-- The boot configuration at power-on. DESIGN CHOICE (log 4). -/
def BootConfig.initial : BootConfig := ⟨32, 0, 6, 0, 0⟩

/-- Control registers at placement (R54, R58 to R60, R119). The lowest active stack is 0 until boot fixes it. -/
def CtlRegs.reset : CtlRegs := ⟨0, 0, 0, 0, .n8, false, 0, 0, 0, 0, .rne, 0, 0, 0, 0, 0⟩

def TrapRegs.reset : TrapRegs := ⟨0, 0, 0, false, false, 0, 0, 0, 0⟩

/-- Vector-side storage at placement (R108, R118, R203). -/
def VecRegs.reset : VecRegs :=
  ⟨Vector.replicate 16 0, 1, Vector.replicate 64 0, Vector.replicate 64 .n8, 0, Vector.replicate 64 0,
    Vector.replicate 160 .fresh, Vector.replicate 4 none, Vector.replicate 8 0, 0, []⟩

/-- A hart's registers with no group placed: the values of placement (R108, R119). DESIGN CHOICE (log 7). -/
def Hart.reset : Hart where
  x := Vector.replicate 64 0
  xbad := 0
  pc := 0
  ctl := .reset
  trap := .reset
  vec := .reset
  vq := []
  trapImage := []
  tresume := 0
  eng := Vector.replicate 4 .reset
  counts := ⟨0, 0, 0, 0⟩
  phase := .absent
  wait := .none
  pend := none
  owes := false
  core := 0
  slot := 0
  ctx := 0
  kern := 0
  grp := 0
  f0 := 0

def MemSys.reset : MemSys :=
  ⟨[], [], [], [], [], [], [], [], [], [], [], [], [], [], ⟨0, none, false⟩, ⟨0, 0, 0, false, 0, Vector.replicate 64 .reset, [], []⟩⟩

def Compass.reset : Compass := ⟨[], [], [], [], [], [], [], 1, 1⟩

def FarSys.reset : FarSys := ⟨Vector.replicate 16 .reset, [], [], 0⟩

/-- Platform registers at the start of the boot sequence (R461, R462); POOLCFG and UPKG are fixed by the sequence. -/
def Platform.reset : Platform :=
  ⟨true, 0, 0, BootConfig.initial, 0, 0, 0, 0, 6, 2800, 0, 0, false, false, false, false, 0, 0, 0⟩

def LinkState.reset : LinkState := ⟨[], [], [], Vector.replicate 12 .reset, [], []⟩

/-- The machine right after reset (R6, R460): powered, the boot sequence about to start, nothing placed. -/
def State.reset : State where
  hart := .reset
  harts := []
  ms := .reset
  far := .reset
  cmp := .reset
  mgmt := .reset
  plat := .reset
  link := .reset
  agenda := []
  lag := .behind
  free := 0

end Sys2Proof.Machine
end

