-- ==== Sys2Proof/Machine/Mem.lean ====
section
/-! DEFINITION. Memory as sorted cells, reduce-state lines, L1 sectors, uncorrectable sectors and local stores (R218, R225
to R227, R241, R248 to R257, R262, R268, R305). Every access to memory goes through the operations of this file. -/

namespace Sys2Proof.Machine

/-- Byte cells in canonical form: rising addresses, no zero byte; an unlisted address reads zero (log 3). -/
abbrev Memory := List Host.Cell

/-- The byte at an address. -/
def Memory.byte : Memory → Nat → Byte
  | [], _ => 0
  | (a', b) :: r, a => if a = a' then b else Memory.byte r a

/-- Write one byte, keeping the canonical form. -/
def Memory.put : Memory → Nat → Byte → Memory
  | [], a, b => if b = 0 then [] else [(a, b)]
  | (a', b') :: r, a, b =>
    if a < a' then (if b = 0 then (a', b') :: r else (a, b) :: (a', b') :: r)
    else if a = a' then (if b = 0 then r else (a, b) :: r)
    else (a', b') :: Memory.put r a b

/-- Every address of the cells is above `lo`, rising, and every byte is non-zero. -/
def Memory.wfFrom : Option Nat → Memory → Bool
  | _, [] => true
  | lo, (a, b) :: r =>
    (match lo with
      | none => true
      | some l => decide (l < a)) && !(b == 0) && Memory.wfFrom (some a) r

/-- The canonical form of a memory. -/
def Memory.wf (m : Memory) : Bool := Memory.wfFrom none m

/-- Read `n` bytes from an address on. -/
def Memory.read (m : Memory) (a : Nat) : Nat → List Byte
  | 0 => []
  | n + 1 => Memory.byte m a :: Memory.read m (a + 1) n

/-- Write bytes from an address on. -/
def Memory.write (m : Memory) (a : Nat) : List Byte → Memory
  | [] => m
  | b :: bs => Memory.write (Memory.put m a b) (a + 1) bs

/-- The number of `n` bytes at an address, little-endian (R2). -/
def Memory.readNat (m : Memory) (a n : Nat) : Nat := leNat (Memory.read m a n)

/-- Store the `n` low bytes of a number. -/
def Memory.writeNat (m : Memory) (a n v : Nat) : Memory := Memory.write m a (leBytes n v)

/-! Sparse tables. -/

/-- The entry of a key, or the default. -/
def Table.get {α : Type} (t : Table α) (k : Nat) (d : α) : α :=
  match t with
  | [] => d
  | (k', v) :: r => if k = k' then v else Table.get r k d

/-- Set an entry, keys rising. -/
def Table.set {α : Type} (t : Table α) (k : Nat) (v : α) : Table α :=
  match t with
  | [] => [(k, v)]
  | (k', v') :: r =>
    if k < k' then (k, v) :: (k', v') :: r else if k = k' then (k, v) :: r else (k', v') :: Table.set r k v

/-! Sorted sets of numbers. -/

def setInsert (k : Nat) : List Nat → List Nat
  | [] => [k]
  | a :: r => if k < a then k :: a :: r else if k = a then a :: r else a :: setInsert k r

/-! Local stores. -/

/-- The key of a local-store byte: the group, the core of its quad (0 to 3) and the offset (R225). -/
def lsKey (grp core off : Nat) : Nat := grp * 2 ^ 23 + core * 2 ^ 21 + off

/-- Read a local-store byte: zero where the sector was never written (R227). -/
def MemSys.lsByte (ms : MemSys) (key : Nat) : Byte :=
  if ms.lsw.contains (key / 64) then Memory.byte ms.ls key else 0

/-- Write a local-store byte; the first write of a sector writes zero to its other bytes (R227). -/
def MemSys.lsPut (ms : MemSys) (key : Nat) (b : Byte) : MemSys :=
  let ls := if ms.lsw.contains (key / 64) then ms.ls else Memory.write ms.ls (key / 64 * 64) (List.replicate 64 0)
  { ms with ls := Memory.put ls key b, lsw := setInsert (key / 64) ms.lsw }

def MemSys.lsRead (ms : MemSys) (key : Nat) : Nat → List Byte
  | 0 => []
  | n + 1 => ms.lsByte key :: ms.lsRead (key + 1) n

def MemSys.lsPuts (ms : MemSys) (key : Nat) : List Byte → MemSys
  | [] => ms
  | b :: bs => (ms.lsPut key b).lsPuts (key + 1) bs

/-- The sectors of a local store that a span covers whole are correctable again (R465). -/
def MemSys.lsMend (ms : MemSys) (key n : Nat) : MemSys :=
  if ms.lsBad.isEmpty then ms
  else { ms with lsBad := ms.lsBad.filter fun q => !(decide (key ≤ q * 64) && decide (q * 64 + 64 ≤ key + n)) }

/-- A span of a local store meets an uncorrectable sector (R465). -/
def MemSys.lsSpoilt (ms : MemSys) (key n : Nat) : Bool :=
  ms.lsBad.any fun q => decide (q * 64 < key + n) && decide (key < q * 64 + 64) && decide (0 < n)

/-- Write bytes of a local store. -/
def MemSys.lsWrite (ms : MemSys) (key : Nat) (bs : List Byte) : MemSys := (ms.lsMend key bs.length).lsPuts key bs

/-- Clear the local store of a group: contents and written bits (R108). -/
def MemSys.lsClear (ms : MemSys) (grp : Nat) : MemSys :=
  { ms with
    ls := ms.ls.filter fun c => c.1 / 2 ^ 23 != grp
    lsw := ms.lsw.filter fun w => w / 2 ^ 17 != grp
    lsBad := ms.lsBad.filter fun w => w / 2 ^ 17 != grp }

/-! Reduce-state lines (R305). -/

/-- Combine two values of a contribution's kind and format: the partial's rule of R305. -/
def reduceCombine (k : RedKind) (f : Fmt) (a b : Nat) : Flagged Nat :=
  if fmtIsFloat f then
    match k with
    | .sum => addF (decodeFmt f a) (decodeFmt f b) f .rne 0
    | .max => roundF (minmaxVals true (decodeFmt f a) (decodeFmt f b)) f .rne 0
    | .min => roundF (minmaxVals false (decodeFmt f a) (decodeFmt f b)) f .rne 0
  else
    match k with
    | .sum => (wrapInt (fmtWidth f) (decodeInt f a + decodeInt f b), .none)
    | .max => (wrapInt (fmtWidth f) (max (decodeInt f a) (decodeInt f b)), .none)
    | .min => (wrapInt (fmtWidth f) (min (decodeInt f a) (decodeInt f b)), .none)

/-- The partial a line enters reduce state with (R305, R56). -/
def reduceIdentity (k : RedKind) (f : Fmt) : Nat :=
  match k with
  | .sum => 0
  | .max => if fmtIsFloat f then (roundVal (identityF .max f) f .rne 0).1 else wrapInt (fmtWidth f) (identityI .max f)
  | .min => if fmtIsFloat f then (roundVal (identityF .min f) f .rne 0).1 else wrapInt (fmtWidth f) (identityI .min f)

/-- Merge a line's partials into memory (R305). A float sum holds its value already. -/
def MemSys.mergeParts (m : Memory) (k : RedKind) (f : Fmt) : Table Nat → Memory
  | [] => m
  | (a, p) :: r =>
    let n := fmtWidth f / 8
    let m' := Memory.writeNat m a n (reduceCombine k f (Memory.readNat m a n) p).1
    MemSys.mergeParts m' k f r

/-- The flags a merge of a line raises, for the hart that contributed last to the word (R63). DESIGN CHOICE (log 48). -/
def ReduceLine.mergeFlags (m : Memory) (l : ReduceLine) : List Owed :=
  l.parts.filterMap fun p =>
    let g := (reduceCombine l.kind l.fmt (Memory.readNat m p.1 (fmtWidth l.fmt / 8)) p.2).2
    if g = .none then none else some ⟨Table.get l.who p.1 ⟨0, 0⟩, g⟩

/-- The lines a span of bytes touches are merged and leave reduce state (R268). -/
def MemSys.merge (ms : MemSys) (pa n : Nat) : MemSys :=
  if ms.reduce.isEmpty then ms
  else
    let hit (l : ReduceLine) : Bool := decide (pa / 512 ≤ l.line) && decide (l.line ≤ (pa + n - 1) / 512) && decide (0 < n)
    { ms with
      mem := (ms.reduce.filter hit).foldl (fun m l => MemSys.mergeParts m l.kind l.fmt l.parts) ms.mem
      owed := ms.owed ++ (ms.reduce.filter hit).flatMap (ReduceLine.mergeFlags ms.mem)
      reduce := ms.reduce.filter fun l => !hit l }

/-- A contribution of a hart arrives at the MSC of its target (R305); the flags are the issuer's. -/
def MemSys.contribute (ms : MemSys) (who : Owner) (pa : Nat) (k : RedKind) (f : Fmt) (v : Nat) : MemSys × Flags :=
  let n := fmtWidth f / 8
  if k = .sum ∧ fmtIsFloat f = true then
    let same := ms.reduce.any fun l => l.line = pa / 512 && l.kind = k && l.fmt = f
    let ms1 := if same then ms else ms.merge pa n
    let (r, g) := reduceCombine k f (Memory.readNat ms1.mem pa n) v
    let red := if same then ms1.reduce else ms1.reduce ++ [⟨pa / 512, k, f, [], []⟩]
    ({ ms1 with mem := Memory.writeNat ms1.mem pa n r, reduce := red }, g)
  else
    let alike (g : Fmt) : Bool := if k = .sum then !fmtIsFloat g && fmtWidth g == fmtWidth f else g == f
    let same (l : ReduceLine) : Bool := l.line = pa / 512 && l.kind = k && alike l.fmt
    let ms1 := if ms.reduce.any same then ms else ms.merge pa n
    let line := (ms1.reduce.find? same).getD ⟨pa / 512, k, f, [], []⟩
    let (r, g) := reduceCombine k f (Table.get line.parts pa (reduceIdentity k f)) v
    ({ ms1 with
      reduce := ms1.reduce.filter (fun l => !same l) ++
        [{ line with parts := Table.set line.parts pa r, who := Table.set line.who pa who }] }, g)

/-! Memory at the point of coherence: what the L2, the MSC and DRAM give an access that the directory serves (R218, R219). -/

/-- Read `n` bytes at the point of coherence. -/
def MemSys.cread (ms : MemSys) (pa n : Nat) : List Byte := Memory.read (ms.merge pa n).mem pa n

/-- A write that covers whole sectors makes them correctable again (R241, R465). -/
def MemSys.unpoison (ms : MemSys) (pa n : Nat) : MemSys :=
  if ms.poison.isEmpty then ms
  else { ms with poison := ms.poison.filter fun q => !(decide (pa ≤ q * 64) && decide (q * 64 + 64 ≤ pa + n)) }

/-- The older bytes of a span that the MSC holds are written over. -/
def MemSys.catchUp (ms : MemSys) (pa n : Nat) : MemSys :=
  if ms.msc.isEmpty then ms else { ms with msc := ms.msc.filter fun c => !(decide (pa ≤ c.1) && decide (c.1 < pa + n)) }

/-- Write bytes at the point of coherence. -/
def MemSys.cwrite (ms : MemSys) (pa : Nat) (bs : List Byte) : MemSys :=
  let ms := ((ms.merge pa bs.length).unpoison pa bs.length).catchUp pa bs.length
  { ms with mem := Memory.write ms.mem pa bs }

/-- A span meets an uncorrectable sector (R241, R465). -/
def MemSys.poisoned (ms : MemSys) (pa n : Nat) : Bool :=
  ms.poison.any fun q => decide (q * 64 < pa + n) && decide (pa < q * 64 + 64) && decide (0 < n)

/-- The number at an address, at the point of coherence. -/
def MemSys.creadNat (ms : MemSys) (pa n : Nat) : Nat := leNat (ms.cread pa n)

def MemSys.cwriteNat (ms : MemSys) (pa n v : Nat) : MemSys := ms.cwrite pa (leBytes n v)

/-! The memory-side cache apart from the L2 (R218, R367). -/

/-- The byte the MSC holds. -/
def MemSys.mscByte (ms : MemSys) (pa : Nat) : Byte := Table.get ms.msc pa (Memory.byte ms.mem pa)

/-- The MSC keeps its bytes of a span as they are now. -/
def MemSys.keepOld (ms : MemSys) (pa : Nat) : Nat → Table Byte
  | 0 => ms.msc
  | n + 1 => Table.set (ms.keepOld pa n) (pa + n) (ms.mscByte (pa + n))

/-- The L2 writes a sector back. -/
def MemSys.l2Writeback (ms : MemSys) (sector : Nat) : MemSys := ms.catchUp (sector * 64) 64

/-- Bytes that the L2s of the two Apex dies hold (R18). -/
def l2Bytes : Nat := 2 * 96 * 2 ^ 20

/-- The L2s hold no more than they have room for (R18): one more sector is written back. -/
def MemSys.l2Room (ms : MemSys) : MemSys :=
  match ms.msc.drop l2Bytes, ms.msc with
  | _ :: _, c :: _ => ms.l2Writeback (c.1 / 64)
  | _, _ => ms

/-- A write that the L2 holds: the MSC's bytes stay until the line is written back (R228, R367). -/
def MemSys.l2write (ms : MemSys) (pa : Nat) (bs : List Byte) : MemSys :=
  let ms := ms.merge pa bs.length
  ({ ms.cwrite pa bs with msc := ms.keepOld pa bs.length } : MemSys).l2Room

/-- Read at the MSC. -/
def MemSys.kread (ms : MemSys) (pa n : Nat) : List Byte :=
  if ms.msc.isEmpty then ms.cread pa n else let ms := ms.merge pa n; (List.range n).map fun i => ms.mscByte (pa + i)

/-- Write at the MSC: a byte the L2 holds a newer value of keeps that value for the others. -/
def MemSys.kwrite (ms : MemSys) (pa : Nat) (bs : List Byte) : MemSys :=
  if ms.msc.isEmpty then ms.cwrite pa bs
  else
    let ms := ms.merge pa bs.length
    let held (a : Nat) : Bool := ms.msc.any fun c => c.1 == a
    let mixed := bs.zipIdx.map fun b => if held (pa + b.2) then Memory.byte ms.mem (pa + b.2) else b.1
    { ms.cwrite pa mixed with
      msc := bs.zipIdx.foldl (fun t b => if held (pa + b.2) then Table.set t (pa + b.2) b.1 else t) ms.msc }

def MemSys.kreadNat (ms : MemSys) (pa n : Nat) : Nat := leNat (ms.kread pa n)

def MemSys.kwriteNat (ms : MemSys) (pa n v : Nat) : MemSys := ms.kwrite pa (leBytes n v)

/-! L1 data caches (R262): sectors with the core's own dirty bytes, and clean bytes that may be old. A sector's mask has a bit
for every 4-bit unit, the smallest a store writes (R248). -/

def MemSys.l1Find (ms : MemSys) (core sector : Nat) : Option L1Sector :=
  ms.l1.find? fun q => q.core = core && q.sector = sector

/-- The 4-bit units of `d` where the mask is set, of `m` elsewhere; `n` units. -/
def mixUnits (mask d m : Nat) : Nat → Nat
  | 0 => 0
  | n + 1 => putBits (mixUnits mask d m n) (4 * n) 4 (bits (if bitAt mask n then d else m) (4 * n) 4)

/-- Byte `i` of a sector: as it is held where `useClean` allows it, else what the core wrote over the byte `m` of memory. -/
def L1Sector.byte (q : L1Sector) (i : Nat) (useClean : Bool) (m : Byte) : Byte :=
  let d := bits q.data (8 * i) 8
  BitVec.ofNat 8 (if useClean then d else mixUnits (bits q.dirty (2 * i) 2) d m.toNat 2)

/-- Byte of a near stream's read: the core's dirty byte, or a clean one where `useClean` allows it, else memory. -/
def MemSys.nearByte (ms : MemSys) (core pa : Nat) (useClean : Bool) : Byte :=
  match ms.l1Find core (pa / 64) with
  | some q => q.byte (pa % 64) useClean (Memory.byte ms.mem pa)
  | none => Memory.byte ms.mem pa

def MemSys.nearBytes (ms : MemSys) (core pa : Nat) (useClean : Bool) : Nat → List Byte
  | 0 => []
  | n + 1 => ms.nearByte core pa useClean :: ms.nearBytes core (pa + 1) useClean n

/-- Bytes of a sector go to the L2, or through it to the MSC (R228). -/
def MemSys.writeBack (ms : MemSys) (raw : Bool) (pa : Nat) (bs : List Byte) : MemSys :=
  if raw then ms.cwrite pa bs else ms.l2write pa bs

/-- The units of byte `n` that the core wrote are written back. -/
def MemSys.flushByte (ms : MemSys) (q : L1Sector) (n : Nat) : MemSys :=
  if bits q.dirty (2 * n) 2 = 0 then ms
  else ms.writeBack q.raw (q.sector * 64 + n) [q.byte n false (BitVec.ofNat 8 (ms.creadNat (q.sector * 64 + n) 1))]

/-- The bytes of a sector's dirty mask are written back. -/
def MemSys.flushMask (ms : MemSys) (q : L1Sector) : Nat → MemSys
  | 0 => ms
  | n + 1 => (ms.flushMask q n).flushByte q n

/-- Write back a core's dirty sector (R257); it stays as a clean sector. -/
def MemSys.l1Flush (ms : MemSys) (core sector : Nat) : MemSys :=
  match ms.l1Find core sector with
  | some q =>
    let ms := if q.dirty = 2 ^ 128 - 1 then ms.writeBack q.raw (sector * 64) (leBytes 64 q.data) else ms.flushMask q 64
    { ms with l1 := ms.l1.map fun p =>
      if p.core = core ∧ p.sector = sector then { p with dirty := 0, raw := false, loose := 0 } else p }
  | none => ms

/-- A core drops a sector. -/
def MemSys.l1Drop (ms : MemSys) (core sector : Nat) : MemSys :=
  { ms with l1 := ms.l1.filter fun q => !(q.core = core && q.sector = sector) }

/-- Sectors of an L1 data cache: 512 KiB (R16, R218). -/
def l1Sectors : Nat := 8192

/-- Room for one more sector in a core's L1: a full one evicts its oldest sector (R257). -/
def MemSys.l1Room (ms : MemSys) (core : Nat) : MemSys :=
  let mine := ms.l1.filter fun q => q.core == core
  match mine.drop (l1Sectors - 1) with
  | [] => ms
  | _ :: _ =>
    match mine with
    | q :: _ => (ms.l1Flush core q.sector).l1Drop core q.sector
    | [] => ms

/-- Put a sector into a core's L1 if it is not there. -/
def MemSys.l1Alloc (ms : MemSys) (core sector : Nat) : MemSys :=
  match ms.l1Find core sector with
  | some _ => ms
  | none =>
    let ms := (ms.l1Room core).merge (sector * 64) 64
    { ms with l1 := ms.l1 ++ [⟨core, sector, leNat (Memory.read ms.mem (sector * 64) 64), 0, false, 0⟩] }

/-- Change the sectors that hold an address in a core's L1. -/
def MemSys.l1At (ms : MemSys) (core pa : Nat) (f : L1Sector → L1Sector) : MemSys :=
  { ms with l1 := ms.l1.map fun q => if q.core = core ∧ q.sector = pa / 64 then f q else q }

/-- The bytes of `bs` from address `pa` on, put into the copies a core holds. -/
def MemSys.l1Put (ms : MemSys) (core pa : Nat) : List Byte → MemSys
  | [] => ms
  | b :: bs =>
    (ms.l1At core pa fun q =>
      { q with data := putBits q.data (8 * (pa % 64)) 8 b.toNat, loose := putBits q.loose (pa % 64) 1 0 }).l1Put core (pa + 1) bs

/-- They are kept in the core, dirty: they go to the MSC when they are written back (`raw`), and each may be written back alone
(`loose`). -/
def MemSys.l1Store (ms : MemSys) (core pa : Nat) (raw loose : Bool) : List Byte → MemSys
  | [] => ms
  | b :: bs =>
    ((ms.l1Alloc core (pa / 64)).l1At core pa fun q =>
      { q with data := putBits q.data (8 * (pa % 64)) 8 b.toNat, dirty := putBits q.dirty (2 * (pa % 64)) 2 3, raw := q.raw || raw,
               loose := putBits q.loose (pa % 64) 1 (if loose then 1 else 0) }).l1Store core (pa + 1) raw loose bs

/-- One 4-bit unit of the byte at `pa`, kept in the core (R248). -/
def MemSys.l1PutUnit (ms : MemSys) (core pa : Nat) (raw : Bool) (j c : Nat) : MemSys :=
  (ms.l1Alloc core (pa / 64)).l1At core pa fun q =>
    { q with data := putBits q.data (8 * (pa % 64) + 4 * j) 4 c, dirty := putBits q.dirty (2 * (pa % 64) + j) 1 1, raw := q.raw || raw }

/-- A byte of a misaligned store is performed alone (R248). -/
def MemSys.l1Spill (ms : MemSys) (core pa : Nat) : MemSys :=
  match ms.l1Find core (pa / 64) with
  | some q =>
    if bitAt q.loose (pa % 64) then
      (ms.flushByte q (pa % 64)).l1At core pa fun q =>
        { q with dirty := putBits q.dirty (2 * (pa % 64)) 2 0, loose := putBits q.loose (pa % 64) 1 0 }
    else ms
  | none => ms

/-- Write back every dirty sector of a core: a release point performs its near writes (R253, R257). -/
def MemSys.l1FlushCore (ms : MemSys) (core : Nat) : MemSys :=
  ((ms.l1.filter fun q => q.core = core && q.dirty != 0).map L1Sector.sector).foldl (fun m q => m.l1Flush core q) ms

/-- The units a core did not write take the value memory holds; a sector it wrote nothing of is dropped. -/
def L1Sector.refresh (m : Memory) (q : L1Sector) : Option L1Sector :=
  if q.dirty = 0 then none
  else some { q with data := mixUnits q.dirty q.data (leNat (Memory.read m (q.sector * 64) 64)) 128 }

/-- Refresh the sectors of a core that a test picks: their lines are merged first (R268). -/
def MemSys.l1Refresh (ms : MemSys) (core : Nat) (hit : Nat → Bool) : MemSys :=
  let mine (q : L1Sector) : Bool := q.core == core && hit q.sector
  let ms := (ms.l1.filter fun q => mine q && q.dirty != 0).foldl (fun m q => m.merge (q.sector * 64) 64) ms
  { ms with l1 := ms.l1.filterMap fun q => if mine q then q.refresh ms.mem else some q }

/-- Invalidate the clean sectors of a core (R262); the bytes of a dirty sector that the core did not write take the value
memory holds (R255). -/
def MemSys.l1Invalidate (ms : MemSys) (core : Nat) : MemSys := if ms.l1.isEmpty then ms else ms.l1Refresh core fun _ => true

/-- The sectors of a span. -/
def inSpan (pa n sector : Nat) : Bool := decide (pa < sector * 64 + 64) && decide (sector * 64 < pa + n)

/-- A read that goes past a core's clean copies of a span leaves none older than what it returns (R249). -/
def MemSys.l1Catch (ms : MemSys) (core pa n : Nat) : MemSys := if ms.l1.isEmpty then ms else ms.l1Refresh core (inSpan pa n)

/-! Bytes read ahead (R251, R252). -/

/-- What a hart has read ahead of some bytes is read again. -/
def MemSys.dropEarly (ms : MemSys) (h pa n : Nat) : MemSys :=
  if ms.early.isEmpty then ms
  else { ms with early := ms.early.filter fun e => !(e.hart == h && decide (e.pa < pa + n) && decide (pa < e.pa + e.bytes.length)) }

/-- Everything a hart has read ahead is read again. -/
def MemSys.endEarly (ms : MemSys) (h : Nat) : MemSys :=
  if ms.early.isEmpty then ms else { ms with early := ms.early.filter fun e => e.hart != h }

/-- A byte that a hart has read ahead. -/
def MemSys.earlyByte (ms : MemSys) (h pa : Nat) : Option Byte :=
  ms.early.findSome? fun e => if e.hart = h ∧ e.pa ≤ pa then e.bytes[pa - e.pa]? else none

/-- A plain read of a hart returns bytes it has read ahead: all of them read together, or, where the access is not naturally
aligned, each byte for itself and the others as `now` gives them (R248). -/
def MemSys.earlyBytes (ms : MemSys) (h pa n : Nat) (now : List Byte) : Option (List Byte) :=
  match ms.early.find? fun e => e.hart == h && decide (e.pa ≤ pa) && decide (pa + n ≤ e.pa + e.bytes.length) with
  | some e => some ((e.bytes.drop (pa - e.pa)).take n)
  | none =>
    if n ≠ 0 ∧ pa % n ≠ 0 ∧ (List.range n).any (fun i => (ms.earlyByte h (pa + i)).isSome) = true then
      some ((List.range n).map fun i => (ms.earlyByte h (pa + i)).getD (now.getD i 0))
    else none

/-- Drop every copy of a frame's lines without write-back (R240). -/
def MemSys.l1Discard (ms : MemSys) (pa n : Nat) : MemSys :=
  { ms with l1 := ms.l1.filter fun q => !(decide (pa ≤ q.sector * 64) && decide (q.sector * 64 < pa + n)) }

/-! L1 instruction caches (R16, R90). -/

/-- Words of an L1 instruction cache: 256 KiB. -/
def codeWords : Nat := 32768

def MemSys.codeFind (ms : MemSys) (core pa : Nat) : Option CodeWord := ms.code.find? fun c => c.core == core && c.pa == pa

/-- A word enters a core's instruction cache; a full one loses its oldest word. -/
def MemSys.codeFill (ms : MemSys) (core pa value : Nat) : MemSys :=
  let (mine, others) := (ms.code.filter fun c => !(c.core == core && c.pa == pa)).partition fun c => c.core == core
  { ms with code := others ++ mine.drop (mine.length + 1 - codeWords) ++ [⟨core, pa, value⟩] }

/-- The instruction caches of a quad are invalidated (R90). -/
def MemSys.codeInvalidate (ms : MemSys) (quad : Nat) : MemSys := { ms with code := ms.code.filter fun c => c.core / 4 != quad }

end Sys2Proof.Machine
end

