-- ==== Sys2Proof/Machine/Xlate.lean ====
section
/-! DEFINITION. The physical address map, page walks, leaves and the TLB, migration touches (R220 to R245). -/

namespace Sys2Proof.Machine

/-- The outcome of an access or of a check: a value, a fault, or held by a migration record (R240). -/
inductive Acc (α : Type) where
  | ok (a : α)
  | fault (f : FaultInfo)
  | held (pa : Nat)
  deriving DecidableEq, Repr

def Acc.bind {α β : Type} (x : Acc α) (f : α → Acc β) : Acc β :=
  match x with
  | .ok a => f a
  | .fault e => .fault e
  | .held p => .held p

def Acc.map {α β : Type} (f : α → β) (x : Acc α) : Acc β := x.bind fun a => .ok (f a)

/-- A fault carrying its virtual address and reason (R244). -/
def accFault {α : Type} (code reason : BitVec 8) (va : Nat) : Acc α := .fault ⟨code, reason, BitVec.ofNat 64 va, 0, 0⟩

/-- The regions of R220. -/
inductive Region where
  | striped | stackLocal | host | reg | unbacked
  deriving DecidableEq, Repr

def regionOf (pa : Nat) : Region :=
  match pa / 2 ^ 44 with
  | 0 => .striped
  | 1 => .stackLocal
  | 8 | 9 | 10 | 11 => .host
  | 15 => .reg
  | _ => .unbacked

/-- Number of active stacks (R221). -/
def State.nact (s : State) : Nat := popcount s.plat.active.toNat 16

/-- Stack `t` is active. -/
def State.stackActive (s : State) (t : Nat) : Bool := s.plat.active.getLsbD t

/-- The `j`-th active stack, counted from the lowest as 0 (R221). -/
def State.nthActive (s : State) (j : Nat) : Nat :=
  (((List.range 16).filter s.stackActive).drop j).headD 0

/-- The stack that owns the line of an address (R221, R222). -/
def State.ownerOf (s : State) (pa : Nat) : Nat :=
  match regionOf pa with
  | .stackLocal => bits pa 36 4
  | _ => s.nthActive (bits pa 0 44 / 512 % max s.nact 1)

/-- One address is backed by device memory (R221, R222). -/
def State.backedAt (s : State) (pa : Nat) : Bool :=
  match regionOf pa with
  | .striped => decide (bits pa 0 44 < s.plat.share.toNat * 2 ^ 30 * s.nact)
  | .stackLocal =>
    bits pa 40 4 == 0 && s.stackActive (bits pa 36 4) && decide (bits pa 0 36 < (64 - s.plat.share.toNat) * 2 ^ 30)
  | _ => false

/-- Every byte of a span is backed: both pools are contiguous up to their ends. -/
def State.backed (s : State) (pa n : Nat) : Bool :=
  n == 0 || (s.backedAt pa && s.backedAt (pa + n - 1) && regionOf pa == regionOf (pa + n - 1) &&
    (regionOf pa != .stackLocal || bits pa 36 4 == bits (pa + n - 1) 36 4))

/-- The device holds the address: a striped or stack-local one. -/
def isDevicePa (pa : Nat) : Bool := regionOf pa == .striped || regionOf pa == .stackLocal

/-! Contexts by number. -/

def State.ctx (s : State) (c : Nat) : Context := Table.get s.cmp.contexts c .reset

def State.setCtx (s : State) (c : Nat) (k : Context) : State :=
  { s with cmp := { s.cmp with contexts := Table.set s.cmp.contexts c k } }

/-! The walk (R230 to R234). -/

/-- Index into the table of a level (R229). -/
def vaIndex (level va : Nat) : Nat :=
  match level with
  | 1 => bits va 40 12
  | 2 => bits va 28 12
  | _ => bits va 16 12

/-- Bytes a leaf of a level maps. -/
def leafSize : Nat → Nat
  | 1 => 2 ^ 40
  | 2 => 2 ^ 28
  | _ => 2 ^ 16

/-- A malformed entry (R234). -/
def malformedPte (own : Nat) (e level : Nat) : Bool :=
  let pa := bits e 16 32 * 2 ^ 16
  let t := bitAt e 1
  let pools := regionOf pa == .striped || (regionOf pa == .stackLocal && bits pa 40 4 == 0)
  bits e 58 6 != 0 || bits e 11 5 != 0 || bits e 9 2 == 3 || (bitAt e 3 && !bitAt e 2) ||
    (t && (bits e 2 9 != 0 || bits e 48 10 != own || !pools || level == 3)) ||
    (!t && level == 1 && bits pa 16 24 != 0) || (!t && level == 2 && bits pa 16 12 != 0) ||
    (!t && level != 3 && (bitAt e 7 || bitAt e 8)) ||
    (!t && level == 3 && bitAt e 7 && regionOf pa != .stackLocal)

/-- What a leaf entry says. -/
def leafOf (own e level ea : Nat) : Leaf where
  base := bits e 16 32 * 2 ^ 16
  size := leafSize level
  peer := if bits e 48 10 = own then none else some (bits e 48 10)
  cp := if bitAt e 7 then 2 else bits e 9 2
  mig := bitAt e 8
  kv := bitAt e 7
  r := bitAt e 2
  w := bitAt e 3
  x := bitAt e 4
  pte := ea
  entry := e
  path := []

/-! Migration records (R239, R240). -/

/-- No record is PENDING or ARMED. -/
def MemSys.migIdle (ms : MemSys) : Bool := ms.mig.recs.toList.all fun r => r.st = .free || r.st = .done

/-- The record whose new frame holds an address, if it is PENDING or ARMED. -/
def MemSys.migOf (ms : MemSys) (pa : Nat) : Option Nat :=
  (List.range 64).find? fun i =>
    let r := ms.mig.recs[i]?.getD .reset
    (r.st = .pending || r.st = .armed) && r.new == pa / 2 ^ 16

/-- Where the bytes of a line stand for a read: an unfilled line of an ARMED record still in the old frame, which the fill
copies; a PENDING record holds the read (R240). -/
def MemSys.migAt (ms : MemSys) (pa : Nat) : Acc Nat :=
  if ms.migIdle then .ok pa
  else
    match ms.migOf pa with
    | none => .ok pa
    | some i =>
      let r := ms.mig.recs[i]?.getD .reset
      if r.st = .pending then .held pa
      else if bitAt r.lines (pa / 512 % 128) then .ok pa
      else .ok (r.old * 2 ^ 16 + pa % 2 ^ 16)

/-! The walk (R230, R233, R236). -/

/-- The levels still to walk from a table on (R230); the path of the leaf names the entries read. An entry at an address
that no memory backs gives fault 0x06 with reason 5. DESIGN CHOICE (log 49). -/
def State.walkFrom (s : State) (va : Nat) : Nat → Nat → Nat → Acc Leaf
  | 0, _, _ => accFault 0x05 1 va
  | fuel + 1, level, table =>
    let ea := table + 8 * vaIndex level va
    let own := s.plat.pkg.toNat
    if !s.backed ea 8 then accFault 0x06 5 va
    else
      (s.ms.migAt ea).bind fun at_ =>
        if s.ms.poisoned at_ 8 then accFault 0x10 0 va
        else
          let e := s.ms.creadNat at_ 8
          if !bitAt e 0 then accFault 0x05 0 va
          else if malformedPte own e level then accFault 0x05 1 va
          else if bitAt e 1 then
            (s.walkFrom va fuel (level + 1) (bits e 16 32 * 2 ^ 16)).map fun l => { l with path := ea :: l.path }
          else .ok { leafOf own e level ea with path := [ea] }

/-- The walk of a context's tables for an address (R230). -/
def State.walk (s : State) (c va : Nat) : Acc Leaf := s.walkFrom va 3 1 ((s.ctx c).ptroot.toNat * 2 ^ 16)

/-- A translation that covers `pages` pages from `vpn` on is affected (R238). -/
def TiCmd.hits (c : TiCmd) (ctx vpn pages : Nat) : Bool :=
  match c with
  | .page k p => ctx == k && decide (vpn ≤ p) && decide (p < vpn + pages)
  | .context k => ctx == k
  | .all => true

def TiCmd.hitsEntry (c : TiCmd) (e : TlbEntry) : Bool := c.hits e.ctx e.vpn e.pages

/-- Far accesses are performed past every L1 (R258), with the translations their pieces carry: under a core number that no
core has. -/
def farCore : Nat := 97

/-- The number under which an engine's accesses translate and pass every L1 (R258): no core has it. -/
def engCore : Nat := 98

/-- An access may use the entry: an entry that the command in progress affects is used or not, as `lag.stale` says for each
access (R238); what far work and engine commands carry is used. -/
def State.usable (s : State) (e : TlbEntry) : Bool :=
  match s.ms.ti.cmd with
  | none => true
  | some c => s.lag.stale || e.core == farCore || e.core == engCore || !c.hitsEntry e

/-- A TLB entry that covers the address, if the core holds one (R236). -/
def State.tlbFind (s : State) (core c va : Nat) : Option TlbEntry :=
  s.ms.tlb.find? fun e => e.core = core && e.ctx = c && decide (e.vpn ≤ va / 2 ^ 16) && decide (va / 2 ^ 16 < e.vpn + e.pages) &&
    s.usable e

/-- Bits A and D that an access needs in its leaf's entry (R233). -/
def needAD (store : Bool) : Nat := if store then 96 else 32

/-- Translate through the core's TLB, or walk. An entry held with D = 0 is walked again at a store; one that lacks A is
used where the entry in memory is still the one read, since A is set by a compare-and-swap against it (R233). -/
def State.translate (s : State) (core c va : Nat) (store : Bool) : Acc Leaf :=
  match s.tlbFind core c va with
  | some e =>
    if e.leaf.entry &&& needAD store = needAD store then .ok { e.leaf with path := [] }
    else if !store && s.ms.creadNat e.leaf.pte 8 == e.leaf.entry then .ok { e.leaf with path := [e.leaf.pte] }
    else s.walk c va
  | none => s.walk c va

/-- Set PTE.A, and PTE.D for a store or atomic (R233), in the entry the leaf was read from and in the copies held of it. A
remote package's entries are its own; these are the local ones. -/
def State.setAD (s : State) (leaf : Leaf) (store : Bool) : State :=
  let e := s.ms.creadNat leaf.pte 8
  let e' := e ||| needAD store
  if leaf.entry &&& needAD store = needAD store ∨ e = e' then s
  else
    let ms := s.ms.cwriteNat leaf.pte 8 e'
    { s with ms := { ms with tlb := ms.tlb.map fun q =>
      if q.leaf.pte = leaf.pte ∧ q.leaf.entry = leaf.entry then { q with leaf := { q.leaf with entry := e' } } else q } }

/-! Fills (R239 to R243). -/

/-- The frame of an address, new or old, belongs to a PENDING or ARMED record (R243). -/
def MemSys.migrating (ms : MemSys) (frame : Nat) : Bool :=
  ms.mig.recs.toList.any fun r => (r.st = .pending || r.st = .armed) && (r.new == frame || r.old == frame)

/-- Copy one unfilled 512 B line of an ARMED record from the old frame, uncorrectable sectors kept (R240, R241); the option is
the entry whose PTE.MIG the last fill clears. -/
def MemSys.migCopy (ms : MemSys) (i line : Nat) : MemSys × Option Nat :=
  let r := ms.mig.recs[i]?.getD .reset
  if r.st = .armed ∧ line < 128 ∧ bitAt r.lines line = false then
    let src := r.old * 2 ^ 16 + 512 * line
    let dst := r.new * 2 ^ 16 + 512 * line
    let ms := ms.merge src 512
    let bad := (List.range 8).filter fun q => ms.poison.contains (src / 64 + q)
    let ms1 := ms.cwrite dst (ms.cread src 512)
    let ms2 := { ms1 with poison := bad.foldl (fun p q => setInsert (dst / 64 + q) p) ms1.poison }
    let filled := r.filled + 1
    let r' := { r with lines := putBits r.lines line 1 1, filled := filled, err := r.err + (if bad.isEmpty then 0 else 1),
                       st := if filled = 128 then .done else .armed }
    ({ ms2 with mig := { ms2.mig with recs := ms2.mig.recs.setIfInBounds i r' } }, if filled = 128 then some r.pte else none)
  else (ms, none)

/-- The atomic AND that clears PTE.MIG: it may find its own line in a frame that migrates, unfilled or held (R240). -/
def MemSys.endMigIn : Nat → MemSys → Nat → MemSys
  | 0, ms, _ => ms
  | fuel + 1, ms, pte =>
    let clear (ms : MemSys) : MemSys := ms.cwriteNat pte 8 (putBits (ms.creadNat pte 8) 8 1 0)
    match ms.migOf pte with
    | none => clear ms
    | some j =>
      if (ms.mig.recs[j]?.getD .reset).st = .pending then { ms with mig := { ms.mig with writes := ms.mig.writes ++ [.endMig pte] } }
      else
        match ms.migCopy j (pte / 512 % 128) with
        | (ms, some next) => MemSys.endMigIn fuel (clear ms) next
        | (ms, none) => clear ms

/-- Clear PTE.MIG: at most every record completes once. -/
def MemSys.endMig (ms : MemSys) (pte : Nat) : MemSys := MemSys.endMigIn 65 ms pte

/-- Fill one line of a record (R240): the last fill clears PTE.MIG. -/
def MemSys.migFill (ms : MemSys) (i line : Nat) : MemSys :=
  match ms.migCopy i line with
  | (ms, some pte) => ms.endMig pte
  | (ms, none) => ms

/-- The lines of every frame of a span that a record migrates are touched (R240). -/
def MemSys.touchFrames (ms : MemSys) (pa n : Nat) : Acc MemSys :=
  (List.range 64).foldl (fun a i => a.bind fun m =>
    let r := m.mig.recs[i]?.getD .reset
    if r.new * 2 ^ 16 < pa + n ∧ pa < r.new * 2 ^ 16 + 2 ^ 16 then
      match r.st with
      | .pending => .held (r.new * 2 ^ 16)
      | .armed => .ok ((List.range 128).foldl (fun m l => m.migFill i l) m)
      | _ => .ok m
    else .ok m) (.ok ms)

/-- First touch of the lines of a span (R240). -/
def MemSys.touch (ms : MemSys) (pa n : Nat) : Acc MemSys :=
  if ms.migIdle then .ok ms
  else
    let lines := ((List.range ((pa + n - 1) / 512 - pa / 512 + 1)).map fun k => pa / 512 + k)
    if n = 0 then .ok ms
    else lines.foldl (fun a l => a.bind fun m =>
      match m.migOf (512 * l) with
      | none => .ok m
      | some i =>
        if (m.mig.recs[i]?.getD .reset).st = .pending then .held (512 * l) else .ok (m.migFill i (l % 128))) (.ok ms)

end Sys2Proof.Machine
end

