-- ==== Sys2Proof/Machine/HartRegs.lean ====
section
/-! DEFINITION. The registers of a hart: the one place that reads and writes them (R69, R70, R113 to R118, R128, R203, R428). -/

namespace Sys2Proof.Machine

/-- Harts per core (R15, R119). -/
def hpcCount (h : Fin 3) : Nat := 2 ^ h.val

/-- Bytes of a vector register (R15). -/
def vlenbOf (h : Fin 3) : Nat := 65536 / hpcCount h

/-- Rows per register for a code of SETRC (R84, R119). -/
def rcRows (c : Fin 6) : Nat := 2 ^ c.val

def Hart.vlenb (h : Hart) : Nat := vlenbOf h.ctl.hpc

/-- HARTNO (R119). -/
def Hart.no (h : Hart) : Nat := h.core * 4 + h.slot

/-! Scalar registers: x0 reads zero and discards writes (R69, R113). -/

def Hart.getX (h : Hart) (r : XReg) : Word := if r = 0 then 0 else h.x[r.toNat]

def Hart.setX (h : Hart) (r : XReg) (v : Word) : Hart :=
  if r = 0 then h else { h with x := h.x.set r.toNat v, xbad := h.xbad &&& ~~~(1#64 <<< r.toNat) }

/-! Uncorrectable sectors of registers (R465): a word of x and a predicate count as one sector each, and writes that together
cover a sector make it good. DESIGN CHOICE (log 39). -/

/-- What remains of the uncorrectable sectors once the bits `cover` of a register are written. -/
def healed (l : List BadSector) (file : RegFile) (n cover : Nat) : List BadSector :=
  if l.isEmpty then []
  else
    (l.map fun b =>
      if b.file = file ∧ b.n = n then { b with left := b.left &&& (onesN 512 ^^^ bits cover (512 * b.sector) 512) } else b).filter
      fun b => b.left != 0

/-- What remains of them once whole predicates are written. -/
def healedK (l : List BadSector) (p : Nat → Bool) : List BadSector := l.filter fun b => !(b.file == .k && p b.n)

/-! Predicates: k0 reads all-true, dead predicates all-false (R69, R118). -/

/-- The whole string of a predicate, `n` bits. -/
def VecRegs.getK (r : VecRegs) (n : Nat) (p : KReg) : Nat :=
  if p = 0 then onesN n else if r.plive.getLsbD p.toNat then r.k[p.toNat] else 0

/-- Write a predicate's string and set its PLIVE bit; k0 discards writes (R118). -/
def VecRegs.setK (r : VecRegs) (p : KReg) (v : Nat) : VecRegs :=
  if p = 0 then r
  else { r with k := r.k.set p.toNat v, plive := r.plive ||| (1#16 <<< p.toNat), bad := healedK r.bad fun n => n == p.toNat }

/-- Make the predicates of a mask all-false and dead (R158). -/
def VecRegs.killK (r : VecRegs) (mask : BitVec 16) : VecRegs :=
  { r with
    k := Vector.ofFn fun i => if i.val ≠ 0 ∧ mask.getLsbD i.val = true then 0 else r.k[i.val]
    plive := (r.plive &&& ~~~mask) ||| 1
    bad := healedK r.bad mask.getLsbD }

/-- A write of PLIVE: every predicate whose bit changes becomes all-false (R118). -/
def VecRegs.setPlive (r : VecRegs) (v : BitVec 16) : VecRegs :=
  let v := v ||| 1
  { r with
    k := Vector.ofFn fun i => if i.val ≠ 0 ∧ (r.plive ^^^ v).getLsbD i.val = true then 0 else r.k[i.val]
    plive := v
    bad := healedK r.bad (r.plive ^^^ v).getLsbD }

/-- Bits of a predicate string (R117). -/
def Hart.klen (h : Hart) : Nat := 2 * h.vlenb

/-- Bit position of element i of row r (R117). -/
def kpos (klen : Nat) (rc : Fin 6) (r i : Nat) : Nat := r * (klen / rcRows rc) + i

/-- The guard of one element position of a string position (R71). -/
def guardBit (tt : BitVec 8) (a b c : Nat) (pos : Nat) : Bool :=
  tt.getLsbD (bits a pos 1 * 4 + bits b pos 1 * 2 + bits c pos 1)

/-- The table of a guard depends on its first, second or third predicate (R71). -/
def ttDepends (tt : BitVec 8) (which : Nat) : Bool :=
  (List.range 8).any fun j => tt.getLsbD j != tt.getLsbD (j ^^^ 2 ^ which)

/-- The guard of a whole instruction: g(0, 0) (R72). -/
def Hart.guard00 (h : Hart) (g : Guard) : Bool :=
  guardBit g.tt (h.vec.getK h.klen g.ga) (h.vec.getK h.klen g.gb) (h.vec.getK h.klen g.gc) 0

/-! Near vector registers (R113 to R116, R428). -/

def VecRegs.getV (r : VecRegs) (n : Nat) : Nat := r.v[n]?.getD 0

def VecRegs.tagV (r : VecRegs) (n : Nat) : RegTag := r.vtags[n]?.getD .n8

def VecRegs.setTagV (r : VecRegs) (n : Nat) (t : RegTag) : VecRegs := { r with vtags := r.vtags.setIfInBounds n t }

/-- Write bits [pos + w - 1 : pos] of a register: its data is dirty up to that unit of 512 B (R427, R428). -/
def VecRegs.putV (r : VecRegs) (n pos w v : Nat) : VecRegs :=
  { r with
    v := r.v.setIfInBounds n (putBits (r.getV n) pos w v)
    vdirty := r.vdirty ||| (1#64 <<< n)
    vhwe := r.vhwe.setIfInBounds n (max (r.vhwe[n]?.getD 0) ((pos + w - 1) / 4096))
    bad := healed r.bad .v n (onesN w <<< pos) }

/-! Far registers: index 8k + f for far register f at far site k (R426). -/

def VecRegs.getF (r : VecRegs) (i : Nat) : FarReg := r.far[i]?.getD .fresh

def VecRegs.setTagF (r : VecRegs) (i : Nat) (t : RegTag) : VecRegs :=
  { r with far := r.far.setIfInBounds i { r.getF i with tag := t } }

def VecRegs.putF (r : VecRegs) (i pos w v : Nat) : VecRegs :=
  let q := r.getF i
  { r with far := r.far.setIfInBounds i { q with bits := putBits q.bits pos w v, dirty := true },
           bad := healed r.bad .f i (onesN w <<< pos) }

/-! Tiles: z[m][n] is bits [16384 m / 4 ...]: word 128m + n (R201, R203). -/

def VecRegs.getZ (r : VecRegs) (z : ZReg) : Nat := r.z[z.toNat]

def VecRegs.zWord (r : VecRegs) (z : ZReg) (m n : Nat) : Nat := bits (r.getZ z) (32 * (128 * m + n)) 32

/-- Write one element of a tile, which becomes dirty. -/
def VecRegs.putZ (r : VecRegs) (z : ZReg) (m n v : Nat) : VecRegs :=
  { r with z := r.z.set z.toNat (putBits (r.getZ z) (32 * (128 * m + n)) 32 v), zdirty := r.zdirty ||| (1#8 <<< z.toNat),
           bad := healed r.bad .z z.toNat (onesN 32 <<< (32 * (128 * m + n))) }

/-- Clear a tile to +0; its dirty bit is cleared (R211). -/
def VecRegs.zeroZ (r : VecRegs) (z : ZReg) : VecRegs :=
  { r with z := r.z.set z.toNat 0, zdirty := r.zdirty &&& ~~~(1#8 <<< z.toNat), bad := healed r.bad .z z.toNat (onesN 524288) }

/-- A register of a hart takes an error beyond correction (R465): the file, none for x, the register, and its sector. -/
def Hart.spoil (h : Hart) (file : Option RegFile) (n sector : Nat) : Hart :=
  match file with
  | none => { h with xbad := h.xbad ||| (1#64 <<< n) }
  | some r => { h with vec := { h.vec with bad := ⟨r, n, sector, onesN 512⟩ :: h.vec.bad } }

/-- A register that a save image holds has an error beyond correction (R427, R431, R465). -/
def Hart.imageSpoilt (h : Hart) : Bool :=
  h.xbad != 0 || h.vec.bad.any fun b =>
    match b.file with
    | .k => h.vec.plive.getLsbD b.n
    | .v => h.vec.vdirty.getLsbD b.n && decide (b.sector / 8 ≤ h.vec.vhwe[b.n]?.getD 0)
    | .f => (h.vec.getF b.n).dirty
    | .z => h.vec.zdirty.getLsbD b.n

/-- A predicate holds an error beyond correction. -/
def VecRegs.kSpoilt (r : VecRegs) (p : KReg) : Bool := p != 0 && r.bad.any fun b => b.file == .k && b.n == p.toNat

/-! Flags (R61). -/

/-- OR flags into FFLAGS and IFLAGS. -/
def Hart.orFlags (h : Hart) (f : Flags) : Hart :=
  { h with ctl := { h.ctl with fflags := h.ctl.fflags ||| f.ff, iflags := h.ctl.iflags ||| f.fi } }

/-! State registers as MFS reads them and MTS writes them (R58 to R60, R86, R119, R436). -/

def CtlRegs.vcfg (c : CtlRegs) : Word :=
  BitVec.ofNat 64 (c.vtag.code.toNat + (if c.vblk then 16 else 0) + c.rc.val * 32 + c.hpc.val * 256)

def CtlRegs.fsiteWord (c : CtlRegs) : Word := BitVec.ofNat 64 (c.fstack.toNat + c.fpkg.toNat * 256)

def RMode.code : RMode → Nat
  | .rne => 1 | .rz => 2 | .ru => 3 | .rd => 4 | .sr => 5

def TrapRegs.ecause (t : TrapRegs) : Word :=
  BitVec.ofNat 64 (t.code.toNat + t.reason.toNat * 2 ^ 8 + t.qpos.toNat * 2 ^ 16 + (if t.ret then 2 ^ 24 else 0) +
    (if t.inh then 2 ^ 25 else 0) + t.trapno.toNat * 2 ^ 32)

def TrapRegs.vecWord (t : TrapRegs) : Word := BitVec.ofNat 64 (t.vec.toNat * 8)

end Sys2Proof.Machine
end

