-- ==== Sys2Proof/Machine/Entry.lean ====
section
/-! DEFINITION. Entries of the vector queue as image words (R429), and finding harts, groups, kernels in the state. -/

namespace Sys2Proof.Machine

/-! A VQ image entry (R429): eight 64-bit words. -/

/-- The capture word at +0x08. -/
def VqEntry.capture (e : VqEntry) : Nat :=
  e.vl % 2 ^ 18 + e.start % 2 ^ 18 * 2 ^ 18 + e.rc.val * 2 ^ 36 + e.vtail % 32 * 2 ^ 39 + e.vtag.code.toNat * 2 ^ 44 +
    (if e.vblk then 2 ^ 48 else 0) + e.frm.code * 2 ^ 49 + (if e.bank then 2 ^ 52 else 0) + (if e.sr then 2 ^ 53 else 0)

/-- The first word of an instruction, 0 for one that has none. -/
def instrWord (i : Instr) : Word := (encode i).headD 0

def VqEntry.words (e : VqEntry) : List Word :=
  [instrWord e.instr, BitVec.ofNat 64 e.capture, e.fsite, e.srctr, e.xa, e.xb, e.addr, if e.sr then e.srseed else 0]

/-- A kind of instruction the VQ holds (R126, R129, R167). -/
def inVq : Instr → Bool
  | .cmp .. | .cmpi .. | .klog .. | .kset .. | .kfromx .. | .kdead .. => true
  | .mts _ r _ => r == .plive
  | .vtag .. | .vextr .. | .ktest .. | .kfirst .. | .ktox .. | .zzero .. | .zld .. | .zst .. | .zopaL .. | .kvinv ..
  | .fenceVv .. | .fenceVs .. => true
  | .vcmp .. | .vadd .. | .vsub .. | .vmul .. | .vmulh .. | .vfma .. | .vfms .. | .vfnma .. | .vdiv .. | .vmin ..
  | .vmax .. | .vadds .. | .vsubs .. | .vand .. | .vor .. | .vxor .. | .vshl .. | .vshr .. | .vscale .. | .vsqrt ..
  | .vrsqrt .. | .vrcp .. | .vexp2 .. | .vlog2 .. | .vabs .. | .vneg .. | .vredsum .. | .vredmax .. | .vredmin ..
  | .vredand .. | .vredor .. | .vargmax .. | .vdot .. | .vsmax .. | .vtopk .. | .vcvt .. | .vqmx .. | .vpack ..
  | .vunpk .. | .vmov .. | .vgathr .. | .vslideup .. | .vslidedn .. | .vcompress .. | .vexpand .. | .viota ..
  | .vtransp .. | .vins .. | .zopa .. | .zfill .. | .zdrain .. | .vld .. | .vlds .. | .vldx .. | .vldff .. | .vst ..
  | .vsts .. | .vstx .. | .vldt .. | .vldtCt .. | .vamoadd .. | .vamofadd .. | .vamomin .. | .vamomax .. | .fredadd ..
  | .fredmax .. | .fscadd .. | .fembag .. | .fatt .. | .fmerge .. | .kvput .. => true
  | _ => false

/-- Read an entry back (R432): none when the word is not a legal instruction the VQ holds, or the capture word lies outside
its encoding. `bankVals` are given for a captured bank. -/
def VqEntry.ofWords (ws : List Word) (bank0 bank1 : List (BitVec 16)) : Option VqEntry :=
  match ws with
  | [w, c, fs, ctr, xa, xb, addr, seed] =>
    match decodeWords w 0 with
    | .ok i =>
      let n := c.toNat
      match RMode.ofCode (BitVec.ofNat 3 (bits n 49 3)) with
      | some frm =>
        if h : bits n 36 3 < 6 then
          if inVq i && bits n 54 10 == 0 && fs &&& ~~~0x3FF0F#64 == 0 && (bitAt n 53 || seed == 0) then
            some { instr := i, addr := addr, vl := bits n 0 18, start := bits n 18 18, rc := ⟨bits n 36 3, h⟩,
                   vtail := bits n 39 5, vtag := Fmt.ofCode (BitVec.ofNat 4 (bits n 44 4)), vblk := bitAt n 48, frm := frm,
                   bank := bitAt n 52, bankVals := if bitAt n 52 then bank1 else bank0, sr := bitAt n 53, fsite := fs,
                   srctr := ctr, srseed := seed, xa := xa, xb := xb }
          else none
        else none
      | none => none
    | .error _ => none
  | _ => none

/-- The hart as the poster of its writes, and as the owner of its flags. -/
def Hart.poster (h : Hart) : Poster := ⟨h.no, h.grp, h.f0, h.kern, h.ctl.wid, none, none⟩

def Hart.owner (h : Hart) : Owner := ⟨h.grp, h.f0⟩

/-! Finding things. -/

/-- Every placed hart. -/
def State.placedHarts (s : State) : List Hart := (s.hart :: s.harts).filter fun h => h.phase ≠ .absent

/-- The hart of a HARTNO. -/
def State.findHart (s : State) (no : Nat) : Option Hart := s.placedHarts.find? fun h => h.no = no

/-- Apply a change to the hart of a HARTNO, wherever it is held. -/
def State.onHart (s : State) (no : Nat) (f : Hart → Hart) : State :=
  if s.hart.no = no ∧ s.hart.phase ≠ .absent then { s with hart := f s.hart }
  else { s with harts := s.harts.map fun h => if h.no = no ∧ h.phase ≠ .absent then f h else h }

/-- Apply a change to every placed hart. -/
def State.mapHarts (s : State) (f : Hart → Hart) : State :=
  { s with hart := (if s.hart.phase ≠ .absent then f s.hart else s.hart),
           harts := s.harts.map fun h => if h.phase ≠ .absent then f h else h }

/-- Bring a hart into focus; with no such hart, no change. -/
def State.focus (s : State) (no : Nat) : State :=
  if s.hart.no = no ∧ s.hart.phase ≠ .absent then s
  else match s.harts.find? fun h => h.no = no ∧ h.phase ≠ .absent with
    | some h =>
      { s with hart := h, harts := (s.harts.filter fun q => !(q.no = no && q.phase ≠ .absent)) ++
          (if s.hart.phase = .absent then [] else [s.hart]) }
    | none => s

/-- Harts of a group, by rising f0. -/
def State.groupHarts (s : State) (g : Nat) : List Hart :=
  let hs := s.placedHarts.filter fun h => h.grp = g
  (List.range 16).filterMap fun i => hs.find? fun h => h.f0 = i

def State.group (s : State) (g : Nat) : Option Group := s.cmp.groups.find? fun q => q.key = g

def State.onGroup (s : State) (g : Nat) (f : Group → Group) : State :=
  { s with cmp := { s.cmp with groups := s.cmp.groups.map fun q => if q.key = g then f q else q } }

def State.kernel (s : State) (k : Nat) : Option Kernel := s.cmp.kernels.find? fun q => q.key = k

def State.onKernel (s : State) (k : Nat) (f : Kernel → Kernel) : State :=
  { s with cmp := { s.cmp with kernels := s.cmp.kernels.map fun q => if q.key = k then f q else q } }

def State.queue (s : State) (q : Nat) : WorkQueue := Table.get s.cmp.queues q .reset

def State.setQueue (s : State) (q : Nat) (w : WorkQueue) : State :=
  { s with cmp := { s.cmp with queues := Table.set s.cmp.queues q w } }

def State.ring (s : State) (r : Nat) : Ring := Table.get s.cmp.rings r .reset

def State.setRing (s : State) (r : Nat) (w : Ring) : State :=
  { s with cmp := { s.cmp with rings := Table.set s.cmp.rings r w } }

/-- A time stamp: the order of two events. -/
def State.stamp (s : State) : Nat × State := (s.cmp.nextOrder, { s with cmp := { s.cmp with nextOrder := s.cmp.nextOrder + 1 } })

/-- A use of a free value: the counter it is applied to. -/
def State.useFree (s : State) : Nat × State := (s.free, { s with free := s.free + 1 })

/-- Read TICK (R119, R164): an open amount of time has passed, and the power drawn is another (R462). TICK never decreases:
the amount is cut where the counter would wrap. -/
def State.readTick (s : State) : Word × State :=
  let (n, s) := s.useFree
  let t := BitVec.ofNat 64 (min (s.plat.tick.toNat + Config.elapsed n) (2 ^ 64 - 1))
  (t, { s with plat := { s.plat with tick := t, pnow := Config.power n } })

/-- Send an MSI-X message (R264): at once, or held back behind the stores that wait for their acknowledgement. -/
def State.msix (s : State) (vec : Nat) : State :=
  if s.link.waiting.isEmpty then { s with link := { s.link with out := s.link.out ++ [.msix vec] } }
  else { s with link := { s.link with msis := s.link.msis ++ [⟨vec, s.link.waiting.length⟩] } }

/-- Messages whose stores are all acknowledged are sent (R264). -/
def LinkState.sendMsis (l : LinkState) : LinkState :=
  { l with
    out := l.out ++ ((l.msis.filter fun m => m.behind == 0).map fun m => .msix m.vec)
    msis := l.msis.filter fun m => m.behind != 0 }

/-- The stores at the listed places of the waiting list leave it; each message waits for those before it. -/
def LinkState.dropStores (l : LinkState) (at_ : List Nat) : LinkState :=
  let l : LinkState :=
    { l with
      waiting := (l.waiting.zipIdx.filter fun p => !at_.contains p.2).map Prod.fst
      msis := l.msis.map fun m => { m with behind := m.behind - (at_.filter fun i => decide (i < m.behind)).length } }
  l.sendMsis

/-- Package memory has acknowledged: write at the point of coherence. -/
def State.cwrite (s : State) (pa : Nat) (bs : List Byte) : State := { s with ms := s.ms.cwrite pa bs }

end Sys2Proof.Machine
end

