-- ==== Sys2Proof/Machine/Access.lean ====
section
/-! DEFINITION. One access to memory: its checks in the order of R272, where its bytes lie, and reading and writing them
(R218 to R229, R232, R233, R248, R262, R271 to R273, R453, R457, R459, R468). -/

namespace Sys2Proof.Machine

/-- Who makes an access: its context, the core whose TLB and L1 it uses, the group whose window it sees (none for the
Compass), the bytes of that window per core, and the master of R468. -/
structure Agent where
  ctx : Nat
  core : Nat
  grp : Option Nat
  lstore : Nat
  master : Master
  deriving DecidableEq, Repr

/-- What an access needs (R232), and which address spaces it may reach: `scalar` the register space (R224), `far` marks
far elements, KVPUT and KVINV (R226, R453); `kv` accesses of a KV page that R273 does not restrict; `exotic` an atomic
that no AtomicOp carries (R453). `chord` marks an access of a Chord engine, `site` the package and stack of a far site
(R294, R468); `past` a write that passes the L1 (R256); `kvOnly` an access that only a KV page admits (R379); `issue` the checks of an engine command at its issue, which meet no
link (R326, R459). -/
structure Want where
  r : Bool := false
  w : Bool := false
  x : Bool := false
  atomic : Bool := false
  scalar : Bool := false
  far : Bool := false
  kv : Bool := false
  exotic : Bool := false
  chord : Bool := false
  site : Option (Nat × Nat) := none
  past : Bool := false
  kvOnly : Bool := false
  issue : Bool := false
  align : Nat := 1
  deriving DecidableEq, Repr

/-- Where bytes lie: `refused` is an address of the host that its translation agent does not give (R453). -/
inductive Place where
  | window (key : Nat)
  | device (pa : Nat)
  | register (pa : Nat)
  | host (pa : Nat)
  | peer (pkg pa : Nat)
  | refused (pa : Nat)
  deriving DecidableEq, Repr

/-- A part of an access within one page or one window: its bytes from `off` on, `n` of them. -/
structure Part where
  off : Nat
  n : Nat
  place : Place
  leaf : Option Leaf
  deriving DecidableEq, Repr

/-- A place moved up by some bytes. -/
def Place.shift (p : Place) (k : Nat) : Place :=
  match p with
  | .window a => .window (a + k)
  | .device a => .device (a + k)
  | .register a => .register (a + k)
  | .host a => .host (a + k)
  | .peer q a => .peer q (a + k)
  | .refused a => .refused (a + k)

/-- First address of the local-store window (R225). -/
def winBase : Nat := 0xFFFFFFF800000

/-- Rank of a fault in R272. -/
def faultRank (f : FaultInfo) : Nat :=
  match f.code.toNat with
  | 0x08 => 1
  | 0x06 => if f.reason = 4 then 2 else 5
  | 0x07 => 3
  | 0x05 => 4
  | 0x09 => 6
  | 0x0F => 7
  | _ => 8

/-- Both parts of an access: the first fault of R272 is reported, a hold only without a fault. -/
def Acc.both {α β : Type} (x : Acc α) (y : Acc β) : Acc (α × β) :=
  match x, y with
  | .fault e, .fault f => .fault (if faultRank f < faultRank e then f else e)
  | .fault e, _ => .fault e
  | _, .fault f => .fault f
  | .held p, _ => .held p
  | _, .held p => .held p
  | .ok a, .ok b => .ok (a, b)

/-- Where the register blocks begin (R224): the chapters' tables, the blocks of one kind together. -/
def regBlocks : List Nat :=
  [0x5010000, 0x5000000, 0x4000000, 0x2000000, 0x1000000, 0x320000, 0x300000, 0x2000, 0x1000, 0x800, 0x400, 0x300, 0x200, 0x100]

/-- The register block of an offset in register space (R468). -/
def regBlockOf (off : Nat) : Target := .regBlock ((regBlocks.find? fun b => decide (b ≤ off)).getD 0)

/-- The target of the access tables an address belongs to (R468). -/
def State.targetOf (s : State) (pa : Nat) : Option Target :=
  match regionOf pa with
  | .striped | .stackLocal => some (.stackMem (s.ownerOf pa))
  | .reg => some (regBlockOf (bits pa 0 44))
  | _ => none

/-- The access tables admit an access (R468): what they do not list they permit. -/
def State.permits (s : State) (m : Master) (t : Target) (write : Bool) : Bool :=
  match s.mgmt.tables.find? fun e => e.target = t && e.master = m with
  | some e => if write then e.write else e.read
  | none => t != .keyStore || m == .meridian

/-- Both permissions that an access needs (R468): an atomic reads and writes. -/
def State.admits (s : State) (m : Master) (t : Target) (reads writes : Bool) : Bool :=
  (!reads || s.permits m t false) && (!writes || s.permits m t true)

/-- The first byte of a span of device memory that the tables keep from its master: the owners change by lines of 512 bytes
(R221, R468). -/
def State.refusedByte (s : State) (m : Nat → Master) (pa n : Nat) (reads writes : Bool) : Option Nat :=
  if s.mgmt.tables.isEmpty || n == 0 then none
  else
    ((List.range ((pa + n - 1) / 512 - pa / 512 + 1)).map fun k => max pa (512 * (pa / 512 + k))).find? fun a =>
      !s.admits (m a) (.stackMem (s.ownerOf a)) reads writes

/-- A span of device memory touches a stack that accepts no work (R466). -/
def State.spanFenced (s : State) (pa n : Nat) : Bool :=
  !s.mgmt.fenced.isEmpty &&
    (List.range ((pa + n - 1) / 512 - pa / 512 + 1)).any fun k => s.mgmt.fenced.contains (.stack (s.ownerOf (max pa (512 * (pa / 512 + k)))))

/-- A port is usable for a package (R457). -/
def State.usablePort (s : State) (pkg p : Nat) : Bool :=
  (Table.get s.link.routes pkg 0).getLsbD p &&
    (match (s.link.ports[p]?.getD .reset).st with
      | .up | .degraded => true
      | _ => false)

/-- The usable ports of a package (R457). -/
def State.usablePorts (s : State) (pkg : Nat) : List Nat := (List.range 12).filter fun p => s.usablePort pkg p

/-- Some usable port routes to the package, and it lies in the domain (R457, R459). -/
def State.reachable (s : State) (pkg : Nat) : Bool :=
  decide (pkg ≤ s.plat.domain.toNat) && !(s.usablePorts pkg).isEmpty

/-- The port for an access to a line of a package: chosen by the line among the usable ones (R457); the choice is open. -/
def State.portFor (s : State) (pkg line : Nat) : Option Nat :=
  let l := s.usablePorts pkg
  l[Config.linePort line (l.foldl (fun n p => n + 2 ^ p) 0) % max l.length 1]?

/-- An access of the hart in focus to a line of a package waits while stores of it to that line are unacknowledged on another
port than the one it would travel on (R457). -/
def State.routeHeld (s : State) (pkg pa : Nat) : Bool :=
  s.link.waiting.any fun p =>
    p.src.grp == s.hart.grp && p.src.f0 == s.hart.f0 && p.peer == some (pkg, pa / 512) && p.port != s.portFor pkg (pa / 512)

/-- The master that makes an access of device memory (R468). -/
def State.masterOf (s : State) (a : Agent) (k : Want) (pa : Nat) : Master :=
  if k.chord then
    .chord (match k.site with
      | some p => p.2
      | none => s.ownerOf pa)
  else a.master

/-- An element of a site instruction lies on the site's package (R294). -/
def Want.onPkg (k : Want) (pkg : Nat) : Bool :=
  match k.site with
  | some p => p.1 == pkg
  | none => true

/-- Bytes of a KV page that stores and atomics may not write (R273): atomics may address the page header. -/
def kvClosed (k : Want) (l : Leaf) (va n : Nat) : Bool :=
  l.kv && k.w && !k.kv && !(k.atomic && decide (va % 2 ^ 16 + n ≤ 0x100))

/-- Lines of the host region may be cached for the context (R453). -/
def State.hostCached (s : State) (c : Nat) (l : Leaf) : Bool := l.cp != 2 && s.plat.cxlcache && !(s.ctx c).pasidEn

/-- The access only stores: what fails on the way to the host or to a peer is asynchronous (R453, R459). -/
def Want.stores (k : Want) : Bool := k.w && !k.r

/-- Where the bytes of one page lie, once its leaf is known, with the checks of R272 after translation. An access that comes to
a fenced stack takes fault 0x10 (R466). DESIGN CHOICE (log 39). -/
def State.placePage (s : State) (a : Agent) (k : Want) (va n whole : Nat) (l : Leaf) : Acc Place :=
  let pa := l.base + va % l.size
  if (k.r && !l.r) || (k.w && !l.w) || (k.x && !l.x) || (k.kvOnly && !l.kv) then accFault 0x06 3 va
  else
    match l.peer with
    | some pkg =>
      if !k.onPkg pkg then accFault 0x06 5 va
      else if kvClosed k l va n then accFault 0x09 0 va
      else if !k.issue && !s.reachable pkg then accFault 0x0F 4 va
      else if k.issue || k.stores || isDevicePa pa then .ok (.peer pkg pa) else accFault 0x0F 1 va
    | none =>
      match regionOf pa with
      | .reg =>
        if !k.scalar || k.far || !(whole == 4 || whole == 8) || n != whole || pa % whole != 0 then accFault 0x06 6 va
        else if !s.admits a.master (regBlockOf (bits pa 0 44)) (k.r || k.x) k.w then accFault 0x06 8 va
        else .ok (.register pa)
      | .host =>
        if k.far then accFault 0x06 5 va
        else if k.exotic && !s.hostCached a.ctx l then accFault 0x06 7 va
        else if !k.issue && s.plat.width = 0 then accFault 0x0F 3 va
        else if (s.ctx a.ctx).pasidEn then
          match Config.hostTranslate (s.ctx a.ctx).pasidId.toNat (bits pa 0 46) with
          | some h => .ok (.host (0x8 * 2 ^ 44 + h % 2 ^ 46))
          | none => if k.issue || k.stores then .ok (.refused pa) else accFault 0x06 5 va
        else .ok (.host pa)
      | .unbacked => accFault 0x06 5 va
      | _ =>
        if !s.backed pa n || !k.onPkg s.plat.pkg.toNat then accFault 0x06 5 va
        else
          match s.refusedByte (s.masterOf a k) pa n (k.r || k.x) k.w with
          | some b => accFault 0x06 8 (va + (b - pa))
          | none =>
            if kvClosed k l va n then accFault 0x09 0 va
            else if !k.issue && s.spanFenced pa n then accFault 0x10 0 va
            else .ok (.device pa)

/-- The leaf as the caches see it: lines of the host region are cached only as R453 says. -/
def State.leafAt (s : State) (c : Nat) (l : Leaf) (p : Place) : Leaf :=
  match p with
  | .host _ => if s.hostCached c l then l else { l with cp := 2 }
  | _ => l

/-- Resolve the bytes of one page. -/
def State.resolvePage (s : State) (a : Agent) (k : Want) (va n whole off : Nat) : Acc (List Part) :=
  (s.translate a.core a.ctx va k.w).bind fun l =>
    (s.placePage a k va n whole l).map fun p => [⟨off, n, p, some (s.leafAt a.ctx l p)⟩]

/-- Resolve the pages of a span, page by page; `fuel` bounds their number. -/
def State.resolvePages (s : State) (a : Agent) (k : Want) (va n whole off : Nat) : Nat → Acc (List Part)
  | 0 => .ok []
  | fuel + 1 =>
    let m := 2 ^ 16 - va % 2 ^ 16
    if n ≤ m then s.resolvePage a k va n whole off
    else ((s.resolvePage a k va m whole off).both (s.resolvePages a k (va + m) (n - m) whole (off + m) fuel)).map
      fun p => p.1 ++ p.2

/-- Every byte of a window span lies in the allocation (R225, R226). -/
def inWindow (lstore w n : Nat) : Bool :=
  let o := w % 2 ^ 21
  if o + n ≤ 2 ^ 21 then decide (o + n ≤ lstore)
  else decide (lstore = 2 ^ 21) && decide (w + n ≤ 2 ^ 23)

/-- The checks of an access of `n` bytes and where its parts lie (R229, R271, R272). -/
def State.resolve (s : State) (a : Agent) (k : Want) (va n : Nat) : Acc (List Part) :=
  let last := va + n - 1
  if va % k.align != 0 then accFault 0x08 0 va
  else if 2 ^ 52 ≤ va then accFault 0x06 4 va
  else if winBase ≤ last && n != 0 then
    match a.grp with
    | none => accFault 0x06 6 va
    | some g =>
      if va < winBase then accFault 0x07 0 va
      else if !inWindow a.lstore (va - winBase) n then accFault 0x07 0 va
      else if k.far || k.x then accFault 0x06 6 va
      else .ok [⟨0, n, .window (lsKey g 0 (va - winBase)), none⟩]
  else if n = 0 then .ok []
  else s.resolvePages a k va n n 0 (n / 2 ^ 16 + 2)

/-! Remote and host answers (R457, R459). -/

/-- The answer to a remote or host request: the next one that has arrived, or an open value when none has (log 9). -/
def State.nextAnswer (s : State) : Option RemoteResult × State :=
  match s.link.answers with
  | [] => (none, s)
  | r :: rest => (some r, { s with link := { s.link with answers := rest } })

/-- A failed access counts in LFAILED of the port it travelled on (R455, R457, R459). -/
def State.countFailed (s : State) (port : Option Nat) : State :=
  match port with
  | none => s
  | some p =>
    let q := s.link.ports[p]?.getD .reset
    { s with link := { s.link with ports := s.link.ports.setIfInBounds p { q with failed := q.failed + 1 } } }

/-! What a fault tells of an access: the security alarm, and the answer it used up (R459, R469). -/

/-- A refused access of R468 raises the security alarm (R469). -/
def State.alarm (s : State) (e : AlarmEntry) : State :=
  let m := s.mgmt
  { s with
    mgmt := { m with alarmLog := m.alarmLog ++ [e], alarms := m.alarms + 1, locked := m.locked || m.alarm == 1 || m.alarm == 2,
                     keyErased := m.keyErased || m.alarm == 2 } }

/-- The leaf and the physical address that a faulting address has. -/
def State.faultLeaf (s : State) (core ctx : Nat) (f : FaultInfo) : Option (Leaf × Nat) :=
  match s.translate core ctx f.va.toNat false with
  | .ok l => some (l, l.base + f.va.toNat % l.size)
  | _ => none

/-- The alarm of a fault with reason 8, at the address its leaf gives; `m` names the master by that address. -/
def State.alarmOf (s : State) (m : Nat → Master) (core ctx : Nat) (f : FaultInfo) : State :=
  if f.code = 0x06 ∧ f.reason = 8 then
    match s.faultLeaf core ctx f with
    | some (_, pa) =>
      match s.targetOf pa with
      | some t => s.alarm ⟨m pa, t, pa⟩
      | none => s
    | none => s
  else s

/-- The oldest answer has been used. -/
def State.dropAnswer (s : State) : State := { s with link := { s.link with answers := s.link.answers.drop 1 } }

/-- The answer that a fault reports has been used, and a failure is counted at its port (R455, R459). -/
def State.takeAnswer (s : State) (core ctx : Nat) (f : FaultInfo) : State :=
  match s.link.answers with
  | .failed :: _ =>
    if f.code = 0x0F ∧ f.reason = 2 then
      s.dropAnswer.countFailed ((s.faultLeaf core ctx f).bind fun p => p.1.peer.bind fun q => s.portFor q (p.2 / 512))
    else s
  | .refused :: _ =>
    if (f.code = 0x0F ∧ f.reason = 1) ∨
        (f.code = 0x06 ∧ f.reason = 5 ∧ ((s.faultLeaf core ctx f).any fun p => regionOf p.2 == .host) = true) then s.dropAnswer
    else s
  | .poisoned :: _ =>
    if f.code = 0x10 ∧ ((s.faultLeaf core ctx f).any fun p => p.1.peer.isSome || regionOf p.2 == .host) = true then s.dropAnswer else s
  | _ => s

/-- The entries a walk read are accesses too (R240). -/
def MemSys.touchPath (ms : MemSys) : List Nat → Acc MemSys
  | [] => .ok ms
  | ea :: r => (ms.touch ea 8).bind fun ms => ms.touchPath r

/-- The entries of a walk whose addresses a record migrates are accessed, whatever the walk gives (R240). -/
def State.walkPath (s : State) (va : Nat) : Nat → Nat → Nat → List Nat
  | 0, _, _ => []
  | fuel + 1, level, table =>
    let ea := table + 8 * vaIndex level va
    match s.ms.migAt ea with
    | .ok at_ =>
      let e := s.ms.creadNat at_ 8
      ea :: (if bitAt e 0 && bitAt e 1 && !s.ms.poisoned at_ 8 then s.walkPath va fuel (level + 1) (bits e 16 32 * 2 ^ 16) else [])
    | _ => []

/-- Lines of a page from `va` on are accessed up to the first with uncorrectable data: the lines of an access that met it. -/
def State.touchBad (s : State) (pa : Nat) : Nat → MemSys
  | 0 => s.ms
  | n + 1 =>
    match s.ms.touch pa 1 with
    | .ok ms =>
      if ms.poisoned pa (512 - pa % 512) then ms else ({ s with ms := ms } : State).touchBad (pa / 512 * 512 + 512) n
    | _ => s.ms

/-- A faulting access has filled the lines it met: those of its walk, and those of its own bytes up to the uncorrectable ones
(R240, R241). -/
def State.fillMet (s : State) (core ctx : Nat) (f : FaultInfo) : State :=
  if s.ms.migIdle || decide (winBase ≤ f.va.toNat) then s
  else
    let va := f.va.toNat
    let path := match s.translate core ctx va true with
      | .ok l => l.path
      | _ => s.walkPath va 3 1 ((s.ctx ctx).ptroot.toNat * 2 ^ 16)
    let s := match s.ms.touchPath path with
      | .ok ms => { s with ms := ms }
      | _ => s
    match s.faultLeaf core ctx f with
    | some (l, pa) => if f.code = 0x10 ∧ l.peer = none ∧ isDevicePa pa = true then { s with ms := s.touchBad pa 128 } else s
    | none => s

/-- The fault is one of an access that has been translated, or of its translation (R272). -/
def FaultInfo.walked (f : FaultInfo) : Bool :=
  f.code == 0x05 || (f.code == 0x06 && f.reason != 4) || f.code == 0x09 ||
    (f.code == 0x0F && (f.reason == 1 || f.reason == 2)) || f.code == 0x10

/-- What the fault of an access leaves beside its report. -/
def State.met (s : State) (m : Nat → Master) (core ctx : Nat) (f : FaultInfo) : State :=
  if f.walked then ((s.fillMet core ctx f).alarmOf m core ctx f).takeAnswer core ctx f else s

/-- Bytes of open value. -/
def State.openBytes (s : State) (n : Nat) : List Byte × State :=
  let (k, s) := s.useFree
  ((List.range n).map fun i => Config.openByte k i, s)

/-- `n` bytes of a list, zero beyond its end. -/
def takeBytes (bs : List Byte) (n : Nat) : List Byte := (List.range n).map fun i => bs.getD i 0

/-! Performing the parts of an access. -/

/-- Lines a device part, or the walk that found it, touches become filled; a PENDING record holds the access (R240), and so
does a change of its port (R457). -/
def State.touchPart (s : State) (p : Part) : Acc State :=
  ((match p.leaf with
    | some l => s.ms.touchPath l.path
    | none => .ok s.ms).bind fun ms =>
      match p.place with
      | .device pa => ms.touch pa p.n
      | .peer q pa => if s.routeHeld q pa then .held pa else .ok ms
      | _ => .ok ms).map fun ms => { s with ms := ms }

def State.touchParts (s : State) : List Part → Acc State
  | [] => .ok s
  | p :: r => (s.touchPart p).bind fun s => s.touchParts r

/-- PTE.A and PTE.D of every part (R233). -/
def State.markParts (s : State) (store : Bool) : List Part → State
  | [] => s
  | p :: r =>
    (match p.leaf with
      | some l => s.setAD l store
      | none => s).markParts store r

/-- An uncorrectable sector under a read (R241, R465). -/
def State.partsPoisoned (s : State) (ps : List Part) : Bool :=
  ps.any fun p =>
    match p.place with
    | .device pa => s.ms.poisoned pa p.n
    | .window key => s.ms.lsSpoilt key p.n
    | _ => false

/-- The part may lie in L1 (R228, R235, R243). -/
def Part.cached (p : Part) : Bool :=
  match p.leaf with
  | some l => l.cp == 0 && !l.mig && !l.kv
  | none => false

/-- A write of the part need not be performed at once (R257): 4 is added to the policy of one that is (R256). -/
def Part.waits (p : Part) : Bool :=
  match p.leaf with
  | some l => decide (l.cp < 4) && !l.mig && !l.kv
  | none => false

/-- The part is written at the MSC (R228). -/
def Part.raw (p : Part) : Bool := p.leaf.any fun l => l.cp % 4 == 2

/-- The part lies in a key-value page, whose bytes are the MSC's (R235). -/
def Part.kv (p : Part) : Bool := p.leaf.any fun l => l.kv

/-- A part whose accesses are performed at once, past the L1 (R256). -/
def Part.uncached (p : Part) : Part := { p with leaf := p.leaf.map fun l => { l with cp := l.cp % 4 + 4 } }

/-- A part whose accesses are performed at the MSC (R258). -/
def Part.atMsc (p : Part) : Part := { p with leaf := p.leaf.map fun l => { l with cp := 6 } }

/-- Put the sectors of a span into the core's L1 as clean copies. -/
def MemSys.l1Load (ms : MemSys) (core pa n : Nat) : MemSys :=
  (List.range ((pa + n - 1) / 64 - pa / 64 + 1)).foldl (fun m i => m.l1Alloc core (pa / 64 + i)) ms

/-- Write back the core's own copies of the sectors of a span. -/
def MemSys.l1FlushSpan (ms : MemSys) (core pa n : Nat) : MemSys :=
  if ms.l1.isEmpty || n == 0 then ms
  else (List.range ((pa + n - 1) / 64 - pa / 64 + 1)).foldl (fun m i => m.l1Flush core (pa / 64 + i)) ms

/-- Drop the core's clean copies of the sectors of a span. -/
def MemSys.l1DropSpan (ms : MemSys) (core pa n : Nat) : MemSys :=
  { ms with l1 := ms.l1.filter fun q => !(q.core = core && q.dirty == 0 && decide (pa < q.sector * 64 + 64) && decide (q.sector * 64 < pa + n)) }

/-- The part's bytes are kept by the L2: memory of the device, or of the host where its lines may be cached (R453). -/
def Part.coherent (p : Part) : Option Nat :=
  match p.place with
  | .device pa => some pa
  | .host pa =>
    match p.leaf with
    | some l => if l.cp % 4 != 2 then some pa else none
    | none => none
  | _ => none

/-- Read `n` bytes at a physical address for a core: its own dirty bytes, its clean ones where `useClean` allows it, else
memory, which then stands in its copies (R249, R262). -/
def State.readNow (s : State) (core pa n : Nat) (useClean : Bool) : List Byte × State :=
  let ms := (s.ms.merge pa n).dropEarly s.hart.no pa n
  if ms.l1.isEmpty && !useClean then (ms.cread pa n, { s with ms := ms })
  else
    let ms := if useClean then ms.l1Load core pa n else ms.l1Catch core pa n
    (ms.nearBytes core pa useClean n, { s with ms := ms })

/-- A read of a near stream: with `early`, what the hart has read ahead is returned where it has (R251, R252). -/
def State.readNear (s : State) (core pa n : Nat) (useClean early : Bool) : List Byte × State :=
  if early && !s.ms.early.isEmpty then
    match s.ms.earlyBytes s.hart.no pa n ((s.ms.merge pa n).nearBytes core pa false n) with
    | some bs => (bs, { s with ms := (s.ms.dropEarly s.hart.no pa n).l1Catch core pa n })
    | none => s.readNow core pa n useClean
  else s.readNow core pa n useClean

/-- What a core wrote past its L1 into a span reaches the MSC before the core reads it there (R249). -/
def MemSys.l1FlushRaw (ms : MemSys) (core pa n : Nat) : MemSys :=
  if ms.l1.isEmpty || n == 0 then ms
  else (List.range ((pa + n - 1) / 64 - pa / 64 + 1)).foldl (fun m i =>
    if (m.l1Find core (pa / 64 + i)).any fun q => q.raw then m.l1Flush core (pa / 64 + i) else m) ms

/-- Read `n` bytes of a key-value page (R235, R367). -/
def State.readMsc (s : State) (core pa n : Nat) : List Byte × State :=
  let ms := (s.ms.l1FlushRaw core pa n).merge pa n
  (ms.kread pa n, { s with ms := ms })

/-- Read the bytes of one part for a near stream of `core`. `plain`: a clean L1 sector may satisfy it (R262). -/
def State.readPart (s : State) (core : Nat) (plain : Bool) (va : Nat) (p : Part) : Acc (List Byte × State) :=
  match p.coherent with
  | some pa =>
    .ok (if p.kv then s.readMsc core pa p.n
      else s.readNear core pa p.n (plain && s.lag.clean && p.cached) (plain && decide (core < 96)))
  | none =>
    match p.place with
    | .window key => .ok (s.ms.lsRead key p.n, s)
    | .host pa =>
      match s.nextAnswer with
      | (some (.data bs), s) => .ok (takeBytes bs p.n, s)
      | (some .poisoned, _) => accFault 0x10 0 (va + p.off)
      | (some .refused, _) => accFault 0x06 5 (va + p.off)
      | (some .failed, _) => accFault 0x0F 2 (va + p.off)
      | (_, s) => .ok (s.ms.cread pa p.n, s)
    | .peer _ _ =>
      match s.nextAnswer with
      | (some (.data bs), s) => .ok (takeBytes bs p.n, s)
      | (some .poisoned, _) => accFault 0x10 0 (va + p.off)
      | (some .refused, _) => accFault 0x0F 1 (va + p.off)
      | (some .failed, _) => accFault 0x0F 2 (va + p.off)
      | (_, s) => .ok (s.openBytes p.n)
    | _ => .ok ([], s)

/-- Read the parts of an access, in order; of several faults the first of R272 is reported. -/
def State.readParts (s : State) (core : Nat) (plain : Bool) (va : Nat) : List Part → Acc (List Byte × State)
  | [] => .ok ([], s)
  | p :: r =>
    match s.readPart core plain va p with
    | .ok x => (x.2.readParts core plain va r).map fun y => (x.1 ++ y.1, y.2)
    | x => (x.both (s.dropAnswer.readParts core plain va r)).map Prod.snd

/-- A read that meets uncorrectable data: 0x10, or what comes before it in R272. -/
def State.readBad (s : State) (core va : Nat) (ps : List Part) : FaultInfo :=
  match s.readParts core false va ps with
  | .fault f => f
  | _ => ⟨0x10, 0, BitVec.ofNat 64 va, 0, 0⟩

/-- Read resolved parts: touched, marked and performed. -/
def State.readAll (s : State) (core : Nat) (plain : Bool) (va : Nat) (ps : List Part) : Acc (List Byte × State) :=
  (s.touchParts ps).bind fun s1 =>
    if s1.partsPoisoned ps then .fault (s1.readBad core va ps)
    else (s1.markParts false ps).readParts core plain va ps

/-- A near read of `n` bytes, checked, marked and performed. -/
def State.readAt (s : State) (a : Agent) (k : Want) (plain : Bool) (va n : Nat) : Acc (List Byte × State) :=
  (s.resolve a k va n).bind fun ps => s.readAll a.core plain va ps

/-- An access that is single-copy atomic for each byte alone: not naturally aligned (R248). -/
def tears (pa n : Nat) : Bool := decide (1 < n) && decide (n ≤ 8) && (pa % n != 0 || !(n == 2 || n == 4 || n == 8))

/-- Bytes go to the L2, which may hold them before the MSC has them, or to the MSC (R228, R367). -/
def State.putLower (s : State) (pa : Nat) (raw : Bool) (bs : List Byte) : MemSys :=
  if s.lag.cache then s.ms.writeBack raw pa bs else s.ms.cwrite pa bs

/-- Write bytes of a part at a device address for a near stream of `core` (R218, R228, R257): a plain write may wait in the
core, whatever its policy, and then only in its own bytes. -/
def State.nearPut (s : State) (core pa : Nat) (p : Part) (bs : List Byte) : State :=
  let s : State := { s with ms := s.ms.dropEarly s.hart.no pa bs.length }
  if p.waits && s.lag.cache then
    { s with ms := (s.ms.merge pa bs.length).l1Store core pa p.raw (tears pa bs.length) bs }
  else
    let ms := ({ s with ms := s.ms.l1FlushSpan core pa bs.length } : State).putLower pa p.raw bs
    { s with ms := if ms.l1.isEmpty then ms else ms.l1Put core pa bs }

/-- Write one 4-bit unit of the byte at a device address (R248). -/
def State.nearPutUnit (s : State) (core pa : Nat) (p : Part) (j c : Nat) : State :=
  if p.waits && s.lag.cache then
    { s with ms := ((s.ms.dropEarly s.hart.no pa 1).merge pa 1).l1PutUnit core pa p.raw j c }
  else
    let old := (s.ms.l1FlushSpan core pa 1).creadNat pa 1
    s.nearPut core pa p [BitVec.ofNat 8 (putBits old (4 * j) 4 c)]

/-- The asynchronous fault of a posted write (R459). -/
def postFault (va reason : Nat) : FaultInfo := ⟨0x0F, BitVec.ofNat 8 reason, BitVec.ofNat 64 va, 0, 0⟩

/-- What became of a posted write: performed at once, or waiting for its acknowledgement (R257, R459), on the port of its line.
The fault is the asynchronous 0x0F of its poster. `size`: the bytes its leaf covers; `peer`: its package and line. -/
def State.postWrite (s : State) (src : Poster) (ctx va size : Nat) (peer : Option (Nat × Nat)) : Option FaultInfo × State :=
  let port := peer.bind fun p => s.portFor p.1 p.2
  match s.nextAnswer with
  | (some .refused, s) => (some (postFault va 1), s)
  | (some .failed, s) => (some (postFault va 2), s.countFailed port)
  | (some _, s) => (none, s)
  | (none, s) =>
    if s.lag.cache then
      (none, { s with link := { s.link with waiting := s.link.waiting ++ [⟨src, ctx, va, size, peer, port⟩] } })
    else (none, s)

/-- The bytes a part's leaf covers. -/
def Part.leafSize (p : Part) : Nat := p.leaf.elim (2 ^ 16) Leaf.size

/-- Write one part; the fault is the asynchronous one of a failed posted write. -/
def State.writePart (s : State) (a : Agent) (src : Poster) (va : Nat) (p : Part) (bs : List Byte) : Option FaultInfo × State :=
  let bs := (bs.drop p.off).take p.n
  match p.coherent with
  | some pa => (none, s.nearPut a.core pa p bs)
  | none =>
    match p.place with
    | .window key => (none, { s with ms := s.ms.lsWrite key bs })
    | .host pa =>
      let (f, s) := s.postWrite src a.ctx (va + p.off) p.leafSize none
      (f, if f.isSome then s else s.cwrite pa bs)
    | .peer q pa =>
      if isDevicePa pa then s.postWrite src a.ctx (va + p.off) p.leafSize (some (q, pa / 512)) else (some (postFault (va + p.off) 1), s)
    | .refused _ => (some (postFault (va + p.off) 1), s)
    | _ => (none, s)

def State.writeParts (s : State) (a : Agent) (src : Poster) (va : Nat) (bs : List Byte) : List Part → Option FaultInfo × State
  | [] => (none, s)
  | p :: r =>
    let (f, s) := s.writePart a src va p bs
    let (g, s) := s.writeParts a src va bs r
    (f.or g, s)

/-- The byte a 4-bit store stands in, where the store is not kept by the caches. -/
def State.byteUnder (s : State) (p : Part) : Nat :=
  match p.place with
  | .window key => (s.ms.lsByte key).toNat
  | .host pa => (Memory.byte s.ms.mem pa).toNat
  | _ => 0

/-- Write one 4-bit unit of the byte of a part (R248). -/
def State.writeUnit (s : State) (a : Agent) (src : Poster) (va : Nat) (p : Part) (j c : Nat) : Option FaultInfo × State :=
  match p.coherent with
  | some pa => (none, s.nearPutUnit a.core pa p j c)
  | none => s.writePart a src va p [BitVec.ofNat 8 (putBits (s.byteUnder p) (4 * j) 4 c)]

/-- A store of resolved parts made ready: touched and marked. -/
def State.prepareWrite (s : State) (ps : List Part) : Acc State :=
  (s.touchParts ps).map fun s1 => s1.markParts true ps

/-- A near store of bytes, checked, marked and performed. The option is the asynchronous fault of a posted write. -/
def State.writeAt (s : State) (a : Agent) (k : Want) (src : Poster) (va : Nat) (bs : List Byte) : Acc (Option FaultInfo × State) :=
  (s.resolve a k va bs.length).bind fun ps => (s.prepareWrite ps).map fun s1 => s1.writeParts a src va bs ps

/-- An atomic on memory of the device: at the MSC for a key-value page and for CP 10, at the home L2 else (R267). The core's
own L1 copy is written back and dropped. -/
def State.atomicNear (s : State) (core pa n : Nat) (f : Nat → Nat) (p : Part) : Nat × State :=
  let ms := (((s.ms.dropEarly s.hart.no pa n).l1FlushSpan core pa n).l1DropSpan core pa n).merge pa n
  if p.kv then
    let old := ms.kreadNat pa n
    (old, { s with ms := ms.kwriteNat pa n (f old) })
  else
    let old := ms.creadNat pa n
    (old, { s with ms := ({ s with ms := ms } : State).putLower pa p.raw (leBytes n (f old)) })

/-- The bytes an atomic works on, at its place of performance (R267): local store, the line's home, host or peer. -/
def State.atomicAll (s : State) (core va n : Nat) (f : Nat → Nat) (ps : List Part) : Acc (Nat × State) :=
  (s.touchParts ps).bind fun s1 =>
    if s1.partsPoisoned ps then accFault 0x10 0 va
    else
      let s2 := s1.markParts true ps
      match ps with
      | [p] =>
        match p.coherent with
        | some pa => .ok (s2.atomicNear core pa n f p)
        | none =>
          match p.place with
          | .window key =>
            let old := leNat (s2.ms.lsRead key n)
            .ok (old, { s2 with ms := s2.ms.lsWrite key (leBytes n (f old)) })
          | .host pa =>
            match s2.nextAnswer with
            | (some (.data bs), s3) => .ok (leNat (takeBytes bs n), s3)
            | (some .poisoned, _) => accFault 0x10 0 va
            | (some .refused, _) => accFault 0x06 5 va
            | (some .failed, _) => accFault 0x0F 2 va
            | (_, s3) =>
              let old := s3.ms.creadNat pa n
              .ok (old, { s3 with ms := s3.ms.cwriteNat pa n (f old) })
          | .peer _ _ =>
            match s2.nextAnswer with
            | (some (.data bs), s3) => .ok (leNat (takeBytes bs n), s3)
            | (some .poisoned, _) => accFault 0x10 0 va
            | (some .refused, _) => accFault 0x0F 1 va
            | (some .failed, _) => accFault 0x0F 2 va
            | (_, s3) =>
              let (bs, s4) := s3.openBytes n
              .ok (leNat bs, s4)
          | _ => .ok (0, s2)
      | _ => .ok (0, s2)

/-- An atomic of a near stream. -/
def State.atomicAt (s : State) (a : Agent) (k : Want) (va n : Nat) (f : Nat → Nat) : Acc (Nat × State) :=
  (s.resolve a k va n).bind fun ps => s.atomicAll a.core va n f ps

/-! Agents. -/

/-- Local-store bytes per core of a hart's kernel. -/
def State.lstoreOf (s : State) (kern : Nat) : Nat :=
  match s.kernel kern with
  | some k => k.hdr.lstore
  | none => 0

/-- The near streams of a hart. -/
def State.agentOf (s : State) (h : Hart) : Agent := ⟨h.ctx, h.core, some h.grp, s.lstoreOf h.kern, .core h.core⟩

/-- The hart in focus. -/
def State.agent (s : State) : Agent := s.agentOf s.hart

/-- The Compass acting for a context (R246); it uses no core's TLB. -/
def compassAgent (ctx : Nat) : Agent := ⟨ctx, 96, none, 0, .compass⟩

/-- What a fault of an access of the Compass leaves. -/
def State.compassMet (s : State) (ctx : Nat) (f : FaultInfo) : State := s.met (fun _ => .compass) 96 ctx f

/-! Accesses of the Compass to status words: no fault, no effect where the page cannot be reached (log 11). -/

/-- A write to device memory at a physical address; one that a PENDING record holds waits at the stack's controller (R240). -/
def MemSys.putThrough (ms : MemSys) (pa : Nat) (bs : List Byte) : MemSys :=
  match ms.touch pa bs.length with
  | .ok ms => ms.cwrite pa bs
  | _ => { ms with mig := { ms.mig with writes := ms.mig.writes ++ [.bytes pa bs] } }

/-- A write that a PENDING record holds. -/
def State.holdWrite (s : State) (w : HeldWrite) : State :=
  { s with ms := { s.ms with mig := { s.ms.mig with writes := s.ms.mig.writes ++ [w] } } }

/-- Write `n` bytes at a virtual address of a context. -/
def State.compassPut (s : State) (ctx va n v : Nat) : State :=
  match s.resolve (compassAgent ctx) { w := true } va n with
  | .ok [p] =>
    match s.touchPart p with
    | .ok s =>
      let s := s.markParts true [p]
      match p.place with
      | .device pa | .host pa => { s with ms := s.ms.cwriteNat pa n v }
      | _ => s
    | _ => s.holdWrite (.status ctx va n v)
  | .held _ => s.holdWrite (.status ctx va n v)
  | .fault f => s.compassMet ctx f
  | _ => s

/-- A write of the Compass to device memory (R268, R439): one that the tables refuse changes nothing and raises the alarm
(R468, R469). -/
def State.devicePut (s : State) (pa : Nat) (bs : List Byte) : State :=
  match s.refusedByte (fun _ => .compass) pa bs.length false true with
  | some a => s.alarm ⟨.compass, .stackMem (s.ownerOf a), a⟩
  | none => { s with ms := s.ms.putThrough pa bs }

/-! Host writes that are not performed yet (R264). -/

/-- The oldest `n` host writes are performed. -/
def State.landOuter (s : State) (n : Nat) : State :=
  (s.ms.outer.take n).foldl (fun s w => { s with ms := s.ms.putThrough w.pa w.bytes })
    { s with ms := { s.ms with outer := s.ms.outer.drop n } }

/-- The host writes that a later one released are performed: they come before it. -/
def State.landReleased (s : State) : State := s.landOuter (s.ms.outer.filter OuterWrite.released).length

end Sys2Proof.Machine
end

