-- ==== Sys2Proof/Machine/Ops.lean ====
section
/-! DEFINITION. The shared operations of a hart: advancing the front end, fault records, stopping a group, faulting a
kernel or a context, taking a fault and returning from a handler, flags (R61, R106, R107, R112, R134 to R138, R142, R391,
R422, R433 to R445). -/

namespace Sys2Proof.Machine

/-- What executing an instruction answers. -/
abbrev Result := Host.Outcome State Fault Refusal

/-! The save slot (R424, R425). -/

/-- Physical address of save slot `i` of a context. -/
def Context.slotBase (c : Context) (i : Nat) : Nat := c.savebase.toNat * 2 ^ 16 + i * 2 ^ 26

/-- Offset in a slot of the area of hart `f0`. -/
def areaOffset (hpc : Fin 3) (f0 : Nat) : Nat := 0x10000 + f0 * (0x900000 / hpcCount hpc)

/-- Physical address of the area of a hart of a group, when the group holds a slot. -/
def State.areaOf (s : State) (w : Owner) : Option Nat :=
  match s.group w.grp with
  | some g =>
    match s.kernel g.kern with
    | some k => g.slot.map fun i => (s.ctx g.ctx).slotBase i + areaOffset k.hdr.hpc w.f0
    | none => none
  | none => none

/-- Physical address of a hart's area, when its group holds a slot. -/
def State.hartArea (s : State) (h : Hart) : Option Nat :=
  match s.group h.grp with
  | some g => g.slot.map fun i => (s.ctx h.ctx).slotBase i + areaOffset h.ctl.hpc h.f0
  | none => none

/-- Write a run of 64-bit words; what a migration holds is written when it proceeds (R240). -/
def State.putWords (s : State) (pa : Nat) (ws : List Word) : State :=
  s.devicePut pa (ws.flatMap fun w => leBytes 8 w.toNat)

/-! Fault records (R439, R440). -/

/-- What a fault record says beside its fault. -/
structure RecordInfo where
  held : Bool := false
  async : Bool := false
  halt : Bool := false
  eq : Option Nat := none
  queue : Option Nat := none
  wid : Word := 0
  epc : Word := 0
  slot : Option Nat := none
  hdr : Word := 0
  tick : Word := 0
  deriving DecidableEq, Repr

/-- The first word of a record. -/
def recordHead (f : FaultInfo) (r : RecordInfo) : Nat :=
  f.code.toNat + f.reason.toNat * 2 ^ 8 + (if r.held then 2 ^ 22 else 0) + (if r.async then 2 ^ 23 else 0) +
    (if r.halt then 2 ^ 24 else 0) +
    (match r.eq with
      | some q => q % 4 * 2 ^ 25 + 2 ^ 27
      | none => 0) +
    (match r.queue with
      | some q => 2 ^ 28 + q % 1024 * 2 ^ 32
      | none => 0)

/-- The eight words of a record. QPOS is 0: entries are performed from the head of the VQ (R137). -/
def recordWords (f : FaultInfo) (r : RecordInfo) : List Word :=
  [BitVec.ofNat 64 (recordHead f r), r.wid, f.va, r.epc, f.info,
    BitVec.ofNat 64 (match r.slot with
      | some i => i % 2 ^ 16
      | none => 0xFFFF), r.hdr, r.tick]

/-- Space in a context's fault ring. -/
def FaultRing.full (r : FaultRing) : Bool := decide (2 ^ r.log2n.toNat ≤ (r.prod - r.cons).toNat)

/-- Write a record at the producer index, step it and send the message (R439). -/
def State.putRecord (s : State) (c : Nat) (ws : List Word) : State :=
  let k := s.ctx c
  let r := k.ring
  let s := s.putWords (r.base.toNat * 64 + 64 * (r.prod.toNat % 2 ^ r.log2n.toNat)) ws
  (s.setCtx c { k with ring := { r with prod := r.prod + 1 } }).msix r.vec.toNat

/-! Kernels and groups (R106, R391). -/

def KernState.code : KernState → Nat
  | .pending => 0 | .dispatching => 1 | .running => 2 | .draining => 3 | .complete => 4 | .faulted => 5

/-- Write KSTATUS (R387, R391). -/
def State.putKstatus (s : State) (k : Kernel) : State :=
  s.compassPut k.ctx (k.va.toNat + 0x88) 4 (k.st.code + k.fault.toNat * 2 ^ 16)

/-- Change a kernel and write its KSTATUS. -/
def State.moveKernel (s : State) (key : Nat) (f : Kernel → Kernel) : State :=
  let s := s.onKernel key f
  match s.kernel key with
  | some k => s.putKstatus k
  | none => s

/-- The group is placed: its resources are held. -/
def Group.onQuad (g : Group) : Bool := g.st == .running || g.st == .stopping

/-- Accesses of a kernel's harts may still be under way: a group of it is placed, or a store of it waits for its
acknowledgement (R391). -/
def State.kernelBusy (s : State) (key : Nat) : Bool :=
  (s.cmp.groups.any fun g => g.kern == key && g.onQuad) || s.link.waiting.any fun p => p.src.kern == key && p.src.node.isNone

/-- The write that sets STATE to FAULTED follows every access of the kernel (R392). -/
def State.tellFaulted (s : State) (key : Nat) : State :=
  match s.kernel key with
  | some k =>
    if k.st = .faulted ∧ k.told = false ∧ s.kernelBusy key = false then s.moveKernel key fun k => { k with told := true } else s
  | none => s

/-- A hart of a group that stops keeps its registers and leaves its front-end instruction unperformed (R430). -/
def Hart.settle (h : Hart) : Hart := { h with wait := .none, pend := none }

/-- A record with its HELD bit clear. -/
def unheld : List Word → List Word
  | w :: r => (w &&& ~~~(1#64 <<< 22)) :: r
  | [] => []

/-- The harts of a group stop fetching (R112). -/
def State.settleGroup (s : State) (g : Nat) : State :=
  s.mapHarts fun h => if h.grp = g then h.settle else h

/-- Records of one stop in ascending order of their harts (R107). -/
def addRec (r : Nat × List Word) : List (Nat × List Word) → List (Nat × List Word)
  | [] => [r]
  | q :: l => if r.1 < q.1 then r :: q :: l else q :: addRec r l

/-- Start or strengthen a stop of a group (R106, R107, R112): `recs` are the fault records of the stop. -/
def State.stopGroup (s : State) (g : Nat) (r : StopReason) (code : BitVec 8) (recs : List (Nat × List Word)) : State :=
  match s.group g with
  | none => s
  | some q =>
    match q.st with
    | .running =>
      (s.settleGroup g).onGroup g fun q => { q with st := .stopping, reason := r, code := code, recs := recs }
    | .stopping =>
      let free (l : List (Nat × List Word)) : List (Nat × List Word) := l.map fun p => (p.1, unheld p.2)
      if r = .fault then
        s.onGroup g fun q =>
          if q.reason = .fault then { q with recs := recs.foldr addRec q.recs }
          else { q with reason := .fault, code := code, recs := recs.foldr addRec (free q.recs) }
      else if r = .replay then
        s.onGroup g fun q =>
          if q.reason = .fault then { q with recs := (free recs).foldr addRec q.recs }
          else if q.reason = .replay then { q with recs := recs.foldr addRec q.recs }
          else { q with reason := .replay, code := code, recs := recs.foldr addRec q.recs }
      else s
    | .preempted => if r = .fault then s.onGroup g fun q => { q with st := .faulted, held := false, code := code } else s
    | .waiting =>
      if r = .fault then { s with cmp := { s.cmp with groups := s.cmp.groups.filter fun q => q.key ≠ g } } else s
    | .faulted | .retired => s

/-- Take the harts of a group out of the machine; their guest sets are released (R301, R430). -/
def State.removeHarts (s : State) (g : Nat) : State :=
  let hs := s.groupHarts g
  { s with
    far := { s.far with binds := s.far.binds.filter fun b => !hs.any fun h => h.ctx == b.ctx && h.ctl.wid == b.wid }
    hart := if s.hart.grp = g ∧ s.hart.phase ≠ .absent then Hart.reset else s.hart
    harts := s.harts.filter fun h => h.grp ≠ g || h.phase == .absent }

/-- A context holds some save slot, or none (R422). -/
def Context.settle (c : Context) : Context :=
  { c with st :=
    match c.st with
    | .bound => if c.slots.isEmpty then .bound else .active
    | .active => if c.slots.isEmpty then .bound else .active
    | st => st }

/-- Free a save slot. -/
def State.freeSaveSlot (s : State) (c i : Nat) : State :=
  let k := s.ctx c
  s.setCtx c { k with slots := k.slots.filter fun j => j ≠ i }.settle

/-- Every group of the kernel has been placed at least once: it is RUNNING (R391). -/
def State.kernelPlaced (s : State) (key : Nat) : State :=
  match s.kernel key with
  | some k =>
    if k.st = .dispatching ∧ (s.cmp.groups.filter fun g => g.kern = key).all Group.placed = true then
      s.moveKernel key fun k => { k with st := .running }
    else s
  | none => s

/-- The near writes of a core are performed (R253, R257). -/
def State.flushCore (s : State) (core : Nat) : State :=
  if s.ms.l1.isEmpty then s
  else
    let ms := s.ms.l1FlushCore core
    { s with ms := { ms with rel := ms.rel.filter fun p => p.core != core } }

/-- The near writes of harts are performed. -/
def State.flushHarts (s : State) (hs : List Hart) : State := hs.foldl (fun s h => s.flushCore h.core) s

/-- Every queue of a hart is EMPTY or FAULTED. -/
def Hart.engDrained (h : Hart) : Bool := h.eng.toList.all fun q => q.cmds.isEmpty

/-! Retirement (R110, R391). -/

/-- N: groups of a kernel (R388). -/
def LaunchHeader.groupCount (k : LaunchHeader) : Nat := (k.exts.drop 1).foldl (fun a e => a * e) 1

/-- Write GRETIRED. -/
def State.putRetired (s : State) (key : Nat) : State :=
  match s.kernel key with
  | some k => s.compassPut k.ctx (k.va.toNat + 0x90) 8 k.gretired
  | none => s

/-- A group retires: resources and slot are freed, and its kernel counts it. -/
def State.retireGroup (s : State) (g : Group) : State :=
  let s := s.removeHarts g.key
  let s := { s with
    ms := s.ms.lsClear g.key
    cmp := { s.cmp with groups := s.cmp.groups.filter fun q => q.key ≠ g.key } }
  let s := match g.slot with
    | some i => s.freeSaveSlot g.ctx i
    | none => s
  match s.kernel g.kern with
  | none => s
  | some k =>
    if k.st = .dispatching ∨ k.st = .running then
      let s := (s.onKernel k.key fun k => { k with gretired := k.gretired + 1 }).putRetired k.key
      let s := s.kernelPlaced k.key
      match s.kernel k.key with
      | some k => if k.st = .running ∧ k.gretired = k.hdr.groupCount then s.moveKernel k.key fun k => { k with st := .draining } else s
      | none => s
    else s

/-- Every hart has exited and the outstanding work is done (R110). -/
def State.mayRetire (s : State) (g : Group) : Bool :=
  let hs := s.groupHarts g.key
  g.st == .running && hs.all (fun h => h.phase == .exited) &&
    hs.all fun h => h.engDrained && !(s.far.pieces.any fun p => p.hart == h.no)

/-- The groups of a set that are due to retire do so: before any fault or preemption that reaches them then (R107). -/
def State.retireDue (s : State) (p : Group → Bool) : State :=
  (s.cmp.groups.filter fun g => p g && s.mayRetire g).foldl (fun s g => (s.flushHarts (s.groupHarts g.key)).retireGroup g) s

/-- Stop every group of a kernel without records (R391). -/
def State.stopKernelGroups (s : State) (k : Nat) (code : BitVec 8) : State :=
  ((s.cmp.groups.filter fun q => q.kern = k).map Group.key).foldl (fun s g => s.stopGroup g .fault code []) s

/-- A kernel takes FAULTED with the code of a group's fault, its other groups are stopped, and KSTATUS tells of it once its
accesses are performed (R391, R392). Retirements come first; of the faults of one clock the lower group's code stands. -/
def State.faultKernel (s : State) (k : Nat) (g : Option Nat) (code : BitVec 8) : State :=
  let s := s.retireDue fun q => q.kern == k
  match s.kernel k with
  | none => s
  | some q =>
    if q.st = .complete then s
    else if q.st = .faulted then
      if (match q.faultG, g with
          | some a, some b => decide (b < a)
          | _, _ => false) && !q.told then
        s.onKernel k fun q => { q with fault := code, faultG := g }
      else s
    else ((s.onKernel k fun q => { q with st := .faulted, fault := code, faultG := g, told := false }).stopKernelGroups k code).tellFaulted k

/-- A group takes FAULTED with its records (R106), and its kernel with it (R391). -/
def State.faultGroup (s : State) (g : Nat) (code : BitVec 8) (recs : List (Nat × List Word)) : State :=
  let s := s.stopGroup g .fault code recs
  match s.group g with
  | some q => if q.st = .faulted ∨ (q.st = .stopping ∧ q.reason = .fault) then s.faultKernel q.kern (some q.g) code else s
  | none => s

/-! Nodes' own words (R402). -/

def nodeStateRunning : Nat := 2

/-- Write STATE and FAULT of a node. -/
def State.putNodeState (s : State) (ctx : Nat) (addr : Word) (st fault : Nat) : State :=
  let s := s.compassPut ctx (addr.toNat + 1) 1 st
  if fault = 0 then s else s.compassPut ctx (addr.toNat + 4) 1 fault

/-- The KERN nodes of a queue that are RUNNING or BLOCKED take FAULTED with 0x14 (R422). -/
def State.faultKernNodes (s : State) (c : Nat) (ns : List RunNode) : State :=
  (ns.filter fun n => bits (n.words.headD 0).toNat 0 8 == 1 && n.st != .ready).foldl
    (fun s n => s.putNodeState c n.addr 5 0x14) s

/-- A queue whose reset waits is reset once no node is RUNNING (R401). -/
def State.tryReset (s : State) (q : Nat) : State :=
  let w := s.queue q
  if w.resetting && w.nodes.all fun n => n.st != .running then
    s.setQueue q { w with cur := none, subs := [], faulted := false, resetting := false, nodes := [] }
  else s

/-- A queue of a context that faults takes FAULTED with FCODE 0x14 (R422). -/
def State.faultQueue14 (s : State) (q : Nat) : State :=
  let w := s.queue q
  let s := s.faultKernNodes w.ctx.toNat w.nodes
  let isKern (n : RunNode) : Bool := bits (n.words.headD 0).toNat 0 8 == 1 && n.st != .ready
  (s.setQueue q { w with faulted := true, fcode := if w.faulted then w.fcode else 0x14,
                         nodes := w.nodes.filter fun n => !isKern n }).tryReset q

/-- A context takes FAULTED (R422): its groups, kernels and queues with it. -/
def State.faultContext (s : State) (c : Nat) : State :=
  let s := s.retireDue fun q => q.ctx == c
  let k := s.ctx c
  if k.st = .bound ∨ k.st = .active ∨ k.st = .preempted then
    let s := s.setCtx c { k with st := .faulted }
    let s := ((s.cmp.groups.filter fun q => q.ctx = c).map Group.key).foldl (fun s g => s.stopGroup g .fault 0x14 []) s
    let s := ((s.cmp.kernels.filter fun q => q.ctx = c).map Kernel.key).foldl (fun s k => s.faultKernel k none 0x14) s
    ((s.cmp.queues.filter fun q => q.2.en && q.2.ctx.toNat == c).map Prod.fst).foldl (fun s q => s.faultQueue14 q) s
  else s

/-- A record reaches the ring, waits for space, or is dropped and faults its context (R440). -/
def State.record (s : State) (c : Nat) (ws : List Word) : State :=
  let k := s.ctx c
  if k.ring.held = [] ∧ k.ring.full = false then s.putRecord c ws
  else if k.ring.held.length < 64 then s.setCtx c { k with ring := { k.ring with held := k.ring.held ++ [ws] } }
  else (s.setCtx c { k with ring := { k.ring with lost := k.ring.lost + 1 } }).faultContext c

/-! Flags (R61, R433). -/

/-- The placed hart of an owner. -/
def State.hartOf (s : State) (w : Owner) : Option Hart := s.placedHarts.find? fun h => h.grp = w.grp && h.f0 = w.f0

/-- OR flags into the FLAGW at an address of a context, for a hart that is switched out (R433): an atomic OR, which a PENDING
record holds (R240), and which faults the context where it meets uncorrectable data (R431). -/
def State.orFlagw (s : State) (c pa : Nat) (f : Flags) : State :=
  match s.ms.touch pa 8 with
  | .ok ms =>
    if ms.poisoned pa 8 then ({ s with ms := ms } : State).faultContext c
    else { s with ms := ms.cwriteNat pa 8 (ms.creadNat pa 8 ||| f.ff.toNat) }
  | _ => s.holdWrite (.flags c pa f)

/-- Flags of a completed operation: FFLAGS and IFLAGS of its hart, or its image's FLAGW from the moment the hart is switched
out until a restore or a continue takes FLAGW (R63, R433). -/
def State.raiseFlags (s : State) (w : Owner) (f : Flags) : State :=
  if f = .none then s
  else
    let out : State :=
      match s.areaOf w with
      | some a => s.orFlagw ((s.group w.grp).elim 0 Group.ctx) (a + 8) f
      | none => s
    match s.hartOf w with
    | some h => if h.phase = .halted then out else s.onHart h.no fun h => h.orFlags f
    | none => out

/-- A contribution is performed, or held by a PENDING record (R240, R305). -/
def State.contributeAt (s : State) (who : Owner) (pa : Nat) (kind : RedKind) (fmt : Fmt) (v : Nat) : State :=
  match s.ms.touch pa (fmtWidth fmt / 8) with
  | .ok ms =>
    let (ms, f) := ms.contribute who pa kind fmt v
    { s with ms := ms }.raiseFlags who f
  | _ => s.holdWrite (.contribution who pa kind fmt v)

/-- The flags of merges reach their harts. -/
def State.deliverOwed (s : State) : State :=
  if s.ms.owed.isEmpty then s
  else s.ms.owed.foldl (fun s o => s.raiseFlags o.who o.fl) { s with ms := { s.ms with owed := [] } }

/-! Taking a fault (R137, R435 to R438). -/

/-- The fault report in the trap registers (R137, R436). -/
def TrapRegs.report (t : TrapRegs) (f : FaultInfo) (epc : Word) : TrapRegs :=
  { t with epc := epc, trapno := f.trapno, qpos := 0, reason := f.reason, code := f.code, einfo := f.info }

/-- The work queue a kernel came from (R439). -/
def State.queueOfKernel (s : State) (k : Nat) : Option Nat := (s.kernel k).bind Kernel.queue

/-- The record of a fault of a hart, or of work a hart issued. -/
def State.recordOf (s : State) (w : Poster) (f : FaultInfo) (epc : Word) (held async halt : Bool) (eq : Option Nat) :
    List Word × State :=
  let (t, s) := s.readTick
  (recordWords f
    { held := held, async := async, halt := halt, eq := eq, queue := s.queueOfKernel w.kern, wid := w.wid, epc := epc,
      slot := (s.group w.grp).bind Group.slot
      hdr := (match s.kernel w.kern with
        | some k => k.va
        | none => 0), tick := t }, s)

def State.hartRecord (s : State) (h : Hart) (f : FaultInfo) (epc : Word) (held async halt : Bool) (eq : Option Nat) :
    List Word × State :=
  s.recordOf h.poster f epc held async halt eq

/-- The resume address of a report: a hart whose HEXIT waits for the faulting entry resumes at the HEXIT (log 16). -/
def Hart.resumeAt (h : Hart) (resume : Word) : Word := if h.phase = .exiting then resume - 8 else resume

/-- The fences in the VQ that engine commands wait for move with the VQ into the trap image. -/
def Hart.parkFences (h : Hart) : Vector EngQueue 4 :=
  h.eng.map fun q => { q with cmds := q.cmds.map fun c => { c with fences := 0, parked := c.parked + c.fences } }

/-- They come back with the trap image, or are gone with it. -/
def Hart.unparkFences (h : Hart) (gone : Bool) : Vector EngQueue 4 :=
  h.eng.map fun q => { q with cmds := q.cmds.map fun c =>
    { c with fences := if gone then c.fences else c.fences + c.parked, parked := 0 } }

/-- The handler is entered (R437): trap image, TRESUME, EPC, ECAUSE, EINFO, VSTART, and the pc at TRAPVEC. `h.vq` is the VQ
image of the report. A hart whose HEXIT waited for these entries fetches again. -/
def Hart.enterHandler (h : Hart) (f : FaultInfo) (epc resume : Word) (start : Nat) : Hart :=
  { h with
    trapImage := h.vq
    tresume := resume
    trap := { h.trap.report f epc with ret := false, inh := true }
    ctl := { h.ctl with vstart := BitVec.ofNat 18 start }
    vq := []
    eng := h.parkFences
    owes := false
    phase := if h.phase = .exiting then .running else h.phase
    pc := h.trap.vecWord
    wait := .none
    pend := none }

/-- The trap image in the hart's area, with its entry count in HSTAT, and TRESUME (R437, R445). -/
def State.putTrapImage (s : State) (h : Hart) (resume : Word) : State :=
  match s.hartArea h with
  | some a =>
    let stat := putBits (s.ms.creadNat a 8) 24 6 h.vq.length
    ((s.putWords a [BitVec.ofNat 64 stat]).putWords (a + 0xD8) [resume]).putWords (a + 0x1000) (h.vq.flatMap VqEntry.words)
  | none => s

/-- Writes at an area meet uncorrectable data that they do not cover (R431). -/
def State.areaBad (s : State) (h : Hart) (spans : List (Nat × Nat)) : Bool :=
  match s.hartArea h with
  | some a => spans.any fun p => (s.ms.unpoison (a + p.1) p.2).poisoned (a + p.1) p.2
  | none => false

/-- A hart that stops at a fault without entering a handler: its front end resumes at `resume` (R135). The report stands in
its trap registers (R137), but for a hart inside its handler, whose report they still hold (log 16). -/
def Hart.stopAt (h : Hart) (f : FaultInfo) (epc resume : Word) : Hart :=
  { h.settle with pc := resume, owes := false, trap := if h.trap.inh then h.trap else h.trap.report f epc }

/-- TAKING AN EXCEPTION. The hart in focus reports fault `f` at instruction address `epc`, with its VQ as the VQ image,
`start` the reported start and `resume` the resume address: a replayable fault holds the group, a program fault enters the
handler or faults the group (R106, R435, R437). -/
def State.takeFault (s : State) (f : FaultInfo) (epc resume : Word) (start : Nat) : State :=
  if f.code = 0x05 then
    let (r, s) := s.hartRecord s.hart f epc true false false none
    let s := { s with hart := s.hart.stopAt f epc resume }
    s.stopGroup s.hart.grp .replay f.code [(s.hart.f0, r)]
  else if s.hart.trap.vec ≠ 0 ∧ s.hart.trap.inh = false then
    let bad := s.areaBad s.hart [(0, 8), (0xD8, 8), (0x1000, 64 * s.hart.vq.length)]
    let resume := s.hart.resumeAt resume
    let s := s.putTrapImage s.hart resume
    let s := { s with hart := s.hart.enterHandler f epc resume start }
    if bad then s.faultContext s.hart.ctx else s
  else
    let (r, s) := s.hartRecord s.hart f epc false false false none
    let s := { s with hart := s.hart.stopAt f epc resume }
    s.faultGroup s.hart.grp f.code [(s.hart.f0, r)]

/-- THE RETURN FROM A HANDLER (R444). -/
def Hart.leaveHandler (h : Hart) : Hart :=
  { h with
    vq := if h.trap.ret then [] else h.trapImage
    pc := if h.trap.ret then h.trap.epc else h.tresume
    trapImage := []
    eng := h.unparkFences h.trap.ret
    owes := !h.trap.ret && !h.trapImage.isEmpty
    trap := { h.trap with inh := false }
    ctl := { h.ctl with vstart := 0 } }

/-- An asynchronous fault attributed to the group that issued the work (R111, R298, R341): a record with the hart's WID, and
the group takes FAULTED; where the group has retired, its kernel takes FAULTED while it drains (R391). -/
def State.asyncFault (s : State) (w : Poster) (f : FaultInfo) (eq : Option Nat) : State :=
  match s.group w.grp with
  | some g =>
    let (r, s) := s.recordOf w f 0 false true false eq
    if g.onQuad then s.faultGroup w.grp f.code [(w.f0, r)] else (s.faultGroup w.grp f.code []).record g.ctx r
  | none =>
    match s.kernel w.kern with
    | some k =>
      if k.st = .complete then s
      else
        let (r, s) := s.recordOf w f 0 false true false eq
        (s.faultKernel w.kern none f.code).record k.ctx r
    | none => s

/-- The asynchronous fault of a posted write, if there is one. -/
def State.asyncIf (s : State) (w : Poster) (f : Option FaultInfo) : State :=
  match f with
  | some e => s.asyncFault w e none
  | none => s

/-! The front end (R126, R130, R141, R142). -/

/-- What a front-end instruction does when its guard holds. -/
inductive FrontAct where
  /-- the effect is complete, and the front end goes on at the next instruction -/
  | next (s : State)
  /-- the effect is complete, and the front end goes on at an address -/
  | goto (s : State) (pc : Word)
  /-- a fault in execution (R142) -/
  | fault (f : FaultInfo)
  /-- one of none of its accesses -/
  | refuse (f : FaultInfo)
  /-- the instruction waits -/
  | wait (w : HartWait)
  deriving DecidableEq, Repr

/-- Clear a wait that has ended, counting a resynchronisation's clocks (R131). -/
def State.endWait (s : State) : State :=
  if s.hart.wait = .none then s
  else if s.hart.wait = .resync then
    let (n, s) := s.useFree
    { s with hart := { s.hart with wait := .none,
                                   counts := { s.hart.counts with rsyncc := s.hart.counts.rsyncc + BitVec.ofNat 64 (Config.waitClocks n) } } }
  else { s with hart := { s.hart with wait := .none } }

/-- The front end waits; a resynchronisation is counted once (R131). -/
def Hart.waitFor (h : Hart) (w : HartWait) : Hart :=
  if h.wait = w ∨ (w = .held ∧ h.wait.onRing = true) then h
  else { h with wait := w, counts := if w = .resync then { h.counts with rsyncn := h.counts.rsyncn + 1 } else h.counts }

/-- The instruction is issued and the front end stands at `pc` (R131). -/
def Hart.issue (h : Hart) (pc : Word) : Hart :=
  { h with pc := pc, counts := { h.counts with issued := h.counts.issued + 1 } }

/-- The front end stands at an instruction with a fault: it is taken at once with an empty VQ, else after its entries (R142). -/
def State.frontTakes (s : State) (f : FaultInfo) : State :=
  if s.hart.vq.isEmpty then s.takeFault f s.hart.pc s.hart.pc 0
  else { s with hart := { s.hart with wait := .none, pend := some ⟨f, s.hart.pc, s.hart.pc⟩ } }

/-- A fault of a front-end instruction. -/
def State.frontFault (s : State) (f : FaultInfo) : State :=
  (s.met (fun _ => .core s.hart.core) s.hart.core s.hart.ctx f).frontTakes f

/-- Do what a front-end instruction of `len` bytes says. -/
def State.act (s : State) (len : Nat) : FrontAct → State
  | .next s' => let s' := s'.endWait; { s' with hart := s'.hart.issue (s.hart.pc + BitVec.ofNat 64 len) }
  | .goto s' pc => let s' := s'.endWait; { s' with hart := s'.hart.issue pc }
  | .fault f => s.frontFault f
  | .refuse f => s.frontTakes f
  | .wait w => { s with hart := s.hart.waitFor w }

/-- An access as a front-end action: a fault is reported, a held access waits (R142, R240). -/
def Acc.act {α : Type} (x : Acc α) (f : α → FrontAct) : FrontAct :=
  match x with
  | .ok a => f a
  | .fault e => .fault e
  | .held _ => .wait .held

/-- The same for a check that accesses nothing. -/
def Acc.check {α : Type} (x : Acc α) (f : α → FrontAct) : FrontAct :=
  match x with
  | .ok a => f a
  | .fault e => .refuse e
  | .held _ => .wait .held

end Sys2Proof.Machine
end

