-- ==== Sys2Proof/Machine/Front.lean ====
section
/-! DEFINITION. The two halves of a hart: what the front end waits for (R129, R130), what a vector-queue entry captures
(R128), predicate writes in queue order (R118, R129, R151 to R159, R167), and the frame of every front-end instruction. -/

namespace Sys2Proof.Machine

/-! Registers an instruction names at the front end. -/

/-- The guard of an instruction; events have none. -/
def guardOf (i : Instr) : Option Guard := (encodeFields i).map fun p => p.1.guard

/-- x registers the front end reads, and for its own instructions writes (R127, R130). -/
def frontX : Instr → List XReg
  | .add _ d a b | .sub _ d a b | .and _ d a b | .or _ d a b | .xor _ d a b | .shl _ d a b | .shr _ d a b | .sra _ d a b
  | .mul _ d a b | .mulh _ d a b | .mulhu _ d a b | .div _ d a b | .divu _ d a b | .rem _ d a b | .remu _ d a b
  | .min _ d a b | .max _ d a b | .minu _ d a b | .maxu _ d a b | .addsh _ d a b _ => [d, a, b]
  | .clz _ d a | .ctz _ d a | .popc _ d a | .ext _ d a _ _ _ | .ins _ d a _ _ | .addi _ d a _ | .andi _ d a _ | .ori _ d a _
  | .xori _ d a _ | .shli _ d a _ | .shri _ d a _ | .srai _ d a _ | .jr _ d a | .setvl _ d a _ _ _ => [d, a]
  | .li _ d _ | .li64 _ d _ | .call _ d _ | .addpc _ d _ | .bstrip _ d _ | .mfs _ d _ => [d]
  | .cmp _ _ _ a b | .kfromx _ _ a b => [a, b]
  | .cmpi _ _ _ a _ | .kset _ _ a | .mts _ _ a => [a]
  | .ktox _ _ _ b | .vtopk _ _ _ _ b | .vslideup _ _ _ _ b | .vslidedn _ _ _ _ b | .vextr _ _ _ _ b => [b]
  | .vins _ _ _ a b | .zopaL _ _ _ a b | .zld _ _ a b | .zst _ _ a b => [a, b]
  | .zfill _ _ _ _ b | .zdrain _ _ _ _ _ b => [b]
  | .ld _ _ _ _ _ d a | .st _ _ _ _ d a => [d, a]
  | .vld _ _ _ a | .vldff _ _ _ a | .vst _ _ _ a | .vldt _ _ _ a | .vldtCt _ _ _ a => [a]
  | .vlds _ _ _ a b | .vsts _ _ _ a b => [a, b]
  | .vldx _ _ _ a _ | .vstx _ _ _ a _ => [a]
  | .amoadd _ _ _ _ d a b | .amoand _ _ _ _ d a b | .amoor _ _ _ _ d a b | .amoxor _ _ _ _ d a b | .amomin _ _ _ _ d a b
  | .amomax _ _ _ _ d a b | .amoswp _ _ _ _ d a b | .amofadd _ _ _ d a b => [d, a, b]
  | .amocas _ _ _ _ d a b c => [d, a, b, c]
  | .vamoadd _ _ _ _ a _ _ | .vamofadd _ _ _ _ a _ _ | .vamomin _ _ _ _ a _ _ | .vamomax _ _ _ _ a _ _ => [a]
  | .fredadd _ _ _ a b | .fredmax _ _ _ a b => [a, b]
  | .fscadd _ _ a _ _ => [a]
  | .fembag _ _ _ _ _ b _ | .fatt _ _ _ _ _ _ b => [b]
  | .kvput _ _ _ _ a b | .kvinv _ _ _ a b | .ctw _ a b | .binit _ a b | .bexp _ a b _ | .qsub _ a b | .qsig _ a b
  | .hrput _ a b => [a, b]
  | .barr _ a | .barrd _ a | .bwait _ a _ => [a]
  | .btest _ d a _ | .klaunch _ d a => [d, a]
  | .ecpy _ _ d a b c _ | .emcast _ _ d a b c _ | .efill _ _ d a b c _ | .egath _ _ d a b c _ | .escat _ _ d a b c _ =>
    [d, a, b, c]
  | _ => []

/-- The first of those is only written. -/
def frontDest : Instr → Bool
  | .add .. | .sub .. | .and .. | .or .. | .xor .. | .shl .. | .shr .. | .sra .. | .mul .. | .mulh .. | .mulhu .. | .div .. | .divu ..
  | .rem .. | .remu .. | .min .. | .max .. | .minu .. | .maxu .. | .addsh .. | .clz .. | .ctz .. | .popc .. | .ext .. | .addi .. | .andi ..
  | .ori .. | .xori .. | .shli .. | .shri .. | .srai .. | .jr .. | .setvl .. | .li .. | .li64 .. | .call .. | .addpc .. | .bstrip ..
  | .mfs .. | .ld .. | .amoadd .. | .amoand .. | .amoor .. | .amoxor .. | .amomin .. | .amomax .. | .amoswp .. | .amofadd .. | .amocas ..
  | .btest .. | .klaunch .. => true
  | _ => false

/-- x registers whose values the front end takes. -/
def readsX (i : Instr) : List XReg := if frontDest i then (frontX i).drop 1 else frontX i

/-- The x register a vector-queue entry writes (R130). -/
def queueX : Instr → Option XReg
  | .vextr _ _ d _ _ | .ktest _ _ d _ | .kfirst _ d _ | .ktox _ d _ _ => some d
  | .vredsum _ _ d _ sc | .vredmax _ _ d _ sc | .vredmin _ _ d _ sc | .vredand _ _ d _ sc | .vredor _ _ d _ sc
  | .vargmax _ _ d _ sc => if sc then some d else none
  | .vdot _ _ d _ _ sc => if sc then some d else none
  | _ => none

/-- Predicates a front-end evaluation reads as operands (R130). -/
def frontK : Instr → List KReg
  | .klog _ _ a b c t =>
    (if ttDepends t 2 then [a] else []) ++ (if ttDepends t 1 then [b] else []) ++ (if ttDepends t 0 then [c] else [])
  | .kfromx _ d _ _ => [d]
  | _ => []

/-- Predicates of a guard that its table depends on (R71). -/
def guardK (g : Guard) : List KReg :=
  (if ttDepends g.tt 2 then [g.ga] else []) ++ (if ttDepends g.tt 1 then [g.gb] else []) ++
    (if ttDepends g.tt 0 then [g.gc] else [])

/-- An element instruction (R72). -/
def isElement : Instr → Bool
  | .vcmp .. | .vadd .. | .vsub .. | .vmul .. | .vmulh .. | .vfma .. | .vfms .. | .vfnma .. | .vdiv .. | .vmin ..
  | .vmax .. | .vadds .. | .vsubs .. | .vand .. | .vor .. | .vxor .. | .vshl .. | .vshr .. | .vscale .. | .vsqrt ..
  | .vrsqrt .. | .vrcp .. | .vexp2 .. | .vlog2 .. | .vabs .. | .vneg .. | .vredsum .. | .vredmax .. | .vredmin ..
  | .vredand .. | .vredor .. | .vargmax .. | .vdot .. | .vsmax .. | .vtopk .. | .vcvt .. | .vqmx .. | .vpack ..
  | .vunpk .. | .vmov .. | .vgathr .. | .vslideup .. | .vslidedn .. | .vcompress .. | .vexpand .. | .viota ..
  | .vtransp .. | .vins .. | .zopa .. | .zfill .. | .zdrain .. | .vld .. | .vlds .. | .vldx .. | .vldff .. | .vst ..
  | .vsts .. | .vstx .. | .vldt .. | .vldtCt .. | .vamoadd .. | .vamofadd .. | .vamomin .. | .vamomax .. | .fredadd ..
  | .fredmax .. | .fscadd .. | .fembag .. | .fatt .. | .fmerge .. | .kvput .. => true
  | _ => false

/-- An instruction that takes its start position from VSTART (R123, R215). -/
def takesStart : Instr → Bool
  | .zld .. | .zst .. => true
  | i => isElement i

/-- Predicates with a pending vector writer after the entries of a queue (R129): VCMP's pair until it completes, k0 apart, and
what a KLOG makes of a pending source. A source counts whether or not the table depends on it, and while the VCMP stands in
the queue. DESIGN CHOICE (log 54). -/
def pendingAfter (e : VqEntry) (p : List KReg) : List KReg :=
  match e.instr with
  | .vcmp _ _ _ d _ _ => if d = 0 then 1 :: p else if d + 1 = 0 then d :: p else d :: (d + 1) :: p
  | .klog _ d a b c _ => if d ≠ 0 ∧ (p.contains a || p.contains b || p.contains c) = true then d :: p else p
  | _ => p

/-- Predicates with a pending vector writer; k0 has none. -/
def Hart.pendingK (h : Hart) : List KReg := h.vq.foldl (fun p e => pendingAfter e p) []

/-- x registers that an earlier, uncompleted entry writes. -/
def Hart.pendingX (h : Hart) : List XReg := (h.vq.filterMap fun e => queueX e.instr).filter fun r => r != 0

/-- An entry whose completion an MFS or MTS of the flags waits for (R62). -/
def setsFlags : Instr → Bool
  | .vtag .. | .vextr .. | .ktest .. | .kfirst .. | .ktox .. | .zzero .. | .zld .. | .zst .. | .kvinv .. | .fenceVv .. | .fenceVs ..
  | .cmp .. | .cmpi .. | .klog .. | .kset .. | .kfromx .. | .kdead .. | .mts .. => false
  | _ => true

/-- A first-fault form (R279). -/
def isFirstFault : Instr → Bool
  | .vldff .. => true
  | .vlds _ m _ _ _ | .vldx _ m _ _ _ | .vldt _ m _ _ | .vldtCt _ m _ _ => m.ff
  | _ => false

/-! Predicate writers (R129). -/

/-- Which conditions hold of two scalar values (R85, R151). -/
def scalarCond (c : Cond) (a b : Word) : Bool :=
  match c with
  | .eq => a == b
  | .ne => a != b
  | .lt => a.slt b
  | .ge => !(a.slt b)
  | .le => !(b.slt a)
  | .gt => b.slt a
  | .ltu => a.ult b
  | .geu => !(a.ult b)
  | .leu => !(b.ult a)
  | .gtu => b.ult a
  | .un => false
  | .ord => true

/-- Write a compare's pair whole (R76). -/
def VecRegs.setPair (r : VecRegs) (klen : Nat) (d : KReg) (c : Bool) : VecRegs :=
  (r.setK d (if c then onesN klen else 0)).setK (d + 1) (if c then 0 else onesN klen)

/-- Bits `j < n` of a string by a test. -/
def buildBits (n : Nat) (p : Nat → Bool) : Nat := foldUpTo n 0 fun x j => if p j then x ||| (1 <<< j) else x

/-- KLOG (R155): a three-source table over whole strings. -/
def klogBits (n : Nat) (t : BitVec 8) (a b c : Nat) : Nat :=
  let pick (j : Nat) (x : Nat) : Nat := if j % 2 = 1 then x else x ^^^ onesN n
  (List.range 8).foldl (fun acc j => if t.getLsbD j then acc ||| (pick (j / 4) a &&& pick (j / 2) b &&& pick j c) else acc) 0

/-- KSET (R156): true at the first `c` sweep positions. -/
def ksetBits (klen : Nat) (rc : Fin 6) (vl c : Nat) : Nat :=
  foldUpTo (rcRows rc) 0 fun x r =>
    x ||| (onesN (min vl (c - r * vl)) <<< (r * (klen / rcRows rc)))

/-- The word index of KTOX and KFROMX lies in range (R159). -/
def kwordOk (vlenb : Nat) (w : Word) : Bool := decide (w.toNat < vlenb / 32)

/-- What a predicate-writing whole instruction does to the predicates when its guard holds (R129). -/
def predEffect (e : VqEntry) (vlenb : Nat) (r : VecRegs) : VecRegs :=
  let n := 2 * vlenb
  match e.instr with
  | .cmp _ c d _ _ => r.setPair n d (scalarCond c e.xa e.xb)
  | .cmpi _ c d _ imm => r.setPair n d (scalarCond c e.xa (imm.signExtend 64))
  | .klog _ d a b c t => r.setK d (klogBits n t (r.getK n a) (r.getK n b) (r.getK n c))
  | .kset _ d _ => r.setK d (ksetBits n e.rc e.vl e.xa.toNat)
  | .kfromx _ d _ _ => if kwordOk vlenb e.xb then r.setK d (putBits (r.getK n d) (64 * e.xb.toNat) 64 e.xa.toNat) else r
  | .kdead _ m => r.killK m
  | .mts _ .plive _ => r.setPlive (e.xa.setWidth 16)
  | .vcmp _ _ _ d _ _ => { r with plive := r.plive ||| ((if d = 0 then 0 else 1#16 <<< d.toNat) ||| (1#16 <<< (d + 1).toNat)) }
  | _ => r

/-- The guard of a whole instruction over given predicates (R72). -/
def VecRegs.guard00 (r : VecRegs) (klen : Nat) (g : Guard) : Bool :=
  guardBit g.tt (r.getK klen g.ga) (r.getK klen g.gb) (r.getK klen g.gc) 0

/-- A predicate writer under its guard; VCMP sets PLIVE whatever its guard (R160). -/
def predStep (e : VqEntry) (vlenb : Nat) (r : VecRegs) : VecRegs :=
  if isElement e.instr then predEffect e vlenb r
  else
    match guardOf e.instr with
    | some g => if r.guard00 (2 * vlenb) g then predEffect e vlenb r else r
    | none => r

/-- Predicates and PLIVE as the front end knows them: after every queued predicate writer (R129, R160). In a trap handler the
entries of the trap image are not in the queue, and PLIVE is read without their writes. DESIGN CHOICE (log 27). -/
def Hart.frontVec (h : Hart) : VecRegs := h.vq.foldl (fun r e => predStep e h.vlenb r) h.vec

/-- The guard of a whole instruction at the front end. -/
def Hart.frontGuard (h : Hart) (g : Guard) : Bool := h.frontVec.guard00 h.klen g

/-! The frame of a front-end instruction. -/

/-- Whether an ORD code makes an acquire, or a release (R253). -/
def ordAcq : Ord → Bool
  | .acquire | .acqRel => true
  | _ => false

def ordRel : Ord → Bool
  | .release | .acqRel => true
  | _ => false

/-- A vector-queue instruction that is an acquire point (R253). -/
def isAcquire : Instr → Bool
  | .vld _ m _ _ | .vldff _ m _ _ | .vldt _ m _ _ | .vldtCt _ m _ _ | .vlds _ m _ _ _ | .vldx _ m _ _ _ => ordAcq m.ord
  | .vamoadd _ m _ _ _ _ _ | .vamofadd _ m _ _ _ _ _ | .vamomin _ m _ _ _ _ _ | .vamomax _ m _ _ _ _ _ => ordAcq m.ord
  | _ => false

/-- A front-end instruction that accesses memory or is a fence: an acquire point in the queue is ordered before it (R252). -/
def frontAccess : Instr → Bool
  | .ld .. | .st .. | .amoadd .. | .amoand .. | .amoor .. | .amoxor .. | .amomin .. | .amomax .. | .amoswp .. | .amofadd ..
  | .amocas .. | .fence .. | .fenceSv .. | .fenceStk .. | .qfence .. | .binit .. | .barr .. | .barrd .. | .bexp .. | .bwait ..
  | .btest .. | .klaunch .. | .qsub .. | .qsig .. | .hrput .. => true
  | _ => false

/-- A FENCE.VS. -/
def isFenceVs : Instr → Bool
  | .fenceVs .. => true
  | _ => false

/-- Flags an MFS or MTS must see are still to come: from the queue, or from far work of the hart (R62). -/
def State.flagsOpen (s : State) : Bool :=
  s.hart.vq.any (fun e => setsFlags e.instr) || s.far.pieces.any fun p => p.hart == s.hart.no && setsFlags p.entry.instr

/-- The resynchronisations of R130 but for the guard; a FENCE.VS orders every earlier entry of the queue (R291). -/
def State.hazard (s : State) (i : Instr) : Bool :=
  let h := s.hart
  (!h.vq.isEmpty && ((frontX i).any (fun r => h.pendingX.contains r) || (frontK i).any fun k => h.pendingK.contains k)) ||
    (match i with
      | .mfs _ _ .fflags | .mfs _ _ .iflags | .mts _ .fflags _ | .mts _ .iflags _ => s.flagsOpen
      | .fenceVs .. => !h.vq.isEmpty
      | _ => false)

/-- A VTAG whose block tag its register or format cannot hold: it takes its fault whatever its guard (R88, R163). -/
def badVtag : Instr → Bool
  | .vtag _ d t blk => blk && (d.toNat % 2 == 1 || !t.blockOk)
  | _ => false

/-- A false guard leaves the instruction without effect (R72, R88). -/
def guardedWhole (i : Instr) : Bool := !isElement i && !badVtag i

/-- The guard of a whole instruction depends on a predicate with a pending vector writer (R74, R130). -/
def Hart.guardPending (h : Hart) (i : Instr) : Bool :=
  !h.vq.isEmpty && guardedWhole i &&
    (match guardOf i with
      | some g => (guardK g).any fun k => h.pendingK.contains k
      | none => false)

/-- A predicate that the guard of a whole instruction depends on holds an error beyond correction (R465). -/
def Hart.guardSpoilt (h : Hart) (i : Instr) : Bool :=
  !h.vec.bad.isEmpty && guardedWhole i && (match guardOf i with
    | some g => (guardK g).any h.frontVec.kSpoilt
    | none => false)

/-- So does an x register or a predicate that the front end reads. -/
def Hart.readsSpoilt (h : Hart) (i : Instr) : Bool :=
  (h.xbad != 0 && (readsX i).any fun r => r != 0 && h.xbad.getLsbD r.toNat) ||
    (!h.vec.bad.isEmpty && (frontK i).any h.frontVec.kSpoilt)

/-- What the front end does with the instruction it stands at: `bad` is the fault 0x10 of a register it reads (R465). -/
inductive Gate where
  | hold (w : HartWait)
  | bad
  | skip
  | go
  deriving DecidableEq, Repr

/-- Behind a first-fault form or a FENCE.VS nothing issues (R282, R291); a whole instruction waits for its guard, and with
the guard false it has no effect and waits for nothing else (R72, R74); then come the waits of R130, and that for an
acquire point in the queue (R252). -/
def State.gate (s : State) (i : Instr) : Gate :=
  let h := s.hart
  if !h.vq.isEmpty && h.vq.any (fun e => isFirstFault e.instr || isFenceVs e.instr) then
    .hold (if h.wait = .resync then .resync else .drain)
  else if h.guardPending i then .hold .resync
  else if h.guardSpoilt i then .bad
  else if guardedWhole i && !(match guardOf i with
      | some g => h.frontGuard g
      | none => true) then .skip
  else if s.hazard i then .hold .resync
  else if frontAccess i && h.vq.any (fun e => isAcquire e.instr) then .hold .fenceStk
  else if h.readsSpoilt i then .bad
  else .go

/-- A front-end instruction: its waits, its guard, its effect (R72, R74, R130, R141). -/
def State.frontEnd (s : State) (i : Instr) (_ : Guard) (len : Nat) (eff : State → FrontAct) : State :=
  match s.gate i with
  | .hold w => s.act len (.wait w)
  | .bad => s.act len (.refuse (.of 0x10))
  | .skip => s.act len (.next s)
  | .go => s.act len (eff s)

/-! Enqueueing (R125 to R128). -/

/-- The RM field of an instruction that takes its mode from RM (R45). -/
def rmOf : Instr → Option Rm
  | .vadd _ m _ _ _ | .vsub _ m _ _ _ | .vmul _ m _ _ _ | .vmulh _ m _ _ _ | .vdiv _ m _ _ _ | .vmin _ m _ _ _
  | .vmax _ m _ _ _ | .vadds _ m _ _ _ | .vsubs _ m _ _ _ | .vscale _ m _ _ _ | .vpack _ m _ _ _ => some m.rm
  | .vfma _ m _ _ _ _ | .vfms _ m _ _ _ _ | .vfnma _ m _ _ _ _ => some m.rm
  | .vsqrt _ m _ _ | .vrsqrt _ m _ _ | .vrcp _ m _ _ | .vexp2 _ m _ _ | .vlog2 _ m _ _ | .vabs _ m _ _
  | .vneg _ m _ _ => some m.rm
  | .vcvt _ m _ _ _ _ _ => some m.rm
  | .vqmx _ m _ _ _ => some m.rm
  | .zdrain _ rm _ _ _ _ => some rm
  | _ => none

/-- The effective mode of an instruction under FRM (R45, R166). -/
def effMode (rm : Rm) (frm : RMode) : RMode :=
  match rm with
  | .frm => frm
  | .rne => .rne
  | .rz => .rz
  | .ru => .ru
  | .rd => .rd
  | .sr => .sr

/-- The instruction is SR-using (R53): opcodes 0x40 to 0x52 with every RM code include VMIN, VMAX, VABS and VNEG. -/
def usesSr (i : Instr) (frm : RMode) : Bool :=
  match rmOf i with
  | some rm => effMode rm frm == .sr
  | none => false

/-- Fields A and B as x registers, for the values an entry captures (R429). -/
def entryX (i : Instr) : Option XReg × Option XReg :=
  match i with
  | .cmp _ _ _ a b | .kfromx _ _ a b | .vins _ _ _ a b | .zopaL _ _ _ a b | .zld _ _ a b | .zst _ _ a b
  | .vlds _ _ _ a b | .vsts _ _ _ a b | .fredadd _ _ _ a b | .fredmax _ _ _ a b | .kvput _ _ _ _ a b
  | .kvinv _ _ _ a b => (some a, some b)
  | .cmpi _ _ _ a _ | .kset _ _ a | .mts _ _ a | .vld _ _ _ a | .vldff _ _ _ a | .vst _ _ _ a | .vldt _ _ _ a
  | .vldtCt _ _ _ a | .vldx _ _ _ a _ | .vstx _ _ _ a _ | .vamoadd _ _ _ _ a _ _ | .vamofadd _ _ _ _ a _ _
  | .vamomin _ _ _ _ a _ _ | .vamomax _ _ _ _ a _ _ | .fscadd _ _ a _ _ => (some a, none)
  | .ktox _ _ _ b | .vtopk _ _ _ _ b | .vslideup _ _ _ _ b | .vslidedn _ _ _ _ b | .vextr _ _ _ _ b | .zfill _ _ _ _ b
  | .zdrain _ _ _ _ _ b | .fembag _ _ _ _ _ b _ | .fatt _ _ _ _ _ _ b => (none, some b)
  | _ => (none, none)

/-- The code-table bank in force (R383, R385): CTGEN's lowest bit. -/
def Context.bankInForce (c : Context) : Bool := c.ctgen.getLsbD 0

def Context.bank (c : Context) (b : Bool) : Vector (BitVec 16) 16 := if b then c.bank1 else c.bank0

/-- The entry an instruction makes (R128). The word +0x10 holds the FSITE captured. -/
def State.makeEntry (s : State) (i : Instr) : VqEntry :=
  let h := s.hart
  let c := s.ctx h.ctx
  let b := c.bankInForce
  let (xa, xb) := entryX i
  let sr := usesSr i h.ctl.frm
  { instr := i, addr := h.pc, vl := h.ctl.vl.toNat, start := if takesStart i then h.ctl.vstart.toNat else 0, rc := h.ctl.rc,
    vtail := h.ctl.vtail.toNat, vtag := h.ctl.vtag, vblk := h.ctl.vblk, frm := h.ctl.frm, bank := b,
    bankVals := (c.bank b).toList, sr := sr, fsite := h.ctl.fsiteWord, srctr := h.ctl.srctr,
    srseed := if sr then h.ctl.srseed else 0,
    xa := match xa with
      | some r => h.getX r
      | none => 0
    xb := match xb with
      | some r => h.getX r
      | none => 0 }

/-- Enqueue: the entry stands at the end of the VQ, VSTART is consumed by what takes it (R123), SRCTR steps
(R53). -/
def State.enqueue (s : State) (i : Instr) : State :=
  let e := s.makeEntry i
  let h := s.hart
  let ctl := if takesStart i then { h.ctl with vstart := 0 } else h.ctl
  let ctl := if e.sr then { ctl with srctr := ctl.srctr + 1 } else ctl
  { s with hart := { h with vq := h.vq ++ [e], ctl := ctl } }

/-- The VQ is full (R125). -/
def Hart.vqFull (h : Hart) : Bool := decide (32 ≤ h.vq.length)

/-- The SRQ has no room for the result of an instruction: its eight entries are taken by those queued (R125). An instruction
holds its entry from its enqueueing until it completes. DESIGN CHOICE (log 54). -/
def Hart.srqFull (h : Hart) (i : Instr) : Bool :=
  (queueX i).isSome && decide (8 ≤ (h.vq.filter fun e => (queueX e.instr).isSome).length)

end Sys2Proof.Machine
end

