-- ==== Sys2Proof/Machine/Operands.lean ====
section
/-! DEFINITION. Operands of vector-side instructions: registers near and far (R70, R113, R114), sources with replication and
block scales (R79, R116, R168), destinations (R115, R428), guard, tail and start of a sweep (R71, R122 to R124), and the
checks of R122 and R169. -/

namespace Sys2Proof.Machine

/-- A vector register: near, or far at index 8k + f of far site k (R426). -/
inductive RegRef where
  | near (n : Nat)
  | far (i : Nat)
  deriving DecidableEq, Repr

/-- The other register of a pair. -/
def RegRef.odd : RegRef → RegRef
  | .near n => .near (n + 1)
  | .far i => .far (i + 1)

/-- What an instruction of the vector side works on: its entry, the registers before it, the hart's register length, the
far site when it is a far word, and a sweep position before which a stop comes (R140). -/
structure Env where
  e : VqEntry
  vec : VecRegs
  vlenb : Nat
  farWord : Bool
  site : Nat
  limit : Option Nat
  deriving DecidableEq, Repr

/-- Field of a word as a register (R70). -/
def Env.ref (v : Env) (r : VReg) : RegRef :=
  if v.farWord && decide (56 ≤ r.toNat) then .far (8 * v.site + (r.toNat - 56)) else .near r.toNat

/-- The field names a far register. -/
def Env.isFar (v : Env) (r : VReg) : Bool := v.farWord && decide (56 ≤ r.toNat)

def VecRegs.tagRef (r : VecRegs) : RegRef → RegTag
  | .near n => r.tagV n
  | .far i => (r.getF i).tag

def VecRegs.getRef (r : VecRegs) : RegRef → Nat
  | .near n => r.getV n
  | .far i => (r.getF i).bits

/-- Write tags; a block tag also tags the odd register N8 (R115). -/
def VecRegs.setTagRef (r : VecRegs) (f : RegRef) (t : RegTag) : VecRegs :=
  let put (r : VecRegs) (f : RegRef) (t : RegTag) : VecRegs :=
    match f with
    | .near n => r.setTagV n t
    | .far i => r.setTagF i t
  let r := put r f t
  if t.blk then put r f.odd .n8 else r

/-- Bytes of a register. -/
def Env.regBytes (v : Env) : RegRef → Nat
  | .near _ => v.vlenb
  | .far _ => 4096

def Env.rows (v : Env) : Nat := rcRows v.e.rc

/-- Bits of a row of a register (R114). -/
def Env.rowBits (v : Env) (f : RegRef) : Nat := 8 * v.regBytes f / v.rows

/-- Bits of a predicate. -/
def Env.klen (v : Env) : Nat := 2 * v.vlenb

/-! Sweep positions. -/

/-- Tail positions (R124). -/
def Env.tail (v : Env) (i : Nat) : Bool := decide (v.e.vl - v.e.vtail ≤ i)

/-- The guard of the entry's instruction. -/
def Env.guardField (v : Env) : Guard := (guardOf v.e.instr).getD ⟨0, 0, 0, 0⟩

/-- The guard of element (r, i) (R71). -/
def Env.guard (v : Env) (r i : Nat) : Bool :=
  let g := v.guardField
  guardBit g.tt (v.vec.getK v.klen g.ga) (v.vec.getK v.klen g.gb) (v.vec.getK v.klen g.gc) (kpos v.klen v.e.rc r i)

/-- Eligible elements (R181). -/
def Env.eligible (v : Env) (r i : Nat) : Bool := !v.tail i && v.guard r i

/-- Number of sweep positions. -/
def Env.positions (v : Env) : Nat := v.rows * v.e.vl

/-- The first sweep position not performed now. -/
def Env.last (v : Env) : Nat :=
  match v.limit with
  | some n => min n v.positions
  | none => v.positions

/-- Fold over the sweep positions from the start position on. -/
def Env.sweep {α : Type} (v : Env) (a : α) (f : α → Nat → Nat → α) : α :=
  (List.range (v.last - v.e.start)).foldl
    (fun a k => let n := v.e.start + k; f a (n / v.e.vl) (n % v.e.vl)) a

/-! Sources. -/

/-- The tag under which a register is read: of a near register that of the beginning of an entry performed in parts (R169). -/
def Env.tagOf (v : Env) (f : RegRef) : RegTag :=
  match v.e.begun, f with
  | some b, .near n => b.tags[n]?.getD .n8
  | _, f => v.vec.tagRef f

/-- A source register as it stood before the instruction. -/
structure Source where
  data : Nat
  scales : Nat
  rowBits : Nat
  tag : RegTag
  deriving DecidableEq, Repr

def Env.source (v : Env) (r : VReg) : Source :=
  let f := v.ref r
  { data := v.vec.getRef f, scales := v.vec.getRef f.odd, rowBits := v.rowBits f, tag := v.tagOf f }

/-- Bit pattern of element (r, i). -/
def Source.code (q : Source) (r i : Nat) : Nat := bits q.data (r * q.rowBits + i * fmtWidth q.tag.fmt) (fmtWidth q.tag.fmt)

/-- Scale byte of the block of element (r, i). -/
def Source.scale (q : Source) (r i : Nat) : Nat := bits q.scales (r * q.rowBits + i / 32 * 8) 8

/-- The exact value of element (r, i) (R168). -/
def Source.val (q : Source) (r i : Nat) : FVal :=
  if q.tag.blk then mxdecode q.tag.fmt (q.code r i) (q.scale r i) else decodeFmt q.tag.fmt (q.code r i)

def Source.int (q : Source) (r i : Nat) : Int := decodeInt q.tag.fmt (q.code r i)

/-- Replicated position (R79). -/
def repAt (p : Rep) (r i : Nat) : Nat × Nat :=
  match p with
  | .none => (r, i)
  | .e => (0, 0)
  | .s4 => (r, i / 4)
  | .s32 => (r, i / 32)
  | .row => (0, i)
  | .re => (r, 0)

def Source.codeAt (q : Source) (p : Rep) (r i : Nat) : Nat := q.code (repAt p r i).1 (repAt p r i).2
def Source.valAt (q : Source) (p : Rep) (r i : Nat) : FVal := q.val (repAt p r i).1 (repAt p r i).2
def Source.intAt (q : Source) (p : Rep) (r i : Nat) : Int := q.int (repAt p r i).1 (repAt p r i).2

/-- The odd register of a block-tagged source carries N8 without block tag (R116). -/
def Env.pairOk (v : Env) (r : VReg) : Bool :=
  !(v.tagOf (v.ref r)).blk || v.tagOf (v.ref r).odd == .n8

def Env.tag (v : Env) (r : VReg) : RegTag := v.tagOf (v.ref r)

/-! An entry performed in parts. -/

/-- What the entry carries from its beginning. -/
def Env.begun (v : Env) : Begun := v.e.begun.getD ⟨v.vec.vtags, v.e.start, none, none⟩

/-- No element of the entry has been performed since it was last entered. -/
def Env.fresh (v : Env) : Bool := v.begun.start == v.e.start

/-! Destinations. -/

/-- Writes to one register: its bits, the end of the highest bit written, flags, the mask of the bits written. -/
structure Wr where
  bits : Nat
  top : Nat
  fl : Flags
  cover : Nat
  deriving DecidableEq, Repr

def Wr.put (w : Wr) (pos n v : Nat) : Wr := 
  { w with bits := putBits w.bits pos n v, top := max w.top (pos + n), cover := putBits w.cover pos n (onesN n) }

def Wr.flag (w : Wr) (f : Flags) : Wr := { w with fl := w.fl.or f }

def VecRegs.startWr (r : VecRegs) (f : RegRef) : Wr := ⟨r.getRef f, 0, .none, 0⟩

/-- Put the writes into the register, marking it written up to its highest unit (R427, R428). -/
def VecRegs.commit (r : VecRegs) (f : RegRef) (w : Wr) : VecRegs :=
  if w.top = 0 then r
  else
    match f with
    | .near n =>
      { r with
        v := r.v.setIfInBounds n w.bits
        vdirty := r.vdirty ||| (1#64 <<< n)
        vhwe := r.vhwe.setIfInBounds n (max (r.vhwe[n]?.getD 0) ((w.top - 1) / 4096))
        bad := healed r.bad .v n w.cover }
    | .far i =>
      { r with far := r.far.setIfInBounds i { r.getF i with bits := w.bits, dirty := true }, bad := healed r.bad .f i w.cover }

/-! Results of a vector-side instruction that accesses no memory. -/

/-- The registers after it, its flags and an x register it writes; or a fault with the registers as they stand. -/
inductive VRes where
  | done (r : VecRegs) (f : Flags) (x : Option (XReg × Word))
  | fault (r : VecRegs) (code : BitVec 8)
  deriving DecidableEq, Repr

/-- Row length of R122 in bits: 4,096 bytes when a far register is named. -/
def Env.rowLimit (v : Env) (fields : List VReg) : Nat :=
  8 * (if fields.any v.isFar then min 4096 v.vlenb else v.vlenb) / v.rows

/-- The elements at the sweep width need more than the row length (R122). -/
def Env.tooLong (v : Env) (fields : List VReg) (w : Nat) : Bool := decide (v.rowLimit fields < v.e.vl * w)

/-- A source as R169 sees it: its registers, its replicate code and the width it is read at. -/
structure SrcUse where
  refs : List RegRef
  rep : Rep
  width : Nat
  deriving DecidableEq, Repr

def Env.use (v : Env) (r : VReg) (p : Rep) : SrcUse :=
  let t := v.tag r
  ⟨if t.blk then [v.ref r, (v.ref r).odd] else [v.ref r], p, fmtWidth t.fmt⟩

/-- The refusals of R169: a replicated source, or one of another width, is a destination. -/
def overlapBad (srcs : List SrcUse) (dests : List RegRef) (w : Nat) : Bool :=
  srcs.any fun q => q.refs.any (fun f => dests.contains f) && (q.rep != .none || q.width != w)

/-- A destination of an element-wise instruction: its field, the tags written, and whether it writes a pair. -/
structure Dest where
  reg : VReg
  tag : RegTag
  deriving DecidableEq, Repr

def Env.destRefs (v : Env) (d : Dest) : List RegRef :=
  if d.tag.blk then [v.ref d.reg, (v.ref d.reg).odd] else [v.ref d.reg]

/-- One sweep position of an element-wise instruction (R168). -/
def Env.element (v : Env) (zm : Bool) (rowBits w : Nat) (op : Nat → Nat → Flagged Nat) (acc : Wr) (r i : Nat) : Wr :=
  let pos := r * rowBits + i * w
  if v.tail i then acc.put pos w 0
  else if v.guard r i then
    let (c, f) := op r i
    (acc.put pos w c).flag f
  else if zm then acc.put pos w 0
  else acc

/-- An element-wise instruction without memory accesses (R115, R122, R168, R169). -/
def Env.elementwise (v : Env) (zm : Bool) (fields : List VReg) (srcs : List SrcUse) (d : Dest)
    (op : Nat → Nat → Flagged Nat) : VRes :=
  let w := fmtWidth d.tag.fmt
  let f := v.ref d.reg
  if v.tooLong fields (srcs.foldl (fun m q => max m q.width) w) then .fault v.vec 0x04
  else
    let vec := v.vec.setTagRef f d.tag
    if overlapBad srcs (v.destRefs d) w then .fault vec 0x04
    else
      let acc := v.sweep (v.vec.startWr f) fun a r i => v.element zm (v.rowBits f) w op a r i
      .done (vec.commit f acc) acc.fl none

/-- A block tag on a register or format that cannot hold it (R33): `d` is the register field. -/
def blockBad (d : VReg) (t : RegTag) : Bool := t.blk && (d.toNat % 2 == 1 || !t.fmt.blockOk)

/-- The SR draw of element (r, i) (R47, R52), 0 where the mode takes none. -/
def Env.draw (v : Env) (mode : RMode) (r i : Nat) : Nat :=
  if mode = .sr then (icm v.e.srseed v.e.srctr r i).toNat else 0

/-- The effective mode of the entry (R45, R166). -/
def Env.mode (v : Env) (rm : Rm) : RMode := effMode rm v.e.frm

end Sys2Proof.Machine
end

