-- ==== Sys2Proof/Machine/Vector.lean ====
section
/-! DEFINITION. Element-wise vector arithmetic and vector compares (R76, R152 to R154, R170 to R180): what each does to the
registers. A far form gives the same bits (R173). -/

namespace Sys2Proof.Machine

/-- Result format of sources that must carry one format tag (R116, R170, R171); none is fault 0x03. -/
def Env.resultFmt (v : Env) (w : Bool) (srcs : List VReg) : Option Fmt :=
  match srcs with
  | [] => none
  | a :: _ =>
    let f := (v.tag a).fmt
    if srcs.all (fun r => v.pairOk r && (v.tag r).fmt == f) then
      if srcs.any (fun r => (v.tag r).blk) then (if w then none else some .fp32)
      else if w then wideFmt f else some f
    else none

/-- The kinds of tag an opcode admits (R170). -/
inductive Admits where
  | any | ints | floats
  deriving DecidableEq, Repr

def Admits.ok (k : Admits) (f : Fmt) : Bool :=
  match k with
  | .any => true
  | .ints => !fmtIsFloat f
  | .floats => fmtIsFloat f

/-- A two-source form (R174 to R176): `opI` on integers gives the result's code, `opF` a value rounded in the result format. -/
def Env.binary (v : Env) (m : VMod) (d a b : VReg) (k : Admits) (opI : Fmt → Int → Int → Flagged Nat)
    (opF : FVal → FVal → Fmt → RMode → Nat → Flagged Nat) : VRes :=
  match v.resultFmt m.w [a, b] with
  | none => .fault v.vec 0x03
  | some t =>
    if !k.ok (v.tag a).fmt then .fault v.vec 0x03
    else
      let qa := v.source a
      let qb := v.source b
      let mode := v.mode m.rm
      v.elementwise m.zm [d, a, b] [v.use a m.repa, v.use b m.repb] ⟨d, ⟨t, false⟩⟩ fun r i =>
        if fmtIsFloat t then opF (qa.valAt m.repa r i) (qb.valAt m.repb r i) t mode (v.draw mode r i)
        else opI t (qa.intAt m.repa r i) (qb.intAt m.repb r i)

/-- A one-source form (R179, R180). -/
def Env.unary (v : Env) (m : VMod) (d a : VReg) (k : Admits) (opI : Fmt → Int → Flagged Nat)
    (opF : FVal → Fmt → RMode → Nat → Flagged Nat) : VRes :=
  match v.resultFmt m.w [a] with
  | none => .fault v.vec 0x03
  | some t =>
    if !k.ok (v.tag a).fmt then .fault v.vec 0x03
    else
      let qa := v.source a
      let mode := v.mode m.rm
      v.elementwise m.zm [d, a] [v.use a m.repa] ⟨d, ⟨t, false⟩⟩ fun r i =>
        if fmtIsFloat t then opF (qa.valAt m.repa r i) t mode (v.draw mode r i) else opI t (qa.intAt m.repa r i)

/-- An integer result modulo 2^w, no flag (R36). -/
def wrapTo (t : Fmt) (i : Int) : Flagged Nat := (wrapInt (fmtWidth t) i, .none)

def vaddRes (v : Env) (m : VMod) (d a b : VReg) : VRes := v.binary m d a b .any (fun t x y => wrapTo t (x + y)) addF

def vsubRes (v : Env) (m : VMod) (d a b : VReg) : VRes :=
  v.binary m d a b .any (fun t x y => wrapTo t (x - y)) fun x y => addF x y.negate

def vmulRes (v : Env) (m : VMod) (d a b : VReg) : VRes := v.binary m d a b .any (fun t x y => wrapTo t (x * y)) mulF

/-- Bits [2w − 1 : w] of the product (R174). -/
def vmulhRes (v : Env) (m : VMod) (d a b : VReg) : VRes :=
  v.binary m d a b .ints (fun t x y => wrapTo t (x * y / (2 ^ fmtWidth t : Nat))) mulF

/-- R175. -/
def vdivRes (v : Env) (m : VMod) (d a b : VReg) : VRes :=
  v.binary m d a b .any (fun t x y => let q := divInt x y; (wrapInt (fmtWidth t) q.1, q.2.2)) divF

def vminRes (v : Env) (m : VMod) (d a b : VReg) : VRes :=
  v.binary m d a b .any (fun t x y => wrapTo t (min x y)) fun x y => roundF (minmaxVals false x y)

def vmaxRes (v : Env) (m : VMod) (d a b : VReg) : VRes :=
  v.binary m d a b .any (fun t x y => wrapTo t (max x y)) fun x y => roundF (minmaxVals true x y)

/-- R176. -/
def vaddsRes (v : Env) (m : VMod) (d a b : VReg) : VRes := v.binary m d a b .ints (fun t x y => satInt t (x + y)) addF

def vsubsRes (v : Env) (m : VMod) (d a b : VReg) : VRes := v.binary m d a b .ints (fun t x y => satInt t (x - y)) addF

/-- The fused forms (R49, R174): `na` negates the product, `nc` the addend. -/
def Env.fused (v : Env) (m : VMod) (d a b c : VReg) (na nc : Bool) : VRes :=
  match v.resultFmt m.w [a, b] with
  | none => .fault v.vec 0x03
  | some t =>
    if v.tag c != ⟨t, false⟩ then .fault v.vec 0x03
    else
      let qa := v.source a
      let qb := v.source b
      let qc := v.source c
      let mode := v.mode m.rm
      v.elementwise m.zm [d, a, b, c] [v.use a m.repa, v.use b m.repb, v.use c .none] ⟨d, ⟨t, false⟩⟩ fun r i =>
        if fmtIsFloat t then
          let x := qa.valAt m.repa r i
          let z := qc.val r i
          fmaF (if na then x.negate else x) (qb.valAt m.repb r i) (if nc then z.negate else z) t mode (v.draw mode r i)
        else
          let p := qa.intAt m.repa r i * qb.intAt m.repb r i
          let z := qc.int r i
          wrapTo t ((if na then -p else p) + (if nc then -z else z))

def vfmaRes (v : Env) (m : VMod) (d a b c : VReg) : VRes := v.fused m d a b c false false
def vfmsRes (v : Env) (m : VMod) (d a b c : VReg) : VRes := v.fused m d a b c false true
def vfnmaRes (v : Env) (m : VMod) (d a b c : VReg) : VRes := v.fused m d a b c true false

/-- The bitwise and shift forms, on bit patterns of sources without block tag (R177). -/
def Env.bitwise (v : Env) (m : VMod) (d a b : VReg) (k : Admits) (op : Fmt → Nat → Nat → Nat) : VRes :=
  let t := (v.tag a).fmt
  if (v.tag a).blk || (v.tag b).blk || (v.tag b).fmt != t || !k.ok t then .fault v.vec 0x03
  else
    let qa := v.source a
    let qb := v.source b
    v.elementwise m.zm [d, a, b] [v.use a m.repa, v.use b m.repb] ⟨d, ⟨t, false⟩⟩ fun r i =>
      (op t (qa.codeAt m.repa r i) (qb.codeAt m.repb r i), .none)

def vandRes (v : Env) (m : VMod) (d a b : VReg) : VRes := v.bitwise m d a b .any fun _ x y => x &&& y
def vorRes (v : Env) (m : VMod) (d a b : VReg) : VRes := v.bitwise m d a b .any fun _ x y => x ||| y
def vxorRes (v : Env) (m : VMod) (d a b : VReg) : VRes := v.bitwise m d a b .any fun _ x y => x ^^^ y

/-- Shift amount: the low log2(w) bits of an element (R177). -/
def shiftBy (t : Fmt) (y : Nat) : Nat := y % fmtWidth t

def vshlRes (v : Env) (m : VMod) (d a b : VReg) : VRes := v.bitwise m d a b .ints fun t x y => x <<< shiftBy t y
def vshrRes (v : Env) (m : VMod) (d a b : VReg) : VRes :=
  v.bitwise m d a b .ints fun t x y => wrapInt (fmtWidth t) (decodeInt t x / (2 ^ shiftBy t y : Nat))

/-- The exponent of VSCALE: none is a NaN scale (R178). Beyond 2,000 in magnitude every result is decided. -/
def scaleExp (t : Fmt) (i : Int) : Option Int :=
  if t = .n8 then (if i = 255 then none else some (i - 127)) else some (max (-2000) (min 2000 i))

/-- R178. E2M1 has no NaN: an N8 scale of 255 gives +0 there, and no flag. DESIGN CHOICE (log 50). -/
def vscaleRes (v : Env) (m : VMod) (d a b : VReg) : VRes :=
  let ta := v.tag a
  let tb := v.tag b
  if !v.pairOk a || !fmtIsFloat ta.fmt || tb.blk || !([Fmt.s8, .s16, .s32, .n8].contains tb.fmt) then .fault v.vec 0x03
  else
    let t := if ta.blk then Fmt.fp32 else ta.fmt
    let qa := v.source a
    let qb := v.source b
    let mode := v.mode m.rm
    v.elementwise m.zm [d, a, b] [v.use a m.repa, v.use b m.repb] ⟨d, ⟨t, false⟩⟩ fun r i =>
      let x := qa.valAt m.repa r i
      match scaleExp tb.fmt (qb.intAt m.repb r i) with
      | none => ((deliverNan t).1, Flags.when x.isSnan .nv)
      | some n => let (c, f) := roundVal (x.scale n) t mode (v.draw mode r i); (c, f.or (Flags.when x.isSnan .nv))

/-- R179. -/
def fn1Res (v : Env) (m : VMod) (d a : VReg) (fn : Fn1) : VRes :=
  v.unary m d a .floats (fun t x => wrapTo t x) fun x t mode draw => fn1F fn x t mode draw

def vsqrtRes (v : Env) (m : VMod) (d a : VReg) : VRes := fn1Res v m d a .sqrt
def vrsqrtRes (v : Env) (m : VMod) (d a : VReg) : VRes := fn1Res v m d a .rsqrt
def vrcpRes (v : Env) (m : VMod) (d a : VReg) : VRes := fn1Res v m d a .rcp
def vexp2Res (v : Env) (m : VMod) (d a : VReg) : VRes := fn1Res v m d a .exp2
def vlog2Res (v : Env) (m : VMod) (d a : VReg) : VRes := fn1Res v m d a .log2

/-- |a| and −a, exact in the result format, with no flag but that of a signalling NaN (R180). A block-tagged source whose
value FP32 does not hold is rounded. DESIGN CHOICE (log 50). -/
def signedResult (f : FVal → FVal) (x : FVal) (t : Fmt) (mode : RMode) (draw : Nat) : Flagged Nat :=
  ((roundVal (f x) t mode draw).1, Flags.when x.isSnan .nv)

def vabsRes (v : Env) (m : VMod) (d a : VReg) : VRes :=
  v.unary m d a .any (fun t x => wrapTo t x.natAbs) (signedResult FVal.abs)

def vnegRes (v : Env) (m : VMod) (d a : VReg) : VRes :=
  v.unary m d a .any (fun t x => wrapTo t (-x)) (signedResult FVal.negate)

/-! VCMP. -/

/-- Write one bit of a predicate string. -/
def putBit (k pos : Nat) (b : Bool) : Nat := putBits k pos 1 (if b then 1 else 0)

/-- The pair of strings and the flags of a VCMP sweep. -/
structure PairWr where
  p : Nat
  q : Nat
  fl : Flags
  deriving DecidableEq, Repr

/-- The condition of one element (R85, R152, R153). -/
def elemCond (c : Cond) (qa qb : Source) (ra rb : Rep) (r i : Nat) : Bool × Flags :=
  let x := qa.valAt ra r i
  let y := qb.valAt rb r i
  (condVals c x y, Flags.when (x.isSnan || y.isSnan) .nv)

/-- R76, R152, R153, R160. A tag that is refused leaves PLIVE as it was. DESIGN CHOICE (log 54). -/
def vcmpRes (v : Env) (m : VMod) (c : Cond) (d : KReg) (a b : VReg) : VRes :=
  let t := (v.tag a).fmt
  if !v.pairOk a || !v.pairOk b || (v.tag b).fmt != t || ((c == .un || c == .ord) && !fmtIsFloat t) then .fault v.vec 0x03
  else if v.tooLong [a, b] (fmtWidth t) then .fault v.vec 0x04
  else
    let qa := v.source a
    let qb := v.source b
    let acc := v.sweep (PairWr.mk (v.vec.getK v.klen d) (v.vec.getK v.klen (d + 1)) .none) fun w r i =>
      let pos := kpos v.klen v.e.rc r i
      if v.tail i then { w with p := putBit w.p pos false, q := putBit w.q pos false }
      else if v.guard r i then
        let (s, f) := elemCond c qa qb m.repa m.repb r i
        { p := putBit w.p pos s, q := putBit w.q pos (!s), fl := w.fl.or f }
      else w
    .done ((v.vec.setK d acc.p).setK (d + 1) acc.q) acc.fl none

end Sys2Proof.Machine
end

