-- ==== Sys2Proof/Machine/Whole.lean ====
section
/-! DEFINITION. Whole-sweep instructions (R181 to R187, R194 to R198) and the whole instructions of the vector queue that
read vector-side registers (R157, R159, R163, R200). -/

namespace Sys2Proof.Machine

/-- Eligible indices of a row, rising (R181). -/
def Env.eligibleIdx (v : Env) (r : Nat) : List Nat := (List.range v.e.vl).filter fun i => v.eligible r i

/-- A start position other than 0, or rows that do not hold the sweep: fault 0x04 (R122, R181). -/
def Env.wholeBad (v : Env) (fields : List VReg) (w : Nat) : Bool := v.e.start != 0 || v.tooLong fields w

/-- Write codes from element 0 of every row on; other sweep positions follow ZM (R181). -/
def Env.rowHeads (v : Env) (zm : Bool) (f : RegRef) (vec : VecRegs) (w : Nat) (heads : Nat → List Nat) : VecRegs :=
  let rb := v.rowBits f
  let base := vec.startWr f
  let acc := if zm then v.sweep base (fun a r i => a.put (r * rb + i * w) w 0) else base
  vec.commit f ((List.range v.rows).foldl (fun a r =>
    (heads r).zipIdx.foldl (fun a p => a.put (r * rb + p.2 * w) w p.1) a) acc)

/-- Write by element index: tail positions take 0, positions the entry does not write follow ZM (R181). -/
def Env.rowCodes (v : Env) (zm : Bool) (f : RegRef) (vec : VecRegs) (w : Nat) (row : Nat → List (Option Nat)) : VecRegs :=
  let rb := v.rowBits f
  vec.commit f ((List.range v.rows).foldl (fun a r =>
    (row r).zipIdx.foldl (fun a p =>
      let pos := r * rb + p.2 * w
      if v.tail p.2 then a.put pos w 0
      else match p.1 with
        | some c => a.put pos w c
        | none => if zm then a.put pos w 0 else a) a) (vec.startWr f))

/-! Reductions. -/

/-- The accumulation format of R182 and R185, or none for fault 0x03. -/
def accFmt (op : RedOp) (w blk : Bool) (t : Fmt) : Option Fmt :=
  let sum := op == .sum
  let logic := op == .and || op == .or
  if blk then (if w || logic then none else some .fp32)
  else if fmtIsFloat t && logic then none
  else if w && sum then wideFmt t
  else some t

/-- A result as an x register receives it (R182). -/
def scalarOf (t : Fmt) (c : Nat) : Word :=
  if fmtKind t = .signed then BitVec.ofInt 64 (sextInt (fmtWidth t) c) else BitVec.ofNat 64 c

/-- Deliver one code per row: to element 0 of the rows of a vector register, or to an x register (R182, R184). -/
def Env.deliver (v : Env) (m : VMod) (d : BitVec 6) (sc : Bool) (t : Fmt) (codes : List (Flagged Nat)) (x : Nat → Word) : VRes :=
  let fl := codes.foldl (fun g c => g.or c.2) Flags.none
  if sc then .done v.vec fl (some (d, x ((codes.headD (0, .none)).1)))
  else
    let f := v.ref d
    .done (v.rowHeads m.zm f (v.vec.setTagRef f ⟨t, false⟩) (fmtWidth t) fun r => [(codes.getD r (0, .none)).1]) fl none

/-- The vector registers a reduction names. -/
def redFields (d : BitVec 6) (sc : Bool) (srcs : List VReg) : List VReg := if sc then srcs else d :: srcs

/-- VREDSUM, VREDMAX, VREDMIN, VREDAND, VREDOR (R182, R183). -/
def reduceRes (v : Env) (m : VMod) (op : RedOp) (d : BitVec 6) (a : VReg) (sc : Bool) : VRes :=
  let ta := v.tag a
  match (if v.pairOk a then accFmt op m.w ta.blk ta.fmt else none) with
  | none => .fault v.vec 0x03
  | some t =>
    if (sc && v.e.rc != 0) || v.wholeBad (redFields d sc [a]) (max (fmtWidth ta.fmt) (fmtWidth t)) then .fault v.vec 0x04
    else
      let q := v.source a
      let row (r : Nat) : Flagged Nat :=
        if fmtIsFloat t then
          treeF op t ((List.range v.e.vl).map fun i => if v.eligible r i then q.valAt m.repa r i else identityF op t)
        else (treeI op t ((v.eligibleIdx r).map fun i => q.intAt m.repa r i), .none)
      v.deliver m d sc t ((List.range v.rows).map row) (scalarOf t)

def vredsumRes (v : Env) (m : VMod) (d : BitVec 6) (a : VReg) (sc : Bool) : VRes := reduceRes v m .sum d a sc
def vredmaxRes (v : Env) (m : VMod) (d : BitVec 6) (a : VReg) (sc : Bool) : VRes := reduceRes v m .max d a sc
def vredminRes (v : Env) (m : VMod) (d : BitVec 6) (a : VReg) (sc : Bool) : VRes := reduceRes v m .min d a sc
def vredandRes (v : Env) (m : VMod) (d : BitVec 6) (a : VReg) (sc : Bool) : VRes := reduceRes v m .and d a sc
def vredorRes (v : Env) (m : VMod) (d : BitVec 6) (a : VReg) (sc : Bool) : VRes := reduceRes v m .or d a sc

/-- Index of the greatest of the listed elements, the lowest of equals (R184). -/
def argmaxOf (val : Nat → FVal) : List Nat → Option Nat
  | [] => none
  | i :: r =>
    match argmaxOf val r with
    | none => some i
    | some j => if rankLt (val i) (val j) then some j else some i

/-- R184. -/
def vargmaxRes (v : Env) (m : VMod) (d : BitVec 6) (a : VReg) (sc : Bool) : VRes :=
  let wa := fmtWidth (v.tag a).fmt
  if !v.pairOk a then .fault v.vec 0x03
  else if (sc && v.e.rc != 0) || v.wholeBad (redFields d sc [a]) (if sc then wa else max wa 32) then .fault v.vec 0x04
  else
    let q := v.source a
    let row (r : Nat) : Flagged Nat :=
      ((argmaxOf (fun i => q.valAt m.repa r i) (v.eligibleIdx r)).getD (if sc then 2 ^ 64 - 1 else 2 ^ 32 - 1), .none)
    v.deliver m d sc .n32 ((List.range v.rows).map row) (BitVec.ofNat 64)

/-- R185. -/
def vdotRes (v : Env) (m : VMod) (d : BitVec 6) (a b : VReg) (sc : Bool) : VRes :=
  let ta := v.tag a
  let tb := v.tag b
  match (if v.pairOk a && v.pairOk b && ta.fmt == tb.fmt then accFmt .sum m.w (ta.blk || tb.blk) ta.fmt else none) with
  | none => .fault v.vec 0x03
  | some t =>
    if (sc && v.e.rc != 0) || v.wholeBad (redFields d sc [a, b]) (max (fmtWidth ta.fmt) (fmtWidth t)) then .fault v.vec 0x04
    else
      let qa := v.source a
      let qb := v.source b
      let row (r : Nat) : Flagged Nat :=
        if fmtIsFloat t then
          let ps := (List.range v.e.vl).map fun i =>
            if v.eligible r i then mulVals (qa.valAt m.repa r i) (qb.valAt m.repb r i) else (FVal.zero true, .none)
          let (c, f) := treeF .sum t (ps.map (·.1))
          (c, ps.foldl (fun g p => g.or p.2) f)
        else (treeI .sum t ((v.eligibleIdx r).map fun i => qa.intAt m.repa r i * qb.intAt m.repb r i), .none)
      v.deliver m d sc t ((List.range v.rows).map row) (scalarOf t)

/-! VSMAX (R186). -/

/-- round(2^(a − m), FP32, RNE), the exponent exact. -/
def exp2Diff (a m : FVal) : Flagged FVal :=
  let (e, f) := sumVals [a, m.negate] .rne
  let (c, g) := fn1F .exp2 e .fp32 .rne 0
  (decodeFloat .fp32 c, f.or g)

/-- An exact value rounded to FP32. -/
def toFp32 (v : Flagged FVal) : Flagged FVal :=
  let (c, f) := roundF v .fp32 .rne 0
  (decodeFloat .fp32 c, f)

/-- The codes of elements 0 to 3 of one row, from the state m0, s0 and the scores (none where not eligible). -/
def smaxRow (m0 s0 : FVal) (xs : List (Option FVal)) : List Nat × Flags :=
  let (msC, f0) := treeF .max .fp32 (xs.map fun x => x.getD (.inf true))
  let ms := decodeFloat .fp32 msC
  let (m1, f1) := minmaxVals true m0 ms
  let code (v : FVal) : Nat := (roundVal v .fp32 .rne 0).1
  if m1 = .inf true then ([code m1, code s0, code .one, msC], f0.or f1)
  else
    let (c, f2) := exp2Diff m0 m1
    let es := xs.map fun x =>
      match x with
      | some x => exp2Diff x m1
      | none => (FVal.zero true, .none)
    let (sumC, f3) := treeF .sum .fp32 (es.map (·.1))
    let (p, f4) := toFp32 (mulVals s0 c)
    let (s1, f5) := toFp32 (sumVals [p, decodeFloat .fp32 sumC] .rne)
    ([code m1, code s1, code c, msC],
      ((((es.foldl (fun g e => g.or e.2) (f0.or f1)).or f2).or f3).or f4).or f5)

def vsmaxRes (v : Env) (m : VMod) (d a : VReg) : VRes :=
  let ta := v.tag a
  if !v.pairOk a || !fmtIsFloat ta.fmt || v.tag d != ⟨.fp32, false⟩ then .fault v.vec 0x03
  else if v.wholeBad [d, a] 32 then .fault v.vec 0x04
  else
    let f := v.ref d
    let q := v.source a
    let qd := v.source d
    let rows := (List.range v.rows).map fun r =>
      smaxRow (qd.val r 0) (qd.val r 1) ((List.range v.e.vl).map fun i => if v.eligible r i then some (q.valAt m.repa r i) else none)
    .done (v.rowHeads m.zm f (v.vec.setTagRef f ⟨.fp32, false⟩) 32 fun r => (rows.getD r ([], .none)).1)
      (rows.foldl (fun g x => g.or x.2) Flags.none) none

/-! VTOPK (R187). -/

/-- The first `k` of the ranking of the listed elements. -/
def topk (val : Nat → FVal) : Nat → List Nat → List Nat
  | 0, _ => []
  | k + 1, l =>
    match argmaxOf val l with
    | none => []
    | some i => i :: topk val k (l.filter fun j => j != i)

def vtopkRes (v : Env) (m : VMod) (d a : VReg) (k : Nat) : VRes :=
  let t := (v.tag a).fmt
  if (v.tag a).blk then .fault v.vec 0x03
  else if k = 0 || decide (min v.e.vl 1024 < k) || v.wholeBad [d, a] (max (fmtWidth t) 32) then .fault v.vec 0x04
  else
    let f := v.ref d
    let q := v.source a
    let vec := (v.vec.setTagRef f ⟨t, false⟩).setTagRef f.odd ⟨.n32, false⟩
    let none4 : Nat := if fmtIsFloat t then (roundVal (identityF .max t) t .rne 0).1 else wrapInt (fmtWidth t) (identityI .max t)
    let best := (List.range v.rows).map fun r => topk (fun i => q.valAt m.repa r i) k (v.eligibleIdx r)
    let pad (l : List Nat) (x : Nat) : List Nat := l ++ List.replicate (k - l.length) x
    let vec := v.rowHeads m.zm f vec (fmtWidth t) fun r => pad ((best.getD r []).map fun i => q.codeAt m.repa r i) none4
    .done (v.rowHeads m.zm f.odd vec 32 fun r => pad (best.getD r []) (2 ^ 32 - 1)) .none none

/-! Permutations (R194 to R198). -/

/-- A permutation that copies bit patterns of a source without block tag: one row of codes at a time. A fault 0x04 leaves the
tags of vd. DESIGN CHOICE (log 50). -/
def Env.permute (v : Env) (m : VMod) (d a : VReg) (fields : List VReg) (w : Nat) (row : Source → Nat → List (Option Nat)) : VRes :=
  let t := v.tag a
  if t.blk then .fault v.vec 0x03
  else if v.wholeBad fields (max w (fmtWidth t.fmt)) then .fault v.vec 0x04
  else
    let f := v.ref d
    .done (v.rowCodes m.zm f (v.vec.setTagRef f ⟨t.fmt, false⟩) (fmtWidth t.fmt) (row (v.source a))) .none none

/-- A code at every eligible position of a row. -/
def Env.eachEligible (v : Env) (r : Nat) (f : Nat → Nat) : List (Option Nat) :=
  (List.range v.e.vl).map fun i => if v.eligible r i then some (f i) else none

/-- R194. A table position below VL is copied though it is a tail position. DESIGN CHOICE (log 54), here and in VSLIDEDN. -/
def vgathrRes (v : Env) (m : VMod) (d a b : VReg) : VRes :=
  let tb := v.tag b
  if tb.blk || fmtKind tb.fmt != .unsigned then .fault v.vec 0x03
  else
    let qb := v.source b
    v.permute m d a [d, a, b] (fmtWidth tb.fmt) fun q r => v.eachEligible r fun i =>
      let p := repAt m.repa r (qb.codeAt m.repb r i)
      if p.2 < v.e.vl then q.code p.1 p.2 else 0

/-- R195. The replicate code of va applies to the position that the slide, the selection or the transposition reads. DESIGN
CHOICE (log 50), here and in R196 and R198. -/
def vslideupRes (v : Env) (m : VMod) (d a : VReg) (n : Nat) : VRes :=
  v.permute m d a [d, a] 4 fun q r => v.eachEligible r fun i => if i < n then 0 else q.codeAt m.repa r (i - n)

/-- R195. A source position below VL is copied though it is a tail position. DESIGN CHOICE (log 54). -/
def vslidednRes (v : Env) (m : VMod) (d a : VReg) (n : Nat) : VRes :=
  v.permute m d a [d, a] 4 fun q r => v.eachEligible r fun i => if i + n < v.e.vl then q.codeAt m.repa r (i + n) else 0

/-- Predicate bit of element (r, i). -/
def Env.predAt (v : Env) (k : KReg) (r i : Nat) : Bool := bitAt (v.vec.getK v.klen k) (kpos v.klen v.e.rc r i)

/-- R196. -/
def vcompressRes (v : Env) (m : VMod) (d a : VReg) (k : KReg) : VRes :=
  v.permute m d a [d, a] 4 fun q r =>
    let sel := ((v.eligibleIdx r).filter fun i => v.predAt k r i).map fun i => q.codeAt m.repa r i
    (List.range v.e.vl).map fun i => some (sel.getD i 0)

def vexpandRes (v : Env) (m : VMod) (d a : VReg) (k : KReg) : VRes :=
  v.permute m d a [d, a] 4 fun q r =>
    (List.range v.e.vl).map fun i =>
      if v.eligible r i && v.predAt k r i then
        some (q.codeAt m.repa r (((List.range i).filter fun j => v.predAt k r j).length))
      else none

/-- R197. -/
def viotaRes (v : Env) (m : VMod) (d : VReg) (k : KReg) : VRes :=
  let t := v.e.vtag
  if fmtIsFloat t || v.e.vblk then .fault v.vec 0x03
  else if v.wholeBad [d] (fmtWidth t) then .fault v.vec 0x04
  else
    let f := v.ref d
    .done (v.rowCodes m.zm f (v.vec.setTagRef f ⟨t, false⟩) (fmtWidth t) fun r => v.eachEligible r fun i =>
      ((List.range i).filter fun j => v.predAt k r j).length % 2 ^ fmtWidth t) .none none

/-- R198. -/
def vtranspRes (v : Env) (m : VMod) (d a : VReg) : VRes :=
  if (v.tag a).blk then .fault v.vec 0x03
  else if v.e.vl % v.rows != 0 then .fault v.vec 0x04
  else
    v.permute m d a [d, a] 4 fun q c => v.eachEligible c fun i =>
      let p := i / v.rows * v.rows + c
      if v.tail p then 0 else q.codeAt m.repa (i % v.rows) p

/-! Whole instructions that read vector-side registers. -/

/-- The guard of a whole instruction in the queue (R72). -/
def Env.whole (v : Env) : Bool := v.vec.guard00 v.klen v.guardField

/-- R200. A replicate code of va has no effect: R79 gives it none for an x destination. DESIGN CHOICE (log 50). -/
def vextrRes (v : Env) (d : XReg) (a : VReg) (p : Nat) : VRes :=
  if !v.whole then .done v.vec .none none
  else if v.positions ≤ p then .fault v.vec 0x04
  else .done v.vec .none (some (d, scalarOf (v.tag a).fmt ((v.source a).code (p / v.e.vl) (p % v.e.vl))))

/-- Positions of C that hold in a predicate, as sweep positions (R157). -/
def Env.counted (v : Env) (k : KReg) : List Nat :=
  (List.range v.rows).flatMap fun r =>
    ((List.range (v.e.vl - v.e.vtail)).filter fun i => v.predAt k r i).map fun i => r * v.e.vl + i

/-- R157. -/
def ktestRes (v : Env) (t : KTest) (d : XReg) (a : KReg) : VRes :=
  if !v.whole then .done v.vec .none none
  else
    let n := (v.counted a).length
    let b := match t with
      | .any => n != 0
      | .all => n == v.rows * (v.e.vl - v.e.vtail)
      | .none => n == 0
    .done v.vec .none (some (d, if b then 1 else 0))

def kfirstRes (v : Env) (d : XReg) (a : KReg) : VRes :=
  if !v.whole then .done v.vec .none none
  else .done v.vec .none (some (d, BitVec.ofNat 64 ((v.counted a).headD (2 ^ 64 - 1))))

/-- R159. -/
def ktoxRes (v : Env) (d : XReg) (a : KReg) (w : Word) : VRes :=
  if !v.whole then .done v.vec .none none
  else if kwordOk v.vlenb w then .done v.vec .none (some (d, BitVec.ofNat 64 (bits (v.vec.getK v.klen a) (64 * w.toNat) 64)))
  else .fault v.vec 0x04

/-- R159: the word index of KFROMX is checked at its place in the queue; the other predicate writers always complete. -/
def predWriterRes (v : Env) : VRes :=
  match v.e.instr with
  | .kfromx .. =>
    if v.whole && !kwordOk v.vlenb v.e.xb then .fault v.vec 0x04 else .done (predStep v.e v.vlenb v.vec) .none none
  | _ => .done (predStep v.e v.vlenb v.vec) .none none

/-- R163: the tags are checked whatever the guard (R88). -/
def vtagRes (v : Env) (d : VReg) (t : Fmt) (blk : Bool) : VRes :=
  if blockBad d ⟨t, blk⟩ then .fault v.vec 0x03
  else .done (if v.whole then v.vec.setTagRef (.near d.toNat) ⟨t, blk⟩ else v.vec) .none none

end Sys2Proof.Machine
end

