-- ==== Sys2Proof/Machine/Convert.lean ====
section
/-! DEFINITION. Conversions, packing, moves and single-element inserts (R188 to R193, R199). -/

namespace Sys2Proof.Machine

/-- An exact value converted to a floating-point format (R48, R188); `toggle` is .SAT or .NSAT. -/
def convFloat (x : FVal) (t : Fmt) (mode : RMode) (draw : Nat) (toggle : Bool) : Flagged Nat :=
  match x with
  | .nan s => let (c, f) := deliverNan t; (c, f.or (Flags.when s .nv))
  | .inf n => deliverInf t n toggle
  | .fin n m e => if m = 0 then (signBit t n, .none) else roundReal ⟨n, m, e, false⟩ t mode draw toggle false

/-- One element of VCVT without block bit (R188). -/
def convElem (q : Source) (p : Rep) (t : Fmt) (mode : RMode) (toggle : Bool) (r i draw : Nat) : Flagged Nat :=
  if fmtIsFloat t then convFloat (q.valAt p r i) t mode draw toggle
  else if fmtIsFloat q.tag.fmt then toIntFmt (q.valAt p r i) t mode draw
  else wrapTo t (q.intAt p r i)

/-- One element of VCVT against the scale `s` already present (R189). -/
def convBlock (x : FVal) (s : Nat) (t : Fmt) (mode : RMode) (draw : Nat) : Flagged Nat :=
  match x with
  | .fin n m e =>
    if s = 255 then (0, .nv)
    else if m = 0 then (signBit t n, .none)
    else roundReal ⟨n, m, e + 127 - s, false⟩ t mode draw false true
  | _ => (0, .nv)

def vcvtRes (v : Env) (m : VMod) (d a : VReg) (t : Fmt) (blk sat : Bool) : VRes :=
  if !v.pairOk a || blockBad d ⟨t, blk⟩ then .fault v.vec 0x03
  else
    let q := v.source a
    let mode := v.mode m.rm
    let f := v.ref d
    let scales := v.vec.getRef f.odd
    v.elementwise m.zm [d, a] [v.use a m.repa] ⟨d, ⟨t, blk⟩⟩ fun r i =>
      if blk then convBlock (q.valAt m.repa r i) (bits scales (r * v.rowBits f + i / 32 * 8) 8) t mode (v.draw mode r i)
      else convElem q m.repa t mode sat r i (v.draw mode r i)

/-- The codes and the scales of VQMX as they are written. -/
structure BlockWr where
  codes : Wr
  scales : Wr
  deriving DecidableEq, Repr

/-- One element of a block of VQMX (R190). -/
def Env.qmxElem (v : Env) (zm : Bool) (rb : Nat) (t : Fmt) (x : FVal) (s : Nat) (mode : RMode) (w : Wr) (r i : Nat) : Wr :=
  let pos := r * rb + i * fmtWidth t
  if r * v.e.vl + i < v.e.start ∨ v.last ≤ r * v.e.vl + i then w
  else if v.tail i then w.put pos (fmtWidth t) 0
  else if v.guard r i then
    let (c, f) := mxCode x s t mode (v.draw mode r i)
    (w.put pos (fmtWidth t) c).flag f
  else if zm then w.put pos (fmtWidth t) 0
  else w

/-- One block of VQMX (R50, R190). -/
def Env.qmxBlock (v : Env) (m : VMod) (q : Source) (rb : Nat) (t : Fmt) (w : BlockWr) (r b : Nat) : BlockWr :=
  let idx := (List.range 32).map fun j => 32 * b + j
  let mode := v.mode m.rm
  let xs := idx.map fun i => if v.eligible r i then q.valAt m.repa r i else FVal.zero false
  let s := mxScaleOf xs t
  if r * v.e.vl + 32 * b + 31 < v.e.start ∨ v.last ≤ r * v.e.vl + 32 * b then w
  else
    let codes := (idx.zip xs).foldl (fun a p => v.qmxElem m.zm rb t p.2 s mode a r p.1) w.codes
    let codes := codes.flag (Flags.when (s == 255) .nv)
    if idx.any fun i => v.tail i || v.guard r i then ⟨codes, w.scales.put (r * rb + 8 * b) 8 s⟩ else ⟨codes, w.scales⟩

/-- R190: va is never a destination (R169). A VL that its own rule refuses writes no tags. DESIGN CHOICE (log 54). -/
def vqmxRes (v : Env) (m : VMod) (d a : VReg) (t : Fmt) : VRes :=
  let ta := v.tag a
  if !fmtIsFloat ta.fmt || ta.blk || blockBad d ⟨t, true⟩ then .fault v.vec 0x03
  else if v.e.vl % 32 != 0 || v.tooLong [d, a] (max (fmtWidth ta.fmt) (fmtWidth t)) then .fault v.vec 0x04
  else
    let f := v.ref d
    let vec := v.vec.setTagRef f ⟨t, true⟩
    if v.ref a == f || v.ref a == f.odd then .fault vec 0x04
    else
      let rb := v.rowBits f
      let w := (List.range v.rows).foldl (fun w r =>
        (List.range (v.e.vl / 32)).foldl (fun w b => v.qmxBlock m (v.source a) rb t w r b) w)
        (BlockWr.mk (vec.startWr f) (vec.startWr f.odd))
      .done ((vec.commit f w.codes).commit f.odd w.scales) w.codes.fl none

/-- The narrowing of VPACK (R191). -/
def narrow (q : Source) (p : Rep) (t : Fmt) (mode : RMode) (r i draw : Nat) : Flagged Nat :=
  if fmtIsFloat t then convFloat (q.valAt p r i) t mode draw false else satInt t (q.intAt p r i)

def vpackRes (v : Env) (m : VMod) (d a b : VReg) : VRes :=
  let ta := v.tag a
  match (if ta.blk || v.tag b != ta then none else halfFmt ta.fmt) with
  | none => .fault v.vec 0x03
  | some t =>
    let w := fmtWidth t
    if v.tooLong [d, a, b] (fmtWidth ta.fmt) then .fault v.vec 0x04
    else
      let f := v.ref d
      let vec := v.vec.setTagRef f ⟨t, false⟩
      if overlapBad [v.use a m.repa, v.use b m.repb] [f] w then .fault vec 0x04
      else
        let rb := v.rowBits f
        let mode := v.mode m.rm
        let acc := v.sweep (vec.startWr f) fun acc r i =>
          let pa := r * rb + i * w
          let pb := r * rb + (v.e.vl + i) * w
          if v.tail i || (!v.guard r i && m.zm) then (acc.put pa w 0).put pb w 0
          else if v.guard r i then
            let (x, f) := narrow (v.source a) m.repa t mode r i (v.draw mode r i)
            let (y, g) := narrow (v.source b) m.repb t mode r i (v.draw mode r (v.e.vl + i))
            ((acc.put pa w x).put pb w y).flag (f.or g)
          else acc
        .done (vec.commit f acc) acc.fl none

def vunpkRes (v : Env) (m : VMod) (d a : VReg) (hi : Bool) : VRes :=
  let ta := v.tag a
  match (if ta.blk then none else wideFmt ta.fmt) with
  | none => .fault v.vec 0x03
  | some t =>
    let q := v.source a
    let base := if hi then v.e.vl else 0
    v.elementwise m.zm [d, a] [v.use a m.repa] ⟨d, ⟨t, false⟩⟩ fun r i =>
      if fmtIsFloat t then convFloat (q.valAt m.repa r (base + i)) t .rne 0 false
      else wrapTo t (q.intAt m.repa r (base + i))

/-- R193: a block pair's scale bytes are copied with the elements that are copied. -/
def vmovRes (v : Env) (m : VMod) (d a : VReg) : VRes :=
  let ta := v.tag a
  if !v.pairOk a || blockBad d ta then .fault v.vec 0x03
  else
    let q := v.source a
    match v.elementwise m.zm [d, a] [v.use a m.repa] ⟨d, ta⟩ fun r i => (q.codeAt m.repa r i, .none) with
    | .done vec fl x =>
      if ta.blk then
        let f := (v.ref d).odd
        let acc := v.sweep (vec.startWr f) fun acc r i =>
          if v.eligible r i then
            let p := repAt m.repa r i
            acc.put (r * v.rowBits f + i / 32 * 8) 8 (q.scale p.1 p.2)
          else acc
        .done (vec.commit f acc) fl x
      else .done vec fl x
    | r => r

def vinsRes (v : Env) (m : VMod) (d : VReg) (x : Word) (p : Nat) : VRes :=
  let w := fmtWidth (v.tag d).fmt
  if v.positions ≤ p || v.tooLong [d] w then .fault v.vec 0x04
  else
    let f := v.ref d
    let r := p / v.e.vl
    let i := p % v.e.vl
    if p < v.e.start then .done v.vec .none none
    else .done (v.vec.commit f (v.element m.zm (v.rowBits f) w (fun _ _ => (x.toNat % 2 ^ w, .none)) (v.vec.startWr f) r i))
      .none none

end Sys2Proof.Machine
end

