-- ==== Sys2Proof/Machine/Tiles.lean ====
section
/-! DEFINITION. Tiles and the outer-product unit (R201 to R213): ZOPA, ZOPA.L, ZZERO, ZFILL, ZDRAIN. ZLD and ZST stand with
the vector memory instructions. -/

namespace Sys2Proof.Machine

/-- The depth k of a pair of operand tags (R204), or none for fault 0x03. -/
def zopaDepth (ta tb : RegTag) : Option Nat :=
  let fp8 (f : Fmt) : Bool := f == .e4m3 || f == .e5m2
  if ta.fmt == .bf16 && tb.fmt == .bf16 && !ta.blk && !tb.blk then some 1
  else if fp8 ta.fmt && fp8 tb.fmt then some 2
  else if ta.fmt == .e2m1 && tb.fmt == .e2m1 then some 4
  else none

/-- A tile being written; `cover` masks the bits written. -/
structure TileWr where
  data : Nat
  any : Bool
  fl : Flags
  cover : Nat
  deriving DecidableEq, Repr

/-- Put one element of a tile. -/
def TileWr.put (w : TileWr) (m n v : Nat) : TileWr :=
  let pos := 32 * (128 * m + n)
  { w with data := putBits w.data pos 32 v, any := true, cover := putBits w.cover pos 32 (onesN 32) }

def VecRegs.startTile (r : VecRegs) (z : ZReg) : TileWr := ⟨r.getZ z, false, .none, 0⟩

/-- The tile as written; it is dirty when an element was (R203). -/
def VecRegs.commitTile (r : VecRegs) (z : ZReg) (w : TileWr) : VecRegs :=
  if w.any then
    { r with z := r.z.set z.toNat w.data, zdirty := r.zdirty ||| (1#8 <<< z.toNat), bad := healed r.bad .z z.toNat w.cover }
  else r

/-- A NaN held in the accumulator sets no flag (R57). -/
def quiet (v : FVal) : FVal := if v.isNan then .qnan else v

/-- One element of a rank-k step: the terms that enter, added exactly and rounded once (R57, R206). -/
def TileWr.accumulate (w : TileWr) (m n : Nat) (terms : List (Flagged FVal)) : TileWr :=
  if terms.isEmpty then w
  else
    let z := quiet (decodeFloat .fp32 (bits w.data (32 * (128 * m + n)) 32))
    let (c, f) := roundF (sumVals (z :: terms.map (·.1)) .rne) .fp32 .rne 0
    { (w.put m n c) with fl := terms.foldl (fun g t => g.or t.2) (w.fl.or f) }

/-- The terms of tile element (m, n) in step r of ZOPA. -/
def Env.zopaTerms (v : Env) (qa qb : Source) (k h r m n : Nat) : List (Flagged FVal) :=
  (List.range k).filterMap fun t =>
    if v.guard r (m * k + t) && v.guard r (h + (n * k + t)) then some (mulVals (qa.val r (m * k + t)) (qb.val r (n * k + t))) else none

/-- R204 to R207. -/
def zopaRes (v : Env) (d : ZReg) (a b : VReg) : VRes :=
  let ta := v.tag a
  let tb := v.tag b
  match (if v.pairOk a && v.pairOk b then zopaDepth ta tb else none) with
  | none => .fault v.vec 0x03
  | some k =>
    let vl := v.e.vl
    let h := vl / 2
    if vl % 2 != 0 || h % k != 0 || decide (128 * k < h) || v.e.vtail != 0 ||
        (v.e.start % vl != 0 && decide (v.e.start < v.positions)) ||
        v.tooLong [a, b] (max (fmtWidth ta.fmt) (fmtWidth tb.fmt)) then .fault v.vec 0x04
    else
      let qa := v.source a
      let qb := v.source b
      let w := (List.range v.rows).foldl (fun w r =>
        if r * vl < v.e.start || v.last ≤ r * vl then w
        else (List.range (h / k)).foldl (fun w m => (List.range (h / k)).foldl (fun w n =>
          w.accumulate m n (v.zopaTerms qa qb k h r m n)) w) w) (v.vec.startTile d)
      .done (v.vec.commitTile d w) w.fl none

/-! ZOPA.L. -/

/-- A panel descriptor (R208). -/
structure Panel where
  tag : RegTag
  rot : Nat
  steps : Nat
  ext : Nat
  rpitch : Nat
  tpitch : Nat
  base : Nat
  deriving DecidableEq, Repr

def panelOf (w : Word) : Panel :=
  let n := w.toNat
  { tag := ⟨Fmt.ofCode (BitVec.ofNat 4 (bits n 60 4)), bitAt n 59⟩, rot := bits n 56 3, steps := bits n 48 8 + 1,
    ext := bits n 41 7 + 1, rpitch := bits n 33 8, tpitch := bits n 17 16, base := bits n 0 17 }

/-- The pair of tags admits the class: R33 allows a block tag on E2M1, E4M3 and E5M2 only. -/
def Panel.blockOk (p : Panel) (k : Nat) : Bool := !p.tag.blk || k * p.ext % 32 == 0

/-- SB, the bytes of a step (R209). -/
def Panel.bytes (p : Panel) (k : Nat) : Nat := 2 * p.ext + (if p.tag.blk then k * p.ext / 32 else 0)

/-- Offset in the window of byte `b` of step `s` (R209). -/
def Panel.off (p : Panel) (s b : Nat) : Nat :=
  let row := 64 * (p.base + s / 8 * p.tpitch + s % 8 * p.rpitch)
  row + (b + 64 * (s % 8 * p.rot % 8)) % (64 * p.rpitch)

/-- Every byte of every step lies in the allocation. -/
def Panel.inside (p : Panel) (k lstore : Nat) : Bool :=
  (List.range p.steps).all fun s => (List.range (p.bytes k)).all fun b =>
    decide (p.off s b < 2 ^ 23) && inWindow lstore (p.off s b) 1

/-- The bytes of one step as a string. -/
def Panel.step (p : Panel) (ms : MemSys) (grp k s : Nat) : Nat :=
  leNat ((List.range (p.bytes k)).map fun b => ms.lsByte (lsKey grp 0 (p.off s b)))

/-- Decoded value of code `e` of a step (R210). -/
def Panel.val (p : Panel) (data e : Nat) : FVal :=
  let c := bits data (e * fmtWidth p.tag.fmt) (fmtWidth p.tag.fmt)
  if p.tag.blk then mxdecode p.tag.fmt c (bits data (8 * (2 * p.ext) + e / 32 * 8) 8) else decodeFmt p.tag.fmt c

/-- R208 to R210. -/
def zopaLRes (v : Env) (ms : MemSys) (grp lstore : Nat) (d : ZReg) (xa xb : Word) : VRes :=
  if !v.whole then .done v.vec .none none
  else
    let a := panelOf xa
    let b := panelOf xb
    match zopaDepth a.tag b.tag with
    | none => .fault v.vec 0x03
    | some k =>
      if !a.blockOk k || !b.blockOk k then .fault v.vec 0x03
      else if a.steps != b.steps || decide (64 * a.rpitch < a.bytes k) || decide (64 * b.rpitch < b.bytes k) then .fault v.vec 0x04
      else if !a.inside k lstore || !b.inside k lstore then .fault v.vec 0x07
      else
        let w := (List.range a.steps).foldl (fun w s =>
          let da := a.step ms grp k s
          let db := b.step ms grp k s
          (List.range a.ext).foldl (fun w m => (List.range b.ext).foldl (fun w n =>
            w.accumulate m n ((List.range k).map fun t => mulVals (a.val da (m * k + t)) (b.val db (n * k + t)))) w) w)
          (v.vec.startTile d)
        .done (v.vec.commitTile d w) w.fl none

/-! Filling and draining. -/

/-- R211. -/
def zzeroRes (v : Env) (d : ZReg) : VRes := .done (if v.whole then v.vec.zeroZ d else v.vec) .none none

/-- Rows or columns beyond the tile (R212, R213). -/
def Env.tileBad (v : Env) (row0 : Nat) : Bool := decide (128 < v.e.vl) || decide (128 < row0 + v.rows)

/-- R212. -/
def zfillRes (v : Env) (zm : Bool) (d : ZReg) (a : VReg) (row0 : Nat) : VRes :=
  if !v.pairOk a then .fault v.vec 0x03
  else if v.tileBad row0 || v.tooLong [a] (max (fmtWidth (v.tag a).fmt) 32) then .fault v.vec 0x04
  else
    let q := v.source a
    let w := v.sweep (v.vec.startTile d) fun w r i =>
      if v.tail i then w.put (row0 + r) i 0
      else if v.guard r i then
        let (c, f) := convFloat (q.val r i) .fp32 .rne 0 false
        { (w.put (row0 + r) i c) with fl := w.fl.or f }
      else if zm then w.put (row0 + r) i 0
      else w
    .done (v.vec.commitTile d w) w.fl none

/-- Formats ZDRAIN writes (R213). -/
def drainFmt (t : Fmt) : Bool := [Fmt.fp32, .fp16, .bf16, .e5m2, .e4m3].contains t

/-- R213. A refusal leaves the tags of vd written but for that of R122's limit, which changes nothing (R115, R122). -/
def zdrainRes (v : Env) (rm : Rm) (zm : Bool) (d : VReg) (a : ZReg) (row0 : Nat) : VRes :=
  let t := v.e.vtag
  let mode := v.mode rm
  let vec := if v.tooLong [d] 32 then v.vec else v.vec.setTagRef (v.ref d) ⟨t, false⟩
  if v.e.vblk || !drainFmt t then .fault vec 0x03
  else if v.tileBad row0 then .fault vec 0x04
  else v.elementwise zm [d] [⟨[], .none, 32⟩] ⟨d, ⟨t, false⟩⟩ fun r i =>
    convFloat (decodeFloat .fp32 (v.vec.zWord a (row0 + r) i)) t mode (v.draw mode r i) false

end Sys2Proof.Machine
end

