-- ==== Sys2Proof/Machine/Stream.lean ====
section
/-! DEFINITION. The class of a far instruction (R293); how a vector-side instruction reaches memory: its stream (R246, R258), release and acquire points (R253, R257,
R262), and performing its elements with the shape of R134. -/

namespace Sys2Proof.Machine

/-! Far instructions: their class (R293). -/

/-- The word has its placement bit set (R77). -/
def isFarWord (i : Instr) : Bool :=
  match encodeFields i with
  | some (f, _) => f.p
  | none => false

/-- Vector fields of an instruction that has a far form. -/
def vecFields : Instr → List VReg
  | .vadd _ _ d a b | .vsub _ _ d a b | .vmul _ _ d a b | .vmulh _ _ d a b | .vdiv _ _ d a b | .vmin _ _ d a b
  | .vmax _ _ d a b | .vadds _ _ d a b | .vsubs _ _ d a b | .vand _ _ d a b | .vor _ _ d a b | .vxor _ _ d a b
  | .vshl _ _ d a b | .vshr _ _ d a b | .vscale _ _ d a b | .vpack _ _ d a b | .vgathr _ _ d a b => [d, a, b]
  | .vfma _ _ d a b c | .vfms _ _ d a b c | .vfnma _ _ d a b c => [d, a, b, c]
  | .vsqrt _ _ d a | .vrsqrt _ _ d a | .vrcp _ _ d a | .vexp2 _ _ d a | .vlog2 _ _ d a | .vabs _ _ d a | .vneg _ _ d a
  | .vsmax _ _ d a | .vmov _ _ d a | .vslideup _ _ d a _ | .vslidedn _ _ d a _ | .vcompress _ _ d a _ | .vexpand _ _ d a _
  | .vcvt _ _ d a _ _ _ | .vqmx _ _ d a _ | .vunpk _ _ d a _ | .fmerge _ _ _ _ d a | .fatt _ _ _ _ d a _ => [d, a]
  | .vcmp _ _ _ _ a b => [a, b]
  | .vredsum _ _ d a sc | .vredmax _ _ d a sc | .vredmin _ _ d a sc | .vredand _ _ d a sc | .vredor _ _ d a sc
  | .vargmax _ _ d a sc => redFields d sc [a]
  | .vdot _ _ d a b sc => redFields d sc [a, b]
  | .viota _ _ d _ | .vins _ _ d _ _ => [d]
  | .vld _ _ d _ | .vlds _ _ d _ _ | .vldff _ _ d _ | .vst _ _ d _ | .vsts _ _ d _ _ | .vldt _ _ d _ | .vldtCt _ _ d _ => [d]
  | .vldx _ _ d _ b | .vstx _ _ d _ b => [d, b]
  | .vamoadd _ _ ret d _ b c | .vamofadd _ _ ret d _ b c | .vamomin _ _ ret d _ b c | .vamomax _ _ ret d _ b c =>
    if ret then [d, b, c] else [b, c]
  | .fscadd _ _ _ b c => [b, c]
  | .fembag _ _ wgt d a _ c => if wgt then [d, a, c] else [d, a]
  | _ => []

/-- Elements of the instruction access memory. -/
def isMemory : Instr → Bool
  | .vld .. | .vlds .. | .vldx .. | .vldff .. | .vst .. | .vsts .. | .vstx .. | .vldt .. | .vldtCt .. | .vamoadd .. | .vamofadd ..
  | .vamomin .. | .vamomax .. | .fredadd .. | .fredmax .. | .fscadd .. => true
  | _ => false

/-- A far register is named. -/
def namesFar (i : Instr) : Bool := (vecFields i).any isFarReg

/-- Piecewise: memory elements and no far register (R293). -/
def isPiecewise (i : Instr) : Bool := isMemory i && !namesFar i

/-! Release and acquire points. -/

/-- A store of the hart to the host or a peer has not been acknowledged (R257). -/
def State.unacked (s : State) (w : Owner) : Bool := s.link.waiting.any fun p => p.src.owner == w && p.src.eng.isNone && p.src.node.isNone

/-- A release point that is no write, and whatever else completes the hart's release points, performs the core's near writes
(R253, R257); at system scope it waits for acknowledgements (R265). -/
def State.releaseAt (s : State) (sc : Scope) : Option State :=
  if sc == .system && s.unacked s.hart.owner then none else some (s.flushCore s.hart.core)

/-- The release point of a release write. Where releases run behind, the write may be read before the point is complete: the
earlier writes stay until an acquire point that synchronises with it (R254), or whatever completes it (R257). -/
def State.releaseWriteAt (s : State) (sc : Scope) : Option State :=
  if s.lag.release && !s.ms.l1.isEmpty && !(sc == .system && s.unacked s.hart.owner) then
    let r : OpenRelease := ⟨s.hart.core, s.hart.grp, sc⟩
    some { s with ms := { s.ms with rel := s.ms.rel.filter (fun q => q != r) ++ [r] } }
  else s.releaseAt sc

/-- A release point of the front end: the near accesses of earlier VQ entries come before it (R252). -/
def State.frontRelease (s : State) (sc : Scope) : Option State := if s.hart.vq.isEmpty then s.releaseAt sc else none

/-- A release write of the front end. -/
def State.frontReleaseWrite (s : State) (sc : Scope) : Option State := if s.hart.vq.isEmpty then s.releaseWriteAt sc else none

/-- A release and an acquire point of a hart of group `grp` may synchronise: each hart lies in the other's scope (R247,
R254). -/
def OpenRelease.meets (r : OpenRelease) (grp : Nat) (sc : Scope) : Bool := r.grp == grp || (r.sc != .group && sc != .group)

/-- The release points that a test picks are complete. -/
def State.completeReleases (s : State) (hit : OpenRelease → Bool) : State :=
  ((s.ms.rel.filter hit).map OpenRelease.core).foldl State.flushCore s

/-- The reads that follow are performed after this: nothing read ahead stays, nor a clean sector of the core's L1 (R252,
R262). -/
def State.dropClean (s : State) : State := { s with ms := (s.ms.endEarly s.hart.no).l1Invalidate s.hart.core }

/-- An acquire point of a scope: the release points it may synchronise with are complete, those of the host at system scope
(R247, R254, R264), and the clean sectors of the core's L1 are invalidated (R262). -/
def State.acquireAt (s : State) (sc : Scope) : State :=
  let s := if s.ms.rel.isEmpty then s else s.completeReleases fun r => r.meets s.hart.grp sc
  let s := if sc == .system && !s.ms.outer.isEmpty then s.landReleased else s
  s.dropClean

/-- A fence between near accesses (R252): the core's earlier writes are performed, and what the hart has read ahead is read
again. -/
def State.fenceNear (s : State) : State :=
  let t := s.flushCore s.hart.core
  { t with ms := t.ms.endEarly s.hart.no }

/-- Every release point is complete, and every host write performed: where the device or the host reads what harts released,
and at the edges of R264 and R266. -/
def State.settleAll (s : State) : State :=
  let s := if s.ms.rel.isEmpty then s else s.completeReleases fun _ => true
  if s.ms.outer.isEmpty then s else s.landOuter s.ms.outer.length

/-! The stream of an instruction. -/

/-- How accesses travel: who translates them, whether they are far, the package and stack of a far site, the hart that
posts the writes, and the package and stack whose bytes alone a piece writes. -/
structure Stream where
  agent : Agent
  far : Bool
  site : Option (Nat × Nat)
  src : Poster
  own : Option (Nat × Nat)
  deriving DecidableEq, Repr

/-- The near vector stream of the hart in focus. -/
def State.nearStream (s : State) : Stream := ⟨s.agent, false, none, s.hart.poster, none⟩

def Stream.core (st : Stream) : Nat := if st.far then farCore else st.agent.core

/-- The checks of a far access are those of the Chord that performs it (R294, R468). -/
def Stream.want (st : Stream) (k : Want) : Want := if st.far then { k with far := true, chord := true, site := st.site } else k

/-- The checks of an access on its stream, and its parts (R272, R294). -/
def State.resolveOn (s : State) (st : Stream) (k : Want) (va n : Nat) : Acc (List Part) :=
  if n = 0 then .ok []
  else
    (s.resolve st.agent (st.want k) va n).map fun ps =>
      if st.far then ps.map Part.atMsc else if k.past then ps.map Part.uncached else ps

/-- Read `n` bytes on a stream. -/
def State.readOn (s : State) (st : Stream) (k : Want) (plain : Bool) (va n : Nat) : Acc (List Byte × State) :=
  (s.resolveOn st k va n).bind fun ps => s.readAll st.core (plain && !st.far) va ps

/-- The package and stack that own the bytes of a part: a peer's stack-local address names the stack (R220, R222); of its striped
region the stack is the one its own address map assigns (R294), open here (log 9). -/
def State.ownerOfPlace (s : State) (p : Place) : Option (Nat × Nat) :=
  match p with
  | .device pa => some (s.plat.pkg.toNat, s.ownerOf pa)
  | .peer q pa => some (q, if regionOf pa == .stackLocal then bits pa 36 4 else Config.peerStack q (pa / 512) % 16)
  | _ => none

/-- The pieces of a part by lines of 512 bytes. -/
def Part.byLines (p : Part) : List Part :=
  match p.place with
  | .device pa | .peer _ pa =>
    (List.range ((pa + p.n - 1) / 512 - pa / 512 + 1)).map fun k =>
      let lo := max pa (512 * (pa / 512 + k))
      let hi := min (pa + p.n) (512 * (pa / 512 + k + 1))
      { p with off := p.off + (lo - pa), n := hi - lo, place := p.place.shift (lo - pa) }
  | _ => [p]

/-- The parts of an access that a piece performs: those its stack owns (R294). -/
def State.ownParts (s : State) (st : Stream) (ps : List Part) : List Part :=
  match st.own with
  | none => ps
  | some o => (ps.flatMap Part.byLines).filter fun p => s.ownerOfPlace p.place == some o

/-- Write bytes on a stream; the failure of a posted write is asynchronous (R459). -/
def State.writeOn (s : State) (st : Stream) (k : Want) (va : Nat) (bs : List Byte) : Acc State :=
  (s.resolveOn st k va bs.length).bind fun ps =>
    let ps := s.ownParts st ps
    (s.prepareWrite ps).map fun s1 =>
      let (f, s2) := s1.writeParts { st.agent with core := st.core } st.src va bs ps
      s2.asyncIf st.src f

/-- Write one 4-bit unit of a byte on a stream (R248). -/
def State.writeUnitOn (s : State) (st : Stream) (k : Want) (va j c : Nat) : Acc State :=
  (s.resolveOn st k va 1).bind fun ps =>
    let ps := s.ownParts st ps
    (s.prepareWrite ps).map fun s1 =>
      match ps with
      | p :: _ =>
        let (f, s2) := s1.writeUnit { st.agent with core := st.core } st.src va p j c
        s2.asyncIf st.src f
      | [] => s1

/-- An atomic on a stream. -/
def State.atomicOn (s : State) (st : Stream) (k : Want) (va n : Nat) (f : Nat → Nat) : Acc (Nat × State) :=
  (s.resolveOn st k va n).bind fun ps => s.atomicAll st.core va n f ps

/-! Performing elements. -/

/-- What became of an entry of a vector queue: complete; stopped by a fault at a start position; or waiting, with the
positions below `start` performed. -/
inductive Perf where
  | done (s : State)
  | fault (s : State) (f : FaultInfo) (start : Nat)
  | wait (s : State) (start : Nat)
  deriving DecidableEq, Repr

/-- A memory instruction, element by element: what its accesses need, which spans element (r, i) accesses, what performing
it does, what a tail position does. `rank` marks stores whose elements may share bytes (R250). -/
structure MemOp where
  want : Want
  spans : Nat → Nat → List (Nat × Nat)
  perform : State → Stream → Nat → Nat → Acc State
  tail : State → Nat → Nat → State
  rank : Bool

/-- The checks of one element (R272): near reads meet uncorrectable data here, far ones at their stack (R298). -/
def State.checkSpans (s : State) (st : Stream) (k : Want) : List (Nat × Nat) → Acc Unit
  | [] => .ok ()
  | (va, n) :: r =>
    (((s.resolveOn st k va n).bind fun ps =>
      (s.touchParts ps).bind fun s1 =>
        if !st.far && k.r && s1.partsPoisoned ps then .fault (s1.readBad st.core va ps) else .ok ()).both (s.checkSpans st k r)).map fun _ => ()

/-- Why performing stops, and at which sweep position. -/
inductive Stop where
  | fault (f : FaultInfo)
  | held
  deriving DecidableEq, Repr

/-- A fault of element `n`: EINFO holds its sweep position (R436). -/
def stopOf {α : Type} (n : Nat) (x : Acc α) : Option (Nat × Stop) :=
  match x with
  | .ok _ => none
  | .fault f => some (n, .fault { f with info := BitVec.ofNat 64 n })
  | .held _ => some (n, .held)

/-- The element at a sweep position is performed: not a tail position, guard true. -/
def Env.performed (v : Env) (n : Nat) : Bool := v.eligible (n / v.e.vl) (n % v.e.vl)

/-- The lowest listed position whose checks stop (R134). -/
def State.firstStop (s : State) (st : Stream) (v : Env) (op : MemOp) : List Nat → Option (Nat × Stop)
  | [] => none
  | n :: r =>
    if v.performed n then
      match stopOf n (s.checkSpans st op.want (op.spans (n / v.e.vl) (n % v.e.vl))) with
      | some x => some x
      | none => s.firstStop st v op r
    else s.firstStop st v op r

/-- Perform listed positions in order, up to the first that stops. -/
def State.performList (s : State) (st : Stream) (v : Env) (op : MemOp) : List Nat → State × Option (Nat × Stop)
  | [] => (s, none)
  | n :: r =>
    if v.tail (n % v.e.vl) then (op.tail s (n / v.e.vl) (n % v.e.vl)).performList st v op r
    else if v.guard (n / v.e.vl) (n % v.e.vl) then
      match op.perform s st (n / v.e.vl) (n % v.e.vl) with
      | .ok s' => s'.performList st v op r
      | x => (s, stopOf n x)
    else s.performList st v op r

/-- Two spans share a byte. -/
def spanMeets (p q : Nat × Nat) : Bool := decide (p.1 < q.1 + q.2) && decide (q.1 < p.1 + p.2)

/-- Some two of the listed elements share a byte. -/
def anyOverlap : List (List (Nat × Nat)) → Bool
  | [] => false
  | a :: r => r.any (fun b => a.any fun p => b.any (spanMeets p)) || anyOverlap r

/-- Insert by rank. -/
def insertRank (k n : Nat) : List Nat → List Nat
  | [] => [n]
  | m :: r => if Config.elemRank k m ≤ Config.elemRank k n then m :: insertRank k n r else n :: m :: r

/-- The order in which the elements of a store are performed: sweep order, or an open order where two share a byte (R250). -/
def State.storeOrder (s : State) (v : Env) (op : MemOp) (ns : List Nat) : List Nat × State :=
  if op.rank && anyOverlap ((ns.filter v.performed).map fun n => op.spans (n / v.e.vl) (n % v.e.vl)) then
    let (k, s) := s.useFree
    (ns.foldl (fun l n => insertRank k n l) [], s)
  else (ns, s)

/-- Sweep positions from the start position on. -/
def Env.remaining (v : Env) : List Nat := (List.range (v.last - v.e.start)).map fun k => v.e.start + k

/-- Perform the listed sweep positions with the shape of R134: positions below the first that stops, and nothing at or
after it. -/
def State.runElems (s : State) (st : Stream) (v : Env) (op : MemOp) (ns : List Nat) : State × Option (Nat × Stop) :=
  let stop := s.firstStop st v op ns
  let below := match stop with
    | some (n, _) => ns.filter fun m => decide (m < n)
    | none => ns
  let (order, s) := s.storeOrder v op below
  match s.performList st v op order with
  | (s, some x) => (s, some x)
  | (s, none) => (s, stop)

/-- The result of a sweep. -/
def perfOf (r : State × Option (Nat × Stop)) : Perf :=
  match r with
  | (s, none) => .done s
  | (s, some (n, .fault f)) => .fault s f n
  | (s, some (n, .held)) => .wait s n

/-! Registers written at performance. -/

/-- Write one element of a register of the hart in focus. -/
def State.putReg (s : State) (f : RegRef) (pos w v : Nat) : State :=
  { s with hart := { s.hart with vec :=
    match f with
    | .near n => s.hart.vec.putV n pos w v
    | .far i => s.hart.vec.putF i pos w v } }

/-- Write the tags of a register of the hart in focus (R115). -/
def State.tagReg (s : State) (f : RegRef) (t : RegTag) : State :=
  { s with hart := { s.hart with vec := s.hart.vec.setTagRef f t } }

def State.addFlags (s : State) (f : Flags) : State := { s with hart := s.hart.orFlags f }

/-- A refusal of the whole instruction, at its start position (R89). -/
def Env.refuse (v : Env) (s : State) (code : BitVec 8) : Perf := .fault s (.of code) v.e.start

/-- An address modulo 2^64 (R271). -/
def addr64 (i : Int) : Nat := wrapInt 64 i

end Sys2Proof.Machine
end

