-- ==== Sys2Proof/Machine/Barrier.lean ====
section
/-! DEFINITION. Barrier records and the barrier instructions (R343 to R361, R475). -/

namespace Sys2Proof.Machine

/-- A barrier record as it stands (R347). Slot s holds the phase p of the window with p mod 4 = s. -/
structure BarRec where
  ph : BitVec 32
  gone : BitVec 16
  exp : Nat
  state : Nat
  reserved : Nat
  arrived : Vector (BitVec 16) 4
  dropped : Vector (BitVec 16) 4
  pend : Vector Int 4
  deriving DecidableEq, Repr

def barOpen : Nat := 0xB1
def barClosed : Nat := 0xB2

/-- A record from its 64 bytes (R347). -/
def BarRec.ofNat (b : Nat) : BarRec where
  ph := BitVec.ofNat 32 (bits b 32 32)
  gone := BitVec.ofNat 16 (bits b 16 16)
  exp := bits b 0 16
  state := bits b 64 8
  reserved := bits b 72 56
  arrived := Vector.ofFn fun s => BitVec.ofNat 16 (bits b (128 + 32 * s.val) 16)
  dropped := Vector.ofFn fun s => BitVec.ofNat 16 (bits b (144 + 32 * s.val) 16)
  pend := Vector.ofFn fun s => sextInt 64 (bits b (256 + 64 * s.val) 64)

/-- The 64 bytes of a record (R347). -/
def BarRec.toNat (r : BarRec) : Nat :=
  let head := r.exp % 2 ^ 16 + r.gone.toNat * 2 ^ 16 + r.ph.toNat * 2 ^ 32 + r.state % 256 * 2 ^ 64 + r.reserved % 2 ^ 56 * 2 ^ 72
  (List.range 4).foldl (fun b s =>
    b + (r.arrived[s]?.getD 0).toNat * 2 ^ (128 + 32 * s) + (r.dropped[s]?.getD 0).toNat * 2 ^ (144 + 32 * s) +
      wrapInt 64 (r.pend[s]?.getD 0) * 2 ^ (256 + 64 * s)) head

/-- The slot of a phase (R347). -/
def phaseSlot (q : BitVec 32) : Fin 4 := ⟨q.toNat % 4, Nat.mod_lt _ (by decide)⟩

/-- δ(q) (R348). -/
def BarRec.delta (r : BarRec) (q : BitVec 32) : Nat := (q - r.ph).toNat

/-- A phase is complete (R348). -/
def BarRec.complete (r : BarRec) (q : BitVec 32) : Bool := r.state == barClosed || decide (2 ^ 31 ≤ r.delta q)

def countBits (m : BitVec 16) : Nat := popcount m.toNat 16

/-- E(PH + j) (R348). -/
def BarRec.expected (r : BarRec) (j : Nat) : Int :=
  (List.range j).foldl (fun e i => e - (countBits r.dropped[phaseSlot (r.ph + BitVec.ofNat 32 i)] : Int)) (r.exp : Int)

/-- A malformed record, for a group of `n` harts (R349). -/
def BarRec.malformed (r : BarRec) (n : Nat) : Bool :=
  let out (m : BitVec 16) : Bool := m.toNat / 2 ^ n != 0
  !(r.state == 0 || r.state == barOpen || r.state == barClosed) || r.reserved != 0 ||
    (r.state == barOpen && (r.exp == 0 || decide (n < r.exp))) ||
    out r.gone || r.arrived.toList.any out || r.dropped.toList.any out ||
    r.pend.toList.any fun p => decide (p < -2 ^ 35) || decide (2 ^ 35 - 1 < p)

/-- complete() of R350; at most four phases and the closing one can complete at once. -/
def BarRec.settle : Nat → BarRec → BarRec
  | 0, r => r
  | fuel + 1, r =>
    let s := phaseSlot r.ph
    if r.state ≠ barOpen ∨ countBits r.arrived[s] ≠ r.exp ∨ r.pend[s] ≠ 0 then r
    else
      let exp := (r.exp + 2 ^ 16 - countBits r.dropped[s]) % 2 ^ 16
      BarRec.settle fuel
        { r with
          gone := r.gone ||| r.dropped[s]
          exp := exp
          arrived := r.arrived.set s 0
          dropped := r.dropped.set s 0
          pend := r.pend.set s 0
          ph := r.ph + 1
          state := if exp = 0 then barClosed else barOpen }

/-- What an operation on a record answers: the record after it, a fault that leaves it unchanged, or the issuer waits. -/
inductive BarAct where
  | ok (r : BarRec)
  | fault (code : BitVec 8)
  | wait
  deriving DecidableEq, Repr

/-- The window phases PH + j, j = 0 to 3. -/
def BarRec.window (r : BarRec) : List (Nat × Fin 4) := (List.range 4).map fun j => (j, phaseSlot (r.ph + BitVec.ofNat 32 j))

/-- BINIT's record (R355). -/
def BarRec.init (ph : BitVec 32) (c : Nat) : BarRec :=
  ⟨ph, 0, c, barOpen, 0, Vector.replicate 4 0, Vector.replicate 4 0, Vector.replicate 4 0⟩

/-- BARR and BARRD at phase q by hart h (R356). -/
def BarRec.arrive (r : BarRec) (q : BitVec 32) (h : Nat) (drop : Bool) : BarAct :=
  let d := r.delta q
  let s := phaseSlot q
  if r.state = 0 then .wait
  else if r.state = barClosed then .fault 0x0A
  else if 2 ^ 31 ≤ d then .fault 0x0B
  else if 4 ≤ d then .wait
  else if r.gone.getLsbD h || r.arrived[s].getLsbD h then .fault 0x0A
  else if r.window.any fun p => decide (p.1 < d) && r.dropped[p.2].getLsbD h then .fault 0x0A
  else if (countBits r.arrived[s] : Int) = r.expected d then .fault 0x0A
  else if drop && r.window.any fun p => decide (d < p.1) &&
      (r.arrived[p.2].getLsbD h || decide (r.expected p.1 - 1 < countBits r.arrived[p.2])) then .fault 0x0A
  else
    let bit : BitVec 16 := 1#16 <<< h
    .ok (BarRec.settle 5
      { r with arrived := r.arrived.set s (r.arrived[s] ||| bit),
               dropped := if drop then r.dropped.set s (r.dropped[s] ||| bit) else r.dropped })

/-- BEXP of `c` bytes at phase q (R357). -/
def BarRec.expect (r : BarRec) (q : BitVec 32) (c : Nat) : BarAct :=
  if r.state = 0 then .wait
  else if r.complete q then .fault 0x0B
  else if 4 ≤ r.delta q then .wait
  else
    let v := r.pend[phaseSlot q] + (c : Int)
    if 2 ^ 35 - 1 < v then .fault 0x0C else .ok (BarRec.settle 5 { r with pend := r.pend.set (phaseSlot q) v })

/-- A subtraction of `b` bytes at phase q, for a group of `n` harts (R360). -/
def BarRec.subtract (r : BarRec) (n : Nat) (q : BitVec 32) (b : Nat) : BarAct :=
  if r.malformed n || r.state != barOpen || decide (4 ≤ r.delta q) then .fault 0x0B
  else
    let v := r.pend[phaseSlot q] - (b : Int)
    if v < -2 ^ 35 then .fault 0x0C else .ok (BarRec.settle 5 { r with pend := r.pend.set (phaseSlot q) v })

/-- The checks of an engine command's issue at phase q (R360). -/
def BarRec.joinIssue (r : BarRec) (n : Nat) (q : BitVec 32) : BarAct :=
  if r.malformed n then .fault 0x04
  else if r.state = 0 then .wait
  else if r.complete q then .fault 0x0B
  else if 4 ≤ r.delta q then .wait
  else .ok r

/-! Records of a hart's group. -/

/-- The extent of f0 of a kernel: the harts of a group (R105). -/
def State.groupExtent (s : State) (kern : Nat) : Nat :=
  match s.kernel kern with
  | some k => k.hdr.exts.headD 1
  | none => 1

/-- Barrier records of a kernel (R343). -/
def State.barrierCount (s : State) (kern : Nat) : Nat :=
  match s.kernel kern with
  | some k => k.hdr.barriers
  | none => 0

/-- The checks of R344; the key of the record's first byte. -/
def State.barrierKey (s : State) (h : Hart) (x : Word) : Acc Nat :=
  let a := x.toNat
  if a % 64 ≠ 0 then accFault 0x08 0 a
  else if winBase ≤ a ∧ a < 2 ^ 52 then
    if !inWindow (s.lstoreOf h.kern) (a - winBase) 64 then accFault 0x07 0 a
    else if 64 * s.barrierCount h.kern ≤ a - winBase then accFault 0x04 0 a
    else .ok (lsKey h.grp 0 (a - winBase))
  else accFault 0x06 6 a

/-- The record at a key. -/
def MemSys.barrier (ms : MemSys) (key : Nat) : BarRec := .ofNat (leNat (ms.lsRead key 64))

def MemSys.putBarrier (ms : MemSys) (key : Nat) (r : BarRec) : MemSys := ms.lsWrite key (leBytes 64 r.toNat)

/-- A fault of a barrier operation: its faulting address is the record's (R475). -/
def barFault (code : BitVec 8) (x : Word) : FaultInfo := { FaultInfo.of code with va := x }

/-- A barrier instruction of the hart in focus on a well-formed record that reads without error (R344, R349, R353, R465). -/
def State.onBarrier (s : State) (x : Word) (op : Nat → BarRec → FrontAct) : FrontAct :=
  (s.barrierKey s.hart x).check fun key =>
    let r := s.ms.barrier key
    if s.ms.lsSpoilt key 64 then .refuse (barFault 0x10 x)
    else if r.malformed (s.groupExtent s.hart.kern) then .refuse (barFault 0x04 x)
    else op key r

/-- The operation of a barrier instruction of a class of R352 that changes the record. -/
def State.barStep (s : State) (x : Word) (key cls : Nat) (a : BarAct) : FrontAct :=
  match a with
  | .ok r => .next { s with ms := s.ms.putBarrier key r }
  | .fault c => .refuse (barFault c x)
  | .wait => .wait (.barrier key cls)

/-- BINIT (R355): the count in x[B] is checked before the record's address (R89). -/
def execBinit (g : Guard) (a b : XReg) (s : State) : Result :=
  .next (s.frontEnd (.binit g a b) g 8 fun s =>
    let x := s.hart.getX a
    let c := (s.hart.getX b).toNat
    if c = 0 ∨ s.groupExtent s.hart.kern < c then .refuse (barFault 0x04 x)
    else
      (s.barrierKey s.hart x).check fun key => .next { s with ms := s.ms.putBarrier key (.init s.hart.ctl.sc c) })

/-- BEXP (R357). -/
def execBexp (g : Guard) (a b : XReg) (ahead : BitVec 2) (s : State) : Result :=
  .next (s.frontEnd (.bexp g a b ahead) g 8 fun s =>
    let x := s.hart.getX a
    s.onBarrier x fun key r => s.barStep x key 3 (r.expect (s.hart.ctl.sc + ahead.setWidth 32) (s.hart.getX b).toNat))

/-- An arrival: a release point at group scope, after every earlier VQ entry (R356, R361). -/
def State.arrive (s : State) (x : Word) (drop : Bool) : FrontAct :=
  if !s.hart.vq.isEmpty then .wait .drain
  else
    match s.releaseAt .group with
    | none => .wait .drain
    | some s => s.onBarrier x fun key r => s.barStep x key 4 (r.arrive s.hart.ctl.sc s.hart.f0 drop)

/-- BARR (R356). -/
def execBarr (g : Guard) (a : XReg) (s : State) : Result :=
  .next (s.frontEnd (.barr g a) g 8 fun s => s.arrive (s.hart.getX a) false)

/-- BARRD (R356). -/
def execBarrd (g : Guard) (a : XReg) (s : State) : Result :=
  .next (s.frontEnd (.barrd g a) g 8 fun s => s.arrive (s.hart.getX a) true)

/-- BWAIT (R358): its return is a wake, an acquire point (R361). -/
def execBwait (g : Guard) (a : XReg) (dist : BitVec 2) (s : State) : Result :=
  .next (s.frontEnd (.bwait g a dist) g 8 fun s =>
    s.onBarrier (s.hart.getX a) fun key r =>
      if r.state ≠ 0 ∧ r.complete (s.hart.ctl.sc - dist.setWidth 32) = true then .next (s.acquireAt .group) else .wait (.barrier key 5))

/-- BTEST (R358): an answer of 1 is a wake. -/
def execBtest (g : Guard) (d a : XReg) (dist : BitVec 2) (s : State) : Result :=
  .next (s.frontEnd (.btest g d a dist) g 8 fun s =>
    s.onBarrier (s.hart.getX a) fun _ r =>
      if r.state ≠ 0 ∧ r.complete (s.hart.ctl.sc - dist.setWidth 32) = true then
        let t := s.acquireAt .group
        .next { t with hart := t.hart.setX d 1 }
      else .next { s with hart := s.hart.setX d 0 })

end Sys2Proof.Machine
end

