-- ==== Sys2Proof/Machine/VecMem.lean ====
section
/-! DEFINITION. Vector loads and stores, first-fault loads, the code-table form of VLDT, vector atomics, ZLD and ZST
(R214, R215, R276 to R283, R285, R288, R289). -/

namespace Sys2Proof.Machine

/-! Element addresses (R276, R277). -/

/-- Byte address of element n of a contiguous sweep of width w, and the nibble of a 4-bit element. -/
def contigAt (xa : Word) (w n : Nat) : Nat × Nat := (addr64 (xa.toNat + n * w / 8 : Nat), n * w / 4 % 2)

/-- Byte address of a strided element. -/
def stridedAt (xa xb : Word) (n : Nat) : Nat := addr64 (xa.toNat + n * xb.toInt)

/-- Byte address of an indexed element: x[A] + off(vb[r][i]). -/
def indexedAt (xa : Word) (q : Source) (r i : Nat) : Nat := addr64 (xa.toNat + q.int r i)

/-- Address of the scale byte of the block of element (r, i) (R277). -/
def Env.scaleAt (v : Env) (w r i : Nat) : Nat :=
  addr64 (v.e.xa.toNat + v.positions * w / 8 + r * (v.e.vl / 32) + i / 32 : Nat)

/-- Bytes of an element; a 4-bit element lies in one byte. -/
def elemBytes (w : Nat) : Nat := (w + 4) / 8

/-- The offsets register of an indexed form (R276). -/
def offsetsOk (t : RegTag) : Bool := !t.blk && !fmtIsFloat t.fmt && fmtWidth t.fmt != 4

/-- Alignment an access needs: natural for acquire and release forms, none else (R271). -/
def alignFor (o : Ord) (w : Nat) : Nat := if ordAcq o || ordRel o then elemBytes w else 1

/-- How a vector load or store forms its addresses. -/
inductive Form where
  | contig
  | strided
  | indexed (vb : VReg)
  deriving DecidableEq, Repr

def Form.fields : Form → List VReg
  | .indexed b => [b]
  | _ => []

/-- Address and nibble of element (r, i) of width w. -/
def Env.elemAt (v : Env) (form : Form) (w r i : Nat) : Nat × Nat :=
  match form with
  | .contig => contigAt v.e.xa w (r * v.e.vl + i)
  | .strided => (stridedAt v.e.xa v.e.xb (r * v.e.vl + i), 0)
  | .indexed b => (indexedAt v.e.xa (v.source b) r i, 0)

/-- The bytes one element accesses: its own, and its block's scale byte. -/
def Env.elemSpans (v : Env) (form : Form) (w : Nat) (blk : Bool) (r i : Nat) : List (Nat × Nat) :=
  ((v.elemAt form w r i).1, elemBytes w) :: (if blk then [(v.scaleAt w r i, 1)] else [])

/-- Read one code on a stream. -/
def State.loadCode (s : State) (st : Stream) (k : Want) (plain : Bool) (at_ : Nat × Nat) (w : Nat) : Acc (Nat × State) :=
  (s.readOn st k plain at_.1 (elemBytes w)).map fun x => (bits (leNat x.1) (4 * at_.2) w, x.2)

/-- Store one code on a stream; a 4-bit code leaves the other nibble of its byte (R248). -/
def State.storeCode (s : State) (st : Stream) (k : Want) (at_ : Nat × Nat) (w c : Nat) : Acc State :=
  if w = 4 then s.writeUnitOn st k at_.1 at_.2 c else s.writeOn st k at_.1 (leBytes (elemBytes w) c)

/-! Loads. -/

/-- One element of a load: its code into the destination, its block's scale into the odd register. -/
def Env.loadElem (v : Env) (form : Form) (t : RegTag) (d : RegRef) (k : Want) (plain : Bool) (s : State) (st : Stream) (r i : Nat) :
    Acc State :=
  let w := fmtWidth t.fmt
  (s.loadCode st k plain (v.elemAt form w r i) w).bind fun x =>
    if t.blk then
      (x.2.readOn st { r := true } plain (v.scaleAt w r i) 1).map fun y =>
        (y.2.putReg d (r * v.rowBits d + i * w) w x.1).putReg d.odd (r * v.rowBits d + i / 32 * 8) 8 (leNat y.1)
    else .ok (x.2.putReg d (r * v.rowBits d + i * w) w x.1)

/-- The operation of a vector load. -/
def Env.loadOp (v : Env) (form : Form) (t : RegTag) (d : RegRef) (o : Ord) : MemOp where
  want := { r := true, align := alignFor o (fmtWidth t.fmt) }
  spans := v.elemSpans form (fmtWidth t.fmt) t.blk
  perform := v.loadElem form t d { r := true, align := alignFor o (fmtWidth t.fmt) } (!ordAcq o)
  tail s r i := s.putReg d (r * v.rowBits d + i * fmtWidth t.fmt) (fmtWidth t.fmt) 0
  rank := false

/-- The master of a vector entry's accesses: its core, or the Chord that performs them (R468). -/
def State.entryMaster (s : State) (e : VqEntry) (pa : Nat) : Master :=
  if isFarWord e.instr then .chord (if isPiecewise e.instr then s.ownerOf pa else bits e.fsite.toNat 0 4) else .core s.hart.core

/-- The first-fault outcome (R280, R281): a fault 0x05, 0x06 or 0x07 beyond the lead element trims VL. -/
def Env.firstFault (v : Env) (ff : Bool) (r : State × Option (Nat × Stop)) : State × Option (Nat × Stop) :=
  match r with
  | (s, some (n, .fault f)) =>
    if ff && (f.code == 0x05 || f.code == 0x06 || f.code == 0x07) &&
        (List.range n).any (fun m => decide (v.begun.start ≤ m) && v.performed m) then
      let s := s.met (s.entryMaster v.e) s.hart.core s.hart.ctx f
      ({ s with hart := { s.hart with ctl := { s.hart.ctl with vl := BitVec.ofNat 18 n, vtail := 0 } } }, none)
    else (s, some (n, .fault f))
  | r => r

/-- A form checked and its tags written: the positions `ns` are performed, then an acquire point follows. -/
def State.sweepLoad (s : State) (st : Stream) (v : Env) (op : MemOp) (m : MMod) (ff : Bool) (ns : List Nat) : Perf :=
  match v.firstFault ff (s.runElems st v op ns) with
  | (s, none) => .done (if ordAcq m.ord && v.limit.isNone then s.acquireAt m.scope else s)
  | r => perfOf r

/-- Refusals of a vector load (R122, R276, R279): a code, or none. A refusal leaves vd's tags. DESIGN CHOICE (log 54). -/
def Env.loadBad (v : Env) (form : Form) (d : VReg) (ff : Bool) : Option (BitVec 8) :=
  let t : RegTag := ⟨v.e.vtag, v.e.vblk⟩
  let w := fmtWidth t.fmt
  let special := form != .contig
  let wb := (form.fields.map fun b => fmtWidth (v.tag b).fmt).foldl max w
  if (t.blk && (special || ff)) || blockBad d t || (special && w == 4) || !(form.fields.all fun b => offsetsOk (v.tag b)) then some 0x03
  else if (ff && v.e.rc != 0) || v.tooLong (d :: form.fields) wb then some 0x04
  else none

/-- VLD, VLDS, VLDX and VLDFF (R276 to R281). -/
def State.vectorLoad (s : State) (st : Stream) (v : Env) (m : MMod) (form : Form) (d : VReg) (ff : Bool) (ns : List Nat) : Perf :=
  let t : RegTag := ⟨v.e.vtag, v.e.vblk⟩
  match v.loadBad form d ff with
  | some c => v.refuse s c
  | none =>
    let f := v.ref d
    let s := s.tagReg f t
    if overlapBad (form.fields.map fun b => v.use b .none) [f] (fmtWidth t.fmt) then v.refuse s 0x04
    else s.sweepLoad st v (v.loadOp form t f m.ord) m ff ns

/-! Stores. -/

/-- One element of a store: its code, and its block's scale byte. -/
def Env.storeElem (v : Env) (form : Form) (q : Source) (k : Want) (s : State) (st : Stream) (r i : Nat) : Acc State :=
  let w := fmtWidth q.tag.fmt
  (s.storeCode st k (v.elemAt form w r i) w (q.code r i)).bind fun s =>
    if q.tag.blk then s.writeOn st { w := true, past := k.past } (v.scaleAt w r i) (leBytes 1 (q.scale r i)) else .ok s

/-- A release write at device or system scope passes the L1 (R256). -/
def passesL1 (m : MMod) : Bool := ordRel m.ord && m.scope != .group

/-- What a vector store needs. -/
def storeWant (m : MMod) (w : Nat) : Want := { w := true, align := alignFor m.ord w, past := passesL1 m }

def Env.storeOp (v : Env) (form : Form) (q : Source) (m : MMod) : MemOp where
  want := storeWant m (fmtWidth q.tag.fmt)
  spans := v.elemSpans form (fmtWidth q.tag.fmt) q.tag.blk
  perform := v.storeElem form q (storeWant m (fmtWidth q.tag.fmt))
  tail s _ _ := s
  rank := form != .contig && m.ord != .ordered

/-- VST, VSTS and VSTX (R276 to R278). -/
def State.vectorStore (s : State) (st : Stream) (v : Env) (m : MMod) (form : Form) (a : VReg) (ns : List Nat) : Perf :=
  let t := v.tag a
  let w := fmtWidth t.fmt
  let special := form != .contig
  let wb := (form.fields.map fun b => fmtWidth (v.tag b).fmt).foldl max w
  if (special && (t.blk || w == 4)) || !v.pairOk a || !(form.fields.all fun b => offsetsOk (v.tag b)) then v.refuse s 0x03
  else if v.tooLong (a :: form.fields) wb then v.refuse s 0x04
  else
    match (if ordRel m.ord && v.fresh then s.releaseWriteAt m.scope else some s) with
    | none => .wait s v.e.start
    | some s => perfOf (s.runElems st v (v.storeOp form (v.source a) m) ns)

/-! VLDT in its code-table form (R283, R285). -/

/-- Formats VLDT writes (R283). -/
def vldtFmt (t : Fmt) : Bool := t == .bf16 || t == .fp16 || t == .fp32

/-- Value of code-table entry `c` in the target format. -/
def tableValue (vals : List (BitVec 16)) (t : Fmt) (c : Nat) : Flagged Nat :=
  let b := (vals.getD c 0).toNat
  if t = .bf16 then (b, .none) else convFloat (decodeFloat .bf16 b) t .rne 0 false

def Env.tableElem (v : Env) (d : RegRef) (k : Want) (plain : Bool) (s : State) (st : Stream) (r i : Nat) : Acc State :=
  let w := fmtWidth v.e.vtag
  (s.loadCode st k plain (contigAt v.e.xa 4 (r * v.e.vl + i)) 4).map fun x =>
    let (c, f) := tableValue v.e.bankVals v.e.vtag x.1
    (x.2.putReg d (r * v.rowBits d + i * w) w c).addFlags f

def Env.tableOp (v : Env) (d : RegRef) (o : Ord) : MemOp where
  want := { r := true }
  spans r i := [((contigAt v.e.xa 4 (r * v.e.vl + i)).1, 1)]
  perform := v.tableElem d { r := true } (!ordAcq o)
  tail s r i := s.putReg d (r * v.rowBits d + i * fmtWidth v.e.vtag) (fmtWidth v.e.vtag) 0
  rank := false

/-- Refusals of both forms of VLDT (R122, R279, R283). -/
def Env.vldtBad (v : Env) (d : VReg) (ff : Bool) : Option (BitVec 8) :=
  if v.e.vblk || !vldtFmt v.e.vtag then some 0x03
  else if (ff && v.e.rc != 0) || v.tooLong [d] (fmtWidth v.e.vtag) then some 0x04
  else none

def State.vldtTable (s : State) (st : Stream) (v : Env) (m : MMod) (d : VReg) (ns : List Nat) : Perf :=
  match v.vldtBad d m.ff with
  | some c => v.refuse s c
  | none => (s.tagReg (v.ref d) ⟨v.e.vtag, false⟩).sweepLoad st v (v.tableOp (v.ref d) m.ord) m m.ff ns

/-! Vector atomics (R288, R289). -/

/-- The operations of vector atomics. -/
inductive VAmo where
  | add | fadd | min | max
  deriving DecidableEq, Repr

/-- Tags admitted by vc (R288). -/
def VAmo.tagOk (k : VAmo) (t : RegTag) : Bool :=
  !t.blk && (match k with
    | .add => [Fmt.s32, .s64, .n32, .n64].contains t.fmt
    | .fadd => t.fmt == .fp32
    | _ => [Fmt.s32, .s64, .n32, .n64, .fp32].contains t.fmt)

/-- The new value and its flags from the old value `m` and the operand. -/
def VAmo.new (k : VAmo) (t : Fmt) (m op : Nat) : Flagged Nat :=
  match k with
  | .add => wrapTo t (decodeInt t m + decodeInt t op)
  | .fadd => addF (decodeFmt t m) (decodeFmt t op) t .rne 0
  | .min =>
    if fmtIsFloat t then roundF (minmaxVals false (decodeFmt t m) (decodeFmt t op)) t .rne 0
    else wrapTo t (Min.min (decodeInt t m) (decodeInt t op))
  | .max =>
    if fmtIsFloat t then roundF (minmaxVals true (decodeFmt t m) (decodeFmt t op)) t .rne 0
    else wrapTo t (Max.max (decodeInt t m) (decodeInt t op))

/-- One element of a vector atomic. -/
def Env.atomicElem (v : Env) (k : VAmo) (qb qc : Source) (d : Option RegRef) (want : Want) (s : State) (st : Stream) (r i : Nat) :
    Acc State :=
  let t := qc.tag.fmt
  let w := fmtWidth t
  (s.atomicOn st want (indexedAt v.e.xa qb r i) (w / 8) fun m => (k.new t m (qc.code r i)).1).map fun x =>
    let s := x.2.addFlags (k.new t x.1 (qc.code r i)).2
    match d with
    | some f => s.putReg f (r * v.rowBits f + i * w) w x.1
    | none => s

def Env.atomicOp (v : Env) (k : VAmo) (qb qc : Source) (d : Option RegRef) : MemOp :=
  let w := fmtWidth qc.tag.fmt
  let want : Want := { r := true, w := true, atomic := true, exotic := true, align := w / 8 }
  { want := want
    spans := fun r i => [(indexedAt v.e.xa qb r i, w / 8)]
    perform := v.atomicElem k qb qc d want
    tail := fun s r i =>
      match d with
      | some f => s.putReg f (r * v.rowBits f + i * w) w 0
      | none => s
    rank := false }

/-- VAMOADD, VAMOFADD, VAMOMIN, VAMOMAX. -/
def State.vectorAtomic (s : State) (st : Stream) (v : Env) (k : VAmo) (m : MMod) (ret : Bool) (d b c : VReg) (ns : List Nat) : Perf :=
  let tb := v.tag b
  let tc := v.tag c
  let w := fmtWidth tc.fmt
  let fields := if ret then [d, b, c] else [b, c]
  if !k.tagOk tc || !offsetsOk tb then v.refuse s 0x03
  else if v.tooLong fields (max w (fmtWidth tb.fmt)) then v.refuse s 0x04
  else
    let s := if ret then s.tagReg (v.ref d) ⟨tc.fmt, false⟩ else s
    if ret && overlapBad [v.use b .none] [v.ref d] w then v.refuse s 0x04
    else
      match (if ordRel m.ord && v.fresh then s.releaseWriteAt m.scope else some s) with
      | none => .wait s v.e.start
      | some s =>
        match s.runElems st v (v.atomicOp k (v.source b) (v.source c) (if ret then some (v.ref d) else none)) ns with
        | (s, none) => .done (if ordAcq m.ord && v.limit.isNone then s.acquireAt m.scope else s)
        | r => perfOf r

/-! ZLD and ZST (R214, R215): whole tile rows, word by word. -/

/-- Address of word `n` of row `m`. -/
def tileAt (xa xb : Word) (m n : Nat) : Nat := addr64 ((xa.toNat : Int) + m * xb.toInt + 4 * n)

/-- A span that lies partly in the local-store window (R226, R271). -/
def straddlesWindow (a n : Nat) : Bool :=
  (decide (a < winBase) && decide (winBase < a + n)) || (decide (winBase ≤ a) && decide (a < 2 ^ 52) && decide (2 ^ 52 < a + n))

/-- Check the words of tile rows from a word on: the first that stops. A row that lies partly in the window takes 0x07 as one
access (R226). -/
def State.tileStop (s : State) (st : Stream) (k : Want) (xa xb : Word) : List Nat → Option (Nat × Stop)
  | [] => none
  | n :: r =>
    let row := tileAt xa xb (n / 128) 0
    match stopOf n (if straddlesWindow row 512 then accFault 0x07 0 row
      else s.checkSpans st k [(tileAt xa xb (n / 128) (n % 128), 4)]) with
    | some x => some x
    | none => s.tileStop st k xa xb r

/-- What R215 says of the start position, and R214 of base and pitch: a code, or none. -/
def tileBad (v : Env) (store : Bool) : Option (BitVec 8) :=
  if (v.e.start % 128 != 0 && decide (v.e.start < 16384)) || (store && decide (v.e.xb.toInt.natAbs < 512)) then some 0x04
  else if v.e.xa.toNat % 64 != 0 || v.e.xb.toNat % 64 != 0 then some 0x08
  else none

def tilePerf (start : Nat) (r : State × Option (Nat × Stop)) : Perf :=
  match r with
  | (s, none) => .done s
  | (s, some (n, .fault f)) => .fault s f (max start (n / 128 * 128))
  | (s, some (n, .held)) => .wait s (max start (n / 128 * 128))

/-- Words of ZLD of row `m` from word `n` on. -/
def State.tileLoadWords (s : State) (st : Stream) (d : ZReg) (xa xb : Word) (m : Nat) : Nat → Nat → State × Option (Nat × Stop)
  | 0, _ => (s, none)
  | k + 1, n =>
    match s.readOn st { r := true } true (tileAt xa xb m n) 4 with
    | .ok x =>
      { x.2 with hart := { x.2.hart with vec := x.2.hart.vec.putZ d m n (leNat x.1) } }.tileLoadWords st d xa xb m k (n + 1)
    | x => (s, stopOf (128 * m + n) x)

def State.tileStoreWords (s : State) (st : Stream) (d : ZReg) (xa xb : Word) (m : Nat) : Nat → Nat → State × Option (Nat × Stop)
  | 0, _ => (s, none)
  | k + 1, n =>
    match s.writeOn st { w := true } (tileAt xa xb m n) (leBytes 4 (s.hart.vec.zWord d m n)) with
    | .ok s => s.tileStoreWords st d xa xb m k (n + 1)
    | x => (s, stopOf (128 * m + n) x)

/-- Rows from `m` on, each whole: a stop in row m leaves row m and later rows with no effect (R215). -/
def State.tileRowsFrom (s : State) (st : Stream) (store : Bool) (d : ZReg) (xa xb : Word) : Nat → Nat → State × Option (Nat × Stop)
  | 0, _ => (s, none)
  | k + 1, m =>
    match (if store then s.tileStoreWords st d xa xb m 128 0 else s.tileLoadWords st d xa xb m 128 0) with
    | (s', none) => s'.tileRowsFrom st store d xa xb k (m + 1)
    | (_, some x) => (s, some x)

/-- ZLD and ZST: the checks of all words first, then the rows below the first that stops. -/
def State.tileMove (s : State) (st : Stream) (v : Env) (store : Bool) (d : ZReg) : Perf :=
  if !v.whole then .done s
  else
    match tileBad v store with
    | some c => .fault s (.of c) v.e.start
    | none =>
      let k : Want := if store then { w := true } else { r := true }
      let stop := s.tileStop st k v.e.xa v.e.xb ((List.range (16384 - v.e.start)).map fun j => v.e.start + j)
      let till := (v.limit.getD 16384) / 128
      let last := match stop with
        | some (n, _) => min till (n / 128)
        | none => min till 128
      match s.tileRowsFrom st store d v.e.xa v.e.xb (last - v.e.start / 128) (v.e.start / 128) with
      | (s, none) => if last = till ∧ till < 128 then .wait s (128 * till) else tilePerf v.e.start (s, stop)
      | r => tilePerf v.e.start r

end Sys2Proof.Machine
end

