-- ==== Sys2Proof/Machine/KvPage.lean ====
section
/-! DEFINITION. Key-value pages: header, slots and rows (R362 to R366), the key-value form of VLDT (R283, R284), KVPUT and
KVINV (R373, R378 to R382). -/

namespace Sys2Proof.Machine

/-! The header (R364), held as a string of 256 bytes. -/

def kvVersion (h : Nat) : Nat := bits h 0 8
def kvDfmt (h : Nat) : Nat := bits h 8 2
def kvRps (h : Nat) : Nat := bits h 10 2
def kvState (h : Nat) : Nat := bits h 12 3
def kvNoconv (h : Nat) : Bool := bitAt h 16
def kvShared (h : Nat) : Bool := bitAt h 17
def kvRefcnt (h : Nat) : Nat := bits h 32 32
def kvAge (h : Nat) : Nat := bits h 64 64
def kvRows (h : Nat) : Nat := bits h 128 32
def kvRowElems (h : Nat) : Nat := bits h 160 16
def kvGen (h : Nat) : Nat := bits h 192 32
def kvValid (h : Nat) : Nat := bits h 256 256

/-- Offset of the tag of slot `s`, in bytes. -/
def kvTagOff (s : Nat) : Nat := 0x40 + 2 * (s - 1)

def kvTag (h s : Nat) : Nat := bits h (8 * kvTagOff s) 16

/-- Rows per slot, elements per row, tokens per page of a code RPS (R362). -/
def kvR (rps : Nat) : Nat := 2 ^ rps
def kvE (rps : Nat) : Nat := 1024 / 2 ^ rps
def kvTpp (rps : Nat) : Nat := 63 * 2 ^ rps

/-- The slot of a token position and its row in the slot. -/
def kvSlot (rps j : Nat) : Nat := 1 + j / kvR rps
def kvRow (rps j : Nat) : Nat := j % kvR rps

/-- A malformed header (R366). -/
def kvMalformed (h : Nat) : Bool :=
  bits h 18 14 != 0 || bitAt h 15 || bits h 176 16 != 0 || bits h 224 32 != 0 || bits h (8 * 0xBE) (8 * 0x42) != 0 ||
    kvVersion h != 1 || kvDfmt h == 0 || kvDfmt h == 3 || kvRps h == 3 || decide (4 < kvState h) ||
    kvRowElems h == 0 || kvRowElems h % 32 != 0 || decide (kvE (kvRps h) < kvRowElems h) ||
    decide (kvTpp (kvRps h) < kvRows h) || kvValid h >>> kvTpp (kvRps h) != 0 ||
    (List.range 63).any fun s => bits (kvTag h (s + 1)) 0 2 == 3 || bits (kvTag h (s + 1)) 2 6 != 0

/-! Reading a page through its leaf. -/

/-- A span of `n` bytes at offset `off` of a page's part. -/
def Part.slice (p : Part) (off n : Nat) : Part := { p with n := n, place := p.place.shift off }

/-- Read a span of a KV page at the MSC (R235, R367). -/
def State.kvRead (s : State) (st : Stream) (p : Part) (va off n : Nat) : Acc (Nat × State) :=
  let q := p.slice off n
  (s.touchParts [q]).bind fun s1 =>
    if s1.partsPoisoned [q] then accFault 0x10 0 (va + off)
    else
      let s2 := s1.markParts false [q]
      match q.place with
      | .device pa =>
        let (bs, s3) := s2.readMsc st.core pa n
        .ok (leNat bs, s3)
      | _ => (s2.readParts st.core false (va + off) [q]).map fun x => (leNat x.1, x.2)

/-- Write a span of a KV page at the MSC. -/
def State.kvWrite (s : State) (st : Stream) (p : Part) (va off : Nat) (bs : List Byte) : Acc State :=
  let q := p.slice off bs.length
  (s.prepareWrite [q]).map fun s1 =>
    match q.place with
    | .device pa =>
      let ms := s1.ms.kwrite pa bs
      { s1 with ms := if ms.l1.isEmpty then ms else ms.l1Put st.core pa bs }
    | _ =>
      let (f, s2) := s1.writeParts { st.agent with core := st.core } st.src (va + off) bs [q]
      s2.asyncIf st.src f

/-- The page of a token address, through a leaf with PTE.KV = 1 (R284, R379). -/
def State.kvPage (s : State) (st : Stream) (k : Want) (xa : Word) : Acc Part :=
  let page := xa.toNat / 2 ^ 16 * 2 ^ 16
  (s.resolveOn st { k with kvOnly := true } page 0x100).bind fun ps =>
    match ps with
    | [p] => if p.leaf.isNone then accFault 0x06 3 page else .ok p
    | _ => accFault 0x06 3 page

/-! Rows. -/

/-- Value of element `i` of row `k` of a slot under its tag (R284, R363, R365): a NaN sets no flag. -/
def kvValue (tag slot rps k i : Nat) : FVal :=
  let e := kvE rps
  let scale := bits tag 8 8
  match bits tag 0 2 with
  | 0 => .zero false
  | 1 =>
    match decodeFloat .e4m3 (bits slot (8 * (k * e + i)) 8) with
    | .fin n m x => if scale = 255 then .qnan else .fin n m (x + scale - 127)
    | _ => .qnan
  | 2 =>
    let row := 17 * k * e / 32
    mxdecode .e2m1 (bits slot (8 * row + 4 * i) 4) (bits slot (8 * (row + e / 2 + i / 32)) 8)
  | _ => .qnan

/-! VLDT in its key-value form. -/

/-- The tag and the slot of a row, which an entry that stands in the row has read already. -/
def Env.kvRowRead (v : Env) (r : Nat) : Option (Nat × Nat) :=
  match v.begun.row with
  | some (q, tag, slot) => if q = r then some (tag, slot) else none
  | none => none

/-- The slot of a row and its tag are read together (R269). -/
def State.kvSlotRead (s : State) (st : Stream) (p : Part) (page rps j : Nat) : Acc ((Nat × Nat) × State) :=
  (s.kvRead st p page (kvTagOff (kvSlot rps j)) 2).bind fun x =>
    (x.2.kvRead st p page (1024 * kvSlot rps j) 1024).map fun y => ((x.1, y.1), y.2)

/-- One element, decoded under its slot's tag. -/
def Env.kvElem (v : Env) (d : RegRef) (p : Part) (page t0 rps : Nat) (s : State) (st : Stream) (r i : Nat) : Acc State :=
  let w := fmtWidth v.e.vtag
  let read : Acc ((Nat × Nat) × State) :=
    match v.kvRowRead r with
    | some x => .ok (x, s)
    | none => s.kvSlotRead st p page rps (t0 + r)
  read.map fun y =>
      let (c, f) := convFloat (kvValue y.1.1 y.1.2 rps (kvRow rps (t0 + r)) i) v.e.vtag .rne 0 false
      (y.2.putReg d (r * v.rowBits d + i * w) w c).addFlags f

def Env.kvOp (v : Env) (d : RegRef) (p : Part) (page t0 rps : Nat) : MemOp where
  want := { r := true }
  spans r _ :=
    if (v.kvRowRead r).isSome then []
    else [(page + kvTagOff (kvSlot rps (t0 + r)), 2), (page + 1024 * kvSlot rps (t0 + r), 1024)]
  perform := v.kvElem d p page t0 rps
  tail s r i := s.putReg d (r * v.rowBits d + i * fmtWidth v.e.vtag) (fmtWidth v.e.vtag) 0
  rank := false

/-- A fault or a hold before the first element, at the start position. -/
def Env.stopWhole {α : Type} (v : Env) (s : State) (x : Acc α) : Perf :=
  match x with
  | .fault f => .fault s f v.e.start
  | _ => .wait s v.e.start

/-- The entry at the head of the queue keeps what it carries while it is performed in parts. -/
def State.carry (s : State) (b : Begun) : State :=
  { s with hart := { s.hart with vq := match s.hart.vq with
    | [] => []
    | e :: r => { e with begun := some b } :: r } }

/-- A sweep that ends inside a row keeps the slot it has read for that row (R269). -/
def State.carryRow (s : State) (st : Stream) (v : Env) (p : Part) (page t0 rps : Nat) (b : Begun) : State :=
  match v.limit with
  | none => s
  | some n =>
    let r := n / v.e.vl
    if n % v.e.vl = 0 then s.carry { b with row := none }
    else
      match v.kvRowRead r with
      | some _ => s.carry b
      | none =>
        if (List.range n).any fun m => decide (max v.e.start (r * v.e.vl) ≤ m) && v.performed m then
          match s.kvSlotRead st p page rps (t0 + r) with
          | .ok x => x.2.carry { b with row := some (r, x.1.1, x.1.2) }
          | _ => s.carry { b with row := none }
        else s.carry { b with row := none }

/-- The key-value form of VLDT: the header is read, and checked, where the sweep begins (R284). -/
def State.vldtKv (s : State) (st : Stream) (v : Env) (m : MMod) (d : VReg) (ns : List Nat) : Perf :=
  match v.vldtBad d m.ff with
  | some c => v.refuse s c
  | none =>
    let s := s.tagReg (v.ref d) ⟨v.e.vtag, false⟩
    let page := v.e.xa.toNat / 2 ^ 16 * 2 ^ 16
    let t0 := v.e.xa.toNat % 2 ^ 16
    match (s.kvPage st { r := true } v.e.xa).bind fun p =>
        match v.begun.header with
        | some h => .ok (p, h, s)
        | none => (s.kvRead st p page 0 0x100).map fun x => (p, x) with
    | .ok (p, h, s) =>
      if kvVersion h != 1 || kvRps h == 3 || decide (kvRowElems h < v.e.vl) || decide (kvTpp (kvRps h) < t0 + v.rows) then
        v.refuse s 0x04
      else
        let b := { v.begun with header := some h }
        match s.sweepLoad st v (v.kvOp (v.ref d) p page t0 (kvRps h)) m m.ff ns with
        | .done s => .done (s.carryRow st v p page t0 (kvRps h) b)
        | .wait s n => .wait (s.carry b) n
        | x => x
    | x => v.stopWhole s x

/-! KVPUT. -/

/-- The stack unit that owns an address, changed. -/
def State.onDie (s : State) (t : Nat) (f : StackUnit → StackUnit) : State :=
  { s with far := { s.far with dies := s.far.dies.setIfInBounds t (f (s.far.dies[t]?.getD .reset)) } }

/-- A conversion of the page at `pa` is aborted (R368). -/
def State.abortConversion (s : State) (pa : Nat) : State :=
  s.onDie (s.ownerOf pa) fun u => { u with aborted := u.aborted + 1 }

/-- The header step of KVPUT (R368, R380): LIVE, AGE := TICK. -/
def State.kvHeaderStep (s : State) (st : Stream) (p : Part) (page h : Nat) : Acc State :=
  let (t, s) := s.readTick
  (s.kvWrite st p page 0 (leBytes 4 (putBits (bits h 0 32) 12 3 1))).bind fun s =>
    (s.kvWrite st p page 8 (leBytes 8 t.toNat)).map fun s =>
      match p.place with
      | .device pa => if kvState h = 3 then s.abortConversion pa else s
      | _ => s

/-- The codes of one row in E4M3 form. -/
def kvRowE4m3 (xs : List FVal) (scale : Nat) : Nat × Flags :=
  xs.zipIdx.foldl (fun a p =>
    let (c, f) := convFloat (p.1.scale (127 - scale)) .e4m3 .rne 0 false
    (putBits a.1 (8 * p.2) 8 c, a.2.or f)) (0, .none)

/-- The codes and block scales of one row in MXFP4 form (R50, R363): `e` elements. -/
def kvRowMx (xs : List FVal) (e : Nat) : Nat × Flags :=
  (List.range (e / 32)).foldl (fun a b =>
    let (cs, sc, f) := mxscale ((xs.drop (32 * b)).take 32) .e2m1 .rne
    (putBits (cs.zipIdx.foldl (fun a p => putBits a (4 * (32 * b + p.2)) 4 p.1) a.1) (8 * (e / 2 + b)) 8 sc, a.2.or f)) (0, .none)

/-- The tag a row is written under (R380). -/
def kvNewTag (tag dfmt rps s0 : Nat) : Nat :=
  if bits tag 0 2 = 0 || rps == 0 then
    putBits (if dfmt = 1 then putBits tag 8 8 s0 else tag) 0 2 dfmt
  else tag

/-- Write one row: its slot and tag, then VALID and ROWS (R380). -/
def State.kvPutRow (s : State) (st : Stream) (p : Part) (page rps dfmt j s0 : Nat) (xs : List FVal) : Acc State :=
  let e := kvE rps
  let k := kvRow rps j
  let sl := kvSlot rps j
  (s.kvRead st p page (kvTagOff sl) 2).bind fun x =>
    let tag := kvNewTag x.1 dfmt rps s0
    let mx := bits tag 0 2 == 2
    let (codes, fl) := if mx then kvRowMx xs e else kvRowE4m3 xs (bits tag 8 8)
    let n := if mx then 17 * e / 32 else e
    (x.2.kvWrite st p page (1024 * sl + k * n) (leBytes n codes)).bind fun s =>
      (if mx then s.kvWrite st p page (1024 * sl + 544) (List.replicate 480 0) else .ok s).bind fun s =>
        (s.kvWrite st p page (kvTagOff sl) (leBytes 2 tag)).bind fun s =>
          (s.kvRead st p page (0x20 + j / 8) 1).bind fun y =>
            (y.2.kvWrite st p page (0x20 + j / 8) (leBytes 1 (y.1 ||| 2 ^ (j % 8)))).bind fun s =>
              (s.kvRead st p page 0x10 4).bind fun z =>
                (z.2.kvWrite st p page 0x10 (leBytes 4 (max z.1 (j + 1)))).map fun s => s.addFlags fl

/-- The rows of KVPUT from row `r` on, up to the first that stops. -/
def State.kvPutRows (s : State) (st : Stream) (v : Env) (q : Source) (p : Part) (page h t0 : Nat) : Nat → Nat → Perf
  | 0, _ => .done s
  | k + 1, r =>
    if r * v.e.vl < v.e.start || (v.limit.isSome && v.last ≤ r * v.e.vl) || !v.guard r 0 then s.kvPutRows st v q p page h t0 k (r + 1)
    else
      let rps := kvRps h
      let xs := (List.range (kvE rps)).map fun i => if i < v.e.vl - v.e.vtail then q.val r i else FVal.zero false
      match s.kvPutRow st p page rps (kvDfmt h) (t0 + r) (bits v.e.xb.toNat 0 8) xs with
      | .ok s => s.kvPutRows st v q p page h t0 k (r + 1)
      | .fault f => .fault s f (r * v.e.vl)
      | .held _ => .wait s (r * v.e.vl)

/-- What KVPUT and KVINV need of the page: R and W through a KV leaf, not the window, not the host region (R226, R379, R453). -/
def kvWant : Want := { r := true, w := true, far := true, kv := true }

/-- The page and its header. -/
def State.kvOpen (s : State) (st : Stream) (xa : Word) : Acc (Part × Nat × State) :=
  let page := xa.toNat / 2 ^ 16 * 2 ^ 16
  (s.kvPage st kvWant xa).bind fun p => (s.kvRead st p page 0 0x100).map fun x => (p, x)

/-- The page may not be written: it is shared (R373). -/
def kvRefuses (h : Nat) : Bool := decide (1 < kvRefcnt h) || kvShared h

/-- KVPUT (R379 to R381): the checks and the header step come where it begins, and again where it is entered again after a
stop. -/
def State.kvput (s : State) (v : Env) (o : Ord) (sc : Scope) (d : VReg) : Perf :=
  let st := s.nearStream
  let t := v.tag d
  let vl := v.e.vl
  let page := v.e.xa.toNat / 2 ^ 16 * 2 ^ 16
  let t0 := v.e.xa.toNat % 2 ^ 16
  if !fmtIsFloat t.fmt || !v.pairOk d then v.refuse s 0x03
  else if v.tooLong [d] (fmtWidth t.fmt) then v.refuse s 0x04
  else match v.begun.header with
  | some h =>
    match s.kvPage st kvWant v.e.xa with
    | .ok p => s.kvPutRows st v (v.source d) p page h t0 v.rows 0
    | x => v.stopWhole s x
  | none =>
    match s.kvOpen st v.e.xa with
    | .ok (p, h, s') =>
      if kvMalformed h || decide (kvRowElems h < vl) || decide (kvTpp (kvRps h) < t0 + v.rows) ||
          (v.e.start % vl != 0 && decide (v.e.start < v.positions)) || (kvDfmt h == 1 && bits v.e.xb.toNat 0 8 == 255) then
        v.refuse s 0x04
      else if kvRefuses h then v.refuse s 0x13
      else
        match (if ordRel o then s'.releaseWriteAt sc else some s') with
        | none => .wait s v.e.start
        | some s' =>
          if !((List.range v.rows).any fun r => decide (v.e.start ≤ r * vl) && v.guard r 0) then .done s'
          else
            match s'.kvHeaderStep st p page h with
            | .ok s'' => (s''.carry { v.begun with header := some h }).kvPutRows st v (v.source d) p page h t0 v.rows 0
            | x => v.stopWhole s x
    | x => v.stopWhole s x

/-! KVINV. -/

/-- Some bit of the mask names a position outside the page (R382). -/
def kvMaskBad (m t0 tpp : Nat) : Bool := (List.range 64).any fun k => bitAt m k && decide (tpp ≤ t0 + k)

def State.kvinv (s : State) (v : Env) (o : Ord) (sc : Scope) : Perf :=
  let st := s.nearStream
  let page := v.e.xa.toNat / 2 ^ 16 * 2 ^ 16
  let t0 := v.e.xa.toNat % 2 ^ 16
  if !v.whole then .done s
  else
    match s.kvOpen st v.e.xa with
    | .ok (p, h, s') =>
      if kvMalformed h || kvMaskBad v.e.xb.toNat t0 (kvTpp (kvRps h)) then v.refuse s 0x04
      else if kvRefuses h then v.refuse s 0x13
      else if v.e.xb = 0 then .done s'
      else
        match (if ordRel o then s'.releaseWriteAt sc else some s') with
        | none => .wait s v.e.start
        | some s' =>
          let valid := kvValid h &&& (onesN 256 ^^^ ((v.e.xb.toNat <<< t0) % 2 ^ 256))
          match s'.kvWrite st p page 0x20 (leBytes 32 valid) with
          | .ok s'' => .done s''
          | x => v.stopWhole s x
    | x => v.stopWhole s x

end Sys2Proof.Machine
end

