-- ==== Sys2Proof/Machine/FarOps.lean ====
section
/-! DEFINITION. The far-only instructions (R305 to R321): FREDADD, FREDMAX, FSCADD, FEMBAG, FATT, FMERGE. -/

namespace Sys2Proof.Machine

/-! Contributions (R305). -/

/-- Perform a contribution at the MSC of its target (R305). A float sum reads the line, so it meets uncorrectable data
(R465). -/
def State.contributeOn (s : State) (st : Stream) (k : Want) (va : Nat) (kind : RedKind) (t : Fmt) (c : Nat) : Acc State :=
  (s.resolveOn st k va (fmtWidth t / 8)).bind fun ps =>
    (s.touchParts ps).bind fun s1 =>
      let s2 := s1.markParts true ps
      match ps with
      | [p] =>
        match p.place with
        | .device pa =>
          if kind == .sum && fmtIsFloat t && s2.ms.poisoned pa p.n then accFault 0x10 0 va
          else
            let (ms, f) := s2.ms.contribute st.src.owner pa kind t c
            .ok ({ s2 with ms := ms }.addFlags f)
        | .peer q pa =>
          let (f, s3) := s2.postWrite st.src st.agent.ctx va p.leafSize (some (q, pa / 512))
          .ok (s3.asyncIf st.src f)
        | _ => .ok s2
      | _ => .ok s2

/-- What a contribution needs of its target (R309, R310). -/
def targetWant (t : Fmt) : Want := { r := true, w := true, align := fmtWidth t / 8 }

/-! FREDADD and FREDMAX (R306 to R309). -/

/-- Target tags a source tag admits (R306). -/
def fredTag (src t : Fmt) : Bool :=
  match fmtKind src with
  | .signed => (t == .s32 || t == .s64) && decide (fmtWidth src ≤ fmtWidth t)
  | .unsigned => (t == .n32 || t == .n64) && decide (fmtWidth src ≤ fmtWidth t)
  | .float => t == .fp32 || (t == src && (src == .bf16 || src == .fp16))

/-- A source code as a value of the target format: exact (R306). -/
def fredValue (src t : Fmt) (c : Nat) : Flagged Nat :=
  if fmtIsFloat t then convFloat (decodeFmt src c) t .rne 0 false else wrapTo t (decodeInt src c)

def fredKind (mx : Bool) : RedKind := if mx then .max else .sum

/-- Refusals of the word and the configuration: a code, or none. -/
def Env.fredBad (v : Env) (elem : Bool) (t : Fmt) : Option (BitVec 8) :=
  let w := fmtWidth v.e.vtag
  if v.e.vblk || w == 4 || !fredTag v.e.vtag t then some 0x03
  else if (!elem && v.e.start != 0) || v.tooLong [] (max w (fmtWidth t)) ||
      (!elem && v.e.rc != 0 && v.e.vl * w / 8 % 512 != 0) then some 0x04
  else if !elem && v.e.xa.toNat % 512 != 0 then some 0x08
  else none

/-- Address of source element n, and of target word n. -/
def Env.fredSrc (v : Env) (n : Nat) : Nat := addr64 (v.e.xa.toNat + n * (fmtWidth v.e.vtag / 8) : Nat)
def Env.fredTgt (v : Env) (t : Fmt) (n : Nat) : Nat := addr64 (v.e.xb.toNat + n * (fmtWidth t / 8) : Nat)

/-- One element of elem mode: its source is read, its value contributed (R308). -/
def Env.fredElem (v : Env) (mx : Bool) (t : Fmt) (s : State) (st : Stream) (r i : Nat) : Acc State :=
  let n := r * v.e.vl + i
  (s.readOn st { r := true } false (v.fredSrc n) (fmtWidth v.e.vtag / 8)).bind fun x =>
    let (c, f) := fredValue v.e.vtag t (leNat x.1)
    ((x.2.addFlags f).contributeOn st (targetWant t) (v.fredTgt t n) (fredKind mx) t c)

/-- The checks of one element: target and source, ranked together (R272). -/
def State.fredCheck (s : State) (st : Stream) (v : Env) (t : Fmt) (src tgt : Nat) : Acc Unit :=
  ((s.checkSpans st (targetWant t) [(tgt, fmtWidth t / 8)]).both
    (s.checkSpans st { r := true } [(src, fmtWidth v.e.vtag / 8)])).map fun _ => ()

/-- The lowest eligible listed position whose checks stop; row mode contributes to one word per row. -/
def State.fredStop (s : State) (st : Stream) (v : Env) (elem : Bool) (t : Fmt) : List Nat → Option (Nat × Stop)
  | [] => none
  | n :: r =>
    if v.performed n then
      match stopOf n (s.fredCheck st v t (v.fredSrc n) (v.fredTgt t (if elem then n else n / v.e.vl))) with
      | some x => some x
      | none => s.fredStop st v elem t r
    else s.fredStop st v elem t r

/-- Perform listed elements of elem mode. -/
def State.fredElems (s : State) (st : Stream) (v : Env) (mx : Bool) (t : Fmt) : List Nat → State × Option (Nat × Stop)
  | [] => (s, none)
  | n :: r =>
    if v.performed n then
      match v.fredElem mx t s st (n / v.e.vl) (n % v.e.vl) with
      | .ok s' => s'.fredElems st v mx t r
      | x => (s, stopOf n x)
    else s.fredElems st v mx t r

/-- Read the eligible elements of a row: their codes in the target format, by index. -/
def State.fredRead (s : State) (st : Stream) (v : Env) (t : Fmt) (r : Nat) : List Nat → Acc (List (Nat × Nat) × State)
  | [] => .ok ([], s)
  | i :: l =>
    (s.readOn st { r := true } false (v.fredSrc (r * v.e.vl + i)) (fmtWidth v.e.vtag / 8)).bind fun x =>
      let (c, f) := fredValue v.e.vtag t (leNat x.1)
      ((x.2.addFlags f).fredRead st v t r l).map fun y => ((i, c) :: y.1, y.2)

/-- The tree of one row (R307). -/
def fredTree (mx : Bool) (t : Fmt) (vl : Nat) (cs : List (Nat × Nat)) : Flagged Nat :=
  let op : RedOp := if mx then .max else .sum
  let code (i : Nat) : Option Nat := (cs.find? fun p => p.1 == i).map Prod.snd
  if fmtIsFloat t then
    treeF op t ((List.range vl).map fun i => match code i with
      | some c => decodeFmt t c
      | none => identityF op t)
  else (treeI op t (cs.map fun p => decodeInt t p.2), .none)

/-- One contribution for every row with an eligible element (R307). -/
def State.fredRows (s : State) (st : Stream) (v : Env) (mx : Bool) (t : Fmt) : List Nat → Acc State
  | [] => .ok s
  | r :: l =>
    if (v.eligibleIdx r).isEmpty then s.fredRows st v mx t l
    else
      (s.fredRead st v t r (v.eligibleIdx r)).bind fun x =>
        let (c, f) := fredTree mx t v.e.vl x.1
        ((x.2.addFlags f).contributeOn st (targetWant t) (v.fredTgt t r) (fredKind mx) t c).bind fun s =>
          s.fredRows st v mx t l

/-- The source codes of listed positions, as the owner of their lines reads them (R307). -/
def State.fredCodes (s : State) (st : Stream) (v : Env) : List Nat → Acc (List (Nat × Nat) × State)
  | [] => .ok ([], s)
  | n :: l =>
    (s.readOn st { r := true } false (v.fredSrc n) (fmtWidth v.e.vtag / 8)).bind fun x =>
      (x.2.fredCodes st v l).map fun y => ((n, leNat x.1) :: y.1, y.2)

/-- The contributions of the listed rows, from codes received by position (R307). -/
def State.fredTop (s : State) (st : Stream) (v : Env) (mx : Bool) (t : Fmt) (got : List (Nat × Nat)) : List Nat → Acc State
  | [] => .ok s
  | r :: l =>
    let cs := (got.filter fun p => p.1 / v.e.vl == r).map fun p => (p.1 % v.e.vl, fredValue v.e.vtag t p.2)
    let (c, f) := fredTree mx t v.e.vl (cs.map fun p => (p.1, p.2.1))
    let s := s.addFlags (cs.foldl (fun g p => g.or p.2.2) f)
    (s.contributeOn st (targetWant t) (v.fredTgt t r) (fredKind mx) t c).bind fun s => s.fredTop st v mx t got l

/-- FREDADD and FREDMAX: in row mode a stop leaves every target unchanged (R296). -/
def State.fred (s : State) (st : Stream) (v : Env) (mx elem : Bool) (t : Fmt) (ns : List Nat) : Perf :=
  match v.fredBad elem t with
  | some c => v.refuse s c
  | none =>
    let stop := s.fredStop st v elem t ns
    if elem then
      let below := match stop with
        | some (n, _) => ns.filter fun m => decide (m < n)
        | none => ns
      match s.fredElems st v mx t below with
      | (s, some x) => perfOf (s, some x)
      | (s, none) => perfOf (s, stop)
    else
      match stop with
      | some (_, .fault f) => .fault s f v.e.start
      | some (_, .held) => .wait s v.e.start
      | none =>
        match s.fredRows st v mx t (List.range v.rows) with
        | .ok s => .done s
        | x => v.stopWhole s x

/-! FSCADD (R310, R311). -/

/-- Tags of vc (R310). -/
def fscTag (t : RegTag) : Bool := !t.blk && [Fmt.fp32, .bf16, .fp16, .s32, .s64, .n32, .n64].contains t.fmt

/-- The sum of the values of the listed elements, in sweep order, rounded at each step (R311). -/
def fscSum (q : Source) (vl : Nat) (t : Fmt) : Nat → List Nat → Flagged Nat
  | u, [] => (u, .none)
  | u, n :: r =>
    let (x, f) := reduceCombine .sum t u (q.code (n / vl) (n % vl))
    let (y, g) := fscSum q vl t x r
    (y, f.or g)

/-- Where the target word of a performed element lies: the stack resolves duplicates by it (R236, R311). -/
def State.targetPlace (s : State) (st : Stream) (v : Env) (qb : Source) (t : Fmt) (n : Nat) : Place :=
  let va := indexedAt v.e.xa qb (n / v.e.vl) (n % v.e.vl)
  match s.resolveOn st (targetWant t) va (fmtWidth t / 8) with
  | .ok (p :: _) => p.place
  | _ => .refused va

/-- Contribute once to each target of the listed performed elements, each with the place of its target; `fuel` bounds the number
of targets. -/
def State.fscTargets (s : State) (st : Stream) (v : Env) (qb qc : Source) : Nat → List (Nat × Place) → State × Option (Nat × Stop)
  | 0, _ => (s, none)
  | _, [] => (s, none)
  | fuel + 1, (n, p) :: r =>
    let t := qc.tag.fmt
    let same := (r.filter fun m => m.2 == p).map Prod.fst
    let (u, f) := fscSum qc v.e.vl t (qc.code (n / v.e.vl) (n % v.e.vl)) same
    match (s.addFlags f).contributeOn st (targetWant t) (indexedAt v.e.xa qb (n / v.e.vl) (n % v.e.vl)) .sum t u with
    | .ok s => s.fscTargets st v qb qc fuel (r.filter fun m => m.2 != p)
    | x => (s, stopOf n x)

def State.fscadd (s : State) (st : Stream) (v : Env) (b c : VReg) (ns : List Nat) : Perf :=
  let tb := v.tag b
  let tc := v.tag c
  let w := fmtWidth tc.fmt
  if !offsetsOk tb || !fscTag tc then v.refuse s 0x03
  else if v.tooLong [b, c] (max w (fmtWidth tb.fmt)) then v.refuse s 0x04
  else
    let qb := v.source b
    let op : MemOp :=
      { want := targetWant tc.fmt, spans := fun r i => [(indexedAt v.e.xa qb r i, w / 8)], perform := fun s _ _ _ => .ok s,
        tail := fun s _ _ => s, rank := false }
    let stop := s.firstStop st v op ns
    let done := (match stop with
      | some (n, _) => ns.filter fun m => decide (m < n)
      | none => ns).filter v.performed
    match s.fscTargets st v qb (v.source c) done.length (done.map fun n => (n, s.targetPlace st v qb tc.fmt n)) with
    | (s, some x) => perfOf (s, some x)
    | (s, none) => perfOf (s, stop)

/-! FEMBAG (R312 to R314). -/

/-- The table descriptor (R313). -/
structure TableDesc where
  base : Nat
  pitch : Nat
  e : Nat
  fmt : Nat
  nrows : Nat
  zeros : Bool
  deriving DecidableEq, Repr

def tableDesc (d : Nat) : TableDesc :=
  ⟨bits d 0 64, bits d 64 32, bits d 96 16, bits d 112 8, bits d 128 32, bits d 120 8 == 0 && bits d 160 96 == 0⟩

/-- Bytes of a table row, none for another FMT. -/
def TableDesc.rowBytes (t : TableDesc) : Option Nat :=
  match t.fmt with
  | 0x0A | 0x01 => some (t.e + 1)
  | 0x0C => some (t.e / 2 + t.e / 32)
  | 0x00 => some (t.e / 2 + 1)
  | _ => none

/-- The descriptor's own conditions (R313). -/
def TableDesc.bad (t : TableDesc) (rows : Nat) : Bool :=
  match t.rowBytes with
  | none => true
  | some n => !t.zeros || t.e == 0 || decide (1024 < t.e) || (t.fmt == 0x0C && t.e % 32 != 0) || (t.fmt == 0 && t.e % 2 != 0) ||
      decide (t.pitch < n) || decide (4096 / rows < t.e * 4)

/-- Value of element j of a row held as a string (R313). -/
def TableDesc.val (t : TableDesc) (row j : Nat) : FVal :=
  let scaled (v : FVal) (s : Nat) : FVal := if s = 255 then .qnan else v.scale ((s : Int) - 127)
  match t.fmt with
  | 0x0A => scaled (decodeFloat .e4m3 (bits row (8 * j) 8)) (bits row (8 * t.e) 8)
  | 0x01 => scaled (.ofInt (decodeInt .s8 (bits row (8 * j) 8))) (bits row (8 * t.e) 8)
  | 0x0C => mxdecode .e2m1 (bits row (4 * j) 4) (bits row (8 * (t.e / 2 + j / 32)) 8)
  | _ => scaled (.ofInt (decodeInt .s4 (bits row (4 * j) 4))) (bits row (8 * (t.e / 2)) 8)

/-- Indices of a bag's eligible elements. -/
def Env.bagOf (v : Env) (q : Source) (r : Nat) : List (Nat × Nat) := (v.eligibleIdx r).map fun i => (i, q.code r i)

/-- The index and the row of one element (R314): an index outside the table, or what its row's checks find. -/
def State.bagCheck (s : State) (st : Stream) (v : Env) (q : Source) (t : TableDesc) (n p : Nat) : Acc Unit :=
  let x := q.code (p / v.e.vl) (p % v.e.vl)
  if t.nrows ≤ x then .fault (.of 0x04) else s.checkSpans st { r := true } [(addr64 (t.base + x * t.pitch : Nat), n)]

/-- Check every eligible index, in sweep order (R314). -/
def State.bagStop (s : State) (st : Stream) (v : Env) (q : Source) (t : TableDesc) (n : Nat) : List Nat → Option (Nat × Stop)
  | [] => none
  | p :: r =>
    if v.performed p then
      match stopOf p (s.bagCheck st v q t n p) with
      | some x => some x
      | none => s.bagStop st v q t n r
    else s.bagStop st v q t n r

/-- Read the table rows of a bag. -/
def State.bagRows (s : State) (st : Stream) (t : TableDesc) (n : Nat) : List (Nat × Nat) → Acc (List (Nat × Nat) × State)
  | [] => .ok ([], s)
  | (i, x) :: r =>
    (s.readOn st { r := true } false (addr64 (t.base + x * t.pitch : Nat)) n).bind fun a =>
      (a.2.bagRows st t n r).map fun b => ((i, leNat a.1) :: b.1, b.2)

/-- One bag into row r of fd. -/
def Env.bagRow (v : Env) (t : TableDesc) (wgt : Nat → Nat → FVal) (rows : List (Nat × Nat)) (r : Nat) : List Nat × Flags :=
  (List.range t.e).foldl (fun acc j =>
    let ts := (List.range v.e.vl).map fun i =>
      match rows.find? fun p => p.1 == i with
      | some p => mulVals (wgt r i) (t.val p.2 j)
      | none => (FVal.zero true, .none)
    let (c, f) := treeF .sum .fp32 (ts.map (·.1))
    (acc.1 ++ [c], ts.foldl (fun g x => g.or x.2) (acc.2.or f))) ([], .none)

/-- Every bag: its rows are read and its sums written. -/
def State.bags (s : State) (st : Stream) (v : Env) (q : Source) (t : TableDesc) (n : Nat) (wgt : Nat → Nat → FVal) (f : RegRef) :
    List Nat → Acc State
  | [] => .ok s
  | r :: l =>
    (s.bagRows st t n (v.bagOf q r)).bind fun x =>
      let (cs, fl) := v.bagRow t wgt x.1 r
      let s := cs.zipIdx.foldl (fun s p => s.putReg f (r * v.rowBits f + 32 * p.2) 32 p.1) x.2
      (s.addFlags fl).bags st v q t n wgt f l

/-- What the core does before a far instruction is sent: it stops, or has read what it sends along (R295, R296). -/
inductive Pre where
  | stop (p : Perf)
  | ok (pre : FarPre) (s : State)

/-- The checks of FEMBAG at the core, and its descriptor (R312 to R314). -/
def State.fembagPre (s : State) (st : Stream) (v : Env) (wgt : Bool) (d a c : VReg) : Pre :=
  let ta := v.tag a
  let tc := v.tag c
  let idxOk := !ta.blk && [Fmt.n16, .n32, .n64].contains ta.fmt
  let wOk := !wgt || (!tc.blk && [Fmt.fp32, .bf16, .fp16].contains tc.fmt)
  let w := if wgt then max (fmtWidth ta.fmt) (fmtWidth tc.fmt) else fmtWidth ta.fmt
  if !idxOk || !wOk then .stop (v.refuse s 0x03)
  else if v.wholeBad (if wgt then [d, a, c] else [d, a]) w then .stop (v.refuse s 0x04)
  else
    match s.readOn s.nearStream { r := true, align := 32 } false v.e.xb.toNat 32 with
    | .ok x =>
      let t := tableDesc (leNat x.1)
      match (if t.bad v.rows then none else t.rowBytes) with
      | none => .stop (v.refuse x.2 0x04)
      | some n =>
        match x.2.bagStop st v (v.source a) t n v.remaining with
        | some (_, .fault f) => .stop (.fault x.2 f v.e.start)
        | some (_, .held) => .stop (.wait s v.e.start)
        | none => .ok (.bag (leNat x.1)) x.2
    | x => .stop (v.stopWhole s x)

/-- The bags of FEMBAG at its site. -/
def State.fembagBody (s : State) (st : Stream) (v : Env) (wgt : Bool) (d a c : VReg) (desc : Nat) : Perf :=
  let t := tableDesc desc
  let qc := v.source c
  match (s.tagReg (v.ref d) ⟨.fp32, false⟩).bags st v (v.source a) t (t.rowBytes.getD 0)
      (fun r i => if wgt then qc.val r i else .one) (v.ref d) (List.range v.rows) with
  | .ok s => .done s
  | x => v.stopWhole s x

/-! FATT (R315 to R320). -/

/-- The descriptor (R316). -/
structure AttnDesc where
  kroot : Nat
  vroot : Nat
  seq : Nat
  mask : Nat
  t0 : Nat
  t1 : Nat
  lg : Nat
  rps : Nat
  e0 : Nat
  scale : Nat
  zeros : Bool
  deriving DecidableEq, Repr

def attnDesc (d : Nat) : AttnDesc :=
  { kroot := bits d 0 64, vroot := bits d 64 64, seq := bits d 128 64, mask := bits d 192 64, t0 := bits d 256 32,
    t1 := bits d 288 32, lg := bits d 320 8, rps := bits d 328 8, e0 := bits d 336 16, scale := bits d 384 32,
    zeros := bits d 352 32 == 0 && bits d 416 96 == 0 }

/-- The descriptor's own fields (R317, step 2). -/
def AttnDesc.bad (a : AttnDesc) (vl : Nat) : Bool :=
  !a.zeros || decide (63 < a.lg) || decide (2 < a.rps) || a.e0 % 32 != 0 || decide (1024 / 2 ^ a.rps < a.e0 + vl)

/-- The first misaligned pointer (R317, step 3). -/
def AttnDesc.misaligned (a : AttnDesc) : Option Nat :=
  if a.seq % 4 != 0 then some a.seq
  else if a.kroot % 8 != 0 then some a.kroot
  else if a.vroot % 8 != 0 then some a.vroot
  else none

/-- A fault 0x04 naming a block (R377). -/
def blockFault {α : Type} (b : Nat) : Acc α := .fault { FaultInfo.of 0x04 with info := BitVec.ofNat 64 b }

/-- The page of block `b` through a mapping table (R377). A root entry of 0, or with bits [63:52] nonzero, is refused as a leaf
entry is. DESIGN CHOICE (log 51). -/
def State.tablePage (s : State) (st : Stream) (root lg b : Nat) : Acc ((Nat × Part) × State) :=
  let near := s.nearStream
  (s.readOn near { r := true } false (addr64 (root + 8 * lg : Nat)) 8).bind fun x =>
    let g := leNat x.1
    if g / 2 ^ 52 != 0 || g == 0 then blockFault b
    else
      (x.2.readOn near { r := true } false (addr64 (g + 8 * b : Nat)) 8).bind fun y =>
        let p := leNat y.1
        if p == 0 || p / 2 ^ 52 != 0 || p % 2 ^ 16 != 0 then blockFault b
        else (y.2.kvPage st { r := true } (BitVec.ofNat 64 p)).map fun q => ((p, q), y.2)

/-- A block of the stretch: its number, its key page and its value page with their addresses. -/
structure AttnBlock where
  b : Nat
  kva : Nat
  kp : Part
  vva : Nat
  vp : Part
  deriving DecidableEq, Repr

def State.attnBlocks (s : State) (st : Stream) (a : AttnDesc) : List Nat → Acc (List AttnBlock × State)
  | [] => .ok ([], s)
  | b :: r =>
    (s.tablePage st a.kroot a.lg b).bind fun k =>
      (k.2.tablePage st a.vroot a.lg b).bind fun v =>
        (v.2.attnBlocks st a r).map fun x => (⟨b, k.1.1, k.1.2, v.1.1, v.1.2⟩ :: x.1, x.2)

/-- Blocks of the stretch [t0, end). -/
def AttnDesc.blocks (a : AttnDesc) (fin : Nat) : List Nat :=
  if fin ≤ a.t0 then []
  else
    let tpp := kvTpp a.rps
    (List.range ((fin - 1) / tpp - a.t0 / tpp + 1)).map fun k => a.t0 / tpp + k

/-- Address and length of the mask bytes of the stretch. -/
def AttnDesc.maskSpan (a : AttnDesc) (fin : Nat) : Nat × Nat :=
  (addr64 (a.mask + a.t0 / 8 : Nat), if fin ≤ a.t0 || a.mask == 0 then 0 else (fin - 1) / 8 - a.t0 / 8 + 1)

/-- The pre-pass (R317): the descriptor, the end of the stretch, its blocks. -/
def State.attnPrepass (s : State) (st : Stream) (v : Env) : Acc (Nat × Nat × List AttnBlock × State) :=
  let near := s.nearStream
  (s.readOn near { r := true, align := 64 } false v.e.xb.toNat 64).bind fun x =>
    let a := attnDesc (leNat x.1)
    if a.bad v.e.vl then .fault (.of 0x04)
    else
      match a.misaligned with
      | some va => accFault 0x08 0 va
      | none =>
        (x.2.readOn near { r := true, align := 4 } false a.seq 4).bind fun y =>
          let fin := min a.t1 (leNat y.1)
          if 16384 < fin - a.t0 then .fault (.of 0x04)
          else
            (y.2.attnBlocks st a (a.blocks fin)).bind fun z =>
              (z.2.checkSpans st { r := true } [a.maskSpan fin]).map fun _ => (leNat x.1, fin, z.1, z.2)

/-- The site's check of every page header (R317), and the headers. -/
def State.attnHeaders (s : State) (st : Stream) (rps : Nat) : List AttnBlock → Acc (List (Nat × Nat) × State)
  | [] => .ok ([], s)
  | b :: r =>
    (s.kvRead st b.kp b.kva 0 0x100).bind fun x =>
      (x.2.kvRead st b.vp b.vva 0 0x100).bind fun y =>
        let bad (h : Nat) : Bool := kvVersion h != 1 || kvRps h != rps
        if bad x.1 || bad y.1 then .fault (.of 0x04)
        else (y.2.attnHeaders st rps r).map fun z => ((x.1, y.1) :: z.1, z.2)

/-- Elements E0 to E0 + VL − 1 of one token's row, its slot read with its tag (R269, R318). -/
def State.attnRow (s : State) (st : Stream) (p : Part) (va rps e0 vl j : Nat) : Acc (List FVal × State) :=
  (s.kvRead st p va (kvTagOff (kvSlot rps j)) 2).bind fun x =>
    (x.2.kvRead st p va (1024 * kvSlot rps j) 1024).map fun y =>
      ((List.range vl).map fun i => kvValue x.1 y.1 rps (kvRow rps j) (e0 + i), y.2)

/-- The rows of the used tokens of one block. -/
def State.attnTokens (s : State) (st : Stream) (b : AttnBlock) (rps e0 vl : Nat) :
    List Nat → Acc (List (Nat × List FVal × List FVal) × State)
  | [] => .ok ([], s)
  | j :: r =>
    (s.attnRow st b.kp b.kva rps e0 vl j).bind fun x =>
      (x.2.attnRow st b.vp b.vva rps e0 vl j).bind fun y =>
        (y.2.attnTokens st b rps e0 vl r).map fun z => ((j, x.1, y.1) :: z.1, z.2)

/-- Positions of the used tokens of a block (R318). -/
def attnUsed (a : AttnDesc) (fin b kh vh mask : Nat) : List Nat :=
  (List.range (kvTpp a.rps)).filter fun j =>
    let t := b * kvTpp a.rps + j
    decide (a.t0 ≤ t) && decide (t < fin) && bitAt (kvValid kh) j && bitAt (kvValid vh) j &&
      (a.mask == 0 || bitAt mask (t - a.t0 / 8 * 8))

/-- Every block's used tokens with their rows. -/
def State.attnData (s : State) (st : Stream) (a : AttnDesc) (fin vl mask : Nat) :
    List (AttnBlock × Nat × Nat) → Acc (List (List (Nat × List FVal × List FVal)) × State)
  | [] => .ok ([], s)
  | (b, kh, vh) :: r =>
    (s.attnTokens st b a.rps a.e0 vl (attnUsed a fin b.b kh vh mask)).bind fun x =>
      (x.2.attnData st a fin vl mask r).map fun y => (x.1 :: y.1, y.2)

/-- w(a, m1) of R319. -/
def softW (a m1 : FVal) : Flagged FVal := if a = .inf true ∧ m1 = .inf true then (.one, .none) else exp2Diff a m1

/-- A product of flagged factors, exact. -/
def mulFl (a b : Flagged FVal) : Flagged FVal := let (p, f) := mulVals a.1 b.1; (p, (a.2.or b.2).or f)

/-- round(round(x × c) + round(y × d)) at FP32 (R319, R321). -/
def softComb (x c y d : FVal) : Flagged FVal :=
  let (p, f) := toFp32 (mulVals x c)
  let (q, g) := toFp32 (mulVals y d)
  let (r, h) := toFp32 (sumVals [p, q] .rne)
  (r, (f.or g).or h)

/-- A tree sum at FP32 of exact terms. -/
def treeOf (op : RedOp) (ts : List (Flagged FVal)) : Flagged FVal :=
  let (c, f) := treeF op .fp32 (ts.map (·.1))
  (decodeFloat .fp32 c, ts.foldl (fun g t => g.or t.2) f)

/-- The running state of a query row: m, s, o. -/
structure SoftState where
  m : FVal
  s : FVal
  o : List FVal
  fl : Flags
  deriving DecidableEq, Repr

/-- Fold one block into a query row's state (R319). -/
def softBlock (q : List FVal) (scale : FVal) (tpp : Nat) (ts : List (Nat × List FVal × List FVal)) (z : SoftState) : SoftState :=
  if ts.isEmpty then z
  else
    let tok (j : Nat) : Option (List FVal × List FVal) := (ts.find? fun t => t.1 == j).map Prod.snd
    let xs : List (Flagged FVal) := (List.range tpp).map fun j =>
      match tok j with
      | some (k, _) =>
        let (d, f) := treeOf .sum ((q.zip k).map fun p => mulVals p.1 p.2)
        let (x, g) := toFp32 (mulVals d scale)
        (x, f.or g)
      | none => (FVal.inf true, .none)
    let (mp, f0) := treeOf .max xs
    let es : List (Flagged FVal) := (xs.zipIdx).map fun p =>
      match tok p.2 with
      | some _ => softW p.1.1 mp
      | none => (FVal.zero true, .none)
    let (sp, f1) := treeOf .sum es
    let op := (List.range q.length).map fun i => treeOf .sum ((es.zipIdx).map fun p =>
      match tok p.2 with
      | some (_, v) => mulVals p.1.1 (v.getD i (.zero false))
      | none => (FVal.zero true, .none))
    let (m1, f2) := minmaxVals true z.m mp
    let (c, f3) := softW z.m m1
    let (cp, f4) := softW mp m1
    let (s, f5) := softComb z.s c sp cp
    let os := (z.o.zip op).map fun p => softComb p.1 c p.2.1 cp
    { m := m1, s := s, o := os.map (·.1),
      fl := op.foldl (fun g x => g.or x.2) (os.foldl (fun g x => g.or x.2)
        ((((((z.fl.or f0).or f1).or f2).or f3).or f4).or f5)) }

/-- FP32 code of a value of that format. -/
def fp32Code (v : FVal) : Nat := (roundVal v .fp32 .rne 0).1

/-- Write zeros in row r of a register from FP32 element `a` up to the row's end. -/
def Env.zeroFrom (v : Env) (s : State) (f : RegRef) (r a : Nat) : State :=
  s.putReg f (r * v.rowBits f + 32 * a) (v.rowBits f - 32 * a) 0

/-- Write the state of a query row (R319, R321): `o` into fd, m and s into fd + 1; ZM zeroes the rest. -/
def Env.putSoft (v : Env) (zm : Bool) (f : RegRef) (r : Nat) (z : SoftState) (s : State) : State :=
  let s := if zm then v.zeroFrom (v.zeroFrom s f r 0) f.odd r 0 else s
  let s := z.o.zipIdx.foldl (fun s p => s.putReg f (r * v.rowBits f + 32 * p.2) 32 (fp32Code p.1)) s
  ((s.putReg f.odd (r * v.rowBits f.odd) 32 (fp32Code z.m)).putReg f.odd (r * v.rowBits f.odd + 32) 32 (fp32Code z.s)).addFlags z.fl

/-- A row whose guard is false: unchanged, or zero under ZM. -/
def Env.skipSoft (v : Env) (zm : Bool) (f : RegRef) (r : Nat) (s : State) : State :=
  if zm then v.zeroFrom (v.zeroFrom s f r 0) f.odd r 0 else s

/-- An FP32 element of a register as it stood before the instruction. -/
def Env.fp32At (v : Env) (f : RegRef) (r i : Nat) : FVal := decodeFloat .fp32 (bits (v.vec.getRef f) (r * v.rowBits f + 32 * i) 32)

/-- The start of a query row. -/
def Env.softStart (v : Env) (acc : Bool) (f : RegRef) (r : Nat) : SoftState :=
  if acc then ⟨v.fp32At f.odd r 0, v.fp32At f.odd r 1, (List.range v.e.vl).map fun i => v.fp32At f r i, .none⟩
  else ⟨.inf true, .zero false, List.replicate v.e.vl (.zero false), .none⟩

/-- All query rows (R319). -/
def Env.attend (v : Env) (zm acc : Bool) (f : RegRef) (q : Source) (a : AttnDesc)
    (data : List (List (Nat × List FVal × List FVal))) (s : State) : State :=
  (List.range v.rows).foldl (fun s r =>
    if v.guard r 0 then
      let qr := (List.range v.e.vl).map fun i => q.val r i
      let z := data.foldl (fun z ts => softBlock qr (decodeFloat .fp32 a.scale) (kvTpp a.rps) ts z) (v.softStart acc f r)
      v.putSoft zm f r z s
    else v.skipSoft zm f r s) s

/-- Conditions of R315 and R321 on the sweep. -/
def Env.softBad (v : Env) : Bool := v.e.start != 0 || v.e.vtail != 0 || decide (4096 / v.rows < v.e.vl * 4)

/-- A fault found at a stack is asynchronous (R298, R459). -/
def atStack (f : FaultInfo) : Bool := f.code == 0x10 || (f.code == 0x0F && (f.reason == 1 || f.reason == 2))

/-- What FATT does before it leaves the queue: the checks at the core, and its site's check of every page header (R295, R315,
R317). -/
def State.fattPre (s : State) (st : Stream) (v : Env) (acc : Bool) (d a : VReg) : Pre :=
  let ta := v.tag a
  let f := v.ref d
  let fp : RegTag := ⟨.fp32, false⟩
  if ta.blk || !([Fmt.fp32, .bf16, .fp16, .e4m3].contains ta.fmt) ||
      (acc && (v.vec.tagRef f != fp || v.vec.tagRef f.odd != fp)) then .stop (v.refuse s 0x03)
  else if v.softBad then .stop (v.refuse s 0x04)
  else
    match s.attnPrepass st v with
    | .ok (desc, fin, blocks, s1) =>
      match s1.attnHeaders st (attnDesc desc).rps blocks with
      | .ok x => .ok (.attn desc fin ((blocks.zip x.1).map fun b => (b.1.b, b.1.kva, b.1.vva, b.2.1, b.2.2))) x.2
      | .fault e => .stop (if atStack e then .done (s1.asyncFault st.src e none) else .fault s1 e v.e.start)
      | .held _ => .stop (.wait s v.e.start)
    | x => .stop (v.stopWhole s x)

/-- The blocks of FATT's stretch with their pages and headers. -/
def State.attnPages (s : State) (st : Stream) : List (Nat × Nat × Nat × Nat × Nat) → Acc (List (AttnBlock × Nat × Nat))
  | [] => .ok []
  | (b, kva, vva, kh, vh) :: r =>
    (s.kvPage st { r := true } (BitVec.ofNat 64 kva)).bind fun kp =>
      (s.kvPage st { r := true } (BitVec.ofNat 64 vva)).bind fun vp =>
        (s.attnPages st r).map fun l => (⟨b, kva, kp, vva, vp⟩, kh, vh) :: l

/-- FATT at its site (R318, R319). -/
def State.fattBody (s : State) (st : Stream) (v : Env) (zm acc : Bool) (d a : VReg) (desc fin : Nat)
    (blocks : List (Nat × Nat × Nat × Nat × Nat)) : Perf :=
  let dsc := attnDesc desc
  let f := v.ref d
  let fp : RegTag := ⟨.fp32, false⟩
  match (s.attnPages st blocks).bind fun bs =>
      (s.readOn st { r := true } false (dsc.maskSpan fin).1 (dsc.maskSpan fin).2).bind fun y =>
        y.2.attnData st dsc fin v.e.vl (leNat y.1) bs with
  | .ok (data, s2) => .done (v.attend zm acc f (v.source a) dsc data ((s2.tagReg f fp).tagReg f.odd fp))
  | x => v.stopWhole s x

/-! FMERGE (R321). -/

/-- Fold the state in va, va + 1 into the state of one row of fd, fd + 1. -/
def Env.mergeRow (v : Env) (norm : Bool) (f g : RegRef) (r : Nat) : SoftState :=
  let md := v.fp32At f.odd r 0
  let ma := v.fp32At g.odd r 0
  let (m1, f0) := minmaxVals true md ma
  let (cd, f1) := softW md m1
  let (ca, f2) := softW ma m1
  let (s, f3) := softComb (v.fp32At f.odd r 1) cd (v.fp32At g.odd r 1) ca
  let os := (List.range v.e.vl).map fun i =>
    let (o, h) := softComb (v.fp32At f r i) cd (v.fp32At g r i) ca
    if norm then let (c, k) := divF o s .fp32 .rne 0; (decodeFloat .fp32 c, h.or k) else (o, h)
  ⟨m1, s, os.map (·.1), os.foldl (fun g x => g.or x.2) (((f0.or f1).or f2).or f3)⟩

def State.fmerge (s : State) (v : Env) (zm norm : Bool) (d a : VReg) : Perf :=
  let f := v.ref d
  let g := v.ref a
  let fp : RegTag := ⟨.fp32, false⟩
  if v.vec.tagRef f != fp || v.vec.tagRef f.odd != fp || v.vec.tagRef g != fp || v.vec.tagRef g.odd != fp then v.refuse s 0x03
  else if v.softBad then v.refuse s 0x04
  else
    .done ((List.range v.rows).foldl (fun s r =>
      if v.guard r 0 then v.putSoft zm f r (v.mergeRow norm f g r) s else v.skipSoft zm f r s)
      ((s.tagReg f fp).tagReg f.odd fp))

/-! What precedes the sending of a far instruction. -/

/-- What the core has to read and check before the instruction itself is performed: FEMBAG and FATT. -/
def State.farPre (s : State) (st : Stream) (v : Env) : Pre :=
  match v.e.instr with
  | .fembag _ _ wgt d a _ c => s.fembagPre st v wgt d a c
  | .fatt _ _ _ acc d a _ => s.fattPre st v acc d a
  | _ => .ok .none s

end Sys2Proof.Machine
end

