-- ==== Sys2Proof/Machine/Perform.lean ====
section
/-! DEFINITION. Performing an entry of a vector queue: near at once, far at its site or in pieces (R126, R127, R293 to R303,
R458). -/

namespace Sys2Proof.Machine

/-- The result of an instruction that accesses no memory, put into the hart in focus. -/
def State.applyRes (s : State) (v : Env) (r : VRes) : Perf :=
  match r with
  | .done vec f x =>
    let h := { s.hart with vec := vec }.orFlags f
    .done { s with hart := match x with
      | some (d, w) => h.setX d w
      | none => h }
  | .fault vec c => .fault { s with hart := { s.hart with vec := vec } } (.of c) v.e.start

/-- A FENCE.VV completes in VQ order: the engine commands issued after it wait for one fence less (R291). -/
def State.endFenceVv (s : State) : State :=
  { s with hart := { s.hart with eng := s.hart.eng.map fun q =>
      { q with cmds := q.cmds.map fun c => { c with fences := c.fences - 1 } } } }

/-- A fence in the queue: the core's earlier writes are performed before the accesses that follow (R252, R291). -/
def State.vectorFence (s : State) (v : Env) : Perf :=
  if v.whole then .done s.fenceNear else .done s

/-- FEMBAG and FATT with what was read before they were sent (R295). -/
def State.runSite (s : State) (st : Stream) (v : Env) (pre : FarPre) : Perf :=
  match v.e.instr, pre with
  | .fembag _ _ wgt d a _ c, .bag desc => s.fembagBody st v wgt d a c desc
  | .fatt _ _ zm acc d a _, .attn desc fin blocks => s.fattBody st v zm acc d a desc fin blocks
  | _, _ => .done s

/-- Perform an instruction on a stream at the listed sweep positions. -/
def State.runEntry (s : State) (st : Stream) (v : Env) (pre : FarPre) (ns : List Nat) : Perf :=
  let xb := v.e.xb.toNat
  match v.e.instr with
  | .vadd _ m d a b => s.applyRes v (vaddRes v m d a b)
  | .vsub _ m d a b => s.applyRes v (vsubRes v m d a b)
  | .vmul _ m d a b => s.applyRes v (vmulRes v m d a b)
  | .vmulh _ m d a b => s.applyRes v (vmulhRes v m d a b)
  | .vfma _ m d a b c => s.applyRes v (vfmaRes v m d a b c)
  | .vfms _ m d a b c => s.applyRes v (vfmsRes v m d a b c)
  | .vfnma _ m d a b c => s.applyRes v (vfnmaRes v m d a b c)
  | .vdiv _ m d a b => s.applyRes v (vdivRes v m d a b)
  | .vmin _ m d a b => s.applyRes v (vminRes v m d a b)
  | .vmax _ m d a b => s.applyRes v (vmaxRes v m d a b)
  | .vadds _ m d a b => s.applyRes v (vaddsRes v m d a b)
  | .vsubs _ m d a b => s.applyRes v (vsubsRes v m d a b)
  | .vand _ m d a b => s.applyRes v (vandRes v m d a b)
  | .vor _ m d a b => s.applyRes v (vorRes v m d a b)
  | .vxor _ m d a b => s.applyRes v (vxorRes v m d a b)
  | .vshl _ m d a b => s.applyRes v (vshlRes v m d a b)
  | .vshr _ m d a b => s.applyRes v (vshrRes v m d a b)
  | .vscale _ m d a b => s.applyRes v (vscaleRes v m d a b)
  | .vsqrt _ m d a => s.applyRes v (vsqrtRes v m d a)
  | .vrsqrt _ m d a => s.applyRes v (vrsqrtRes v m d a)
  | .vrcp _ m d a => s.applyRes v (vrcpRes v m d a)
  | .vexp2 _ m d a => s.applyRes v (vexp2Res v m d a)
  | .vlog2 _ m d a => s.applyRes v (vlog2Res v m d a)
  | .vabs _ m d a => s.applyRes v (vabsRes v m d a)
  | .vneg _ m d a => s.applyRes v (vnegRes v m d a)
  | .vcmp _ m c d a b => s.applyRes v (vcmpRes v m c d a b)
  | .vredsum _ m d a sc => s.applyRes v (vredsumRes v m d a sc)
  | .vredmax _ m d a sc => s.applyRes v (vredmaxRes v m d a sc)
  | .vredmin _ m d a sc => s.applyRes v (vredminRes v m d a sc)
  | .vredand _ m d a sc => s.applyRes v (vredandRes v m d a sc)
  | .vredor _ m d a sc => s.applyRes v (vredorRes v m d a sc)
  | .vargmax _ m d a sc => s.applyRes v (vargmaxRes v m d a sc)
  | .vdot _ m d a b sc => s.applyRes v (vdotRes v m d a b sc)
  | .vsmax _ m d a => s.applyRes v (vsmaxRes v m d a)
  | .vtopk _ m d a _ => s.applyRes v (vtopkRes v m d a xb)
  | .vcvt _ m d a t blk sat => s.applyRes v (vcvtRes v m d a t blk sat)
  | .vqmx _ m d a t => s.applyRes v (vqmxRes v m d a t)
  | .vpack _ m d a b => s.applyRes v (vpackRes v m d a b)
  | .vunpk _ m d a hi => s.applyRes v (vunpkRes v m d a hi)
  | .vmov _ m d a => s.applyRes v (vmovRes v m d a)
  | .vgathr _ m d a b => s.applyRes v (vgathrRes v m d a b)
  | .vslideup _ m d a _ => s.applyRes v (vslideupRes v m d a xb)
  | .vslidedn _ m d a _ => s.applyRes v (vslidednRes v m d a xb)
  | .vcompress _ m d a k => s.applyRes v (vcompressRes v m d a k)
  | .vexpand _ m d a k => s.applyRes v (vexpandRes v m d a k)
  | .viota _ m d k => s.applyRes v (viotaRes v m d k)
  | .vtransp _ m d a => s.applyRes v (vtranspRes v m d a)
  | .vins _ m d _ _ => s.applyRes v (vinsRes v m d v.e.xa xb)
  | .vextr _ _ d a _ => s.applyRes v (vextrRes v d a xb)
  | .ktest _ t d a => s.applyRes v (ktestRes v t d a)
  | .kfirst _ d a => s.applyRes v (kfirstRes v d a)
  | .ktox _ d a _ => s.applyRes v (ktoxRes v d a v.e.xb)
  | .cmp .. | .cmpi .. | .klog .. | .kset .. | .kfromx .. | .kdead .. | .mts .. => s.applyRes v (predWriterRes v)
  | .vtag _ d t blk => s.applyRes v (vtagRes v d t blk)
  | .zopa _ _ d a b => s.applyRes v (zopaRes v d a b)
  | .zopaL _ _ d _ _ => s.applyRes v (zopaLRes v s.ms s.hart.grp st.agent.lstore d v.e.xa v.e.xb)
  | .zzero _ d => s.applyRes v (zzeroRes v d)
  | .zfill _ zm d a _ => s.applyRes v (zfillRes v zm d a xb)
  | .zdrain _ rm zm d a _ => s.applyRes v (zdrainRes v rm zm d a xb)
  | .zld _ d _ _ => s.tileMove st v false d
  | .zst _ d _ _ => s.tileMove st v true d
  | .vld _ m d _ => s.vectorLoad st v m .contig d false ns
  | .vlds _ m d _ _ => s.vectorLoad st v m .strided d m.ff ns
  | .vldx _ m d _ b => s.vectorLoad st v m (.indexed b) d m.ff ns
  | .vldff _ m d _ => s.vectorLoad st v m .contig d true ns
  | .vst _ m d _ => s.vectorStore st v m .contig d ns
  | .vsts _ m d _ _ => s.vectorStore st v m .strided d ns
  | .vstx _ m d _ b => s.vectorStore st v m (.indexed b) d ns
  | .vldt _ m d _ => s.vldtKv st v m d ns
  | .vldtCt _ m d _ => s.vldtTable st v m d ns
  | .vamoadd _ m ret d _ b c => s.vectorAtomic st v .add m ret d b c ns
  | .vamofadd _ m ret d _ b c => s.vectorAtomic st v .fadd m ret d b c ns
  | .vamomin _ m ret d _ b c => s.vectorAtomic st v .min m ret d b c ns
  | .vamomax _ m ret d _ b c => s.vectorAtomic st v .max m ret d b c ns
  | .fredadd _ elem t _ _ => s.fred st v false elem t ns
  | .fredmax _ elem t _ _ => s.fred st v true elem t ns
  | .fscadd _ _ _ b c => s.fscadd st v b c ns
  | .fembag .. | .fatt .. => s.runSite st v pre
  | .fmerge _ _ zm norm d a => s.fmerge v zm norm d a
  | .kvput _ o sc d _ _ => s.kvput v o sc d
  | .kvinv _ o sc _ _ => s.kvinv v o sc
  | .fenceVv _ => s.endFenceVv.vectorFence v
  | .fenceVs _ => s.vectorFence v
  | _ => .done s

/-! Far instructions that run behind the queue (R295). -/

/-- A far instruction that writes no near vector register, predicate or x register: it leaves the queue once its pieces are
sent (R295). An acquire point orders every later access of its hart (R252), and a first-fault form holds the front end
(R282): these complete in the queue. -/
def runsBehind (i : Instr) : Bool :=
  !isAcquire i && !isFirstFault i && (queueX i).isNone &&
    (match i with
      | .vst .. | .vsts .. | .vstx .. | .fredadd .. | .fredmax .. | .fscadd .. => true
      | .vamoadd _ _ ret _ _ _ _ | .vamofadd _ _ ret _ _ _ _ | .vamomin _ _ ret _ _ _ _ | .vamomax _ _ ret _ _ _ _ => !ret
      | .vcmp .. => false
      | i => (vecFields i).head?.any isFarReg)

/-- A far reduction in row mode (R307). -/
def isRowFred : Instr → Bool
  | .fredadd _ elem _ _ _ | .fredmax _ elem _ _ _ => !elem
  | _ => false

/-- A span of bytes, and whether it is written. -/
abbrev FarSpan := Nat × Nat × Bool

/-- Spans an element of a memory-accessing far instruction accesses (R294, R308). -/
def Env.farSpans (v : Env) (pre : FarPre) (r i : Nat) : List FarSpan :=
  let n := r * v.e.vl + i
  let rd (l : List (Nat × Nat)) : List FarSpan := l.map fun p => (p.1, p.2, false)
  let wr (l : List (Nat × Nat)) : List FarSpan := l.map fun p => (p.1, p.2, true)
  let ix (b : VReg) (w : Nat) : List FarSpan := [(indexedAt v.e.xa (v.source b) r i, w / 8, true)]
  let load (form : Form) : List FarSpan := rd (v.elemSpans form (fmtWidth v.e.vtag) v.e.vblk r i)
  let store (form : Form) (a : VReg) : List FarSpan := wr (v.elemSpans form (fmtWidth (v.tag a).fmt) (v.tag a).blk r i)
  match v.e.instr with
  | .vld .. | .vldff .. => load .contig
  | .vlds .. => load .strided
  | .vldx _ _ _ _ b => load (.indexed b)
  | .vst _ _ a _ => store .contig a
  | .vsts _ _ a _ _ => store .strided a
  | .vstx _ _ a _ b => store (.indexed b) a
  | .vldt .. => [(v.e.xa.toNat / 2 ^ 16 * 2 ^ 16, 1, false)]
  | .vldtCt .. => [((contigAt v.e.xa 4 n).1, 1, false)]
  | .vamoadd _ _ _ _ _ b c | .vamofadd _ _ _ _ _ b c | .vamomin _ _ _ _ _ b c | .vamomax _ _ _ _ _ b c =>
    ix b (fmtWidth (v.tag c).fmt)
  | .fscadd _ _ _ b c => ix b (fmtWidth (v.tag c).fmt)
  | .fredadd _ elem t _ _ | .fredmax _ elem t _ _ =>
    [(v.fredTgt t (if elem then n else r), fmtWidth t / 8, true), (v.fredSrc n, fmtWidth v.e.vtag / 8, false)]
  | .fembag _ _ _ _ a _ _ =>
    match pre with
    | .bag desc =>
      let t := tableDesc desc
      [(addr64 (t.base + (v.source a).code r i * t.pitch : Nat), t.rowBytes.getD 0, false)]
    | _ => []
  | _ => []

/-- Spans of FATT's stretch: the pages of its blocks, and its mask (R318). -/
def Env.attnSpans (v : Env) (pre : FarPre) : List FarSpan :=
  match v.e.instr, pre with
  | .fatt .., .attn desc fin blocks =>
    let mask := (attnDesc desc).maskSpan fin
    (mask.1, mask.2, false) :: blocks.flatMap fun b => [(b.2.1, 2 ^ 16, false), (b.2.2.1, 2 ^ 16, false)]
  | _, _ => []

/-- The package and stack that own an address of a far access (R294). -/
def State.farOwner (s : State) (st : Stream) (va : Nat) : Option (Nat × Nat) :=
  match s.resolveOn st {} va 1 with
  | .ok [p] => s.ownerOfPlace p.place
  | _ => none

/-- Add to a list without repeats. -/
def addNew {α : Type} [DecidableEq α] (l : List α) (a : α) : List α := if a ∈ l then l else l ++ [a]

/-- The owners of the bytes of a span, at most 512 of them. -/
def State.spanOwners (s : State) (st : Stream) (p : FarSpan) : List (Nat × Nat) :=
  ([p.1, p.1 + p.2.1 - 1].filterMap (s.farOwner st)).foldl addNew []

/-- The owners of an element of a piecewise instruction: of every byte it accesses; of its target where a piece fetches its
sources (R294, R308). -/
def State.elemOwners (s : State) (st : Stream) (v : Env) (n : Nat) : List (Nat × Nat) :=
  let all := v.farSpans .none (n / v.e.vl) (n % v.e.vl)
  let sp : List FarSpan := match v.e.instr with
    | .fredadd _ elem _ _ _ | .fredmax _ elem _ _ _ => all.filter fun (p : FarSpan) => p.2.2 || !elem
    | _ => all
  (sp.flatMap (s.spanOwners st)).foldl addNew []

/-- Where the performed positions of a list run: (package, stack) without repeats. -/
def State.pieceSites (s : State) (st : Stream) (v : Env) (ns : List Nat) : List (Nat × Nat) :=
  match st.site with
  | some p => [p]
  | none => ((ns.filter v.performed).flatMap (s.elemOwners st v)).foldl addNew []

/-- Pieces completed at stacks of this package (R302). -/
def State.countPieces (s : State) (l : List (Nat × Nat)) : State :=
  l.foldl (fun s p => if p.1 = s.plat.pkg.toNat then s.onDie p.2 fun u => { u with pieces := u.pieces + 1 } else s) s

/-! Pieces that run behind (R303). -/

/-- The virtual pages of some spans, each with whether it is written. -/
def spanPages (sp : List FarSpan) : List (Nat × Bool) :=
  (sp.flatMap fun p => if p.2.1 = 0 then [] else [(p.1 / 2 ^ 16, p.2.2), ((p.1 + p.2.1 - 1) / 2 ^ 16, p.2.2)]).foldl addNew []

/-- Leaves of the pages some spans lie in, by virtual page, as a piece carries them: its accesses are marked when it is
sent (R233, R295). -/
def State.leavesOf (s : State) (a : Agent) (sp : List FarSpan) : List (Nat × Leaf) :=
  (((spanPages sp).map Prod.fst).foldl addNew []).filterMap fun q =>
    match s.translate a.core a.ctx (q * 2 ^ 16) false with
    | .ok f => some (q, { f with entry := f.entry ||| 96, path := [] })
    | _ => none

/-- PTE.A and PTE.D of the pages of some spans (R233). -/
def State.markSpans (s : State) (a : Agent) (sp : List FarSpan) : State :=
  (spanPages sp).foldl (fun s q =>
    match s.translate a.core a.ctx (q.1 * 2 ^ 16) q.2 with
    | .ok f => s.setAD f q.2
    | _ => s) s

/-- The near registers a far instruction carries. -/
def Env.nearSrcs (v : Env) : List NearSrc :=
  ((vecFields v.e.instr).filter fun r => !v.isFar r).flatMap fun r =>
    [⟨r.toNat, v.vec.getV r.toNat, v.vec.tagV r.toNat⟩, ⟨r.toNat + 1, v.vec.getV (r.toNat + 1), v.vec.tagV (r.toNat + 1)⟩]

/-- All spans of the listed positions. -/
def Env.spansOf (v : Env) (pre : FarPre) (ns : List Nat) : List FarSpan :=
  v.attnSpans pre ++ (ns.filter v.performed).flatMap fun n => v.farSpans pre (n / v.e.vl) (n % v.e.vl)

/-- The piece of an instruction at one site, with the positions it performs. -/
def State.makePiece (s : State) (st : Stream) (v : Env) (pre : FarPre) (p : Nat × Nat) (role : PieceRole) (sel : List Nat) : FarPiece where
  hart := st.src.no
  pkg := p.1
  stack := p.2
  role := role
  seq := s.far.nextSeq
  entry := v.e
  pre := pre
  srcs := v.nearSrcs
  preds := v.vec.k.toList
  plive := v.vec.plive
  sel := sel
  got := []
  leaves := s.leavesOf st.agent (v.spansOf pre sel)
  port := if p.1 = s.plat.pkg.toNat then none else s.portFor p.1 p.2

/-- One piece of a role for every owner a test gives of the listed positions. -/
def State.piecesBy (s : State) (st : Stream) (v : Env) (role : PieceRole) (ns : List Nat) (owners : Nat → List (Nat × Nat)) :
    List FarPiece :=
  let own := ns.map fun n => (n, owners n)
  ((own.flatMap Prod.snd).foldl addNew []).map fun p =>
    s.makePiece st v .none p role ((own.filter fun q => q.2.contains p).map Prod.fst)

/-- The pieces of an instruction: one at its site, or one at each owning stack (R293); in row mode the reads of each line's
owner, and a top piece at each target's (R307). -/
def State.makePieces (s : State) (st : Stream) (v : Env) (pre : FarPre) : List FarPiece :=
  let ns := v.remaining.filter v.performed
  match st.site with
  | some p => [s.makePiece st v pre p .whole v.remaining]
  | none =>
    if isRowFred v.e.instr then
      let part (w : Bool) (n : Nat) : List (Nat × Nat) :=
        ((v.farSpans .none (n / v.e.vl) (n % v.e.vl)).filter fun p => p.2.2 == w).flatMap (s.spanOwners st)
      s.piecesBy st v .read ns (part false) ++ s.piecesBy st v .top ns (part true)
    else s.piecesBy st v .whole ns (s.elemOwners st v)

/-- A temporary TLB entry of a piece's leaf (R295). -/
def FarPiece.tlb (p : FarPiece) (ctx : Nat) : List TlbEntry := p.leaves.map fun l => ⟨farCore, ctx, l.1, 1, l.2⟩

/-- The near registers and predicates as the piece carries them. -/
def FarPiece.install (p : FarPiece) (r : VecRegs) : VecRegs :=
  let r := { r with k := Vector.ofFn fun i => p.preds.getD i.val 0, plive := p.plive }
  p.srcs.foldl (fun r q => { r with v := r.v.setIfInBounds q.reg q.bits, vtags := r.vtags.setIfInBounds q.reg q.tag }) r

/-- The far site index of a captured FSITE (R426): a stack of this package, or the guest set the hart uses there. -/
def State.siteIndex (s : State) (e : VqEntry) : Nat :=
  let pkg := bits e.fsite.toNat 8 10
  let t := bits e.fsite.toNat 0 4
  if pkg = s.plat.pkg.toNat then t
  else 16 + (firstFrom (fun i => match s.hart.vec.gsite[i]?.getD none with
    | some g => g.pkg.toNat == pkg && g.stack.toNat == t
    | none => false) 4 0).getD 0

/-- What an entry works on at the hart in focus. -/
def State.env (s : State) (e : VqEntry) : Env :=
  { e := e, vec := s.hart.vec, vlenb := s.hart.vlenb, farWord := isFarWord e.instr, site := s.siteIndex e, limit := none }

/-- The stream of a far entry. -/
def State.farStream (s : State) (e : VqEntry) (a : Agent) : Stream :=
  ⟨a, true, if isPiecewise e.instr then none else some (bits e.fsite.toNat 8 10, bits e.fsite.toNat 0 4), s.hart.poster, none⟩

/-- What a piece does, by its role; a read piece also gives the codes it has read. -/
def State.runPiece (s : State) (st : Stream) (v : Env) (p : FarPiece) : Perf × List (Nat × Nat) :=
  let top (mx : Bool) (t : Fmt) : Perf :=
    match s.fredTop st v mx t p.got ((List.range v.rows).filter fun r => p.sel.any fun n => n / v.e.vl == r) with
    | .ok s => .done s
    | x => v.stopWhole s x
  match p.role, p.entry.instr with
  | .read, _ =>
    match s.fredCodes st v p.sel with
    | .ok x => (.done x.2, x.1)
    | x => (v.stopWhole s x, [])
  | .top, .fredadd _ _ t _ _ => (top false t, [])
  | .top, .fredmax _ _ t _ _ => (top true t, [])
  | _, _ => (s.runEntry st v p.pre p.sel, [])

/-- Two records of one piece. -/
def FarPiece.same (p q : FarPiece) : Bool :=
  p.hart == q.hart && p.pkg == q.pkg && p.stack == q.stack && p.role == q.role && p.seq == q.seq

/-- An older piece `q` comes before `p`: one of the same hart at the same stack (R252, R303); a read that the top waits for
(R307). -/
def FarPiece.precedes (q p : FarPiece) : Bool :=
  q.hart == p.hart && ((q.pkg == p.pkg && q.stack == p.stack) || (p.role == .top && q.role == .read && q.seq == p.seq))

/-- Codes that a read piece has read reach the top pieces of its instruction (R307). -/
def State.deliverCodes (s : State) (seq : Nat) (l : List (Nat × Nat)) : State :=
  if l.isEmpty then s
  else { s with far := { s.far with pieces := s.far.pieces.map fun q =>
    if q.seq == seq && q.role == .top then { q with got := q.got ++ l.filter fun c => q.sel.contains c.1 } else q } }

/-- The instruction's top piece at this stack is still to come: the reads there are part of the same piece (R302, R307). -/
def State.topToCome (s : State) (p : FarPiece) : Bool :=
  p.role == .read && s.far.pieces.any fun q => q.role == .top && q.seq == p.seq && q.pkg == p.pkg && q.stack == p.stack

/-- The hart in focus as a piece of it is performed, and the stream of its accesses. -/
def State.pieceOpen (s : State) (p : FarPiece) : State × Stream :=
  let h := s.hart
  let s1 := { s with
    hart := { h with vec := p.install h.vec, ctl := { h.ctl with fflags := 0, iflags := 0 } }
    ms := { s.ms with tlb := p.tlb h.ctx ++ s.ms.tlb } }
  (s1, { s1.farStream p.entry { s.agent with core := farCore } with own := if isPiecewise p.entry.instr then some (p.pkg, p.stack) else none })

/-- The machine after a piece, with the registers of its hart back: what the piece changed are far registers and flags. -/
def Hart.pieceClose (h : Hart) (t : State) : State :=
  let fl : Flags := ⟨t.hart.ctl.fflags, t.hart.ctl.iflags⟩
  { t with
    hart := { t.hart with vec := { h.vec with far := t.hart.vec.far }, ctl := { t.hart.ctl with fflags := h.ctl.fflags, iflags := h.ctl.iflags } }
    ms := { t.ms with tlb := t.ms.tlb.filter fun e => e.core ≠ farCore } }.raiseFlags h.owner fl

/-- Perform a piece for the hart in focus; none while something holds it. Its failure is asynchronous, and with a failed read
the instruction contributes nothing (R298). -/
def State.performPiece (s : State) (p : FarPiece) : Option State :=
  let h := s.hart
  let (s1, st) := s.pieceOpen p
  match s1.runPiece st (s1.env p.entry) p with
  | (.done t, l) => some ((h.pieceClose t).deliverCodes p.seq l)
  | (.fault t f _, _) =>
    let t := h.pieceClose t
    let t := if p.role = .read then
        { t with far := { t.far with pieces := t.far.pieces.filter fun q => !(q.role == .top && q.seq == p.seq) } }
      else t
    some ((t.met (fun _ => .chord p.stack) h.core h.ctx f).asyncFault h.poster f none)
  | (.wait _ _, _) => none

/-- Complete a piece unless an older one that precedes it is still there: it leaves its queue, its effect takes place, its
stack counts it (R302, R303). -/
def State.completePiece (s : State) (p : FarPiece) : State :=
  let older := s.far.pieces.takeWhile fun q => !q.same p
  match s.far.pieces.find? fun q => q.same p with
  | none => s
  | some q =>
    if older.any fun o => o.precedes q then s
    else
      let back := s.hart.no
      match (s.focus q.hart).performPiece q with
      | none => s
      | some t =>
        let t := { t with far := { t.far with pieces := t.far.pieces.filter fun o => !o.same q } }
        (if t.topToCome q then t else t.countPieces [(q.pkg, q.stack)]).focus back

/-- The pieces a test picks and those that precede them, in order. -/
def neededPieces (l : List FarPiece) (want : FarPiece → Bool) : List FarPiece :=
  l.foldr (fun q acc => if want q || acc.any q.precedes then q :: acc else acc) []

/-- The pieces a test picks complete, and before them those that precede them; a piece that is held stays, with those it
precedes. -/
def State.completeWanted (s : State) (want : FarPiece → Bool) : State :=
  (neededPieces s.far.pieces want).foldl State.completePiece s

/-- Pieces of a hart, oldest first. -/
def State.piecesOf (s : State) (no : Nat) : List FarPiece := s.far.pieces.filter fun p => p.hart = no

/-- Every piece of a hart completes. -/
def State.drainFar (s : State) (no : Nat) : State := s.completeWanted fun p => p.hart == no

/-- The older pieces of a hart at the stacks a far entry runs at complete: its accesses follow theirs (R252, R303). -/
def State.drainSites (s : State) (e : VqEntry) : State :=
  let v := s.env e
  let sites := s.pieceSites (s.farStream e s.agent) v v.remaining
  s.completeWanted fun p => p.hart == s.hart.no && sites.contains (p.pkg, p.stack)

/-- The oldest piece of a hart at a stack completes (R303). -/
def State.completeOldest (s : State) (no stack : Nat) : State :=
  match (s.piecesOf no).find? fun p => p.stack == stack with
  | some p => s.completeWanted p.same
  | none => s

/-! The site of a far instruction (R89 item 4, R296, R297, R458). -/

/-- What opening a site gives: an outcome of the entry, or the machine with the site open. -/
inductive Opened where
  | stop (p : Perf)
  | ok (s : State)
  deriving DecidableEq, Repr

/-- The GSITE entry a guest set uses or would use: the hart's entry for it, else the first free one. An entry restored from
an image and not bound since counts among the four (R297). DESIGN CHOICE (log 52). -/
def guestIndex (g : Vector (Option GuestSite) 4) (pkg t : Nat) : Option Nat :=
  (firstFrom (fun i => match g[i]?.getD none with
    | some e => e.pkg.toNat == pkg && e.stack.toNat == t
    | none => false) 4 0).or (firstFrom (fun i => (g[i]?.getD none).isNone) 4 0)

/-- Bind the guest set at a remote site for the context and WID of the hart, through a binding request and its answer
(R301, R458). -/
def State.bindGuest (s : State) (e : VqEntry) (pkg t : Nat) : Opened :=
  match guestIndex s.hart.vec.gsite pkg t with
  | none => .stop (.fault s (.of 0x0E) e.start)
  | some i =>
    if (match s.hart.vec.gsite[i]?.getD none with
      | some g => g.bound
      | none => false) then .ok s
    else
      let mine (b : BindRequest) : Bool := b.ctx == s.hart.ctx && b.wid == s.hart.ctl.wid && b.pkg == pkg && b.stack == t
      let rest := s.far.binds.filter fun b => !mine b
      match s.far.binds.find? mine with
      | none =>
        .stop (.wait { s with far := { s.far with binds := s.far.binds ++ [⟨s.hart.ctx, s.hart.ctl.wid, pkg, t, none⟩] } } e.start)
      | some b =>
        match b.answer with
        | none => .stop (.wait s e.start)
        | some false => .stop (.fault { s with far := { s.far with binds := rest } } (.of 0x0E) e.start)
        | some true =>
          .ok { s with
            far := { s.far with binds := rest }
            hart := { s.hart with vec := { s.hart.vec with
              gsite := s.hart.vec.gsite.setIfInBounds i (some ⟨BitVec.ofNat 10 pkg, BitVec.ofNat 4 t, true⟩) } } }

/-- The checks of the captured FSITE (R297). -/
def State.openSite (s : State) (e : VqEntry) : Opened :=
  let pkg := bits e.fsite.toNat 8 10
  let t := bits e.fsite.toNat 0 4
  if pkg = s.plat.pkg.toNat then (if s.stackActive t then .ok s else .stop (.fault s (.of 0x0E) e.start))
  else if !s.reachable pkg then .stop (.fault s (.withReason 0x0F 4) e.start)
  else if namesFar e.instr then s.bindGuest e pkg t
  else .ok s

/-! Dispatch (R295, R296). -/

/-- Perform a far instruction at its stacks now; what fails there is asynchronous (R298). One that something holds has not
begun: it is indivisible (R299). -/
def State.performFar (s : State) (e : VqEntry) : Perf :=
  let st := s.farStream e s.agent
  let v := s.env e
  match s.farPre st v with
  | .stop p => p
  | .ok pre s1 =>
    if (s1.piecesOf s.hart.no).any fun p => (s1.pieceSites st v v.remaining).contains (p.pkg, p.stack) then .wait s e.start
    else
      match s1.runEntry st v pre v.remaining with
      | .done t => .done (t.countPieces (s1.pieceSites st v v.remaining))
      | .fault t f n =>
        if atStack f then .done (((t.countPieces (s1.pieceSites st v v.remaining)).met (s.entryMaster e) s.hart.core s.hart.ctx f).asyncFault s.hart.poster f none)
        else
          .fault (t.countPieces (if isPiecewise e.instr then s1.pieceSites st v (v.remaining.filter fun m => decide (m < n)) else [])) f n
      | .wait _ _ => .wait s e.start

/-- A stack's far queue holds 32 pieces of the hart (R303). -/
def State.farQueueFull (s : State) (p : FarPiece) : Bool :=
  decide (32 ≤ (s.far.pieces.filter fun q => q.hart = p.hart && q.pkg = p.pkg && q.stack = p.stack && !s.topToCome q).length)

/-- The pieces of an instruction enter their far queues, its pages marked (R233, R295, R303); one without pieces has only its
point of order to perform (R73). -/
def State.sendPieces (s : State) (e : VqEntry) (v : Env) (pre : FarPre) : Perf :=
  let st := s.farStream e s.agent
  let ps := s.makePieces st v pre
  if ps.isEmpty then (s.drainFar s.hart.no).performFar e
  else if ps.any s.farQueueFull then .wait s e.start
  else
    let s := s.markSpans st.agent (v.spansOf pre v.remaining)
    .done { s with far := { s.far with pieces := s.far.pieces ++ ps, nextSeq := s.far.nextSeq + 1 } }

/-- FEMBAG and FATT, for which the core reads and checks first; FATT's site reads its page headers then (R295). -/
def readsFirst : Instr → Bool
  | .fembag .. | .fatt .. => true
  | _ => false

/-- Send an instruction that may run behind: its checks are those of performing it. What is read first, and the registers of
its site, follow the older pieces of its hart there (R295). -/
def State.sendFar (s : State) (e : VqEntry) : Perf :=
  let t := if isPiecewise e.instr then s else s.drainSites e
  let st := t.farStream e t.agent
  let v := t.env e
  if st.site.any fun p => (t.piecesOf t.hart.no).any fun q => (q.pkg, q.stack) == p then .wait t e.start
  else
    match (if readsFirst e.instr then t.farPre st v else .ok .none s) with
    | .stop p => p
    | .ok pre s1 =>
      match (if readsFirst e.instr then s1 else t).runEntry st v pre v.remaining with
      | .done _ => s1.sendPieces e v pre
      | .fault _ f _ => if atStack f then s1.sendPieces e v pre else t.performFar e
      | .wait _ _ => .wait s e.start

/-- A stack of the package that a far instruction needs accepts no work (R466). -/
def State.sitesFenced (s : State) (e : VqEntry) : Bool :=
  let v := s.env e
  !s.mgmt.fenced.isEmpty &&
    (s.pieceSites (s.farStream e s.agent) v v.remaining).any fun p => p.1 == s.plat.pkg.toNat && s.mgmt.fenced.contains (.stack p.2)

/-- A far instruction with its site open. A group that comes to use a fenced stack faults as those do that used it (R466,
log 39). -/
def State.dispatchOpen (s : State) (e : VqEntry) : Perf :=
  if s.sitesFenced e then .done (s.asyncFault s.hart.poster (.of 0x10) none)
  else if s.lag.far && runsBehind e.instr then s.sendFar e else (s.drainSites e).performFar e

/-- Dispatch a far instruction from the head of the queue. FSITE is checked for instructions that run at it: a piecewise one
uses no site (R293). DEDUCED (log 54). -/
def State.dispatchFar (s : State) (e : VqEntry) : Perf :=
  if isPiecewise e.instr then s.dispatchOpen e
  else match s.openSite e with
    | .stop p => p
    | .ok s => s.dispatchOpen e

/-- Perform the entry at the head of the queue of the hart in focus. -/
def State.performEntry (s : State) (e : VqEntry) : Perf :=
  if isFarWord e.instr then s.dispatchFar e
  else
    let v := s.env e
    s.runEntry s.nearStream v .none v.remaining

/-! Stops between element groups (R122, R140, R207, R215, R381). -/

/-- The format an element-wise result takes, by the widths of its sources. -/
def Env.arithWidth (v : Env) (m : VMod) (srcs : List VReg) : Nat :=
  let w := srcs.foldl (fun w r => max w (fmtWidth (v.tag r).fmt)) 4
  let w := if srcs.any fun r => (v.tag r).blk then max w 32 else w
  if m.w then 2 * w else w

/-- Elements of a group of an instruction that may stop between groups (R122, R140): none for one performed whole. -/
def Env.groupSize (v : Env) : Option Nat :=
  let by_ (w : Nat) : Option Nat := some (4096 / max w 4)
  let vt := fmtWidth v.e.vtag
  let tw (r : VReg) : Nat := fmtWidth (v.tag r).fmt
  match v.e.instr with
  | .vadd _ m _ a b | .vsub _ m _ a b | .vmul _ m _ a b | .vmulh _ m _ a b | .vdiv _ m _ a b | .vmin _ m _ a b
  | .vmax _ m _ a b | .vadds _ m _ a b | .vsubs _ m _ a b | .vand _ m _ a b | .vor _ m _ a b | .vxor _ m _ a b
  | .vshl _ m _ a b | .vshr _ m _ a b | .vscale _ m _ a b => by_ (v.arithWidth m [a, b])
  | .vfma _ m _ a b c | .vfms _ m _ a b c | .vfnma _ m _ a b c => by_ (max (v.arithWidth m [a, b]) (tw c))
  | .vsqrt _ m _ a | .vrsqrt _ m _ a | .vrcp _ m _ a | .vexp2 _ m _ a | .vlog2 _ m _ a | .vabs _ m _ a | .vneg _ m _ a =>
    by_ (v.arithWidth m [a])
  | .vcmp _ _ _ _ a b => by_ (max (tw a) (tw b))
  | .vmov _ _ _ a => by_ (tw a)
  | .vcvt _ _ _ a t _ _ => by_ (max (tw a) (fmtWidth t))
  | .vqmx _ _ _ a t => by_ (max (tw a) (fmtWidth t))
  | .vpack _ _ _ a _ => by_ (tw a)
  | .vunpk _ _ _ a _ => by_ (2 * tw a)
  | .vld .. | .vldff .. | .vldt .. | .vldtCt .. | .vlds .. => by_ vt
  | .vldx _ _ _ _ b => by_ (max vt (tw b))
  | .vst _ _ a _ | .vsts _ _ a _ _ => by_ (tw a)
  | .vstx _ _ a _ b => by_ (max (tw a) (tw b))
  | .vamoadd _ _ _ _ _ b c | .vamofadd _ _ _ _ _ b c | .vamomin _ _ _ _ _ b c | .vamomax _ _ _ _ _ b c =>
    by_ (max (tw b) (tw c))
  | .zopa .. | .zdrain .. | .kvput .. => some (max v.e.vl 1)
  | .zfill _ _ _ a _ => by_ (max (tw a) 32)
  | .zld .. | .zst .. => some 128
  | _ => none

/-- The sweep position `n` groups of `g` elements after the start, in rows of `vl`. -/
def groupEnd (start vl g n : Nat) : Nat :=
  let perRow := (vl + g - 1) / g
  let k := start / vl * perRow + start % vl / g + n
  k / perRow * vl + min (k % perRow * g) vl

/-- A tile is swept in rows of 128 words whatever VL is (R215). -/
def isTileMove : Instr → Bool
  | .zld .. | .zst .. => true
  | _ => false

/-- The row length and the number of sweep positions of an entry. -/
def Env.extent (v : Env) : Nat × Nat := if isTileMove v.e.instr then (128, 16384) else (v.e.vl, v.positions)

/-- A sweep position stands at a boundary of the entry's element groups, or at its end (R140); a far instruction has none
(R299). -/
def Env.boundary (v : Env) (n : Nat) : Bool :=
  match v.groupSize with
  | some g => decide (v.extent.2 ≤ n) || (!v.farWord && n % v.extent.1 % g == 0)
  | none => false

/-- Perform a near entry up to a sweep position. -/
def State.performTo (s : State) (e : VqEntry) (lim : Nat) : Perf :=
  let v := s.env e
  if v.extent.2 ≤ lim then s.performEntry e
  else
    let v := { v with limit := some lim }
    match s.runEntry s.nearStream v .none v.remaining with
    | .done t => if t.hart.ctl.vl = s.hart.ctl.vl then .wait t lim else .done t
    | p => p

/-- Perform `n` groups of a near entry. -/
def State.performGroups (s : State) (e : VqEntry) (n : Nat) : Perf :=
  let v := s.env e
  match v.groupSize with
  | none => s.performEntry e
  | some g =>
    if isFarWord e.instr || v.extent.1 == 0 || n == 0 then s.performEntry e
    else s.performTo e (groupEnd e.start v.extent.1 g n)

/-- A memory form whose elements other agents' accesses may fall between (R248, R289). -/
def dividesElems : Instr → Bool
  | .vld .. | .vldff .. | .vldt .. | .vlds .. | .vldx .. | .vldtCt .. | .vst .. | .vsts .. | .vstx .. | .vamoadd .. | .vamofadd .. | .vamomin ..
  | .vamomax .. => true
  | _ => false

/-- Perform a piecewise entry that completes in the queue up to a sweep position: what stops it stops it whole. -/
def State.performFarTo (s : State) (e : VqEntry) (lim : Nat) : Perf :=
  let s := s.drainSites e
  let v := s.env e
  let st := s.farStream e s.agent
  if v.extent.2 ≤ lim || s.sitesFenced e || (s.piecesOf s.hart.no).any fun p => (s.pieceSites st v v.remaining).contains (p.pkg, p.stack) then
    s.dispatchFar e
  else
    let w := { v with limit := some lim }
    match s.runEntry st v .none v.remaining, s.runEntry st w .none w.remaining with
    | .done _, .done t => .wait t lim
    | _, _ => s.dispatchFar e

/-- Perform `n` sweep positions of an entry whose elements others' accesses may fall between, near or far (R248, R289). -/
def State.performElems (s : State) (e : VqEntry) (n : Nat) : Perf :=
  if n == 0 || !dividesElems e.instr then s.performEntry e
  else if !isFarWord e.instr then s.performTo e (e.start + n)
  else if isPiecewise e.instr && !(s.lag.far && runsBehind e.instr) && !isFirstFault e.instr then s.performFarTo e (e.start + n)
  else s.performEntry e

/-- The first `n` sweep positions of the oldest piece of a hart at a stack are performed, where others' accesses may fall between
them (R248, R289). -/
def State.pieceElems (s : State) (no stack n : Nat) : State :=
  match (s.piecesOf no).find? fun p => p.stack == stack with
  | some p =>
    let older := s.far.pieces.takeWhile fun q => !q.same p
    if (older.any fun o => o.precedes p) || !dividesElems p.entry.instr || p.role ≠ .whole || p.sel.length ≤ n then s
    else
      let back := s.hart.no
      let t := s.focus no
      let (s1, st) := t.pieceOpen p
      match s1.runPiece st (s1.env p.entry) { p with sel := p.sel.take n } with
      | (.done u, _) =>
        let u := t.hart.pieceClose u
        { u with far := { u.far with pieces := u.far.pieces.map fun (q : FarPiece) => if q.same p then { q with sel := q.sel.drop n } else q } }.focus back
      | _ => s
  | none => s

/-! Uncorrectable registers (R465). -/

/-- The first of an instruction's vector fields is read. -/
def readsFirstField : Instr → Bool
  | .vcmp .. | .vst .. | .vsts .. | .vstx .. | .fscadd .. | .vsmax .. | .fmerge .. => true
  | .vredsum _ _ _ _ sc | .vredmax _ _ _ _ sc | .vredmin _ _ _ _ sc | .vredand _ _ _ _ sc | .vredor _ _ _ _ sc
  | .vargmax _ _ _ _ sc => sc
  | .vdot _ _ _ _ _ sc => sc
  | .vamoadd _ _ ret _ _ _ _ | .vamofadd _ _ ret _ _ _ _ | .vamomin _ _ ret _ _ _ _ | .vamomax _ _ ret _ _ _ _ => !ret
  | .fatt _ _ _ acc _ _ _ => acc
  | _ => false

/-- Vector registers that an instruction reads. -/
def readFields (i : Instr) : List VReg :=
  match i with
  | .zopa _ _ _ a b => [a, b]
  | .zfill _ _ _ a _ | .vextr _ _ _ a _ | .vtopk _ _ _ a _ | .vtransp _ _ _ a => [a]
  | .kvput _ _ _ d _ _ => [d]
  | i => if readsFirstField i then vecFields i else (vecFields i).drop 1

/-- Predicates that an instruction of the queue reads beside its guard. -/
def readK : Instr → List KReg
  | .ktest _ _ _ a | .kfirst _ _ a | .ktox _ _ a _ | .vcompress _ _ _ _ a | .vexpand _ _ _ _ a | .viota _ _ _ a => [a]
  | i => frontK i

/-- Tiles that an instruction reads. -/
def readZ : Instr → List ZReg
  | .zopa _ _ d _ _ | .zopaL _ _ d _ _ | .zst _ d _ _ => [d]
  | .zdrain _ _ _ _ a _ => [a]
  | _ => []

/-- A sector of a register lies under the swept elements of the rows, whatever the guard and the tail. -/
def Env.sweeps (v : Env) (f : RegRef) (sector : Nat) : Bool :=
  let rb := v.rowBits f
  (List.range v.rows).any fun r => decide (512 * sector < r * rb + v.e.vl * fmtWidth (v.tagOf f).fmt) && decide (r * rb < 512 * (sector + 1))

/-- An entry reads a register sector with an error beyond correction (R465). -/
def Env.meetsBad (v : Env) : Bool :=
  let i := v.e.instr
  let regs := (readFields i).flatMap fun r => if (v.tag r).blk then [v.ref r, (v.ref r).odd] else [v.ref r]
  v.vec.bad.any fun b =>
    match b.file with
    | .k => (guardK v.guardField ++ readK i).any fun k => k != 0 && k.toNat == b.n
    | .v => regs.contains (.near b.n) && v.sweeps (.near b.n) b.sector
    | .f => regs.contains (.far b.n) && v.sweeps (.far b.n) b.sector
    | .z => (readZ i).any fun z => z.toNat == b.n

/-! The head of the queue and the issue of an instruction. -/

/-- The head of the queue to be entered again at a start position. -/
def Hart.restart (h : Hart) (start : Nat) : Hart :=
  { h with vq := match h.vq with
    | [] => []
    | e :: r => { e with start := start, begun := none } :: r }

/-- The head of the queue goes on from a position, with what it carries from its beginning. -/
def Hart.goOnAt (h : Hart) (start : Nat) (b : Begun) : Hart :=
  { h with vq := match h.vq with
    | [] => []
    | e :: r => { e with start := start, begun := some (e.begun.getD b) } :: r }

/-- HEXIT completes once every earlier entry has, and the work a release at device scope waits for (R109, R396). -/
def State.finishExit (s : State) : State :=
  if s.hart.phase = .exiting ∧ s.hart.vq = [] then
    match s.releaseAt .device with
    | some s => { s with hart := { s.hart with phase := .exited } }
    | none => s
  else s

/-- The front end goes on behind a first-fault form that has completed (R282); engine commands behind an
acquire point wait for one entry less (R252). -/
def State.passHead (s : State) (e : VqEntry) : State :=
  let s := if isFirstFault e.instr then s.endWait else s
  if isAcquire e.instr then s.endFenceVv else s

/-- The head of the queue faults at a start position (R134, R137). -/
def State.headFault (s : State) (v : Env) (f : FaultInfo) (n : Nat) : State :=
  ({ s with hart := { s.hart.restart n with owes := false } }).takeFault f v.e.addr s.hart.pc n

/-- What becomes of the head of the queue: it completes and leaves, faults (R134, R137), or waits; one that waits inside an
element group must reach its end before a stop (R140). -/
def State.settleHead (v : Env) (p : Perf) : State :=
  match p with
  | .done t => ({ t with hart := { t.hart with vq := t.hart.vq.drop 1, owes := false } }.passHead v.e).finishExit
  | .fault t f n => (t.met (t.entryMaster v.e) t.hart.core t.hart.ctx f).headFault v f n
  | .wait t n => { t with hart := { t.hart.goOnAt n v.begun with owes := if n = v.e.start then t.hart.owes else !v.boundary n } }

/-- The vector side of the hart in focus takes the head of its queue, as `f` performs it; one that reads an uncorrectable
register takes fault 0x10 (R465). -/
def State.onHead (s : State) (f : VqEntry → Perf) : State :=
  match s.hart.vq with
  | [] => s.finishExit
  | e :: _ => if (s.env e).meetsBad then s.headFault (s.env e) (.of 0x10) e.start else State.settleHead (s.env e) (f e)

/-- The head of the queue meets an error beyond correction of the datapath (R465). -/
def State.headBad (s : State) : State :=
  match s.hart.vq with
  | [] => s.finishExit
  | e :: _ => s.headFault (s.env e) (.of 0x10) e.start

/-- The vector side performs the head of its queue. -/
def State.runHead (s : State) : State := s.onHead s.performEntry

/-- The vector side performs `n` element groups of the head of its queue. -/
def State.runGroups (s : State) (n : Nat) : State := s.onHead fun e => s.performGroups e n

/-- The vector side performs `n` sweep positions of the head of its queue. -/
def State.runElements (s : State) (n : Nat) : State := s.onHead fun e => s.performElems e n

/-- An instruction enters the queue with its captured values, and, unless the vector side runs behind, the head of the queue
is performed. A first-fault form is a resynchronisation, counted as it is issued (R131, R282). -/
def State.enterVq (s : State) (i : Instr) : State :=
  let s1 := s.act 8 (.next (s.enqueue i))
  let s1 := if isFirstFault i then { s1 with hart := s1.hart.waitFor .resync } else s1
  if s1.lag.vq then s1 else s1.runHead

/-- THE ISSUE of an instruction of the vector side (R125 to R130): a whole instruction with a false guard has no effect (R72);
any other waits for what it reads and for room in the VQ and the SRQ, then enters the queue. -/
def State.issueVq (s : State) (i : Instr) : State :=
  match s.gate i with
  | .hold w => s.act 8 (.wait w)
  | .bad => s.act 8 (.refuse (.of 0x10))
  | .skip => s.act 8 (.next s)
  | .go => if s.hart.vqFull || s.hart.srqFull i then s.act 8 (.wait .room) else s.enterVq i

end Sys2Proof.Machine
end

