-- ==== Sys2Proof/Machine/EngineOps.lean ====
section
/-! DEFINITION. Engine commands: their spans, the checks of their issue, their accesses, and their completion (R322 to
R342). -/

namespace Sys2Proof.Machine

/-! The geometry of a command (R333, R334, R336, R337, R339). -/

def kvDtFmt : KvDt → Fmt
  | .bf16 => .bf16
  | .fp16 => .fp16
  | .fp32 => .fp32

def EngCmd.isCopy (c : EngCmd) : Bool :=
  match c.kind with
  | .ecpy | .emcast | .efill => true
  | .egath | .escat => false

/-- RB: bytes of a destination row (R333); bytes of a table row of a Chord command (R336). -/
def EngCmd.rowBytes (c : EngCmd) : Nat :=
  if c.isCopy then
    match c.copy.kv with
    | none => c.xc.toNat
    | some t => c.xc.toNat * (fmtWidth (kvDtFmt t) / 8)
  else c.rows.rowbytes.toNat + 1

/-- Rows of a copy; indices of a Chord command. -/
def EngCmd.rowCount (c : EngCmd) : Nat := if c.isCopy then c.copy.nrows.toNat + 1 else c.rows.nidx.toNat + 1

/-- Bytes of an index (R336). -/
def indexBytes : IndexWidth → Nat
  | .n16 => 2
  | .n32 => 4
  | .n64 => 8

/-- Bytes of the destination span of R333; of the packed span of R337. -/
def EngCmd.dstBytes (c : EngCmd) : Nat :=
  if c.isCopy then
    if c.rowBytes = 0 then 0
    else (c.rowCount - 1) * c.copy.dpitch.toNat + (if c.copy.rot ≠ 0 then max c.rowBytes c.copy.dpitch.toNat else c.rowBytes)
  else c.rowCount * c.rowBytes

/-- Bytes of the source span of a raw copy (R333). -/
def EngCmd.srcBytes (c : EngCmd) : Nat :=
  if c.rowBytes = 0 then 0 else (c.rowCount - 1) * c.copy.spitch.toNat + c.rowBytes

def EngCmd.listBytes (c : EngCmd) : Nat := c.rowCount * indexBytes c.rows.iw

/-- An address of the window (R225). -/
def isWindow (a : Nat) : Bool := decide (winBase ≤ a) && decide (a < 2 ^ 52)

/-- Destination bases: one, or one per selected core (R335). -/
def EngCmd.dests (c : EngCmd) : List Nat :=
  match c.kind with
  | .emcast =>
    ((List.range 4).filter fun k => c.copy.cmask.getLsbD k).map fun k =>
      winBase + k * 2 ^ 21 + (c.xa.toNat - winBase) % 2 ^ 21
  | _ => [c.xa.toNat]

/-- The byte total of R339. -/
def EngCmd.total (c : EngCmd) : Nat :=
  c.rowCount * c.rowBytes * (match c.kind with
    | .emcast => popcount c.copy.cmask.toNat 4
    | _ => 1)

/-- A span of known addresses: its first address, its bytes, whether it is written, its alignment. -/
structure EngSpan where
  va : Nat
  n : Nat
  write : Bool
  align : Nat
  deriving DecidableEq, Repr

/-- The spans of fields A, B and C that are checked page by page (R326, R333, R337). -/
def EngCmd.spans (c : EngCmd) : List EngSpan :=
  match c.kind with
  | .ecpy =>
    ⟨c.xa.toNat, c.dstBytes, true, 1⟩ :: (if c.copy.kv.isNone then [⟨c.xb.toNat, c.srcBytes, false, 1⟩] else [])
  | .emcast =>
    (c.dests.map fun d => ⟨d, c.dstBytes, true, 1⟩) ++ (if c.copy.kv.isNone then [⟨c.xb.toNat, c.srcBytes, false, 1⟩] else [])
  | .efill => [⟨c.xa.toNat, c.dstBytes, true, 1⟩]
  | .egath => [⟨c.xa.toNat, c.dstBytes, true, 1⟩, ⟨c.xc.toNat, c.listBytes, false, indexBytes c.rows.iw⟩]
  | .escat => [⟨c.xb.toNat, c.dstBytes, false, 1⟩, ⟨c.xc.toNat, c.listBytes, false, indexBytes c.rows.iw⟩]

/-- The window ranges of a command: first offset, end, written (R330). -/
def EngCmd.ranges (c : EngCmd) : List (Nat × Nat × Bool) :=
  c.spans.filterMap fun p =>
    let lo := max p.va winBase
    if p.n ≠ 0 ∧ lo < p.va + p.n then some (lo - winBase, p.va + p.n - winBase, p.write) else none

/-- Two commands need one local-store byte, and one of them writes it (R330). -/
def EngCmd.meets (c d : EngCmd) : Bool :=
  c.ranges.any fun p => d.ranges.any fun q =>
    (p.2.2 || q.2.2) && decide (p.1 < q.2.1) && decide (q.1 < p.2.1)

/-! The checks at issue (R326). -/

/-- The 0x04 conditions that need no memory access. That a rotated destination lies in the window is judged of the span from
x[A] on, for EMCAST too. DESIGN CHOICE (log 54). -/
def EngCmd.misconfigured (c : EngCmd) : Bool :=
  match c.kind with
  | .egath => false
  | .escat => decide (c.rows.tpitch.toNat < c.rowBytes)
  | _ =>
    decide (2 ^ 32 ≤ c.xc.toNat) ||
    (match c.copy.kv with
      | none => false
      | some _ => c.xc == 0 || decide (1024 < c.xc.toNat) || bits c.copy.spitch.toNat 0 16 % 32 != 0 ||
          decide (1024 ≤ bits c.copy.spitch.toNat 0 16)) ||
    (c.copy.rot != 0 && !(decide (winBase ≤ c.xa.toNat) && decide (c.xa.toNat + max c.dstBytes 1 ≤ 2 ^ 52) &&
      c.copy.dpitch.toNat % 64 == 0 && decide (c.rowBytes ≤ c.copy.dpitch.toNat))) ||
    (c.kind == .emcast && c.copy.cmask == 0) ||
    (c.kind == .ecpy && c.copy.kv.isNone && spanMeets (c.xa.toNat, c.dstBytes) (c.xb.toNat, c.srcBytes))

/-- The machine with no access table: tables are met by the accesses themselves (R341 reason 8). -/
def State.untabled (s : State) : State := { s with mgmt := { s.mgmt with tables := [] } }

/-- The agent of an engine's accesses, with the translations its command carries; a table row does not lie in the window. -/
def State.engAgent (s : State) (h : Hart) (table : Bool) : Agent :=
  if table then ⟨h.ctx, engCore, none, 0, .core h.core⟩ else ⟨h.ctx, engCore, some h.grp, s.lstoreOf h.kern, .core h.core⟩

/-- Table rows are translated through the issuing core (R338). -/
def State.rowAgent (s : State) (h : Hart) : Agent := { s.engAgent h true with core := h.core }

/-- The lowest faulting byte of a chunk that leaves its allocation (R326). -/
def windowByte (lstore va : Nat) : Nat :=
  let o := (va - winBase) % 2 ^ 21
  if o < lstore then va + (lstore - o) else va

/-- A span checked from its lowest address up, in chunks of a page, with the leaves of its pages (R326). -/
def State.checkSpan (s : State) (a : Agent) (k : Want) (va n : Nat) : Nat → Acc (List (Nat × Leaf))
  | 0 => .ok []
  | fuel + 1 =>
    if n = 0 then .ok []
    else
      let m := min n (2 ^ 16 - va % 2 ^ 16)
      match s.resolve a k va m with
      | .fault f => .fault (if f.code = 0x07 then { f with va := BitVec.ofNat 64 (windowByte a.lstore va) } else f)
      | .held p => .held p
      | .ok ps =>
        (s.checkSpan a k (va + m) (n - m) fuel).map fun l =>
          (ps.filterMap fun p => p.leaf.map fun f => (va / 2 ^ 16, f)) ++ l

/-- An EMCAST destination lies in the window, and every selected core's bytes in the allocation (R335). -/
def EngCmd.multicastFault (c : EngCmd) (lstore : Nat) : Option FaultInfo :=
  match c.kind with
  | .emcast =>
    if 2 ^ 52 ≤ c.xa.toNat then some ⟨0x06, 4, c.xa, 0, 0⟩
    else if c.xa.toNat < winBase then some ⟨0x06, 6, c.xa, 0, 0⟩
    else
      let o := (c.xa.toNat - winBase) % 2 ^ 21
      if c.dstBytes ≠ 0 ∧ lstore < o + c.dstBytes then
        some ⟨0x07, 0, BitVec.ofNat 64 (windowByte lstore (c.dests.headD c.xa.toNat)), 0, 0⟩
      else none
  | _ => none

/-- A table base: an address, and not one of the window (R326). -/
def tableBase (x : Word) : Acc (List (Nat × Leaf)) :=
  if 2 ^ 52 ≤ x.toNat then accFault 0x06 4 x.toNat
  else if winBase ≤ x.toNat then accFault 0x06 6 x.toNat
  else .ok []

/-- Who posts the writes of a command: the head of a queue (R341). -/
def Hart.engPoster (h : Hart) (q : Nat) (c : EngCmd) : Poster := { h.poster with eng := some (q, c.seq) }

/-- The stream of a KV page under an engine. -/
def State.engStream (s : State) (h : Hart) : Stream := ⟨s.engAgent h false, false, none, h.poster, none⟩

/-- The checks of fields A, B and C in order, and the leaves they give. -/
def State.checkFields (s : State) (h : Hart) (c : EngCmd) : Acc (List (Nat × Leaf)) :=
  let t := s.untabled
  let a := { s.engAgent h false with core := h.core }
  let span (p : EngSpan) : Acc (List (Nat × Leaf)) :=
    t.checkSpan a { r := !p.write, w := p.write, align := p.align, issue := true } p.va p.n (p.n / 2 ^ 16 + 2)
  let both (x y : Acc (List (Nat × Leaf))) : Acc (List (Nat × Leaf)) := x.bind fun l => y.map fun m => l ++ m
  let spans := c.spans.foldl (fun x p => both x (span p)) (.ok [])
  let kvPage : Acc (List (Nat × Leaf)) :=
    (t.kvPage { s.engStream h with agent := a } { r := true, issue := true } c.xb).map fun p => (p.leaf.map fun l => (c.xb.toNat / 2 ^ 16, l)).toList
  match c.kind with
  | .ecpy => if c.copy.kv.isSome then both spans kvPage else spans
  | .emcast =>
    match c.multicastFault (s.lstoreOf h.kern) with
    | some f => .fault f
    | none => if c.copy.kv.isSome then both spans kvPage else spans
  | .efill => spans
  | .egath =>
    match c.spans with
    | p :: r => both (span p) (both (tableBase c.xb) (r.foldl (fun x p => both x (span p)) (.ok [])))
    | [] => .ok []
  | .escat => both (tableBase c.xa) spans

/-- The reason of a barrier operand with address bits [63:52] set (R326). -/
def engBarrierFault (f : FaultInfo) : FaultInfo :=
  if f.code = 0x06 ∧ 2 ^ 52 ≤ f.va.toNat then { f with reason := 4 } else f

/-- What issuing a command answers: `fault` is one that an access met, `refuse` one of the command itself or of its record. -/
inductive EngIssue where
  | ok (leaves : List (Nat × Leaf))
  | fault (f : FaultInfo)
  | refuse (f : FaultInfo)
  | wait (w : HartWait)
  deriving DecidableEq, Repr

/-- The barrier record of a command (R344, R360). -/
def State.checkBarrier (s : State) (h : Hart) (c : EngCmd) : EngIssue :=
  match c.bar with
  | none => .ok []
  | some x =>
    match s.barrierKey h x with
    | .ok key =>
      if s.ms.lsSpoilt key 64 then .refuse (barFault 0x10 x)
      else
      match (s.ms.barrier key).joinIssue (s.groupExtent h.kern) c.phase with
      | .ok _ => .ok []
      | .fault code => .refuse (barFault code x)
      | .wait => .wait (.barrier key 6)
    | .fault f => .refuse (engBarrierFault f)
    | .held _ => .wait .held

/-- The checks of R326 in their order. -/
def State.checkEngine (s : State) (h : Hart) (c : EngCmd) : EngIssue :=
  if c.misconfigured then .refuse (.of 0x04)
  else
    match s.checkBarrier h c with
    | .ok _ =>
      match s.checkFields h c with
      | .ok l => .ok l
      | .fault f => .fault f
      | .held _ => .wait .held
    | r => r

/-! Queues. -/

def Hart.queue (h : Hart) (q : Nat) : EngQueue := h.eng[q]?.getD .reset

def Hart.setQueue (h : Hart) (q : Nat) (e : EngQueue) : Hart := { h with eng := h.eng.setIfInBounds q e }

/-- Every command of a hart's queues. -/
def Hart.commands (h : Hart) : List EngCmd := h.eng.toList.flatMap EngQueue.cmds

/-- A command that an earlier, uncompleted one of the hart holds (R330). -/
def Hart.rangeHeld (h : Hart) (c : EngCmd) : Bool := h.commands.any fun d => decide (d.seq < c.seq) && c.meets d

/-! Accesses (R333 to R338). -/

/-- The first byte of a part that the tables keep from an engine, counted from the part: the copy engine of the core, or the
Chord of the stack that owns the table row (R322, R468). -/
def State.engRefused (s : State) (h : Hart) (copy : Bool) (chord : Option Nat) (w : Bool) (p : Part) : Option Nat :=
  match p.place, (if copy then some (Master.copyEngine h.core) else chord.map Master.chord) with
  | .device pa, some m => (s.refusedByte (fun _ => m) pa p.n (!w) w).map fun a => a - pa
  | _, _ => none

/-- The parts of an engine access. -/
def State.engParts (s : State) (h : Hart) (copy table : Bool) (chord : Option Nat) (k : Want) (va n : Nat) : Acc (List Part) :=
  (s.untabled.resolve (s.engAgent h table) k va n).bind fun ps =>
    match ps.findSome? fun p => (s.engRefused h copy chord k.w p).map fun o => p.off + o with
    | some o => accFault 0x06 8 (va + o)
    | none => .ok (ps.map Part.uncached)

def State.engRead (s : State) (h : Hart) (copy table : Bool) (chord : Option Nat) (va n : Nat) : Acc (List Byte × State) :=
  (s.engParts h copy table chord { r := true } va n).bind fun ps => s.readAll engCore false va ps

/-- A write; the fault is that of a failed posted write. -/
def State.engWrite (s : State) (h : Hart) (q : Nat) (c : EngCmd) (p : EngPut) (bs : List Byte) : Acc (Option FaultInfo × State) :=
  (s.engParts h c.isCopy p.table p.chord { w := true } p.va bs.length).bind fun ps =>
    (s.prepareWrite ps).map fun s1 => s1.writeParts { s.engAgent h p.table with core := engCore } (h.engPoster q c) p.va bs ps

/-- The segments of a span, cut at 64 B boundaries of the destination: offset and bytes (R65, R248). -/
def sectorSegs (va n off : Nat) : Nat → List (Nat × Nat)
  | 0 => []
  | fuel + 1 =>
    if n = 0 then []
    else
      let m := min n (64 - va % 64)
      (off, m) :: sectorSegs (va + m) (n - m) (off + m) fuel

/-- The segments of row `k` of a copy: destination offset from the row's base, source offset, bytes (R333). -/
def EngCmd.rowSegs (c : EngCmd) (base k : Nat) : List (Nat × Nat × Nat) :=
  let rb := c.rowBytes
  let d := base + k * c.copy.dpitch.toNat
  let cut (at_ off n : Nat) : List (Nat × Nat × Nat) := (sectorSegs at_ n off (n / 64 + 2)).map fun p => (at_ + (p.1 - off), p.1, p.2)
  if c.copy.rot = 0 then cut d 0 rb
  else
    let sh := 64 * (k % 8 * c.copy.rot.toNat % 8) % max c.copy.dpitch.toNat 1
    let n1 := min rb (c.copy.dpitch.toNat - sh)
    cut (d + sh) 0 n1 ++ cut d n1 (rb - n1)

/-- The bytes of a decoded KV row (R334), with the flags of its roundings. -/
def kvRowBytes (tag slot rps row first n : Nat) (t : Fmt) : List Byte × Flags :=
  (List.range n).foldl (fun a i =>
    let (code, f) := convFloat (kvValue tag slot rps row (first + i)) t .rne 0 false
    (a.1 ++ leBytes (fmtWidth t / 8) code, a.2.or f)) ([], .none)

/-- The header checks of R334. -/
def EngCmd.badHeader (c : EngCmd) (hd : Nat) : Bool :=
  kvVersion hd != 1 || kvRps hd == 3 || decide (kvRowElems hd < bits c.copy.spitch.toNat 0 16 + c.xc.toNat) ||
    decide (kvTpp (kvRps hd) < c.xb.toNat % 2 ^ 16 + c.rowCount)

/-- A read of a KV page by the copy engine of a core. -/
def State.engKvRead (s : State) (h : Hart) (p : Part) (page off n : Nat) : Acc (Nat × State) :=
  match s.engRefused h true none false (p.slice off n) with
  | some o => accFault 0x06 8 (page + off + o)
  | none => s.kvRead (s.engStream h) p.uncached page off n

/-- A slot of a KV-decoding copy's page with its tag, read together and once (R269, R334). -/
def State.engSlot (s : State) (h : Hart) (c : EngCmd) (slot : Nat) : Acc ((Nat × Nat) × EngCmd × State) :=
  match c.slots.find? fun x => x.1 == slot with
  | some x => .ok (x.2, c, s)
  | none =>
    let page := c.xb.toNat / 2 ^ 16 * 2 ^ 16
    (s.untabled.kvPage (s.engStream h) { r := true } c.xb).bind fun p =>
      (s.engKvRead h p page (kvTagOff slot) 2).bind fun x =>
        (x.2.engKvRead h p page (1024 * slot) 1024).map fun y =>
          ((x.1, y.1), { c with slots := c.slots ++ [(slot, x.1, y.1)] }, y.2)

/-- The bytes of row `k` of a KV-decoding copy, with the flags of its roundings. -/
def State.kvRowRead (s : State) (h : Hart) (c : EngCmd) (t : Fmt) (rps k : Nat) : Acc (List Byte × Flags × EngCmd × State) :=
  let j := c.xb.toNat % 2 ^ 16 + k
  (s.engSlot h c (kvSlot rps j)).map fun x =>
    let (bs, fl) := kvRowBytes x.1.1 x.1.2 rps (kvRow rps j) (bits c.copy.spitch.toNat 0 16) c.xc.toNat t
    (bs, fl, x.2.1, x.2.2)

/-- What a command's beginning gives: the command with its writes; a fault with which it writes nothing, of the Chord of a
stack where it names one; or a migration record holds a line. -/
inductive EngBegin where
  | ok (s : State) (c : EngCmd)
  | fault (s : State) (chord : Option Nat) (f : FaultInfo)
  | held
  deriving DecidableEq, Repr

/-- A command that has begun. -/
def EngCmd.begins (c : EngCmd) (leaves : List (Nat × Leaf)) (ps : List EngPut) : EngCmd :=
  { c with started := true, leaves := c.leaves ++ leaves, puts := ps }

/-- The writes of a copy or fill, row by row, and within one to every destination (R333, R335). -/
def EngCmd.copyPuts (c : EngCmd) (src : Nat → Nat → Nat → EngSrc) : List EngPut :=
  (List.range c.rowCount).flatMap fun k => c.dests.flatMap fun base =>
    (c.rowSegs base k).map fun g => ⟨g.1, g.2.2, src k g.2.1 g.2.2, false, none⟩

/-- The beginning of a copy or fill (R333 to R335). A header that fails its checks writes nothing (R341 reason 4). -/
def State.copyBegin (s : State) (h : Hart) (c : EngCmd) : EngBegin :=
  match c.kind, c.copy.kv with
  | .efill, _ =>
    .ok s (c.begins [] (c.copyPuts fun _ off n =>
      .bytes ((List.range n).map fun i => BitVec.ofNat 8 (bits c.xb.toNat (8 * ((off + i) % 8)) 8))))
  | _, none => .ok s (c.begins [] (c.copyPuts fun k off _ => .mem (c.xb.toNat + k * c.copy.spitch.toNat + off) false))
  | _, some _ =>
    let page := c.xb.toNat / 2 ^ 16 * 2 ^ 16
    match (s.untabled.kvPage (s.engStream h) { r := true } c.xb).bind fun p => s.engKvRead h p page 0 0x100 with
    | .ok (hd, s) =>
      if c.badHeader hd then .fault s none (.withReason 0x0D 4)
      else .ok s (c.begins [] (c.copyPuts fun k off _ => .kv (kvRps hd) k off))
    | .fault f => .fault s none f
    | .held _ => .held

/-- The row addresses of a Chord command (R337). -/
def EngCmd.rowVas (c : EngCmd) (list : List Byte) : List Nat :=
  let base := if c.kind = .egath then c.xb.toNat else c.xa.toNat
  let n := indexBytes c.rows.iw
  (List.range c.rowCount).map fun k => (base + leNat ((list.drop (k * n)).take n) * c.rows.tpitch.toNat) % 2 ^ 64

/-- A table row is translated and checked: why it is refused, or the leaves of its pages (R338, R341). What the host or a
peer answers comes later (R459). -/
def State.rowCheck (s : State) (h : Hart) (c : EngCmd) (va : Nat) : Acc (Except (BitVec 8) (List (Nat × Leaf))) :=
  let w := c.kind = .escat
  let meets (l : List (Nat × Nat)) : Bool := l.any (spanMeets (va, c.rowBytes))
  match s.untabled.resolve (s.rowAgent h) { r := !w, w := w, issue := true } va c.rowBytes with
  | .fault f => .ok (.error (
    match f.code.toNat with
    | 0x05 => 1
    | 0x09 => 3
    | 0x10 => 5
    | _ => 2))
  | .held p => .held p
  | .ok ps =>
    if meets (if w then [(c.xb.toNat, c.dstBytes), (c.xc.toNat, c.listBytes)] else [(c.xa.toNat, c.dstBytes)]) then .ok (.error 7)
    else .ok (.ok (ps.filterMap fun p => p.leaf.map fun l => ((va + p.off) / 2 ^ 16, l)))

/-- The checks of rows in order: the first that is refused, or the leaves of all. -/
def State.checkRows (s : State) (h : Hart) (c : EngCmd) : List Nat → Acc (Except FaultInfo (List (Nat × Leaf)))
  | [] => .ok (.ok [])
  | va :: r =>
    (s.rowCheck h c va).bind fun x =>
      match x with
      | .error reason => .ok (.error ⟨0x0D, reason, BitVec.ofNat 64 va, 0, 0⟩)
      | .ok l => (s.checkRows h c r).map fun y => y.map fun m => l.foldl addNew m

/-- The stack that owns a table row's first byte, whose Chord serves the row (R322). DEDUCED (log 41). -/
def State.rowStack (s : State) (h : Hart) (va : Nat) : Option Nat :=
  match s.untabled.resolve (s.rowAgent h) { issue := true } va 1 with
  | .ok [p] => (s.ownerOfPlace p.place).bind fun o => if o.1 = s.plat.pkg.toNat then some o.2 else none
  | _ => none

/-- The writes of one row of a Chord command (R337). -/
def State.chordPuts (s : State) (h : Hart) (c : EngCmd) (k va : Nat) : List EngPut :=
  let n := c.rowBytes
  let o := s.rowStack h va
  if c.kind = .egath then
    let d := c.xa.toNat + k * n
    (sectorSegs d n 0 (n / 64 + 2)).map fun g => ⟨d + g.1, g.2, .mem (va + g.1) true, false, o⟩
  else
    let p := c.xb.toNat + k * n
    (sectorSegs va n 0 (n / 64 + 2)).map fun g => ⟨va + g.1, g.2, .mem (p + g.1) false, true, o⟩

/-- The first entry of the index list that the tables keep from the Chord of its row: the Chord's stack, and the fault (R322,
R468). -/
def State.listRefused (s : State) (h : Hart) (c : EngCmd) (vas : List Nat) : Option (Option Nat × FaultInfo) :=
  if s.mgmt.tables.isEmpty then none
  else
    vas.zipIdx.findSome? fun q =>
      let o := s.rowStack h q.1
      match s.engParts h false false o { r := true } (c.xc.toNat + q.2 * indexBytes c.rows.iw) (indexBytes c.rows.iw) with
      | .fault f => some (o, f)
      | _ => none

/-- PTE.A and PTE.D of some leaves (R233). -/
def State.markLeaves (s : State) (w : Bool) (l : List (Nat × Leaf)) : State := l.foldl (fun s p => s.setAD p.2 w) s

/-- The beginning of a gather or scatter: the whole list is read and every row translated and checked before a byte is
written; the translations are the command's from then on (R338). -/
def State.chordBegin (s : State) (h : Hart) (c : EngCmd) : EngBegin :=
  match s.engRead h false false none c.xc.toNat c.listBytes with
  | .held _ => .held
  | .fault f => .fault s none f
  | .ok (list, s) =>
    let vas := c.rowVas list
    match s.checkRows h c vas with
    | .held _ => .held
    | .fault f => .fault s none f
    | .ok (.error f) => .fault s none f
    | .ok (.ok l) =>
      match s.listRefused h c vas with
      | some (o, f) => .fault s o f
      | none =>
        .ok (s.markLeaves (c.kind = .escat) l) (c.begins l (((List.range c.rowCount).zip vas).flatMap fun q => s.chordPuts h c q.1 q.2))

/-- The reason of R341 for a fault found after issue. -/
def engReason (f : FaultInfo) : FaultInfo :=
  match f.code.toNat with
  | 0x0D | 0x0A | 0x0B | 0x0C => f
  | 0x10 => { f with code := 0x0D, reason := 5 }
  | 0x0F => { f with code := 0x0D, reason := 6 }
  | 0x05 => { f with code := 0x0D, reason := 1 }
  | _ => { f with code := 0x0D, reason := if f.reason = 8 then 8 else if f.reason = 5 then 6 else 2 }

/-- A page of a command's known addresses is marked: where the entry has changed since it was read, the page is walked again,
and what the walk gives is used where it admits the access (R233, R238). -/
def State.engMarkPage (s : State) (h : Hart) (c : EngCmd) (l : Nat × Leaf) : (Nat × Leaf) × State :=
  let on (wr : Bool) : Bool :=
    c.spans.any fun p => p.write == wr && p.n != 0 && decide (p.va / 2 ^ 16 ≤ l.1) && decide (l.1 ≤ (p.va + p.n - 1) / 2 ^ 16)
  let w := on true
  if s.ms.creadNat l.2.pte 8 ||| 96 = l.2.entry ||| 96 then (l, s.setAD l.2 w)
  else
    match s.walk h.ctx (l.1 * 2 ^ 16) with
    | .ok f => if (w && !f.w) || (on false && !f.r) || f.kv != l.2.kv then (l, s) else ((l.1, f), s.setAD f w)
    | _ => (l, s)

/-- The pages of a command are marked as it begins. -/
def State.engMark (s : State) (h : Hart) (c : EngCmd) : EngCmd × State :=
  c.leaves.foldl (fun (x : EngCmd × State) l =>
    let (f, t) := x.2.engMarkPage h c l
    ({ x.1 with leaves := x.1.leaves ++ [f] }, t)) ({ c with leaves := [] }, s)

/-- The translations a command carries, for the accesses it makes now (R326). -/
def State.engTlb (s : State) (h : Hart) (c : EngCmd) : State :=
  let tlb := c.leaves.map fun l => (⟨engCore, h.ctx, l.1, 1, { l.2 with entry := l.2.entry ||| 96, path := [] }⟩ : TlbEntry)
  { s with ms := { s.ms with tlb := tlb ++ s.ms.tlb } }

def State.engUntlb (s : State) : State := { s with ms := { s.ms with tlb := s.ms.tlb.filter fun e => e.core ≠ engCore } }

/-- The first accesses of a command (R327). -/
def State.engBegin (s : State) (h : Hart) (c : EngCmd) : EngBegin :=
  let (c, s) := s.engMark h c
  let s1 := s.engTlb h c
  match (if c.isCopy then s1.copyBegin h c else s1.chordBegin h c) with
  | .ok t c => .ok t.engUntlb c
  | .fault t o f => .fault t.engUntlb o f
  | .held => .held

/-! A queue's head begins, writes, subtracts and completes (R327, R328, R339 to R341). -/

/-- The master of a command's accesses (R322, R469). -/
def EngCmd.master (c : EngCmd) (h : Hart) (chord : Option Nat) : Master :=
  match c.isCopy, chord with
  | false, some t => .chord t
  | _, _ => .copyEngine h.core

/-- A queue's head fails: the commands behind it are discarded, and the group takes FAULTED (R328, R341). -/
def State.engFault (s : State) (no q : Nat) (m : Master) (f : FaultInfo) : State :=
  match s.findHart no with
  | none => s
  | some h =>
    (((s.alarmOf (fun _ => m) h.core h.ctx f).onHart no fun h =>
      h.setQueue q { h.queue q with cmds := [], st := .faulted }).asyncFault h.poster (engReason f) (some q))

/-- A write of a queue's head has not been acknowledged (R327). -/
def State.engUnacked (s : State) (h : Hart) (q : Nat) (c : EngCmd) : Bool := s.link.waiting.any fun p => p.src == h.engPoster q c

/-- The bytes that a command's writes to come read in a source sector, from the first to the last. -/
def EngCmd.hull (c : EngCmd) (table : Bool) (q : Nat) : Option (Nat × Nat) :=
  c.puts.foldl (fun a p =>
    match p.src with
    | .mem va t =>
      if t = table ∧ q * 64 < va + p.n ∧ va < q * 64 + 64 ∧ p.n ≠ 0 then
        let lo := max va (q * 64)
        let hi := min (va + p.n) (q * 64 + 64)
        match a with
        | none => some (lo, hi)
        | some b => some (min b.1 lo, max b.2 hi)
      else a
    | _ => a) none

/-- A source sector is read, once for all the writes that take from it (R248, R335). -/
def State.engSector (s : State) (h : Hart) (c : EngCmd) (chord : Option Nat) (table : Bool) (q : Nat) : Acc (EngCmd × State) :=
  if c.sectors.any fun r => r.table == table && r.va / 64 == q then .ok (c, s)
  else
    match c.hull table q with
    | none => .ok (c, s)
    | some (lo, hi) =>
      (s.engRead h c.isCopy table chord lo (hi - lo)).map fun x => ({ c with sectors := c.sectors ++ [⟨table, lo, x.1⟩] }, x.2)

/-- A source byte that has been read. -/
def EngCmd.sourceByte (c : EngCmd) (table : Bool) (va : Nat) : Byte :=
  (c.sectors.findSome? fun r => if r.table = table ∧ r.va ≤ va then r.bytes[va - r.va]? else none).getD 0

/-- The bytes of a KV row stand in every write that takes them. -/
def EngPut.take (k : Nat) (bs : List Byte) (q : EngPut) : EngPut :=
  match q.src with
  | .kv _ k' off => if k = k' then { q with src := .bytes ((bs.drop off).take q.n) } else q
  | _ => q

/-- Read the bytes of a write, with the flags of a KV row's roundings. -/
def State.engSource (s : State) (h : Hart) (c : EngCmd) (p : EngPut) : Acc (List Byte × EngCmd × State) :=
  match p.src with
  | .bytes bs => .ok (bs, c, s)
  | .mem va table =>
    (s.engSector h c p.chord table (va / 64)).bind fun x =>
      (x.2.engSector h x.1 p.chord table ((va + p.n - 1) / 64)).map fun y =>
        ((List.range p.n).map fun i => y.1.sourceByte table (va + i), y.1, y.2)
  | .kv rps k off =>
    match c.copy.kv with
    | some t =>
      (s.kvRowRead h c (kvDtFmt t) rps k).map fun x =>
        ((x.1.drop off).take p.n,
          { x.2.2.1 with puts := x.2.2.1.puts.map (EngPut.take k x.1), flags := c.flags ||| x.2.1.ff }, x.2.2.2)
    | none => .ok ([], c, s)

/-- Read the bytes of some writes of a command, in order; a write whose row an earlier one has read finds its bytes. -/
def State.engSources (s : State) (h : Hart) (c : EngCmd) (same : EngPut → Bool) : Nat → Acc (List (EngPut × List Byte) × EngCmd × State)
  | 0 => .ok ([], c, s)
  | n + 1 =>
    (s.engSources h c same n).bind fun x =>
      match (x.2.1.puts.filter same)[n]? with
      | some p => (x.2.2.engSource h x.2.1 p).map fun y => (x.1 ++ [(p, y.1)], y.2)
      | none => .ok x

/-- Make some writes of a command, in order. -/
def State.engWrites (s : State) (h : Hart) (q : Nat) (c : EngCmd) : List (EngPut × List Byte) → Acc (Option FaultInfo × State)
  | [] => .ok (none, s)
  | p :: r =>
    (s.engWrite h q c p.1 p.2).bind fun x =>
      match x with
      | (some f, t) => .ok (some f, t)
      | (none, t) => t.engWrites h q c r

/-- The head of a queue makes one of its writes, and with it, at once, every other write to the same sector: the part of a
sector that a command writes is one write, whichever rows it comes from (R248, R331). None while a migration record holds a
line. -/
def State.engLand (s : State) (no q i : Nat) : State :=
  match s.findHart no with
  | none => s
  | some h =>
    match (h.queue q).cmds with
    | [] => s
    | c :: r =>
      match c.puts[i]? with
      | none => s
      | some p =>
        let same (o : EngPut) : Bool := o.table == p.table && o.va / 64 == p.va / 64
        match (s.engTlb h c).engSources h c same (c.puts.filter same).length with
        | .held _ => s
        | .fault f => (s.takeAnswer h.core h.ctx f).engFault no q (c.master h p.chord) f
        | .ok (ws, c1, t) =>
          let bytes := ws.foldl (fun n w => n + w.1.n) 0
          let c2 := { c1 with puts := c1.puts.filter fun o => !same o, landed := c1.landed + bytes }
          match t.engWrites h q c1 ws with
          | .held _ => s
          | .fault f => (t.engUntlb.takeAnswer h.core h.ctx f).engFault no q (c.master h p.chord) f
          | .ok (some f, t) => t.engUntlb.engFault no q (c.master h p.chord) f
          | .ok (none, t) => t.engUntlb.onHart no fun h => h.setQueue q { h.queue q with cmds := c2 :: r }

/-- Writes still to come of a queue's head. -/
def State.engToLand (s : State) (no q : Nat) : Nat :=
  match (s.findHart no).map fun h => (h.queue q).cmds with
  | some (c :: _) => c.puts.length
  | _ => 0

/-- The head of a queue makes all its writes, in order, as far as they can be made. -/
def State.engLandAll (s : State) (no q : Nat) : State := (List.range (s.engToLand no q)).foldl (fun s _ => s.engLand no q 0) s

/-- Subtract bytes of the head from its phase (R360). -/
def State.engSubtract (s : State) (no q b : Nat) : State :=
  match s.findHart no with
  | none => s
  | some h =>
    match (h.queue q).cmds with
    | c :: r =>
      match c.bar with
      | none => s
      | some x =>
        match s.barrierKey h x with
        | .ok key =>
          if s.ms.lsSpoilt key 64 then s.engFault no q (.copyEngine h.core) (barFault 0x10 x)
          else
          match (s.ms.barrier key).subtract (s.groupExtent h.kern) c.phase b with
          | .ok rec =>
            { s with ms := s.ms.putBarrier key rec }.onHart no fun h =>
              h.setQueue q { h.queue q with cmds := { c with left := c.left - b } :: r }
          | .fault code => s.engFault no q (.copyEngine h.core) (barFault code x)
          | .wait => s
        | .fault _ => s.engFault no q (.copyEngine h.core) (barFault 0x0B x)
        | .held _ => s
    | [] => s

/-- The head of a queue begins, unless a range, a fence or a migration record holds it. `drain`: a stopping group's queues
run whatever fence still stands in the VQ. -/
def State.engStart (s : State) (no q : Nat) (drain : Bool) : State :=
  match s.findHart no with
  | none => s
  | some h =>
    match (h.queue q).cmds with
    | [] => s
    | c :: r =>
      if c.started then s
      else if h.rangeHeld c then s.onHart no fun h => h.setQueue q { h.queue q with st := .held }
      else if (c.fences ≠ 0 ∨ c.parked ≠ 0) ∧ drain = false then s
      else
        match s.engBegin h c with
        | .held => s
        | .fault s o f => (s.takeAnswer h.core h.ctx f).engFault no q (c.master h o) f
        | .ok s c => s.onHart no fun h => h.setQueue q { h.queue q with st := .running, cmds := c :: r }

/-- The head of a queue completes: what it has not subtracted, its flags, DONE (R327, R328, R340). -/
def State.engComplete (s : State) (no q : Nat) : State :=
  match s.findHart no with
  | none => s
  | some h =>
    match (h.queue q).cmds with
    | [] => s
    | c :: _ =>
      if !c.started || !c.puts.isEmpty || s.engUnacked h q c then s
      else
        let s := if c.bar.isSome ∧ (c.left ≠ 0 ∨ c.total = 0) then s.engSubtract no q c.left else s
        match s.findHart no with
        | none => s
        | some h =>
          if (h.queue q).st = .faulted then s
          else
            let s := s.raiseFlags h.owner ⟨c.flags, 0⟩
            s.onHart no fun h =>
              let e := h.queue q
              h.setQueue q { e with cmds := e.cmds.drop 1, done := e.done + 1,
                                    st := if e.cmds.length ≤ 1 then .empty else .running }

/-- The queue whose head was issued first of those that can run. -/
def Hart.nextQueue (h : Hart) : Option Nat :=
  ((List.range 4).foldl (fun (b : Option (Nat × Nat)) q =>
    match (h.queue q).cmds with
    | [] => b
    | c :: _ =>
      match b with
      | some (_, n) => if c.seq < n then some (q, c.seq) else b
      | none => some (q, c.seq)) none).map Prod.fst

/-- Run a hart's queues in the order of issue, as far as they run. -/
def State.runQueues (s : State) (no : Nat) (drain : Bool) : Nat → State
  | 0 => s
  | fuel + 1 =>
    match (s.findHart no).bind Hart.nextQueue with
    | none => s
    | some q => (((s.engStart no q drain).engLandAll no q).engComplete no q).runQueues no drain fuel

/-- Every queued command of a hart, as far as it runs. -/
def State.runEngines (s : State) (no : Nat) (drain : Bool) : State := s.runQueues no drain 64

/-! Issue (R323). -/

/-- FENCE.VV entries and acquire points of a VQ. -/
def Hart.fencesVv (h : Hart) : Nat := (h.vq.filter fun e => (e.instr matches .fenceVv _) || isAcquire e.instr).length

/-- The command an instruction makes for the hart in focus, before its place in the issue order. -/
def Hart.engCmd (h : Hart) (kind : EngKind) (e : EngMod) (d a b c : XReg) (copy : CopyWord) (rows : RowsWord) : EngCmd where
  kind := kind
  addr := h.pc
  xa := h.getX a
  xb := h.getX b
  xc := h.getX c
  copy := copy
  rows := rows
  bar := if d = 0 then none else some (h.getX d)
  phase := h.ctl.sc + e.ahead.setWidth 32
  leaves := []
  seq := 0
  fences := h.fencesVv
  parked := 0
  started := false
  puts := []
  sectors := []
  slots := []
  landed := 0
  left := 0
  flags := 0

/-- Append a checked command to its queue; the engines run at once unless they run behind. -/
def State.appendEng (s : State) (q : Nat) (c : EngCmd) : State :=
  let (n, s) := s.stamp
  let h := s.hart
  let e := h.queue q
  let e := { e with cmds := e.cmds ++ [{ c with seq := n, left := c.total }], st := if e.st = .held then .held else .running }
  let s := { s with hart := h.setQueue q e }
  if s.lag.eng then s else s.runEngines h.no false

/-- An engine command whose guard holds (R323, R326). A full queue is waited for before the checks are made. DESIGN CHOICE (log
54). -/
def State.issueEng (s : State) (e : EngMod) (c : EngCmd) : FrontAct :=
  let q := e.queue.toNat
  if 16 ≤ (s.hart.queue q).cmds.length then .wait .room
  else
    match s.checkEngine s.hart c with
    | .ok l => .next (s.appendEng q { c with leaves := l })
    | .fault f => .fault f
    | .refuse f => .refuse f
    | .wait w => .wait w

end Sys2Proof.Machine
end

