-- ==== Sys2Proof/Machine/Image.lean ====
section
/-! DEFINITION. Save images: what a stop or a halt writes and what a restore checks and reads (R424 to R432). -/

namespace Sys2Proof.Machine

/-! The header words of a hart (R427). -/

/-- HSTAT. -/
def Hart.hstat (h : Hart) (halt : Bool) : Nat :=
  1 + (if h.phase = .exiting then 2 ^ 8 else 0) + (if h.trap.inh then 2 ^ 9 else 0) + (if halt then 2 ^ 10 else 0) +
    (if h.phase = .exited then 2 ^ 11 else 0) + h.vq.length % 64 * 2 ^ 16 + h.trapImage.length % 64 * 2 ^ 24

/-- FDIRTY as one string of 160 bits. -/
def VecRegs.fdirty (r : VecRegs) : Nat := foldUpTo 160 0 fun x i => if (r.getF i).dirty then x ||| (1 <<< i) else x

/-- GSITE. -/
def VecRegs.gsiteWord (r : VecRegs) : Nat :=
  foldUpTo 4 0 fun x i =>
    match r.gsite[i]?.getD none with
    | some g => x ||| ((2 ^ 15 + g.pkg.toNat * 16 + g.stack.toNat) <<< (16 * i))
    | none => x

/-- The 32 words of the hart header. -/
def Hart.headerWords (h : Hart) (halt : Bool) : List Word :=
  let c := h.ctl
  let start := match h.vq with
    | e :: _ => e.start
    | [] => 0
  let fd := h.vec.fdirty
  [BitVec.ofNat 64 (h.hstat halt), c.fflags.setWidth 64, c.iflags.setWidth 64, BitVec.ofNat 64 c.frm.code, c.srseed, c.srctr,
    c.vl.setWidth 64, BitVec.ofNat 64 (rcRows c.rc), BitVec.ofNat 64 start, c.vtail.setWidth 64, c.vcfg, c.sc.setWidth 64,
    c.fsiteWord, c.wid, h.vec.plive.setWidth 64, h.trap.vecWord, h.trap.epc, h.trap.ecause, h.trap.einfo, 0, h.pc,
    h.vec.vdirty, h.vec.zdirty.setWidth 64, BitVec.ofNat 64 fd, BitVec.ofNat 64 (fd / 2 ^ 64), BitVec.ofNat 64 (fd / 2 ^ 128),
    BitVec.ofNat 64 h.vec.gsiteWord, h.tresume, c.vstart.setWidth 64, 0, 0, 0]

def wordBytes (ws : List Word) : List Byte := ws.flatMap fun w => leBytes 8 w.toNat

/-- A tag byte of VTAGS and FTAGS (R426). -/
def RegTag.byte (t : RegTag) : Byte := BitVec.ofNat 8 (t.fmt.code.toNat + if t.blk then 16 else 0)

/-- Offsets of the parts of a hart area (R426). -/
def predOffset (vlenb p : Nat) : Nat := 0x2000 + p * (vlenb / 4)
def nearOffset (vlenb v : Nat) : Nat := 0x2000 + (4 + v) * vlenb
def tileOffset (vlenb z : Nat) : Nat := 0x2000 + 68 * vlenb + z * 0x10000
def farOffset (vlenb i : Nat) : Nat := 0x2000 + 68 * vlenb + 0x80000 + i / 8 * 0x8000 + i % 8 * 0x1000

/-- What a stop writes of a hart: offsets in its area, and bytes (R430 step 4). -/
def Hart.imageChunks (h : Hart) (halt : Bool) : List (Nat × List Byte) :=
  let r := h.vec
  let n := h.vlenb
  [(0, wordBytes (h.headerWords halt)), (0x100, wordBytes (0 :: h.x.toList.drop 1)),
    (0x300, wordBytes (h.vq.flatMap VqEntry.words)), (0xB00, r.vtags.toList.map RegTag.byte),
    (0xB40, r.vhwe.toList.map fun u => BitVec.ofNat 8 u), (0xB80, r.far.toList.map fun q => q.tag.byte)] ++
  ((List.range 16).filter fun p => p ≠ 0 && r.plive.getLsbD p).map
    (fun p => (predOffset n p, leBytes (n / 4) (r.k[p]?.getD 0))) ++
  ((List.range 64).filter fun v => r.vdirty.getLsbD v).map
    (fun v => (nearOffset n v, leBytes (((r.vhwe[v]?.getD 0) + 1) * 512) (r.getV v))) ++
  ((List.range 8).filter fun z => r.zdirty.getLsbD z).map
    (fun z => (tileOffset n z, leBytes 0x10000 (r.z[z]?.getD 0))) ++
  ((List.range 160).filter fun i => (r.getF i).dirty).map (fun i => (farOffset n i, leBytes 4096 (r.getF i).bits))

/-- Write chunks at an area, each once no migration holds it (R240); the flag tells of uncorrectable data met (R431). -/
def State.putChunks (s : State) (pa : Nat) (cs : List (Nat × List Byte)) : State × Bool :=
  cs.foldl (fun a c =>
    if c.2.isEmpty then a
    else (a.1.devicePut (pa + c.1) c.2, a.2 || (a.1.ms.unpoison (pa + c.1) c.2.length).poisoned (pa + c.1) c.2.length)) (s, false)

/-! Local store (R425). -/

/-- The chunks of a core's local store: written sectors, and the written bits. -/
def MemSys.lsChunks (ms : MemSys) (grp core bytes : Nat) : List (Nat × List Byte) :=
  let mine := (ms.lsw.filter fun w => w / 2 ^ 15 == grp * 4 + core && decide (w % 2 ^ 15 * 64 < bytes)).map fun w => w % 2 ^ 15
  mine.map (fun q => (0x2410000 + core * 0x200000 + q * 64, ms.lsRead (lsKey grp core (q * 64)) 64)) ++
    [(0x2C10000 + core * 0x1000, leBytes 0x1000 (mine.foldl (fun x q => x ||| (1 <<< q)) 0))]

/-! Reading an image back (R432). -/

/-- A read of the image at the point of coherence. -/
def State.imageNat (s : State) (pa n : Nat) : Nat := s.ms.creadNat pa n

def State.imageWords (s : State) (pa n : Nat) : List Word :=
  (List.range n).map fun i => BitVec.ofNat 64 (s.imageNat (pa + 8 * i) 8)

/-- Split a list into entries of eight words. -/
def eights : Nat → List Word → List (List Word)
  | 0, _ => []
  | n + 1, l => l.take 8 :: eights n (l.drop 8)

/-- The entries of a VQ or trap image; none when one is malformed. -/
def State.imageEntries (s : State) (pa n : Nat) (c : Context) : Option (List VqEntry) :=
  (eights n (s.imageWords pa (8 * n))).foldr (fun ws a =>
    match VqEntry.ofWords ws c.bank0.toList c.bank1.toList, a with
    | some e, some l => some (e :: l)
    | _, _ => none) (some [])

/-- RC as a code. -/
def rcCode (n : Nat) : Option (Fin 6) :=
  match n with
  | 1 => some 0
  | 2 => some 1
  | 4 => some 2
  | 8 => some 3
  | 16 => some 4
  | 32 => some 5
  | _ => none

/-- The control registers of a header (R427): none for a word outside its encoding. -/
def ctlOfHeader (w : Nat → Nat) (hpc : Fin 3) : Option CtlRegs :=
  match RMode.ofCode (BitVec.ofNat 3 (w 3)), rcCode (w 7) with
  | some frm, some rc =>
    let vcfg := w 10
    if w 1 < 2 ^ 5 ∧ w 2 < 2 ^ 2 ∧ w 3 < 8 ∧ w 6 < 2 ^ 18 ∧ w 8 < 2 ^ 18 ∧ w 9 < 2 ^ 5 ∧ vcfg < 2 ^ 10 ∧ w 11 < 2 ^ 32 ∧
        w 28 < 2 ^ 18 ∧ bits vcfg 8 2 = hpc.val ∧ bits vcfg 5 3 = rc.val ∧ w 12 < 2 ^ 18 ∧ bits (w 12) 4 4 = 0 then
      some { vl := BitVec.ofNat 18 (w 6), rc := rc, vstart := BitVec.ofNat 18 (w 28), vtail := BitVec.ofNat 5 (w 9),
             vtag := Fmt.ofCode (BitVec.ofNat 4 (bits vcfg 0 4)), vblk := bitAt vcfg 4, hpc := hpc,
             sc := BitVec.ofNat 32 (w 11), fflags := BitVec.ofNat 5 (w 1), iflags := BitVec.ofNat 2 (w 2), frm := frm,
             srseed := BitVec.ofNat 64 (w 4), srctr := BitVec.ofNat 64 (w 5), fpkg := BitVec.ofNat 10 (bits (w 12) 8 10),
             fstack := BitVec.ofNat 4 (bits (w 12) 0 4), wid := BitVec.ofNat 64 (w 13) }
    else none
  | _, _ => none

/-- The trap registers of a header. -/
def trapOfHeader (w : Nat → Nat) : Option TrapRegs :=
  let ec := w 17
  if w 15 < 2 ^ 52 ∧ w 15 % 8 = 0 ∧ bits ec 48 16 = 0 ∧ bits ec 26 6 = 0 ∧ bits ec 22 2 = 0 then
    some { vec := BitVec.ofNat 49 (w 15 / 8), epc := BitVec.ofNat 64 (w 16), trapno := BitVec.ofNat 16 (bits ec 32 16),
           inh := bitAt ec 25, ret := bitAt ec 24, qpos := BitVec.ofNat 6 (bits ec 16 6), reason := BitVec.ofNat 8 (bits ec 8 8),
           code := BitVec.ofNat 8 (bits ec 0 8), einfo := BitVec.ofNat 64 (w 18) }
  else none

/-- Tags of a tag byte. -/
def tagOfByte (b : Nat) : RegTag := ⟨Fmt.ofCode (BitVec.ofNat 4 (bits b 0 4)), bitAt b 4⟩

/-- The registers of an image, its header words given. -/
def State.vecOfImage (s : State) (a n : Nat) (w : Nat → Nat) : VecRegs :=
  let plive := BitVec.ofNat 16 (w 14) ||| 1
  let fd := w 23 + w 24 * 2 ^ 64 + w 25 * 2 ^ 128
  { k := Vector.ofFn fun p => if p.val ≠ 0 ∧ plive.getLsbD p.val = true then s.imageNat (a + predOffset n p.val) (n / 4) else 0
    plive := plive
    v := Vector.ofFn fun v =>
      if (BitVec.ofNat 64 (w 21)).getLsbD v.val then
        s.imageNat (a + nearOffset n v.val) (min n ((s.imageNat (a + 0xB40 + v.val) 1 + 1) * 512))
      else 0
    vtags := Vector.ofFn fun v => tagOfByte (s.imageNat (a + 0xB00 + v.val) 1)
    vdirty := BitVec.ofNat 64 (w 21)
    vhwe := Vector.ofFn fun v => s.imageNat (a + 0xB40 + v.val) 1
    far := Vector.ofFn fun i =>
      ⟨if bitAt fd i.val then s.imageNat (a + farOffset n i.val) 4096 else 0, tagOfByte (s.imageNat (a + 0xB80 + i.val) 1), bitAt fd i.val⟩
    gsite := Vector.ofFn fun i =>
      let g := bits (w 26) (16 * i.val) 16
      if bitAt g 15 then some ⟨BitVec.ofNat 10 (bits g 4 10), BitVec.ofNat 4 (bits g 0 4), false⟩ else none
    z := Vector.ofFn fun z => if bitAt (w 22) z.val then s.imageNat (a + tileOffset n z.val) 0x10000 else 0
    zdirty := BitVec.ofNat 8 (w 22)
    bad := [] }

/-- Reserved bits and fields of an area's header and tables are zero, and its counts lie in range (R432). -/
def State.imageFieldsOk (s : State) (a : Nat) (w : Nat → Nat) : Bool :=
  let hs := w 0
  bits hs 0 8 == 1 && bits hs 12 4 == 0 && bits hs 22 2 == 0 && bits hs 30 34 == 0 && !(bitAt hs 8 && bitAt hs 11) &&
    decide (bits hs 16 6 ≤ 32) && decide (bits hs 24 6 ≤ 32) && decide (w 14 < 2 ^ 16) && w 19 == 0 && decide (w 22 < 2 ^ 8) &&
    decide (w 25 < 2 ^ 32) && w 29 == 0 && w 30 == 0 && w 31 == 0 &&
    ((List.range 4).all fun i => !bitAt (w 26) (16 * i + 14)) &&
    ((List.range 64).all fun v => decide (s.imageNat (a + 0xB00 + v) 1 < 32) && decide (s.imageNat (a + 0xB40 + v) 1 < 128)) &&
    (List.range 160).all fun i => decide (s.imageNat (a + 0xB80 + i) 1 < 32)

/-- A hart from its image: none when the image is malformed. `base` names the hart: its place, context, kernel and group. -/
def State.hartOfImage (s : State) (a : Nat) (hpc : Fin 3) (base : Hart) : Option Hart :=
  let ws := s.imageWords a 32
  let w (i : Nat) : Nat := (ws.getD i 0).toNat
  let hs := w 0
  let c := s.ctx base.ctx
  if !s.imageFieldsOk a w then none
  else
    match ctlOfHeader w hpc, trapOfHeader w, s.imageEntries (a + 0x300) (bits hs 16 6) c,
        s.imageEntries (a + 0x1000) (bits hs 24 6) c with
    | some ctl, some trap, some vq, some ti =>
      some { base with
        x := Vector.ofFn fun i => if i.val = 0 then 0 else BitVec.ofNat 64 (s.imageNat (a + 0x100 + 8 * i.val) 8)
        xbad := 0
        pc := BitVec.ofNat 64 (w 20)
        ctl := ctl
        trap := trap
        vec := s.vecOfImage a (vlenbOf hpc) w
        vq := vq
        trapImage := ti
        tresume := BitVec.ofNat 64 (w 27)
        phase := if bitAt hs 8 then .exiting else if bitAt hs 11 then .exited else if bitAt hs 10 then .halted else .running
        wait := .none
        pend := none
        owes := !vq.isEmpty }
    | _, _, _, _ => none

/-- The spans of an area that a restore reads. -/
def State.imageSpans (s : State) (a : Nat) (hpc : Fin 3) : List (Nat × Nat) :=
  let n := vlenbOf hpc
  let w (i : Nat) : Nat := s.imageNat (a + 8 * i) 8
  let fd := w 23 + w 24 * 2 ^ 64 + w 25 * 2 ^ 128
  [(a, 0x300), (a + 0x300, 64 * bits (w 0) 16 6), (a + 0xB00, 0x120), (a + 0x1000, 64 * bits (w 0) 24 6)] ++
  ((List.range 16).filter fun p => p ≠ 0 && bitAt (w 14) p).map (fun p => (a + predOffset n p, n / 4)) ++
  ((List.range 64).filter fun v => bitAt (w 21) v).map
    (fun v => (a + nearOffset n v, min n ((s.imageNat (a + 0xB40 + v) 1 + 1) * 512))) ++
  ((List.range 8).filter fun z => bitAt (w 22) z).map (fun z => (a + tileOffset n z, 0x10000)) ++
  ((List.range 160).filter fun i => bitAt fd i).map (fun i => (a + farOffset n i, 4096))

/-- Some span of a list reads with uncorrectable data. -/
def State.spansBad (s : State) (l : List (Nat × Nat)) : Bool := l.any fun p => s.ms.poisoned p.1 p.2

/-- Take FLAGW by a swap with zero and OR it into FFLAGS (R433): the word held the flags of the stop and any that came
since. -/
def State.takeFlagw (s : State) (a : Nat) : State := { s with ms := s.ms.cwriteNat (a + 8) 8 0 }

/-- The local store of a core from an image: sectors with their written bit set. -/
def State.restoreCore (s : State) (slot grp core bytes : Nat) : State :=
  let wb := s.imageNat (slot + 0x2C10000 + core * 0x1000) 0x1000
  (List.range (bytes / 64)).foldl (fun s q =>
    if bitAt wb q then
      { s with ms := s.ms.lsWrite (lsKey grp core (q * 64)) (s.ms.cread (slot + 0x2410000 + core * 0x200000 + q * 64) 64) }
    else s) s

/-- The spans of the local store that a restore reads. -/
def State.lsSpans (s : State) (slot bytes : Nat) : List (Nat × Nat) :=
  (List.range 4).flatMap fun core =>
    let wb := slot + 0x2C10000 + core * 0x1000
    (wb, 0x1000) :: (((List.range (bytes / 64)).filter fun q => bitAt (s.imageNat wb 0x1000) q).map fun q =>
      (slot + 0x2410000 + core * 0x200000 + q * 64, 64))

end Sys2Proof.Machine
end

