-- ==== Sys2Proof/Machine/GroupOps.lean ====
section
/-! DEFINITION. Groups: identifiers, quads, candidates, placement, stops, retirement (R105 to R112, R388, R389, R393, R409 to
R414, R424, R430 to R432). -/

namespace Sys2Proof.Machine

/-! Identifiers (R388). -/

/-- Digits of a linear group number over the extents of f1 on. -/
def fieldDigits : List Nat → Nat → List Nat
  | [], _ => []
  | e :: r, g => g % max e 1 :: fieldDigits r (g / max e 1)

/-- Sum of fields over their bit positions. -/
def packFields : List Nat → List Nat → Nat → Nat
  | f :: fs, w :: ws, b => f * 2 ^ b + packFields fs ws (b + w)
  | _, _, _ => 0

/-- The WID of hart `f0` of group `g` (R388). -/
def LaunchHeader.wid (k : LaunchHeader) (g f0 : Nat) : Word :=
  BitVec.ofNat 64 (packFields (f0 :: fieldDigits (k.exts.drop 1) g) k.widths 0)

/-- Harts of a group. -/
def LaunchHeader.extent (k : LaunchHeader) : Nat := k.exts.headD 1

/-! Quads (R393). -/

def quadCount : Nat := 24

/-- Groups that hold resources of a quad, those of a list left out. -/
def State.quadGroups (s : State) (quad : Nat) (without : List Nat) : List Group :=
  s.cmp.groups.filter fun g => g.onQuad && g.quad == quad && !without.contains g.key

/-- Hart slots in use on a quad. -/
def State.quadHarts (s : State) (quad : Nat) (without : List Nat) : List Hart :=
  s.placedHarts.filter fun h => h.core / 4 = quad && !without.contains h.grp

/-- Free HARTNOs of a quad at a setting, ascending. -/
def State.freeSlots (s : State) (quad : Nat) (hpc : Fin 3) (without : List Nat) : List Nat :=
  let used := (s.quadHarts quad without).map Hart.no
  ((List.range 4).flatMap fun c => (List.range (hpcCount hpc)).map fun i => (4 * quad + c) * 4 + i).filter fun n => !used.contains n

/-- The quad, or a core of it, is fenced (R466). -/
def State.quadFenced (s : State) (quad : Nat) : Bool :=
  s.mgmt.fenced.any fun u =>
    match u with
    | .quad q => q == quad
    | .core c => c / 4 == quad
    | .compass | .span | .meridian => true
    | .stack _ => false

def State.lstoreOfGroup (s : State) (g : Group) : Nat := s.lstoreOf g.kern

/-- A quad qualifies for a group of a kernel (R393), with the groups of a list removed from it. -/
def State.quadFits (s : State) (k : Kernel) (quad : Nat) (without : List Nat) : Bool :=
  let gs := s.quadGroups quad without
  decide (quad < quadCount) && !s.quadFenced quad &&
  (s.quadHarts quad without).all (fun h => h.ctl.hpc == k.hdr.hpc) &&
  decide (k.hdr.extent ≤ (s.freeSlots quad k.hdr.hpc without).length) &&
  decide ((gs.map s.lstoreOfGroup).foldl (· + ·) 0 + k.hdr.lstore ≤ 2 ^ 21) &&
  decide ((gs.map fun g => s.barrierCount g.kern).foldl (· + ·) 0 + k.hdr.barriers ≤ 64)

/-! Candidates (R409, R410, R413). -/

/-- The lowest free save slot of a context (R424). -/
def Context.freeSlot (c : Context) : Option Nat := firstFrom (fun i => !c.slots.contains i) c.saven.toNat 0

/-- The group waits to be placed: its context is BOUND or ACTIVE, and it is not held (R413). -/
def State.isCandidate (s : State) (g : Group) : Bool :=
  let c := s.ctx g.ctx
  (c.st == .bound || c.st == .active) && (g.st == .waiting || (g.st == .preempted && !g.held))

/-- The order of candidates (R413). -/
def Group.before (a b : Group) : Bool :=
  if a.eff ≠ b.eff then decide (b.eff < a.eff)
  else if a.st ≠ b.st then a.st == .preempted
  else if a.order ≠ b.order then decide (a.order < b.order)
  else if a.kern ≠ b.kern then decide (a.kern < b.kern)
  else decide (a.g < b.g)

def insertGroup (a : Group) : List Group → List Group
  | [] => [a]
  | b :: r => if a.before b then a :: b :: r else b :: insertGroup a r

/-- The candidates in order. -/
def State.candidates (s : State) : List Group :=
  (s.cmp.groups.filter s.isCandidate).foldr insertGroup []

/-- The group holds a save slot or can take one: without one no quad qualifies for it (R424). -/
def State.hasSlot (s : State) (g : Group) : Bool := g.st != .waiting || (s.ctx g.ctx).freeSlot.isSome

/-- Some quad qualifies for a group. -/
def State.somePlace (s : State) (g : Group) : Bool :=
  s.hasSlot g &&
    (match s.kernel g.kern with
      | some k => (List.range quadCount).any fun q => s.quadFits k q []
      | none => false)

/-- The group to place next: the first candidate that some quad takes; none past a candidate that has waited 1 ms first
in order (R413), or that room is being made for (R414). -/
def State.nextIn (s : State) : List Group → Option Nat
  | [] => none
  | g :: r => if s.somePlace g then some g.key else if g.hold1ms || s.cmp.making.contains g.key then none else s.nextIn r

def State.nextPlacement (s : State) : Option Nat := s.nextIn s.candidates

/-! Choices the manual leaves open. -/

/-- Every sublist of `n` members. -/
def choicesOf {α : Type} : Nat → List α → List (List α)
  | 0, _ => [[]]
  | _ + 1, [] => []
  | n + 1, a :: r => (choicesOf n r).map (fun l => a :: l) ++ choicesOf (n + 1) r

/-- One of a list of choices, as an open value says. -/
def State.choose {α : Type} (s : State) (d : α) (l : List α) : α × State :=
  match l with
  | [] => (d, s)
  | [a] => (a, s)
  | l =>
    let (n, s) := s.useFree
    (l.getD (Config.pick n l.length % l.length) d, s)

/-! Placement (R106, R108, R389, R432). -/

/-- A hart at its place, with no value from before (R108). -/
def placeHart (no ctx kern grp f0 : Nat) : Hart :=
  { Hart.reset with core := no / 4, slot := no % 4, ctx := ctx, kern := kern, grp := grp, f0 := f0, phase := .running }

/-- A hart as placement from WAITING sets it up (R108, R389). -/
def State.initHart (s : State) (k : Kernel) (g : Group) (no f0 : Nat) : Hart :=
  let h := placeHart no g.ctx k.key g.key f0
  let wid := k.hdr.wid g.g f0
  { h with
    x := Vector.ofFn fun i =>
      if i.val = 9 then k.va
      else if i.val = 10 then BitVec.ofNat 64 g.g
      else if 1 ≤ i.val ∧ i.val ≤ 8 then k.hdr.args.getD (i.val - 1) 0
      else 0
    pc := k.hdr.entry
    ctl := { h.ctl with hpc := k.hdr.hpc, srseed := wid, wid := wid, fpkg := s.plat.pkg, fstack := BitVec.ofNat 4 (s.nthActive 0) }
    trap := { h.trap with vec := k.hdr.trap.extractLsb' 3 49 }
    vec := { h.vec with plive := k.hdr.plive ||| 1 } }

/-- Put harts into the machine. -/
def State.addHarts (s : State) (hs : List Hart) : State :=
  { s with harts := s.harts ++ hs }

/-- Take a save slot. -/
def State.takeSlot (s : State) (c i : Nat) : State :=
  let k := s.ctx c
  s.setCtx c { k with slots := setInsert i k.slots }.settle

/-- Placement is an acquire point at system scope (R266): what was released is performed, nothing read ahead stays, the clean
sectors of the quad's L1 data caches are invalidated, and its L1 instruction caches (R90). -/
def State.acquireQuad (s : State) (quad : Nat) : State :=
  let s := s.settleAll
  let ms : MemSys := { s.ms with early := [] }
  { s with ms := ((List.range 4).foldl (fun m c => m.l1Invalidate (4 * quad + c)) ms).codeInvalidate quad }

/-- Room need no longer be made for a group. -/
def State.roomMade (s : State) (g : Nat) : State :=
  { s with cmp := { s.cmp with making := s.cmp.making.filter fun k => k != g } }

/-- Placement from WAITING. -/
def State.placeNew (s : State) (k : Kernel) (g : Group) (quad slot : Nat) (nos : List Nat) : State :=
  let s := s.takeSlot g.ctx slot
  let s := { s with ms := s.ms.lsClear g.key }
  let s := s.addHarts ((List.range nos.length).map fun f => s.initHart k g (nos.getD f 0) f)
  let s := s.onGroup g.key fun g => { g with st := .running, slot := some slot, quad := quad, placed := true, hold1ms := false }
  s.kernelPlaced k.key

/-- A restore that finds its image malformed or uncorrectable: the group takes FAULTED, with one record (R432, R439). -/
def State.restoreFails (s : State) (g : Group) (code : BitVec 8) (wid : Word) : State :=
  let (t, s) := s.readTick
  let r := recordWords (.of code)
    { queue := s.queueOfKernel g.kern, wid := wid, slot := g.slot
      hdr := (match s.kernel g.kern with
        | some k => k.va
        | none => 0), tick := t }
  let s := s.onGroup g.key fun g => { g with st := .faulted, held := false, code := code, hold1ms := false }
  (s.faultKernel g.kern (some g.g) code).record g.ctx r

/-- The group header is malformed (R425, R432). -/
def State.groupImageBad (s : State) (a : Nat) : Bool :=
  let st := s.imageNat a 8
  let w := s.imageNat (a + 0x18) 8
  bits st 0 8 != 1 || bits st 11 53 != 0 || bits w 5 27 != 0

/-- The harts of an image, or the code and WID of the first that cannot be restored. -/
def State.imageHarts (s : State) (k : Kernel) (g : Group) (a : Nat) : List (Nat × Nat) → Except (BitVec 8 × Word) (List Hart)
  | [] => .ok []
  | (f, no) :: r =>
    let area := a + areaOffset k.hdr.hpc f
    if s.spansBad (s.imageSpans area k.hdr.hpc) then .error (0x10, k.hdr.wid g.g f)
    else
      match s.hartOfImage area k.hdr.hpc (placeHart no g.ctx k.key g.key f) with
      | none => .error (0x04, k.hdr.wid g.g f)
      | some h =>
        match s.imageHarts k g a r with
        | .ok l => .ok (h :: l)
        | .error e => .error e

/-- Harts of an image that stay halted leave FLAGW to their continue (R433). -/
def State.takesFlagw (s : State) (a : Nat) : Bool := !bitAt (s.imageNat a 8) 10

/-- Placement from PREEMPTED: the whole image is checked before any hart is restored (R432). -/
def State.placeSaved (s : State) (k : Kernel) (g : Group) (quad : Nat) (nos : List Nat) : State :=
  let a := match g.slot with
    | some i => (s.ctx g.ctx).slotBase i
    | none => 0
  let fs := (List.range nos.length).map fun f => (f, nos.getD f 0)
  if s.ms.poisoned a 0x20 then s.restoreFails g 0x10 0
  else if s.groupImageBad a then s.restoreFails g 0x04 0
  else
    match s.imageHarts k g a fs with
    | .error (c, w) => s.restoreFails g c w
    | .ok hs =>
      if s.spansBad (s.lsSpans a k.hdr.lstore) then s.restoreFails g 0x10 0
      else
        let s := { s with ms := s.ms.lsClear g.key }
        let s := (List.range 4).foldl (fun s c => s.restoreCore a g.key c k.hdr.lstore) s
        let s := fs.foldl (fun s p =>
          let area := a + areaOffset k.hdr.hpc p.1
          if s.takesFlagw area then s.takeFlagw area else s) s
        (s.addHarts hs).onGroup g.key fun g => { g with st := .running, quad := quad, hold1ms := false }

/-- The image of a group, its lines touched: none while a migration record holds it (R240). -/
def State.touchImage (s : State) (g : Group) : Option State :=
  match g.st, g.slot with
  | .preempted, some i =>
    match s.ms.touchFrames ((s.ctx g.ctx).slotBase i) (2 ^ 26) with
    | .ok ms => some { s with ms := ms }
    | _ => none
  | _, _ => some s

/-- Place a group on a quad that qualifies for it. -/
def State.placeGroup (s : State) (g : Group) (quad : Nat) : State :=
  match s.kernel g.kern, s.touchImage g with
  | some k, some t =>
    if !t.quadFits k quad [] || !t.hasSlot g then s
    else
      let (nos, t) := (t.acquireQuad quad).choose [] (choicesOf k.hdr.extent (t.freeSlots quad k.hdr.hpc []))
      let t := t.roomMade g.key
      match g.st with
      | .waiting => t.placeNew k g quad ((t.ctx g.ctx).freeSlot.getD 0) nos
      | .preempted => t.placeSaved k g quad nos
      | _ => s
  | _, _ => s

/-! Stops (R112, R430). -/

/-- A hart has no queued command, piece or unacknowledged store, and owes no element group. -/
def State.settled (s : State) (h : Hart) : Bool :=
  !(s.link.waiting.any fun p => p.src.owner == h.owner && p.src.node.isNone) && !(s.far.pieces.any fun p => p.hart == h.no) &&
    h.engDrained && !h.owes

/-- The head of a hart's queue runs to the end of the element group it stands in (R140). -/
def State.finishOwed (s : State) (no : Nat) : State :=
  let back := s.hart.no
  let s := s.focus no
  (if s.hart.no = no ∧ s.hart.owes = true then s.runGroups 1 else s).focus back

/-- The vector sides of harts come to a boundary, and their far work and engine queues run to their end. -/
def State.drainHarts (s : State) (nos : List Nat) : State :=
  nos.foldl (fun s n => ((s.finishOwed n).drainFar n).runEngines n true) s

/-- Write the image of a group in its slot, and tell of uncorrectable data met (R430 steps 4 to 6, R431). -/
def State.putImage (s : State) (k : Kernel) (g : Group) (hs : List Hart) (a : Nat) : State × Bool :=
  let (s, bad) := hs.foldl (fun (acc : State × Bool) h =>
    if h.phase = .halted then acc
    else
      let (t, b) := acc.1.putChunks (a + areaOffset k.hdr.hpc h.f0) (h.imageChunks false)
      (t, acc.2 || b)) (s, false)
  let bad4 := s.ms.lsBad.any fun w => w / 2 ^ 17 == g.key
  let (s, bad2) := s.putChunks a ((List.range 4).flatMap fun c => s.ms.lsChunks g.key c k.hdr.lstore)
  let gstat := 1 + (if g.reason = .replay then 2 ^ 8 else 0) + (if g.reason = .fault then 2 ^ 9 else 0) + 2 ^ 10
  let (s, bad3) := s.putChunks a [(0, wordBytes
    [BitVec.ofNat 64 gstat, k.va, BitVec.ofNat 64 g.g, BitVec.ofNat 64 (k.hdr.extent + k.hdr.lstore * 2 ^ 32)])]
  (s, bad || bad2 || bad3 || bad4)

/-- The stop is complete: image, records, resources (R106, R112, R430). -/
def State.endStop (s : State) (k : Kernel) (g : Group) : State :=
  let hs := s.groupHarts g.key
  let a := match g.slot with
    | some i => (s.ctx g.ctx).slotBase i
    | none => 0
  let (s, bad) := s.putImage k g hs a
  let bad := bad || hs.any Hart.imageSpoilt
  let s := (s.removeHarts g.key)
  let s := { s with ms := s.ms.lsClear g.key }
  let (n, s) := s.stamp
  let s := s.onGroup g.key fun g =>
    { g with
      st := if g.reason = .fault then .faulted else .preempted
      held := g.reason == .replay
      recs := []
      eff := k.base
      aged := 0
      order := n }
  let s := g.recs.foldl (fun s r => s.record g.ctx r.2) s
  let s := (if g.reason = .fault then s.faultKernel g.kern (some g.g) g.code else s).tellFaulted g.kern
  if bad then s.faultContext g.ctx else s

/-- Complete the stop of a group whose queues and far work have drained. -/
def State.completeStop (s : State) (key : Nat) : State :=
  match s.group key with
  | none => s
  | some g =>
    if g.st ≠ .stopping then s
    else
      let hs := s.groupHarts key
      let s := (s.drainHarts (hs.map Hart.no)).flushHarts hs
      if !(s.groupHarts key).all s.settled then s
      else
        match s.group key, s.kernel g.kern with
        | some g, some k => s.endStop k g
        | _, _ => s

/-! Preemption and aging (R410, R414). -/

/-- The first candidate that no quad takes. -/
def State.blocked (s : State) : Option Group := s.candidates.find? fun g => !s.somePlace g

/-- Sublists of a list, each shorter one's choices first. -/
def sublistsOf {α : Type} (l : List α) : List (List α) := (List.range (l.length + 1)).flatMap fun n => choicesOf n l

/-- The groups of a quad that may be preempted for a candidate: those of lower effective priority; one that may retire does so
first (R107). -/
def State.victims (s : State) (c : Group) (quad : Nat) : List Group :=
  s.cmp.groups.filter fun g => g.st == .running && g.quad == quad && decide (g.eff < c.eff) && !s.mayRetire g

/-- Room is being made for a candidate: the groups preempted for it have not all stopped (R414). -/
def State.makingRoom (s : State) (c : Group) : Bool :=
  s.cmp.making.contains c.key && s.cmp.groups.any fun g => g.st == .stopping

/-- The candidate that preemption may make room for: the first that no quad takes (R414). -/
def State.roomFor (s : State) : Option Group := s.blocked.filter fun c => !s.makingRoom c && s.hasSlot c

/-- Preempt groups of a quad for the first candidate that cannot be placed; which of them is open (R414). -/
def State.preemptFor (s : State) (quad : Nat) : State :=
  match s.roomFor with
  | none => s
  | some c =>
    match s.kernel c.kern with
    | none => s
    | some k =>
      let keys := (s.victims c quad).map Group.key
      let (l, s) := s.choose [] ((sublistsOf keys).filter fun l => !l.isEmpty && s.quadFits k quad l)
      if l.isEmpty then s
      else l.foldl (fun s g => s.stopGroup g .preempt 0 []) { s with cmp := { s.cmp with making := addNew s.cmp.making c.key } }

/-- The effective priority of a kernel (R409). -/
def State.kernelPriority (s : State) (k : Nat) : Nat :=
  (s.cmp.groups.filter fun g => g.kern = k).foldl (fun m g => max m g.eff) 0

/-- Another kernel's group that could take this group's quad (R395). -/
def State.yieldsTo (s : State) (g : Group) : Bool :=
  s.cmp.groups.any fun c =>
    c.kern != g.kern && s.isCandidate c && s.hasSlot c && decide (s.kernelPriority g.kern ≤ c.eff) &&
      (match s.kernel c.kern with
        | some k => s.quadFits k g.quad [g.key]
        | none => false)

end Sys2Proof.Machine
end

