-- ==== Sys2Proof/Machine/ContextOps.lean ====
section
/-! DEFINITION. Contexts: commands, replies, debug commands, the fault ring (R420 to R423, R440, R441, R447). -/

namespace Sys2Proof.Machine

/-- A command, reply or debug command that is refused (R420). -/
def State.ctxRefuse (s : State) (c : Nat) : State := s.setCtx c { s.ctx c with refused := true }

/-- Resident contexts: BOUND, ACTIVE, PREEMPTED (R420). -/
def CtxState.resident (t : CtxState) : Bool := t == .bound || t == .active || t == .preempted

def State.residents (s : State) : Nat := (s.cmp.contexts.filter fun p => p.2.st.resident).length

/-- Every queue that names a context is DISABLED. -/
def State.queuesOff (s : State) (c : Nat) : Bool := s.cmp.queues.all fun p => !(p.2.en && p.2.ctx.toNat == c)

/-- The conditions of a bind (R421). -/
def State.bindOk (s : State) (k : Context) : Bool :=
  let save := k.savebase.toNat * 2 ^ 16
  let fr := k.ring.base.toNat * 64
  let size := 64 * 2 ^ k.ring.log2n.toNat
  s.backed (k.ptroot.toNat * 2 ^ 16) (2 ^ 16) &&
  decide (1 ≤ k.saven.toNat) && decide (k.saven.toNat ≤ 4096) && s.backed save (k.saven.toNat * 2 ^ 26) &&
  k.ring.en && decide (4 ≤ k.ring.log2n.toNat) && decide (k.ring.log2n.toNat ≤ 12) && fr % size == 0 && s.backed fr size &&
  decide (s.residents < 256)

/-- Remove every TLB entry of a context (R238). -/
def State.dropTlb (s : State) (c : Nat) : State := { s with ms := { s.ms with tlb := s.ms.tlb.filter fun e => e.ctx ≠ c } }

/-- Create (R422). -/
def State.ctxCreate (s : State) (c : Nat) : State :=
  if (s.ctx c).st = .free then s.setCtx c { Context.reset with st := .created } else s.ctxRefuse c

/-- Bind (R421, R422). -/
def State.ctxBind (s : State) (c : Nat) : State :=
  let k := s.ctx c
  if k.st = .created ∧ s.bindOk k = true then s.setCtx c { k with st := .bound } else s.ctxRefuse c

/-- Unbind (R422). -/
def State.ctxUnbind (s : State) (c : Nat) : State :=
  let k := s.ctx c
  if k.st = .bound ∧ s.queuesOff c = true then (s.setCtx c { k with st := .created }).dropTlb c else s.ctxRefuse c

/-- Suspend (R422): every placed group of the context is preempted. -/
def State.ctxSuspend (s : State) (c : Nat) : State :=
  let s := s.retireDue fun g => g.ctx == c
  let k := s.ctx c
  match k.st with
  | .bound | .active =>
    ((s.cmp.groups.filter fun g => g.ctx = c).map Group.key).foldl (fun s g => s.stopGroup g .preempt 0 [])
      (s.setCtx c { k with st := .preempted })
  | .preempted => s
  | _ => s.ctxRefuse c

/-- Resume (R422). -/
def State.ctxResume (s : State) (c : Nat) : State :=
  let k := s.ctx c
  if k.st = .preempted then s.setCtx c { k with st := if k.slots.isEmpty then .bound else .active } else s.ctxRefuse c

/-- Reset (R422): every save slot is freed with its image. R420's limit of 256 resident contexts is a condition of Bind alone.
DESIGN CHOICE (log 54). -/
def State.ctxReset (s : State) (c : Nat) : State :=
  let k := s.ctx c
  if k.st = .faulted ∧ (s.cmp.groups.any fun g => g.ctx = c && g.st == .stopping) = false then
    { s with cmp := { s.cmp with groups := s.cmp.groups.filter fun g => g.ctx ≠ c } }.setCtx c
      { k with st := .bound, slots := [] }
  else s.ctxRefuse c

/-- Destroy (R422). -/
def State.ctxDestroy (s : State) (c : Nat) : State :=
  let k := s.ctx c
  if (k.st = .created ∨ k.st = .bound ∨ k.st = .faulted) ∧ s.queuesOff c = true ∧ k.slots = [] then
    s.setCtx c { k with st := .destroying }
  else s.ctxRefuse c

/-- The invalidation of a destroyed context's entries completes (R422). -/
def State.ctxFree (s : State) (c : Nat) : State :=
  if (s.ctx c).st = .destroying then (s.setCtx c { s.ctx c with st := .free }).dropTlb c else s

/-- A write of CTXCMD (R420, R423): 000 is no command. -/
def State.ctxCommand (s : State) (c op : Nat) : State :=
  match op with
  | 0 => s
  | 1 => s.ctxCreate c
  | 2 => s.ctxBind c
  | 3 => s.ctxUnbind c
  | 4 => s.ctxSuspend c
  | 5 => s.ctxResume c
  | 6 => s.ctxReset c
  | _ => s.ctxDestroy c

/-! Replies (R441). -/

/-- The group in a save slot of a context. -/
def State.groupInSlot (s : State) (c slot : Nat) : Option Group :=
  s.cmp.groups.find? fun g => g.ctx = c && g.slot == some slot

def State.replyResume (s : State) (c slot : Nat) : State :=
  match s.groupInSlot c slot with
  | some g => if g.st = .preempted ∧ g.held = true then s.onGroup g.key fun g => { g with held := false, aged := 0 } else s.ctxRefuse c
  | none => s.ctxRefuse c

def State.replyAbort (s : State) (c slot : Nat) : State :=
  match s.groupInSlot c slot with
  | some g => if g.st = .preempted ∧ g.held = true then s.faultGroup g.key 0x05 [] else s.ctxRefuse c
  | none => s.ctxRefuse c

def State.replyRelease (s : State) (c slot : Nat) : State :=
  match s.groupInSlot c slot with
  | some g =>
    if g.st = .faulted then
      { s with cmp := { s.cmp with groups := s.cmp.groups.filter fun q => q.key ≠ g.key } }.freeSaveSlot c slot
    else s.ctxRefuse c
  | none => s.ctxRefuse c

/-- A write of REPLY. -/
def State.reply (s : State) (c op slot : Nat) : State :=
  match op with
  | 1 => s.replyResume c slot
  | 2 => s.replyAbort c slot
  | 3 => s.replyRelease c slot
  | _ => s

/-! Continuing a halted hart (R447). -/

/-- The group of a hart takes FAULTED at a continue, with one record. -/
def State.reloadFails (s : State) (g : Group) (h : Hart) (code : BitVec 8) : State :=
  let (r, s) := s.hartRecord h (.of code) 0 false false false none
  s.faultGroup g.key code [(h.f0, r)]

/-- A placed, halted hart is reloaded from its area; a malformed image, or one with uncorrectable data, faults its group
(R432). -/
def State.reload (s : State) (g : Group) (h : Hart) (a : Nat) : State :=
  if s.spansBad (s.imageSpans a h.ctl.hpc) then s.reloadFails g h 0x10
  else
    match s.hartOfImage a h.ctl.hpc h with
    | some k => (s.takeFlagw a).onHart h.no fun _ => { k with phase := if k.phase = .halted then .running else k.phase }
    | none => s.reloadFails g h 0x04

/-- CONT = 1 (R447): the write of the image faults the context where it meets uncorrectable data (R431), and an image that a PENDING record holds keeps the continue an event to come (R240). -/
def State.debugContinue (s : State) (c slot f0 : Nat) : State :=
  match s.groupInSlot c slot with
  | none => s.ctxRefuse c
  | some g =>
    match s.kernel g.kern with
    | none => s.ctxRefuse c
    | some k =>
      let a := (s.ctx c).slotBase slot + areaOffset k.hdr.hpc f0
      if k.hdr.extent ≤ f0 then s.ctxRefuse c
      else
        match s.ms.touchFrames a (0x900000 / hpcCount k.hdr.hpc) with
        | .ok ms =>
          let s := { s with ms := ms }
          if g.st = .running then
            match (s.groupHarts g.key).find? fun h => h.f0 = f0 && h.phase == .halted with
            | some h => s.reload g h a
            | none => s.ctxRefuse c
          else if s.ms.poisoned a 8 then s.faultContext c
          else if bitAt (s.imageNat a 8) 10 then { s with ms := s.ms.cwriteNat a 8 (putBits (s.imageNat a 8) 10 1 0) }
          else s.ctxRefuse c
        | _ => { s with agenda := s.agenda ++ [.event (.dbgcmdCont c slot f0)] }

/-! The fault ring (R421, R440). -/

def FaultRing.consume (r : FaultRing) (v : Word) : FaultRing :=
  let c : BitVec 32 := v.setWidth 32
  if 2 ^ r.log2n.toNat < (r.prod - c).toNat then r else { r with cons := c }

/-- The oldest held record is written once there is space. -/
def State.drainRecord (s : State) (c : Nat) : State :=
  let k := s.ctx c
  match k.ring.held with
  | ws :: r => if k.ring.full then s else (s.setCtx c { k with ring := { k.ring with held := r } }).putRecord c ws
  | [] => s

/-! Events. -/

/-- CTX_CREATE (R422). -/
def execCtxCreate (c : Nat) (s : State) : Result := .next (s.ctxCreate c)

/-- CTX_BIND (R421). -/
def execCtxBind (c : Nat) (s : State) : Result := .next (s.ctxBind c)

/-- CTX_UNBIND (R422). -/
def execCtxUnbind (c : Nat) (s : State) : Result := .next (s.ctxUnbind c)

/-- CTX_SUSPEND (R422). -/
def execCtxSuspend (c : Nat) (s : State) : Result := .next (s.ctxSuspend c)

/-- CTX_RESUME (R422). -/
def execCtxResume (c : Nat) (s : State) : Result := .next (s.ctxResume c)

/-- CTX_RESET (R422). -/
def execCtxReset (c : Nat) (s : State) : Result := .next (s.ctxReset c)

/-- CTX_DESTROY (R422). -/
def execCtxDestroy (c : Nat) (s : State) : Result := .next (s.ctxDestroy c)

/-- CTX_FREE (R422). -/
def execCtxFree (c : Nat) (s : State) : Result := .next (s.ctxFree c)

/-- REPLY_RESUME (R441). -/
def execReplyResume (c slot : Nat) (s : State) : Result := .next (s.replyResume c slot)

/-- REPLY_ABORT (R441). -/
def execReplyAbort (c slot : Nat) (s : State) : Result := .next (s.replyAbort c slot)

/-- REPLY_RELEASE (R441). -/
def execReplyRelease (c slot : Nat) (s : State) : Result := .next (s.replyRelease c slot)

/-- DBGCMD_CONT (R447). -/
def execDbgcmdCont (c slot f0 : Nat) (s : State) : Result := .next (s.debugContinue c slot f0)

/-- FRCONS_WRITE (R421). -/
def execFrconsWrite (c : Nat) (value : Word) (s : State) : Result :=
  .next (s.setCtx c { s.ctx c with ring := (s.ctx c).ring.consume value })

/-- FAULT_RECORD_DRAIN (R440). -/
def execFaultRecordDrain (c : Nat) (s : State) : Result := .next (s.drainRecord c)

end Sys2Proof.Machine
end

