-- ==== Sys2Proof/Machine/Control.lean ====
section
/-! DEFINITION. Control transfer, SETVL, SETRC, and the state registers (R148 to R150, R161, R162, R164 to R167). -/

namespace Sys2Proof.Machine

/-! Control transfer (R148 to R150). -/

/-- The target of an offset (R81). -/
def target (pc : Word) (off : BitVec 29) : Word := pc + off.signExtend 64 * 8

/-- BR (R148). -/
def execBr (g : Guard) (off : BitVec 29) (s : State) : Result :=
  .next (s.frontEnd (.br g off) g 8 fun s => .goto s (target s.hart.pc off))

/-- CALL (R148). -/
def execCall (g : Guard) (d : XReg) (off : BitVec 29) (s : State) : Result :=
  .next (s.frontEnd (.call g d off) g 8 fun s =>
    .goto { s with hart := s.hart.setX d (s.hart.pc + 8) } (target s.hart.pc off))

/-- JR (R148). -/
def execJr (g : Guard) (d a : XReg) (s : State) : Result :=
  .next (s.frontEnd (.jr g d a) g 8 fun s =>
    let t := s.hart.getX a
    if t.setWidth 3 ≠ 0 then .fault { FaultInfo.of 0x08 with va := t }
    else .goto { s with hart := s.hart.setX d (s.hart.pc + 8) } t)

/-- ADDPC (R148). -/
def execAddpc (g : Guard) (d : XReg) (off : BitVec 29) (s : State) : Result :=
  .next (s.frontEnd (.addpc g d off) g 8 fun s =>
    .next { s with hart := s.hart.setX d (target s.hart.pc off) })

/-- BSTRIP (R150). -/
def execBstrip (g : Guard) (d : XReg) (off : BitVec 29) (s : State) : Result :=
  .next (s.frontEnd (.bstrip g d off) g 8 fun s =>
    let n := s.hart.getX d
    let vl := s.hart.ctl.vl.setWidth 64
    if vl.ult n then .goto { s with hart := s.hart.setX d (n - vl) } (target s.hart.pc off)
    else .next { s with hart := s.hart.setX d 0 })

/-! Vector length and rows (R161, R162). -/

/-- The control registers after SETVL, for VLENB bytes and the requested length (R121, R161). -/
def CtlRegs.setvl (c : CtlRegs) (vlenb avl : Nat) (t : Fmt) (blk step : Bool) : CtlRegs :=
  let vlmax := 8 * vlenb / (rcRows c.rc * fmtWidth t)
  let unit := if blk then 32 else 1
  let vl := min (ceilDiv avl unit * unit) vlmax
  { c with
    vl := BitVec.ofNat 18 vl
    vtail := BitVec.ofNat 5 (vl - avl)
    vtag := t
    vblk := blk
    sc := if step then c.sc + 1 else c.sc }

/-- SETVL (R161). -/
def execSetvl (g : Guard) (d a : XReg) (t : Fmt) (blk step : Bool) (s : State) : Result :=
  .next (s.frontEnd (.setvl g d a t blk step) g 8 fun s =>
    if blk && !t.blockOk then .fault (.of 0x04)
    else
      let h := s.hart
      let c := h.ctl.setvl h.vlenb (h.getX a).toNat t blk step
      .next { s with hart := { h with ctl := c }.setX d (c.vl.setWidth 64 - c.vtail.setWidth 64) })

/-- SETRC (R162). -/
def execSetrc (g : Guard) (code : Fin 6) (s : State) : Result :=
  .next (s.frontEnd (.setrc g code) g 8 fun s =>
    .next { s with hart := { s.hart with ctl := { s.hart.ctl with rc := code, vl := 0, vtail := 0 } } })

/-! State registers (R86, R119, R164, R165). -/

/-- The value of a state register, and the machine after the read (TICK advances it). -/
def State.readSr (s : State) (r : SReg) : Word × State :=
  let h := s.hart
  let c := h.ctl
  match r with
  | .vl => (c.vl.setWidth 64, s)
  | .rc => (BitVec.ofNat 64 (rcRows c.rc), s)
  | .vstart => (c.vstart.setWidth 64, s)
  | .vtail => (c.vtail.setWidth 64, s)
  | .vcfg => (c.vcfg, s)
  | .sc => (c.sc.setWidth 64, s)
  | .fflags => (c.fflags.setWidth 64, s)
  | .iflags => (c.iflags.setWidth 64, s)
  | .frm => (BitVec.ofNat 64 c.frm.code, s)
  | .srseed => (c.srseed, s)
  | .srctr => (c.srctr, s)
  | .fsite => (c.fsiteWord, s)
  | .wid => (c.wid, s)
  | .hartno => (BitVec.ofNat 64 h.no, s)
  | .ctgen => ((s.ctx h.ctx).ctgen, s)
  | .plive => (h.frontVec.plive.setWidth 64, s)
  | .tick => s.readTick
  | .trapvec => (h.trap.vecWord, s)
  | .epc => (h.trap.epc, s)
  | .ecause => (h.trap.ecause, s)
  | .einfo => (h.trap.einfo, s)

/-- MFS (R164). -/
def execMfs (g : Guard) (d : XReg) (r : SReg) (s : State) : Result :=
  .next (s.frontEnd (.mfs g d r) g 8 fun s =>
    let (v, s) := s.readSr r
    .next { s with hart := s.hart.setX d v })

/-- A write of ECAUSE: every field but INH (R436). -/
def TrapRegs.setEcause (t : TrapRegs) (v : Word) : TrapRegs :=
  { t with
    trapno := v.extractLsb' 32 16
    ret := v.getLsbD 24
    qpos := v.extractLsb' 16 6
    reason := v.extractLsb' 8 8
    code := v.setWidth 8 }

/-- The hart after a write of a state register; reserved and read-only fields ignore the written bits (R5, R165, R436). -/
def Hart.writeSr (h : Hart) (r : SReg) (v : Word) : Hart :=
  let c := h.ctl
  match r with
  | .vstart => { h with ctl := { c with vstart := v.setWidth 18 } }
  | .sc => { h with ctl := { c with sc := v.setWidth 32 } }
  | .fflags => { h with ctl := { c with fflags := v.setWidth 5 } }
  | .iflags => { h with ctl := { c with iflags := v.setWidth 2 } }
  | .frm =>
    { h with ctl :=
      match RMode.ofCode (v.setWidth 3) with
      | some m => { c with frm := m }
      | none => c }
  | .srseed => { h with ctl := { c with srseed := v } }
  | .srctr => { h with ctl := { c with srctr := v } }
  | .fsite => { h with ctl := { c with fpkg := v.extractLsb' 8 10, fstack := v.setWidth 4 } }
  | .trapvec => { h with trap := { h.trap with vec := v.extractLsb' 3 49 } }
  | .epc => { h with trap := { h.trap with epc := v } }
  | .ecause => { h with trap := h.trap.setEcause v }
  | .einfo => { h with trap := { h.trap with einfo := v } }
  | .vl | .rc | .vtail | .vcfg | .wid | .hartno | .ctgen | .plive | .tick => h

/-- MTS (R165). A write of PLIVE goes through the vector queue (R167); a reserved mode for FRM is refused (R60). -/
def execMts (g : Guard) (r : SReg) (a : XReg) (s : State) : Result :=
  .next (if r = .plive then s.issueVq (.mts g r a)
    else s.frontEnd (.mts g r a) g 8 fun s =>
      let v := s.hart.getX a
      if r = .frm ∧ RMode.ofCode (v.setWidth 3) = none then .fault (.of 0x04)
      else .next { s with hart := s.hart.writeSr r v })

end Sys2Proof.Machine
end

