-- ==== Sys2Proof/Machine/Engine.lean ====
section
/-! DEFINITION. The engine commands, QFENCE, and the events of the engine queues (R322 to R342, R360). -/

namespace Sys2Proof.Machine

/-- The second word of a command that has none of this kind. -/
def noCopyWord : CopyWord := ⟨none, 0, 0, 0, 0, 0⟩
def noRowsWord : RowsWord := ⟨.n16, 0, 0, 0⟩

/-- ECPY (R332 to R334). -/
def execEcpy (g : Guard) (e : EngMod) (d a b c : XReg) (w2 : CopyWord) (s : State) : Result :=
  .next (s.frontEnd (.ecpy g e d a b c w2) g 16 fun s => s.issueEng e (s.hart.engCmd .ecpy e d a b c w2 noRowsWord))

/-- EMCAST (R332 to R335). -/
def execEmcast (g : Guard) (e : EngMod) (d a b c : XReg) (w2 : CopyWord) (s : State) : Result :=
  .next (s.frontEnd (.emcast g e d a b c w2) g 16 fun s => s.issueEng e (s.hart.engCmd .emcast e d a b c w2 noRowsWord))

/-- EFILL (R332, R333). -/
def execEfill (g : Guard) (e : EngMod) (d a b c : XReg) (w2 : CopyWord) (s : State) : Result :=
  .next (s.frontEnd (.efill g e d a b c w2) g 16 fun s => s.issueEng e (s.hart.engCmd .efill e d a b c w2 noRowsWord))

/-- EGATH (R336 to R338). -/
def execEgath (g : Guard) (e : EngMod) (d a b c : XReg) (w2 : RowsWord) (s : State) : Result :=
  .next (s.frontEnd (.egath g e d a b c w2) g 16 fun s => s.issueEng e (s.hart.engCmd .egath e d a b c noCopyWord w2))

/-- ESCAT (R336 to R338). -/
def execEscat (g : Guard) (e : EngMod) (d a b c : XReg) (w2 : RowsWord) (s : State) : Result :=
  .next (s.frontEnd (.escat g e d a b c w2) g 16 fun s => s.issueEng e (s.hart.engCmd .escat e d a b c noCopyWord w2))

/-- Every command of the named queues has completed (R342). -/
def Hart.queuesDone (h : Hart) (mask : BitVec 4) : Bool :=
  (List.range 4).all fun q => !mask.getLsbD q || (h.queue q).cmds.isEmpty

/-- QFENCE (R342). -/
def execQfence (g : Guard) (mask : BitVec 4) (s : State) : Result :=
  .next (s.frontEnd (.qfence g mask) g 8 fun s =>
    if mask = 0 then .next s
    else if s.hart.queuesDone mask then .next s.dropClean
    else .wait .qfence)

/-- ENGINE_CMD_START (R327): the head begins. -/
def execEngineCmdStart (h q : Nat) (s : State) : Result := .next (s.engStart h q false)

/-- ENGINE_RANGE_RELEASE (R328): a held head may proceed. -/
def execEngineRangeRelease (h q : Nat) (s : State) : Result :=
  .next (match s.findHart h with
    | some k =>
      match (k.queue q).st, (k.queue q).cmds with
      | .held, c :: _ => if k.rangeHeld c then s else s.onHart h fun k => k.setQueue q { k.queue q with st := .running }
      | _, _ => s
    | none => s)

/-- ENGINE_CMD_COMPLETE (R327). -/
def execEngineCmdComplete (h q : Nat) (s : State) : Result := .next (s.engComplete h q)

/-- Bytes of a command that are performed and not subtracted (R339). -/
def State.engPerformed (s : State) (h : Hart) (q : Nat) (c : EngCmd) : Nat :=
  if s.engUnacked h q c then 0 else c.landed - (c.total - c.left)

/-- BARRIER_SUBTRACT (R360): a part of a command's bytes, performed already. -/
def execBarrierSubtract (h q bytes : Nat) (s : State) : Result :=
  .next (match s.findHart h with
    | some k =>
      match (k.queue q).cmds with
      | c :: _ =>
        if c.started && decide (0 < bytes) && decide (bytes ≤ min c.left (s.engPerformed k q c)) then s.engSubtract h q bytes else s
      | [] => s
    | none => s)

end Sys2Proof.Machine
end

