-- ==== Sys2Proof/Machine/FarIssue.lean ====
section
/-! DEFINITION. Far-only instructions (R306 to R321): each is entered in the vector queue and dispatched from its head. -/

namespace Sys2Proof.Machine

/-- R306 to R309. -/
def execFredadd (g : Guard) (elem : Bool) (t : Fmt) (a b : XReg) (s : State) : Result :=
  .next (s.issueVq (.fredadd g elem t a b))

/-- R306 to R309. -/
def execFredmax (g : Guard) (elem : Bool) (t : Fmt) (a b : XReg) (s : State) : Result :=
  .next (s.issueVq (.fredmax g elem t a b))

/-- R310, R311. -/
def execFscadd (g : Guard) (rne : Bool) (a : XReg) (b c : VReg) (s : State) : Result :=
  .next (s.issueVq (.fscadd g rne a b c))

/-- R312 to R314. -/
def execFembag (g : Guard) (rne wgt : Bool) (d a : VReg) (b : XReg) (c : VReg) (s : State) : Result :=
  .next (s.issueVq (.fembag g rne wgt d a b c))

/-- R315 to R320. -/
def execFatt (g : Guard) (rne zm acc : Bool) (d a : VReg) (b : XReg) (s : State) : Result :=
  .next (s.issueVq (.fatt g rne zm acc d a b))

/-- R321. -/
def execFmerge (g : Guard) (rne zm norm : Bool) (d a : VReg) (s : State) : Result :=
  .next (s.issueVq (.fmerge g rne zm norm d a))

end Sys2Proof.Machine
end

