-- ==== Sys2Proof/Machine/Launch.lean ====
section
/-! DEFINITION. The launch header, its checks, acceptance of a kernel, and KLAUNCH (R386 to R392, R394). -/

namespace Sys2Proof.Machine

/-! The header (R387), held as a string of 256 bytes. -/

def hdrWidth (h i : Nat) : Nat := bits h (8 * (0x18 + i)) 8
def hdrNf (h : Nat) : Nat := bits h (8 * 0x1E) 8
def hdrExt (h i : Nat) : Nat := bits h (8 * (0x20 + 4 * i)) 32
def hdrHpc (h : Nat) : Nat := bits h (8 * 0x38) 2
def hdrWord (h off : Nat) : Nat := bits h (8 * off) 64

/-- A reserved field is nonzero. -/
def hdrReserved (h : Nat) : Bool :=
  bits h 8 56 != 0 || bits h (8 * 0x1F) 8 != 0 || bits h (8 * 0x38 + 2) 6 != 0 || bits h (8 * 0x40 + 3) 5 != 0 ||
    bits h (8 * 0x42) 48 != 0 || bits h (8 * 0x8C) 32 != 0 || bits h (8 * 0x98) (8 * 0x68) != 0

/-- An address at which no instruction can stand (R390). -/
def badCode (a : Nat) : Bool := a % 8 != 0 || decide (2 ^ 52 ≤ a)

/-- The checks of the WID fields (R390 code 0x03). -/
def hdrFieldsBad (h : Nat) : Bool :=
  let nf := hdrNf h
  nf == 0 || decide (6 < nf) ||
    ((List.range 6).any fun i =>
      if i < nf then hdrExt h i == 0 || decide (2 ^ hdrWidth h i < hdrExt h i) else hdrWidth h i != 0 || hdrExt h i != 0) ||
    decide (64 < ((List.range nf).map fun i => hdrWidth h i).foldl (· + ·) 0) ||
    decide (2 ^ 32 < ((List.range (nf - 1)).map fun i => hdrExt h (i + 1)).foldl (· * ·) 1)

/-- Harts per core of an encoded HPC. -/
def hdrHpcCode (n : Nat) : Fin 3 := if n = 0 then 0 else if n = 1 then 1 else 2

/-- The refusal code of a header (R390 checks 0x01 to 0x06), 0 for none. -/
def hdrRefuse (h nact : Nat) : BitVec 8 :=
  let entry := hdrWord h 8
  let trap := hdrWord h 0x10
  let ls := bits h (8 * 0x3C) 32
  let nb := bits h (8 * 0x39) 8
  if bits h 0 8 ≠ 1 ∨ hdrReserved h = true then 0x01
  else if entry = 0 ∨ badCode entry = true ∨ badCode trap = true then 0x02
  else if hdrFieldsBad h then 0x03
  else if hdrHpc h = 3 ∨ 4 < hdrWidth h 0 ∨ 4 * hpcCount (hdrHpcCode (hdrHpc h)) < hdrExt h 0 then 0x04
  else if ls % 64 ≠ 0 ∨ 2 ^ 21 < ls ∨ 64 < nb ∨ ls < 64 * nb then 0x05
  else if nact < bits h (8 * 0x41) 8 then 0x06
  else 0

/-- The Compass's copy of a header. -/
def hdrOf (h : Nat) : LaunchHeader where
  entry := BitVec.ofNat 64 (hdrWord h 8)
  trap := BitVec.ofNat 64 (hdrWord h 0x10)
  widths := (List.range (hdrNf h)).map fun i => hdrWidth h i
  exts := (List.range (hdrNf h)).map fun i => hdrExt h i
  hpc := hdrHpcCode (hdrHpc h)
  barriers := bits h (8 * 0x39) 8
  plive := BitVec.ofNat 16 (bits h (8 * 0x3A) 16)
  lstore := bits h (8 * 0x3C) 32
  prio := bits h (8 * 0x40) 3
  minstk := bits h (8 * 0x41) 8
  args := (List.range 8).map fun j => BitVec.ofNat 64 (hdrWord h (0x48 + 8 * j))

/-! Kernel slots (R391). -/

/-- A kernel holds its slot: until it completes, or until the stops of a faulted one are done and its accesses performed. -/
def Kernel.holdsSlot (k : Kernel) : Bool :=
  match k.st with
  | .complete => false
  | .faulted => !k.told
  | _ => true

/-- All 2,048 slots are in use (R390). -/
def State.slotsFull (s : State) : Bool := decide (2048 ≤ (s.cmp.kernels.filter Kernel.holdsSlot).length)

/-- A launch as the Compass receives it: the context, the header's address, the priority it may not fall below, and the
queue and node that led to it (R406, R439). -/
structure LaunchReq where
  ctx : Nat
  va : Word
  prio : Nat
  queue : Option Nat
  node : Option Word
  deriving DecidableEq, Repr

/-- The header's page lacks W. -/
def State.headerLocked (s : State) (ctx : Nat) (va : Word) : Bool :=
  match s.resolve (compassAgent ctx) {} va.toNat 0x100 with
  | .ok ps => !ps.all fun p => (p.leaf.map Leaf.w).getD false
  | _ => false

/-- A header that passes its checks becomes a kernel (R391). -/
def State.acceptKernel (s : State) (r : LaunchReq) (h : Nat) : Nat × State :=
  let key := s.cmp.nextKey
  let hdr := hdrOf h
  let k : Kernel := ⟨key, r.ctx, r.va, hdr, .pending, 0, none, 0, max r.prio hdr.prio, r.queue, r.node, true⟩
  let s := { s with cmp := { s.cmp with kernels := s.cmp.kernels ++ [k], nextKey := key + 1 } }
  (key, (s.putKstatus k).putRetired key)

/-- What became of a launch: accepted with the kernel's key, refused with a code, without a free kernel slot, with the header
read, or its header cannot be read. -/
inductive Launched where
  | accepted (key : Nat) (s : State)
  | refused (code : BitVec 8) (s : State)
  | full (h : Nat) (s : State)
  | unread (x : Acc Unit)

/-- A refusal other than 0x08 writes KSTATUS and GRETIRED (R387, R390). -/
def State.refuseKernel (s : State) (ctx : Nat) (va : Word) (code : BitVec 8) : State :=
  (s.compassPut ctx (va.toNat + 0x88) 4 (6 + code.toNat * 2 ^ 8)).compassPut ctx (va.toNat + 0x90) 8 0

/-- A launch (R390): the checks in their order, that of the page first. -/
def State.launch (s : State) (r : LaunchReq) : Launched :=
  if s.headerLocked r.ctx r.va then .refused 0x08 s
  else
    match s.readAt (compassAgent r.ctx) { r := true } false r.va.toNat 0x100 with
    | .fault f => .unread (.fault f)
    | .held p => .unread (.held p)
    | .ok (bs, s) =>
      let h := leNat bs
      let code := hdrRefuse h s.nact
      if code ≠ 0 then .refused code (s.refuseKernel r.ctx r.va code)
      else if s.slotsFull || s.mgmt.locked then .full h s
      else
        let (key, s) := s.acceptKernel r h
        .accepted key s

/-- KLAUNCH (R394): the front end's checks, then the wait for the Compass's answer, then the answer in xd. -/
def execKlaunch (g : Guard) (d a : XReg) (s : State) : Result :=
  .next (s.frontEnd (.klaunch g d a) g 8 fun s =>
    let x := s.hart.getX a
    (s.resolve { s.agent with grp := none } { r := true, align := 256 } x.toNat 0x100).act fun ps =>
      if s.partsPoisoned ps then .fault ⟨0x10, 0, x, 0, 0⟩
      else
        match s.frontRelease .device with
        | none => .wait .klaunch
        | some t =>
          if s.hart.wait ≠ .klaunch then .wait .klaunch
          else
            match t.launch ⟨s.hart.ctx, x, 0, s.queueOfKernel s.hart.kern, none⟩ with
            | .accepted _ t => .next { t with hart := t.hart.setX d 0 }
            | .refused c t => .next { t with hart := t.hart.setX d (c.setWidth 64) }
            | .full _ t =>
              let t := t.refuseKernel s.hart.ctx x 0x07
              .next { t with hart := t.hart.setX d 7 }
            | .unread (.fault f) => .fault f
            | .unread _ => .wait .klaunch)

end Sys2Proof.Machine
end

