-- ==== Sys2Proof/Machine/GraphOps.lean ====
section
/-! DEFINITION. Work queues and command graphs: states, nodes, edges, the work of each node type (R397 to R408, R411). -/

namespace Sys2Proof.Machine

/-! Queue states (R400). -/

inductive QueueState where
  | disabled | idle | ready | running | blocked | suspended | faulted
  deriving DecidableEq, Repr

def QueueState.code : QueueState → Nat
  | .disabled => 0 | .idle => 1 | .ready => 2 | .running => 3 | .blocked => 4 | .suspended => 5 | .faulted => 6

/-- The state of a queue: the first of the list of R400 that holds. -/
def WorkQueue.state (w : WorkQueue) : QueueState :=
  if !w.en then .disabled
  else if w.faulted then .faulted
  else if w.suspended || w.resetting then .suspended
  else if w.cur.isNone && w.subs.isEmpty then .idle
  else if w.nodes.any fun n => n.st == .ready then .ready
  else if w.nodes.all (fun n => n.st != .running) && w.nodes.any fun n => n.st == .blocked then .blocked
  else .running

/-- Nodes RUNNING or BLOCKED. -/
def WorkQueue.busyNodes (w : WorkQueue) : Nat := (w.nodes.filter fun n => n.st != .ready).length

/-! Nodes (R402, R404). -/

def nodeType (w0 : Nat) : Nat := bits w0 0 8
def nodeState (w0 : Nat) : Nat := bits w0 8 8
def nodePred (w0 : Nat) : Nat := bits w0 16 8
def nodeCnt (w0 : Nat) : Nat := bits w0 24 8

def typeKern : Nat := 1
def typeCopy : Nat := 2
def typeWait : Nat := 3
def typeSignal : Nat := 4
def typeCond : Nat := 5
def typeEnd : Nat := 6

/-- Word `i` of a node. -/
def RunNode.word (n : RunNode) (i : Nat) : Nat := (n.words.getD i 0).toNat

def RunNode.type (n : RunNode) : Nat := nodeType (n.word 0)

/-- A successor or LOOP address that R404 refuses. -/
def badNext (a : Nat) : Bool := a % 64 != 0 || decide (2 ^ 52 ≤ a)

/-- A condition code of R402. -/
def nodeCondOk (c : Nat) : Bool := c == 0 || c == 1 || c == 6 || c == 7 || c == 8 || c == 9

/-- The fields of a node's type that must be zero or lie in range (R402, R404). -/
def nodeFieldsBad (w : Nat → Nat) : Bool :=
  let t := nodeType (w 0)
  if t = typeKern then w 4 != 0 || w 5 != 0 || w 6 != 0 || w 7 != 0
  else if t = typeCopy then decide (2 ^ 40 ≤ w 5) || w 6 != 0 || w 7 != 0
  else if t = typeWait then w 6 / 16 != 0 || !nodeCondOk (w 6) || w 7 != 0
  else if t = typeSignal then w 5 != 0 || decide (2 < w 6) || w 7 != 0
  else if t = typeCond then
    w 2 != 0 || bits (w 6) 4 28 != 0 || !nodeCondOk (bits (w 6) 0 4) || w 7 == 0 || badNext (w 7)
  else if t = typeEnd then w 1 != 0 || w 2 != 0 || w 3 != 0 || w 4 != 0 || w 5 != 0 || w 6 != 0 || w 7 != 0
  else true

/-- A misaligned HDR or ADDR (R404). -/
def nodeMisaligned (w : Nat → Nat) : Bool :=
  let t := nodeType (w 0)
  if t = typeKern then w 3 % 256 != 0
  else if t = typeWait ∨ t = typeSignal ∨ t = typeCond then w 3 % 8 != 0
  else false

/-- The checks of a node that becomes READY (R404), 0 for none that fails. `entry`: the entry node of a submission. -/
def nodeCheck (ws : List Word) (entry : Bool) : BitVec 8 :=
  let w (i : Nat) : Nat := (ws.getD i 0).toNat
  if bits (w 0) 48 16 != 0 || nodeState (w 0) != 0 || (entry && nodePred (w 0) != 0) || badNext (w 1) || badNext (w 2) ||
      nodeFieldsBad w then 0x04
  else if nodeMisaligned w then 0x08
  else 0

/-- A node as the Compass reads it: eight words (R404, R408). -/
def State.readNode (s : State) (ctx : Nat) (addr : Word) : Acc (List Word × State) :=
  (s.readAt (compassAgent ctx) { r := true } false addr.toNat 64).map fun x =>
    ((List.range 8).map fun i => BitVec.ofNat 64 (leNat ((x.1.drop (8 * i)).take 8)), x.2)

/-- Write STATE and CNT of a node (R405). -/
def State.putNodeCount (s : State) (ctx : Nat) (addr : Word) (st cnt : Nat) : State :=
  (s.compassPut ctx (addr.toNat + 1) 1 st).compassPut ctx (addr.toNat + 3) 1 cnt

/-! Faults of a queue (R401, R439). -/

/-- A queue takes FAULTED, with its record; a queue that is FAULTED stays as it is, and one under reset abandons its
submission. -/
def State.queueFault (s : State) (q : Nat) (node : Word) (f : FaultInfo) : State :=
  let w := s.queue q
  if w.faulted || w.resetting then s
  else
    let s := s.setQueue q { w with faulted := true, fcode := f.code, qfnode := node }
    let (t, s) := s.readTick
    s.record w.ctx.toNat (recordWords f { queue := some q, epc := node, tick := t })

/-- A node leaves the running submission. -/
def State.dropNode (s : State) (q : Nat) (addr : Word) : State :=
  let w := s.queue q
  s.setQueue q { w with nodes := w.nodes.filter fun n => n.addr ≠ addr }

/-- A node takes FAULTED: its words are written, and the queue faults (R405). -/
def State.nodeFault (s : State) (q : Nat) (addr : Word) (f : FaultInfo) : State :=
  let s := s.putNodeState (s.queue q).ctx.toNat addr 5 f.code.toNat
  (s.dropNode q addr).queueFault q addr f

/-- A node that has been read whole becomes READY at a time: CNT := 0, then the checks (R404, R405). -/
def State.ready (s : State) (q : Nat) (addr : Word) (ws : List Word) (entry : Bool) (order : Nat) : State :=
  let c := (s.queue q).ctx.toNat
  let code := nodeCheck ws entry
  let s := s.compassPut c (addr.toNat + 3) 1 0
  if code ≠ 0 then s.nodeFault q addr (.of code)
  else
    let s := s.compassPut c (addr.toNat + 1) 1 1
    let w := s.queue q
    s.setQueue q { w with nodes := w.nodes ++ [⟨addr, .ready, ws, order, none, none, false, none⟩] }

/-- A node is read and becomes READY (R404, R405); none while a migration record holds the read, which is then made again
(R240). -/
def State.makeReady (s : State) (q : Nat) (addr : Word) (entry : Bool) (order : Nat) : Option State :=
  match s.readNode (s.queue q).ctx.toNat addr with
  | .fault f => some ((s.compassMet (s.queue q).ctx.toNat f).queueFault q addr f)
  | .held _ => none
  | .ok (ws, s) => some (s.ready q addr ws entry order)

/-- An edge arrives at a node (R405); none while its read is held. -/
def State.edge (s : State) (q : Nat) (addr : Word) (order : Nat) : Option State :=
  if addr = 0 then some s
  else
    let c := (s.queue q).ctx.toNat
    match s.readNode c addr with
    | .fault f => some ((s.compassMet c f).queueFault q addr f)
    | .held _ => none
    | .ok (ws, s) =>
      let w0 := (ws.getD 0 0).toNat
      some (if nodeState w0 ≠ 0 ∨ nodeCnt w0 = 0 then s.nodeFault q addr (.of 0x04)
        else if nodeCnt w0 = 1 then s.ready q addr ws false order
        else s.compassPut c (addr.toNat + 3) 1 (nodeCnt w0 - 1))

/-- A submission with nothing left to do and no END run stalls (R407), unless the queue is SUSPENDED (R401). -/
def State.checkStall (s : State) (q : Nat) : State :=
  let w := s.queue q
  if w.cur.isSome && w.nodes.isEmpty && !w.faulted && !w.suspended && !w.resetting then s.queueFault q 0 (.of 0x04) else s

/-- A node goes DONE and sends its edges, at one time (R405, R411); none while a successor's read is held. -/
def State.finishNode (s : State) (q : Nat) (n : RunNode) : Option State :=
  let s := s.putNodeState (s.queue q).ctx.toNat n.addr 4 0
  let (t, s) := s.stamp
  (((s.dropNode q n.addr).edge q (n.words.getD 1 0) t).bind fun s => s.edge q (n.words.getD 2 0) t).map fun s =>
    (s.tryReset q).checkStall q

/-- Change a node of the running submission. -/
def State.onNode (s : State) (q : Nat) (addr : Word) (f : RunNode → RunNode) : State :=
  let w := s.queue q
  s.setQueue q { w with nodes := w.nodes.map fun n => if n.addr = addr then f n else n }

/-- A node's state in the queue and in memory (R405). -/
def State.moveNode (s : State) (q : Nat) (addr : Word) (st : NodeSt) (kern copy : Option Nat) : State :=
  let s := s.onNode q addr fun n => { n with st := st, kern := kern, copy := copy }
  s.compassPut (s.queue q).ctx.toNat (addr.toNat + 1) 1 (match st with
    | .ready => 1
    | .running => 2
    | .blocked => 3)

/-- A fault of a node's work, with what follows from it. -/
def State.failNode (s : State) (q : Nat) (addr : Word) (f : FaultInfo) : State := (s.nodeFault q addr f).tryReset q

/-- A node's work meets a fault of a read. -/
def State.failRead (s : State) (q : Nat) (addr : Word) (f : FaultInfo) : State :=
  (s.compassMet (s.queue q).ctx.toNat f).failNode q addr f

/-! The work of the node types (R406, R407). -/

/-- A condition of a WAIT or COND node. -/
def nodeCond (c word mask value : Nat) : Bool :=
  let v := word &&& mask
  match c with
  | 0 => v == value
  | 1 => v != value
  | 6 => decide (v < value)
  | 7 => decide (value ≤ v)
  | 8 => decide (v ≤ value)
  | _ => decide (value < v)

/-- KERN: the launch, BLOCKED without a free kernel slot (R406); none while the header's read is held. -/
def State.startKern (s : State) (q : Nat) (n : RunNode) : Option State :=
  let w := s.queue q
  match s.launch ⟨w.ctx.toNat, n.words.getD 3 0, w.prio.toNat, some q, some n.addr⟩ with
  | .accepted key s => some (s.moveNode q n.addr .running (some key) none)
  | .refused code s => some ((s.compassPut w.ctx.toNat (n.addr.toNat + 5) 1 code.toNat).failNode q n.addr (.of 0x04))
  | .full h s => some (s.moveNode q n.addr .blocked none (some h))
  | .unread (.fault f) => some (s.failRead q n.addr f)
  | .unread _ => none

/-- A KERN node that waited for a kernel slot launches the header the Compass has read (R386, R406). -/
def State.launchCopy (s : State) (q : Nat) (n : RunNode) (h : Nat) : State :=
  let w := s.queue q
  let (key, s) := s.acceptKernel ⟨w.ctx.toNat, n.words.getD 3 0, w.prio.toNat, some q, some n.addr⟩ h
  s.moveNode q n.addr .running (some key) none

/-- WAIT: its word is read, with an acquire at system scope (R406); satisfied, BLOCKED, a fault (R406), or held. -/
inductive WaitRead where
  | yes (s : State)
  | no (s : State)
  | fault (f : FaultInfo)
  | held

def State.readWait (s : State) (q : Nat) (n : RunNode) : WaitRead :=
  match s.settleAll.readAt (compassAgent (s.queue q).ctx.toNat) { r := true, align := 8 } false (n.word 3) 8 with
  | .ok (bs, t) => if nodeCond (bits (n.word 6) 0 4) (leNat bs) (n.word 5) (n.word 4) then .yes t else .no t
  | .fault f => .fault f
  | .held _ => .held

/-- COPY: a segment read, with the fault met. -/
def State.copySegs (s : State) (ctx src dst n : Nat) : Nat → Option (State × List (Nat × Option (List Byte)) × Option FaultInfo)
  | 0 => some (s, [], none)
  | fuel + 1 =>
    if n = 0 then some (s, [], none)
    else
      let m := min n (64 - dst % 64)
      match s.readAt (compassAgent ctx) { r := true } false src m with
      | .held _ => none
      | .ok (bs, t) =>
        (t.copySegs ctx (src + m) (dst + m) (n - m) fuel).map fun x => (x.1, (dst, some bs) :: x.2.1, x.2.2)
      | .fault f =>
        (s.copySegs ctx (src + m) (dst + m) (n - m) fuel).map fun x => (x.1, (dst, none) :: x.2.1, some f)

/-- The number under which the Compass's posted writes wait (R459). -/
def compassNo : Nat := 0x1000

/-- The Compass as the poster of a node's writes. -/
def nodePoster (q : Nat) (addr : Word) : Poster := ⟨compassNo, 0, 0, 0, 0, none, some (q, addr)⟩

/-- A write of a node's work, past every L1 (R246). -/
def State.compassWrite (s : State) (src : Poster) (ctx : Nat) (k : Want) (va : Nat) (bs : List Byte) : Acc (Option FaultInfo × State) :=
  (s.resolve (compassAgent ctx) k va bs.length).bind fun ps =>
    (s.prepareWrite (ps.map Part.uncached)).map fun s1 =>
      s1.writeParts (compassAgent ctx) src va bs (ps.map Part.uncached)

/-- The first fault the writes of a COPY would meet. -/
def State.copyRefused (s : State) (ctx : Nat) (ps : List (Nat × Option (List Byte))) : Acc Unit :=
  ps.foldl (fun a p => a.bind fun _ =>
    match p.2 with
    | none => .ok ()
    | some bs => ((s.resolve (compassAgent ctx) { w := true } p.1 bs.length).bind s.prepareWrite).map fun _ => ()) (.ok ())

/-- The writes of a COPY; after a fault each sector is written or not (R406). -/
def State.copyPuts (s : State) (src : Poster) (ctx : Nat) (pick : Option Nat) : List (Nat × Option (List Byte)) → State × Option FaultInfo
  | [] => (s, none)
  | p :: r =>
    let skip := p.2.isNone || pick.any fun n => Config.pick n (p.1 / 64) % 2 == 0
    if skip then s.copyPuts src ctx pick r
    else
      match s.compassWrite src ctx { w := true } p.1 (p.2.getD []) with
      | .ok (f, s) =>
        let (s, g) := s.copyPuts src ctx pick r
        (s, f.or g)
      | .fault f =>
        let (s, g) := s.copyPuts src ctx pick r
        (s, some ((g.getD f)))
      | .held _ => s.copyPuts src ctx pick r

/-- COPY's work: done, a fault, or held. -/
inductive WorkDone where
  | done (s : State)
  | fault (s : State) (f : FaultInfo)
  | held

def State.runCopy (s : State) (q : Nat) (n : RunNode) : WorkDone :=
  let ctx := (s.queue q).ctx.toNat
  let (src, dst, len) := (n.word 3, n.word 4, n.word 5)
  if len ≠ 0 ∧ spanMeets (src, len) (dst, len) = true then .fault s (.of 0x04)
  else
    match s.copySegs ctx src dst len (len / 64 + 2) with
    | none => .held
    | some (s, ps, f) =>
      match s.copyRefused ctx ps with
      | .held _ => .held
      | r =>
        let f := match f, r with
          | none, .fault g => some g
          | f, _ => f
        let s := match f with
          | some e => s.compassMet ctx e
          | none => s
        let (k, s) := s.useFree
        let (s, g) := s.copyPuts (nodePoster q n.addr) ctx (if f.isSome then some k else none) ps
        match f.or g with
        | some e => .fault s e
        | none => .done s

/-- SIGNAL's write (R406): a store, an addition or an OR of 64 bits. -/
def State.runSignal (s : State) (q : Nat) (n : RunNode) : WorkDone :=
  let a := compassAgent (s.queue q).ctx.toNat
  let v := n.word 4
  let out (x : Acc State) : WorkDone :=
    match x with
    | .ok s => .done s
    | .fault f => .fault (s.compassMet (s.queue q).ctx.toNat f) f
    | .held _ => .held
  if n.word 6 = 0 then
    match s.compassWrite (nodePoster q n.addr) (s.queue q).ctx.toNat { w := true, align := 8 } (n.word 3) (leBytes 8 v) with
    | .ok (none, s) => .done s
    | .ok (some f, s) => .fault s f
    | .fault f => .fault (s.compassMet (s.queue q).ctx.toNat f) f
    | .held _ => .held
  else
    let f (m : Nat) : Nat := if n.word 6 = 1 then (m + v) % 2 ^ 64 else m ||| v
    out ((s.atomicAt a { r := true, w := true, exotic := n.word 6 == 2, align := 8 } (n.word 3) 8 f).map Prod.snd)

/-! COND (R407). -/

/-- What the search from LOOP finds: the nodes with their words, or the fault of the COND. -/
inductive Reached where
  | ok (l : List (Word × List Word)) (s : State)
  | fault (f : FaultInfo)
  | held

/-- The nodes reachable from a work list by NEXT0 and NEXT1, the COND left out: at most 64. -/
def State.reach (s : State) (ctx : Nat) (cond : Word) : Nat → List Word → List (Word × List Word) → Reached
  | 0, todo, seen => if todo.isEmpty then .ok seen s else .fault (.of 0x04)
  | _ + 1, [], seen => .ok seen s
  | fuel + 1, a :: todo, seen =>
    if a = 0 ∨ a = cond ∨ (seen.any fun p => p.1 = a) = true then s.reach ctx cond fuel todo seen
    else if 64 ≤ seen.length then .fault (.of 0x04)
    else
      match s.readNode ctx a with
      | .fault f => .fault { f with va := a }
      | .held _ => .held
      | .ok (ws, t) =>
        let st := nodeState (ws.getD 0 0).toNat
        if st = 1 ∨ st = 2 ∨ st = 3 then .fault (.of 0x04)
        else t.reach ctx cond fuel (todo ++ [ws.getD 1 0, ws.getD 2 0]) (seen ++ [(a, ws)])

/-- COND's one step; none while a read of it is held. -/
def State.runCond (s : State) (q : Nat) (n : RunNode) : Option State :=
  let c := (s.queue q).ctx.toNat
  match s.readWait q n with
  | .held => none
  | .fault f => some (s.failRead q n.addr f)
  | .no t => t.finishNode q n
  | .yes t =>
    match t.reach c n.addr 200 [n.words.getD 7 0] [] with
    | .held => none
    | .fault f => some (t.failRead q n.addr f)
    | .ok l t =>
      let w := t.queue q
      let t := t.compassPut c (n.addr.toNat + 0x34) 4 (bits (n.word 6) 32 32 + 1)
      let t := l.foldl (fun t p => t.putNodeCount c p.1 0 (nodePred (p.2.getD 0 0).toNat)) t
      let t := t.putNodeCount c n.addr 0 (nodePred (n.word 0))
      let t := t.setQueue q { w with nodes := w.nodes.filter fun m => m.addr ≠ n.addr }
      let (o, t) := t.stamp
      t.makeReady q (n.words.getD 7 0) false o

/-- A selected node starts, an acquire point at system scope (R405, R406, R408); none while a read of it is held. -/
def State.startNode (s : State) (q : Nat) (n : RunNode) : Option State :=
  let s := s.settleAll
  if n.type = typeKern then s.startKern q n
  else if n.type = typeWait then
    match s.readWait q n with
    | .yes s => some (s.moveNode q n.addr .running none none)
    | .no s => some (s.moveNode q n.addr .blocked none none)
    | .fault f => some (s.failRead q n.addr f)
    | .held => none
  else if n.type = typeCond then s.runCond q n
  else some (s.moveNode q n.addr .running none none)

/-- A write of a node waits for its acknowledgement. -/
def State.nodeUnacked (s : State) (q : Nat) (addr : Word) : Bool := s.link.waiting.any fun p => p.src.node == some (q, addr)

/-- The work of a COPY or SIGNAL node is done: the node is DONE, or FAULTED, once its writes are performed at system scope (R406,
R408). -/
def WorkDone.finish (q : Nat) (n : RunNode) (r : WorkDone) : Option State :=
  match r with
  | .done t => if t.nodeUnacked q n.addr then some (t.onNode q n.addr fun n => { n with worked := true }) else t.finishNode q n
  | .fault t f =>
    some (if t.nodeUnacked q n.addr then t.onNode q n.addr fun n => { n with worked := true, failing := some f } else t.failNode q n.addr f)
  | .held => none

/-- A node whose writes are acknowledged ends: with the fault it met, or DONE. -/
def State.endNode (s : State) (q : Nat) (n : RunNode) : Option State :=
  match n.failing with
  | some f => some (s.failNode q n.addr f)
  | none => s.finishNode q n

/-- A posted write of a node fails (R405, R459): the node ends with its first fault once its other writes are acknowledged. -/
def State.nodeStoreFails (s : State) (q : Nat) (addr : Word) (f : FaultInfo) : State :=
  match (s.queue q).nodes.find? fun n => n.addr = addr with
  | some n =>
    if s.nodeUnacked q addr || !n.worked then s.onNode q addr fun n => { n with failing := n.failing.or (some f) }
    else s.failNode q addr (n.failing.getD f)
  | none => s

/-- A running node's work completes (R405, R406); none while something holds it. -/
def State.completeNode (s : State) (q : Nat) (n : RunNode) : Option State :=
  if n.worked then (if s.nodeUnacked q n.addr then none else s.endNode q n)
  else if n.type = typeKern then
    match n.kern.bind s.kernel with
    | some k =>
      if k.st = .complete then s.finishNode q n
      else if k.st = .faulted ∧ k.told = true then some (s.failNode q n.addr (.of k.fault))
      else none
    | none => none
  else if n.type = typeCopy then (s.runCopy q n).finish q n
  else if n.type = typeSignal then (s.runSignal q n).finish q n
  else if n.type = typeWait then s.finishNode q n
  else none

/-- A WAIT node reads its word again (R406). -/
def State.pollWait (s : State) (q : Nat) (n : RunNode) : State :=
  match s.readWait q n with
  | .yes t => (t.finishNode q n).getD s
  | .no s => s
  | .fault f => s.failRead q n.addr f
  | .held => s

/-! Selection (R411). -/

/-- A queue that may start a node: READY, below 16 busy nodes, of a context that starts nodes. -/
def State.eligible (s : State) (w : WorkQueue) : Bool :=
  let c := s.ctx w.ctx.toNat
  w.state == .ready && decide (w.busyNodes < 16) && (c.st == .bound || c.st == .active)

/-- The next eligible queue of a level after a number, wrapping. -/
def nextQueueAfter (qs : List Nat) (cur : Option Nat) : Option Nat :=
  match cur with
  | none => qs.head?
  | some c => (qs.find? fun q => decide (c < q)).or qs.head?

/-- One selection: the queue chosen and the credits after it. -/
def State.selectQueue (s : State) : Option (Nat × State) :=
  let el := s.cmp.queues.filter fun p => s.eligible p.2
  match el with
  | [] => none
  | _ =>
    let level := el.foldl (fun m p => max m p.2.prio.toNat) 0
    let qs := (el.filter fun p => p.2.prio.toNat == level).map Prod.fst
    let l := Table.get s.cmp.levels level .reset
    let stay := (l.current.any fun q => qs.contains q) && decide (0 < l.credit)
    let pick := if stay then l.current else nextQueueAfter qs l.current
    match pick with
    | none => none
    | some q =>
      let credit := if stay then l.credit else (s.queue q).weight.toNat + 1
      some (q, { s with cmp := { s.cmp with levels := Table.set s.cmp.levels level ⟨some q, credit - 1⟩ } })

/-- The oldest READY node, ties to the lower address. -/
def WorkQueue.oldestReady (w : WorkQueue) : Option RunNode :=
  (w.nodes.filter fun n => n.st == .ready).foldl (fun (b : Option RunNode) n =>
    match b with
    | none => some n
    | some m => if n.order < m.order ∨ (n.order = m.order ∧ n.addr.toNat < m.addr.toNat) then some n else b) none

/-! Submissions (R399). -/

/-- Append a submission, or drop it with its flag. `wide`: a 64-bit write. -/
def WorkQueue.submit (w : WorkQueue) (value : Word) (wide : Bool) : WorkQueue :=
  if !wide || value.toNat % 64 != 0 || decide (2 ^ 52 ≤ value.toNat) || w.state == .disabled || w.state == .faulted then
    { w with badsub := true }
  else if 64 ≤ w.subs.length then { w with ovf := true }
  else { w with subs := w.subs ++ [value] }

/-- A write of QCFG (R398). -/
def WorkQueue.configure (w : WorkQueue) (v : Word) : WorkQueue :=
  { w with
    ctx := if w.state = .disabled then v.extractLsb' 12 12 else w.ctx
    weight := v.extractLsb' 4 6
    prio := v.extractLsb' 1 3
    en :=
      if v.getLsbD 0 then true
      else if w.state = .idle then false
      else w.en }

/-- The Compass takes the oldest entry of the list of a queue with no current submission, at once (R400), or once a migration
record lets it read the entry node (R240). -/
def State.takeSubmission (s : State) (q : Nat) : State :=
  let w := s.queue q
  if w.en && !w.faulted && !w.suspended && !w.resetting && w.cur.isNone then
    match w.subs with
    | a :: r =>
      let (o, t) := (s.setQueue q { w with subs := r, cur := some a }).stamp
      (t.makeReady q a true o).getD s
    | [] => s
  else s

/-- A submission from QSUBMIT or QSUB (R399, R415). -/
def State.submitTo (s : State) (q : Nat) (value : Word) (wide : Bool) : State :=
  (s.setQueue q ((s.queue q).submit value wide)).takeSubmission q

end Sys2Proof.Machine
end

