-- ==== Sys2Proof/Machine/Graph.lean ====
section
/-! DEFINITION. The events of work queues and command graphs (R397 to R411). -/

namespace Sys2Proof.Machine

/-- A node of a queue's running submission. -/
def State.runNode (s : State) (q : Nat) (addr : Word) : Option RunNode := (s.queue q).nodes.find? fun n => n.addr = addr

/-- QSUBMIT (R399). -/
def execQsubmit (q : Nat) (value : Word) (wide : Bool) (s : State) : Result :=
  .next (s.submitTo q value wide)

/-- QCFG_WRITE (R398). -/
def execQcfgWrite (q : Nat) (value : Word) (s : State) : Result := .next (s.setQueue q ((s.queue q).configure value))

/-- QCTL suspend (R401). -/
def State.suspendQueue (s : State) (q : Nat) : State :=
  let w := s.queue q
  if w.state = .disabled then s else s.setQueue q { w with suspended := true }

/-- QCTL resume (R401). -/
def State.resumeQueue (s : State) (q : Nat) : State :=
  let w := s.queue q
  if w.state = .suspended then ((s.setQueue q { w with suspended := false }).checkStall q).takeSubmission q else s

/-- QCTL reset (R401): BLOCKED nodes are cancelled at once. A suspend that comes while it waits for RUNNING nodes stands. -/
def State.resetQueue (s : State) (q : Nat) : State :=
  let w := s.queue q
  if w.state = .faulted ∨ w.state = .suspended then
    (s.setQueue q { w with resetting := true, suspended := false, nodes := w.nodes.filter fun n => n.st != .blocked }).tryReset q
  else s

/-- QCTL_SUSPEND (R401). -/
def execQctlSuspend (q : Nat) (s : State) : Result := .next (s.suspendQueue q)

/-- QCTL_RESUME (R401). -/
def execQctlResume (q : Nat) (s : State) : Result := .next (s.resumeQueue q)

/-- QCTL_RESET (R401). -/
def execQctlReset (q : Nat) (s : State) : Result := .next (s.resetQueue q)

/-- SUBMISSION_TAKE (R400). -/
def execSubmissionTake (q : Nat) (s : State) : Result :=
  .next (s.takeSubmission q)

/-- NODE_SELECT (R411): made again when a migration record holds a read of the node (R240). -/
def execNodeSelect (s : State) : Result :=
  .next (match s.selectQueue with
    | some (q, t) =>
      match (t.queue q).oldestReady with
      | some n => (t.startNode q n).getD s
      | none => t
    | none => s)

/-- NODE_END (R407). -/
def execNodeEnd (q : Nat) (s : State) : Result :=
  .next (
    let w := s.queue q
    match w.nodes.find? fun n => n.type == typeEnd && n.st == .running with
    | some n =>
      if w.nodes.all fun m => m.addr == n.addr || m.st == .ready then
        let s := s.putNodeState w.ctx.toNat n.addr 4 0
        (s.setQueue q { s.queue q with qdone := w.qdone + 1, cur := none, nodes := [] }).tryReset q |>.takeSubmission q
      else s
    | none => s)

/-- WAIT_NODE_POLL (R406). -/
def execWaitNodePoll (q : Nat) (node : Word) (s : State) : Result :=
  .next (match s.runNode q node with
    | some n => if n.type = typeWait ∧ n.st = .blocked then s.pollWait q n else s
    | none => s)

/-- KERNEL_SLOT_FREE (R406): no node is started in a queue that is SUSPENDED or FAULTED. -/
def execKernelSlotFree (q : Nat) (node : Word) (s : State) : Result :=
  .next (match s.runNode q node with
    | some n =>
      let w := s.queue q
      let c := s.ctx w.ctx.toNat
      if n.type == typeKern && n.st == .blocked && !s.slotsFull && !s.mgmt.locked && !w.faulted && !w.suspended && !w.resetting &&
          (c.st == .bound || c.st == .active) then
        match n.copy with
        | some h => s.launchCopy q n h
        | none => (s.startKern q n).getD s
      else s
    | none => s)

/-- NODE_COMPLETE (R405, R406). -/
def execNodeComplete (q : Nat) (node : Word) (s : State) : Result :=
  .next (match s.runNode q node with
    | some n => if n.st = .running then (s.completeNode q n).getD s else s
    | none => s)

end Sys2Proof.Machine
end

