-- ==== Sys2Proof/Machine/Group.lean ====
section
/-! DEFINITION. HYIELD and HEXIT, and the Compass's events over groups and kernels (R105 to R112, R391 to R396, R409 to R414,
R430). -/

namespace Sys2Proof.Machine

/-- HYIELD (R395): it never waits. -/
def execHyield (g : Guard) (s : State) : Result :=
  .next (s.frontEnd (.hyield g) g 8 fun s =>
    match s.group s.hart.grp with
    | some q => if q.st == .running && s.yieldsTo q then .next (s.stopGroup q.key .preempt 0 []) else .next s
    | none => .next s)

/-- HEXIT (R109, R396): nothing is fetched after it, and it completes once every earlier entry has. -/
def execHexit (g : Guard) (s : State) : Result :=
  .next (s.frontEnd (.hexit g) g 8 fun s =>
    .next { s with hart := { s.hart with phase := .exiting } }.finishExit)

/-- GROUP_PLACE (R106, R393, R413): the group to be placed next, on a quad that qualifies. -/
def execGroupPlace (grp quad : Nat) (s : State) : Result :=
  .next (match s.group grp with
    | some g => if s.nextPlacement = some grp then s.placeGroup g quad else s
    | none => s)

/-- GROUP_PREEMPT (R414). -/
def execGroupPreempt (quad : Nat) (s : State) : Result := .next (s.preemptFor quad)

/-- GROUP_STOP_COMPLETE (R430). -/
def execGroupStopComplete (grp : Nat) (s : State) : Result := .next (s.completeStop grp)

/-- GROUP_RETIRE (R106, R110): its stores are performed at device scope first. -/
def execGroupRetire (grp : Nat) (s : State) : Result :=
  .next (match s.group grp with
    | some g => if s.mayRetire g then (s.flushHarts (s.groupHarts grp)).retireGroup g else s
    | none => s)

/-- The pending kernel to dispatch: the highest priority, then the earliest accepted (R413). -/
def State.nextKernel (s : State) : Option Kernel :=
  (s.cmp.kernels.filter fun k => k.st = .pending).foldl (fun (b : Option Kernel) k =>
    match b with
    | none => some k
    | some c => if c.base < k.base ∨ (c.base = k.base ∧ k.key < c.key) then some k else b) none

/-- A group that enters WAITING. -/
def waitingGroup (key : Nat) (k : Kernel) (g order : Nat) : Group :=
  ⟨key, k.key, k.ctx, g, .waiting, false, none, 0, .preempt, 0, [], k.base, order, 0, false, false⟩

/-- A kernel's groups enter WAITING (R391). -/
def State.dispatchKernel (s : State) (k : Kernel) : State :=
  let (n, s) := s.stamp
  let first := s.cmp.nextKey
  let gs := (List.range k.hdr.groupCount).map fun g => waitingGroup (first + g) k g n
  let s := { s with cmp := { s.cmp with groups := s.cmp.groups ++ gs, nextKey := first + k.hdr.groupCount } }
  s.moveKernel k.key fun k => { k with st := .dispatching }

/-- KERNEL_DISPATCH (R391, R413). -/
def execKernelDispatch (s : State) : Result :=
  .next (if (s.cmp.kernels.filter fun k => k.st = .dispatching).length < 64 then
      match s.nextKernel with
      | some k => s.dispatchKernel k
      | none => s
    else s)

/-- KERNEL_COMPLETE (R391, R392): every access of its harts is performed at system scope. A kernel that has faulted tells of it
then. -/
def execKernelComplete (kern : Nat) (s : State) : Result :=
  .next (match s.kernel kern with
    | some k =>
      if k.st = .draining ∧ s.kernelBusy kern = false then s.moveKernel kern fun k => { k with st := .complete }
      else s.tellFaulted kern
    | none => s)

/-- PRIORITY_AGING (R410): a further 10 ms have passed since the group entered PREEMPTED without a hold. -/
def execPriorityAging (grp : Nat) (s : State) : Result :=
  .next (match s.group grp with
    | some g =>
      match s.kernel g.kern with
      | some k =>
        if g.st = .preempted ∧ g.held = false then
          s.onGroup grp fun g => { g with aged := g.aged + 1, eff := min 7 (k.base + g.aged + 1) }
        else s
      | none => s
    | none => s)

/-- CANDIDATE_HOLD (R413): the first candidate in order has waited 1 ms. -/
def execCandidateHold (s : State) : Result :=
  .next (match s.candidates with
    | g :: _ => if s.somePlace g then s else s.onGroup g.key fun g => { g with hold1ms := true }
    | [] => s)

end Sys2Proof.Machine
end

