-- ==== Sys2Proof/Machine/HostRing.lean ====
section
/-! DEFINITION. QSUB, HRPUT, and the host rings with their events (R415, R417 to R419). -/

namespace Sys2Proof.Machine

/-! Rings (R417, R419). -/

/-- A trigger sends the ring's message and clears PEND. -/
def State.triggerRing (s : State) (r : Nat) : State :=
  let k := s.ring r
  (s.setRing r { k with pend := 0, timer := false, ints := k.ints + 1 }).msix k.vec.toNat

/-- A record has been written: RPROD, PEND, the timer and the count trigger. -/
def State.stepRing (s : State) (r : Nat) : State :=
  let k := s.ring r
  let pend := k.pend + 1
  let s := s.setRing r { k with prod := k.prod + 1, pend := pend, timer := k.timer || k.pend == 0 }
  if max k.count.toNat 1 ≤ pend.toNat then s.triggerRing r else s

def Ring.full (k : Ring) : Bool := (k.prod - k.cons).toNat == 2 ^ k.log2n.toNat

/-- A write of RCFG: ENABLE clears the counters; the other fields change only while the ring is disabled. -/
def Ring.configure (k : Ring) (v : Word) : Ring :=
  if k.en then { k with en := v.getLsbD 0, timer := k.timer && v.getLsbD 0 }
  else
    let n := v.extractLsb' 1 5
    let k := { k with ctx := v.extractLsb' 32 12, vec := v.extractLsb' 16 11, log2n := n }
    if v.getLsbD 0 ∧ 4 ≤ n.toNat ∧ n.toNat ≤ 16 then { k with en := true, prod := 0, cons := 0, pend := 0, timer := false } else k

/-- A write of RCONS. -/
def Ring.consume (k : Ring) (v : Word) : Ring :=
  let c : BitVec 32 := v.setWidth 32
  if 2 ^ k.log2n.toNat < (k.prod - c).toNat then k else { k with cons := c }

/-- A wait on a full ring whose EN is cleared meanwhile (R418). -/
def HartWait.ringOff (r : Nat) : HartWait → HartWait
  | .hrput q off => .hrput q (off || q == r)
  | w => w

/-- A write of RCFG: EN := 0 reaches every HRPUT that waits on the ring (R418). -/
def State.configureRing (s : State) (r : Nat) (v : Word) : State :=
  let t := s.setRing r ((s.ring r).configure v)
  if (s.ring r).en && !v.getLsbD 0 then t.mapHarts fun h => { h with wait := h.wait.ringOff r } else t

/-- RCFG_WRITE (R417). -/
def execRcfgWrite (r : Nat) (value : Word) (s : State) : Result := .next (s.configureRing r value)

/-- RCONS_WRITE (R417). -/
def execRconsWrite (r : Nat) (value : Word) (s : State) : Result := .next (s.setRing r ((s.ring r).consume value))

/-- RING_TIMER (R419). -/
def execRingTimer (r : Nat) (s : State) : Result :=
  .next (
    let k := s.ring r
    if k.en && k.timer && k.time != 0 && k.pend != 0 then s.triggerRing r else s)

/-! QSUB (R415). -/

/-- The first fault of QSUB that applies. -/
def State.qsubFault (s : State) (q : Nat) (x : Word) : Option FaultInfo :=
  if 1024 ≤ q then some (.of 0x04)
  else if x.toNat % 64 ≠ 0 then some ⟨0x08, 0, x, 0, 0⟩
  else if 2 ^ 52 ≤ x.toNat then some ⟨0x06, 4, x, 0, 0⟩
  else
    let w := s.queue q
    if w.ctx.toNat ≠ s.hart.ctx then some (.withReason 0x06 3)
    else if w.state = .disabled ∨ w.state = .faulted then some (.of 0x04)
    else none

/-- QSUB: a release point at system scope, which waits while the list is full. -/
def execQsub (g : Guard) (a b : XReg) (s : State) : Result :=
  .next (s.frontEnd (.qsub g a b) g 8 fun s =>
    let q := (s.hart.getX a).toNat
    let x := s.hart.getX b
    match s.qsubFault q x with
    | some f => .refuse f
    | none =>
      match s.frontRelease .system with
      | none => .wait .qsub
      | some t => if 64 ≤ (s.queue q).subs.length then .wait .qsub else .next (t.submitTo q x true))

/-! HRPUT (R418). -/

/-- The address of a ring's next slot. -/
def Ring.slotVa (k : Ring) : Nat := (k.base.toNat + 64 * (k.prod.toNat % 2 ^ k.log2n.toNat)) % 2 ^ 64

/-- One step of a ring: the record is performed at system scope, then the counters move. The option is the asynchronous
fault of a host or peer that refuses the write (R459). -/
def State.putRing (s : State) (r : Nat) (ps : List Part) (bs : List Byte) : Acc State :=
  let lag := s.lag
  (s.prepareWrite ps).map fun s1 =>
    let (f, s2) := { s1 with lag := { lag with cache := false } }.writeParts { s1.agent with grp := none } s1.hart.poster
      (s1.ring r).slotVa bs ps
    ({ s2 with lag := lag }.stepRing r).asyncIf s.hart.poster f

/-- HRPUT. One that waited on a full ring takes 0x04 where EN was cleared meanwhile. -/
def execHrput (g : Guard) (a b : XReg) (s : State) : Result :=
  .next (s.frontEnd (.hrput g a b) g 8 fun s =>
    let r := (s.hart.getX a).toNat
    let x := s.hart.getX b
    let k := s.ring r
    if 256 ≤ r ∨ k.en = false ∨ s.hart.wait = .hrput r true then .refuse (.of 0x04)
    else if k.ctx.toNat ≠ s.hart.ctx then .refuse (.withReason 0x06 3)
    else
      (((s.resolve s.agent { r := true, align := 64 } x.toNat 64).both
          (s.resolve { s.agent with grp := none } { w := true } k.slotVa 64)).act fun ps =>
        (s.readAll s.hart.core true x.toNat ps.1).act fun rd =>
          match rd.2.frontRelease .system with
          | none => .wait .fenceStk
          | some t => if k.full then .wait (.hrput r false) else (t.putRing r (ps.2.map Part.uncached) rd.1).act .next))

end Sys2Proof.Machine
end

