-- ==== Sys2Proof/Machine/Crypto.lean ====
section
/-! DEFINITION. SHA-512, and ECDSA on curve P-521 over it (R31): the functions that the manual names, as their standards, FIPS
180-4 and FIPS 186-5, define them. PRESUMED (log 37). -/

namespace Sys2Proof.Machine

/-! SHA-512. -/

/-- The first 80 primes. -/
def shaPrimes : List Nat := (List.range 410).filter fun n => decide (2 ≤ n) && (List.range n).all fun d => decide (d < 2) || n % d != 0

/-- The greatest number of at most `bits` bits whose `k`-th power is not above `n`. -/
def rootOf (k n bits : Nat) : Nat :=
  (List.range bits).foldl (fun x i => let y := x + 2 ^ (bits - 1 - i); if y ^ k ≤ n then y else x) 0

/-- The constants: the first 64 fraction bits of the cube roots of the first 80 primes. -/
def shaK : List Word := shaPrimes.map fun p => BitVec.ofNat 64 (rootOf 3 (p * 2 ^ 192) 68)

/-- The eight words of a hash state. -/
structure ShaState where
  a : Word
  b : Word
  c : Word
  d : Word
  e : Word
  f : Word
  g : Word
  h : Word
  deriving DecidableEq, Repr

/-- The words of a hash state in order. -/
def ShaState.words (s : ShaState) : List Word := [s.a, s.b, s.c, s.d, s.e, s.f, s.g, s.h]

/-- A hash state of listed words. -/
def ShaState.ofWords (l : List Word) : ShaState :=
  let w (i : Nat) : Word := l.getD i 0
  ⟨w 0, w 1, w 2, w 3, w 4, w 5, w 6, w 7⟩

/-- The initial state: the first 64 fraction bits of the square roots of the first eight primes. -/
def shaInit : ShaState := .ofWords ((shaPrimes.take 8).map fun p => BitVec.ofNat 64 (rootOf 2 (p * 2 ^ 128) 68))

/-- One round with its constant plus its word of the schedule. -/
def ShaState.round (s : ShaState) (kw : Word) : ShaState :=
  let s1 := s.e.rotateRight 14 ^^^ s.e.rotateRight 18 ^^^ s.e.rotateRight 41
  let s0 := s.a.rotateRight 28 ^^^ s.a.rotateRight 34 ^^^ s.a.rotateRight 39
  let t1 := s.h + s1 + ((s.e &&& s.f) ^^^ (~~~s.e &&& s.g)) + kw
  let t2 := s0 + ((s.a &&& s.b) ^^^ (s.a &&& s.c) ^^^ (s.b &&& s.c))
  ⟨t1 + t2, s.a, s.b, s.c, s.d + t1, s.e, s.f, s.g⟩

/-- The 80 words of the schedule of a block of 128 bytes. -/
def shaSchedule (block : List Byte) : List Word :=
  let first : List Word := (List.range 16).map fun i =>
    ((block.drop (8 * i)).take 8).foldl (fun w b => (w <<< 8) ||| b.setWidth 64) (0 : Word)
  (List.range 64).foldl (fun ws t =>
    let w (i : Nat) : Word := ws.getD (t + i) 0
    let s0 := (w 1).rotateRight 1 ^^^ (w 1).rotateRight 8 ^^^ ((w 1) >>> 7)
    let s1 := (w 14).rotateRight 19 ^^^ (w 14).rotateRight 61 ^^^ ((w 14) >>> 6)
    ws ++ [s1 + w 9 + s0 + w 0]) first

/-- One block. -/
def ShaState.block (s : ShaState) (block : List Byte) : ShaState :=
  let t := ((shaSchedule block).zip shaK).foldl (fun s p => s.round (p.1 + p.2)) s
  .ofWords ((s.words.zip t.words).map fun p => p.1 + p.2)

/-- Bytes of a number, the most significant first. -/
def beBytes (n v : Nat) : List Byte := (leBytes n v).reverse

/-- The number that bytes give, the most significant first. -/
def beNat (bs : List Byte) : Nat := leNat bs.reverse

/-- A message padded to whole blocks. -/
def shaPad (m : List Byte) : List Byte :=
  m ++ 0x80 :: (List.replicate ((239 - m.length % 128) % 128) 0 ++ beBytes 16 (8 * m.length))

/-- The 64 bytes of the SHA-512 digest. -/
def sha512 (m : List Byte) : List Byte :=
  let p := shaPad m
  ((List.range (p.length / 128)).foldl (fun s i => s.block ((p.drop (128 * i)).take 128)) shaInit).words.flatMap fun w => beBytes 8 w.toNat

/-! The curve P-521: y² = x³ − 3x + b over the integers mod p. -/

def p521 : Nat := 2 ^ 521 - 1

/-- The number of points of the curve. -/
def p521n : Nat :=
  0x1FFFFFFFFFFFFFFFFFFFFFFFFFFFFFFFFFFFFFFFFFFFFFFFFFFFFFFFFFFFFFFFFFA51868783BF2F966B7FCC0148F709A5D03BB5C9B8899C47AEBB6FB71E91386409

/-- A point: none is the point at infinity. -/
abbrev EcPoint := Option (Nat × Nat)

/-- The base point. -/
def p521G : EcPoint :=
  some (0xC6858E06B70404E9CD9E3ECB662395B4429C648139053FB521F828AF606B4D3DBAA14B5E77EFE75928FE1DC127A2FFA8DE3348B3C1856A429BF97E7E31C2E5BD66,
    0x11839296A789A3BC0045C8A5FB42C7D1BD998F54449579B446817AFBD17273E662C97EE72995EF42640C550B9013FAD0761353C7086A272C24088BE94769FD16650)

/-- A power mod `m`, of an exponent below 2^521. -/
def powMod (m b e : Nat) : Nat :=
  ((List.range 521).foldl (fun (x : Nat × Nat) i => (if e.testBit i then x.1 * x.2 % m else x.1, x.2 * x.2 % m)) (1 % m, b % m)).1

/-- The inverse mod a prime. -/
def invMod (m x : Nat) : Nat := powMod m x (m - 2)

/-- The difference of two residues. -/
def subMod (m x y : Nat) : Nat := (x + (m - y % m)) % m

/-- The third point of the line with slope `k` through two points, mirrored. -/
def ecLine (k x1 y1 x2 : Nat) : EcPoint :=
  let x := subMod p521 (subMod p521 (k * k) x1) x2
  some (x, subMod p521 (k * subMod p521 x1 x) y1)

/-- The sum of two points. -/
def ecAdd (a b : EcPoint) : EcPoint :=
  match a, b with
  | none, q => q
  | p, none => p
  | some (x1, y1), some (x2, y2) =>
    if x1 = x2 then
      if (y1 + y2) % p521 = 0 then none
      else ecLine (subMod p521 (3 * x1 * x1) 3 * invMod p521 (2 * y1) % p521) x1 y1 x1
    else ecLine (subMod p521 y2 y1 * invMod p521 (subMod p521 x2 x1) % p521) x1 y1 x2

/-- The multiple of a point by a number below 2^521. -/
def ecMul (k : Nat) (p : EcPoint) : EcPoint :=
  (List.range 521).foldl (fun a i => let a := ecAdd a a; if k.testBit (520 - i) then ecAdd a p else a) none

/-- The x coordinate of a point, mod the number of points. -/
def ecX (p : EcPoint) : Nat := (p.elim 0 Prod.fst) % p521n

/-! ECDSA (R31). -/

/-- A signature: r and s. -/
abbrev Signature := Nat × Nat

/-- The signature of a message is good under a public key. -/
def ecdsaVerify (key : Nat × Nat) (m : List Byte) (g : Signature) : Bool :=
  let (r, s) := g
  let w := invMod p521n s
  let q := ecAdd (ecMul (beNat (sha512 m) * w % p521n) p521G) (ecMul (r * w % p521n) (some key))
  decide (0 < r ∧ r < p521n ∧ 0 < s ∧ s < p521n) && q.isSome && ecX q == r

/-- The signature of a message under a private key, with a per-message secret `k`. -/
def ecdsaSign (key k : Nat) (m : List Byte) : Signature :=
  let r := ecX (ecMul k p521G)
  (r, invMod p521n k * (beNat (sha512 m) + r * key) % p521n)

/-- The public key of a private one. -/
def ecdsaPublic (key : Nat) : EcPoint := ecMul key p521G

/-- The per-message secret of a signature, from an open number on: the first that gives two numbers other than 0. -/
def signWith (key seed : Nat) (m : List Byte) : Signature :=
  (((List.range 8).map fun i => ecdsaSign key (1 + (seed + i) % (p521n - 1)) m).find? fun g => g.1 != 0 && g.2 != 0).getD (0, 0)

end Sys2Proof.Machine
end

