-- ==== Sys2Proof/Machine/Stack.lean ====
section
/-! DEFINITION. Events of the stacks: the requantisation engine, far work at its sites, guest sets lent to other packages
(R295 to R305, R368 to R372, R458). -/

namespace Sys2Proof.Machine

/-! The requantisation engine (R368 to R372). -/

/-- Physical address of a stack-local frame. -/
def framePa (stack frame : Nat) : Nat := 2 ^ 44 + stack * 2 ^ 36 + frame * 2 ^ 16

def State.die (s : State) (t : Nat) : StackUnit := s.far.dies[t]?.getD .reset

/-- Frames of a stack's stack-local pool (R222). -/
def State.localFrames (s : State) : Nat := (64 - s.plat.share.toNat) * 2 ^ 14

/-- The first frame of a pool from `lo` on, below the end `lim` of the stack-local pool. -/
def RqePool.next (p : RqePool) (lo lim : Nat) : Option Nat :=
  let f := max p.base.toNat lo
  if f < min (p.base.toNat + p.count.toNat) lim then some f else none

/-- The frame the engine stands at: its pools' frames come in ascending order, the first again after the last (R370). -/
def State.rqeAt (s : State) (stack : Nat) : Option Nat :=
  let u := s.die stack
  let first (lo : Nat) : Option Nat := (u.pools.toList.filterMap fun p => p.next lo s.localFrames).min?
  (first u.cursor).or (first 0)

/-- The engine may work on a frame: it is enabled and stands there. -/
def State.rqeMay (s : State) (stack frame : Nat) : Bool :=
  (s.die stack).rqeEn && s.stackActive stack && !s.mgmt.fenced.contains (.stack stack) && s.rqeAt stack == some frame

/-- The engine leaves a frame for the next. -/
def State.rqePass (s : State) (stack frame : Nat) : State := s.onDie stack fun u => { u with cursor := frame + 1 }

/-- The frame of an address belongs to a migration under way (R243). -/
def State.paMigrating (s : State) (pa : Nat) : Bool := s.ms.migrating (pa / 2 ^ 16)

/-- The header of a page at the MSC (R367). -/
def State.kvHeaderAt (s : State) (pa : Nat) : Nat := s.ms.kreadNat pa 0x100

/-- A sector of a header is uncorrectable. -/
def State.kvBadSector (s : State) (pa i : Nat) : Bool := s.ms.poisoned (pa + 64 * i) 64

/-- The header with its uncorrectable sectors taken as zero, so that nothing rests on their data (R372). -/
def State.kvSafeHeader (s : State) (pa : Nat) : Nat :=
  (List.range 4).foldl (fun h i => if s.kvBadSector pa i then putBits h (512 * i) 512 0 else h) (s.kvHeaderAt pa)

/-- The engine skips a page: its header is malformed, or the sector of its control word is uncorrectable, so that the word cannot
be rewritten (R366, R372). DEDUCED (log 35). -/
def State.kvSkipped (s : State) (pa : Nat) : Bool := s.kvBadSector pa 0 || kvMalformed (s.kvSafeHeader pa)

/-- The lowest-numbered slot tagged E4M3; one whose tag is uncorrectable may be, and is met in its place (R368, R372). -/
def State.kvNextSlot (s : State) (pa : Nat) : Option Nat :=
  let h := s.kvSafeHeader pa
  ((List.range 63).map (· + 1)).find? fun n => s.kvBadSector pa (kvTagOff n / 64) || bits (kvTag h n) 0 2 == 1

/-- Write STATE into the control word. -/
def State.putKvState (s : State) (pa h st : Nat) : State := { s with ms := s.ms.kwriteNat pa 4 (putBits (bits h 0 32) 12 3 st) }

/-- A conversion that ends with no slot left. -/
def State.endConvert (s : State) (stack pa h : Nat) : State :=
  (s.putKvState pa h 4).onDie stack fun u => { u with done := u.done + 1 }

/-- A conversion that goes back to AGED. -/
def State.abortConvert (s : State) (stack pa h : Nat) : State :=
  (s.putKvState pa h 2).onDie stack fun u => { u with aborted := u.aborted + 1 }

/-- An event of the reliability log (R465). -/
def State.ras (s : State) (e : RasEvent) : State := { s with mgmt := { s.mgmt with ras := s.mgmt.ras ++ [e] } }

/-- A registered frame of a stack holds a page in CONVERTING: a page that the engine does not skip, by its control word. -/
def State.kvConverting (s : State) (stack : Nat) : Bool :=
  (s.die stack).pools.toList.any fun p =>
    (List.range (min (p.base.toNat + p.count.toNat) s.localFrames - p.base.toNat)).any fun i =>
      let pa := framePa stack (p.base.toNat + i)
      bits (s.ms.kreadNat pa 4) 12 3 == 3 && !s.kvSkipped pa

/-- A write of EN := 0 takes effect once no page is in CONVERTING (R371). -/
def State.settleRqe (s : State) (stack : Nat) : State :=
  if (s.die stack).offPending && !s.kvConverting stack then
    s.onDie stack fun u => { u with rqeEn := false, offPending := false }
  else s

/-- The stack's access table keeps its engine from its memory (R468): a refused access changes nothing and raises the alarm
(R469). -/
def State.rqeRefused (s : State) (stack : Nat) : Bool := !s.admits (.chord stack) (.stackMem stack) true true

/-- The engine is refused a page, and passes it. -/
def State.rqeAlarm (s : State) (stack frame : Nat) : State :=
  (s.alarm ⟨.chord stack, .stackMem stack, framePa stack frame⟩).rqePass stack frame

/-- A visit to a page whose header stands in its frame. -/
def State.rqeLook (s : State) (stack frame : Nat) : State :=
  let pa := framePa stack frame
  if s.kvSkipped pa then s.rqePass stack frame
  else
    let h := s.kvSafeHeader pa
    match kvState h with
    | 1 =>
      if s.paMigrating pa then s.rqePass stack frame
      else
        let (t, s) := s.readTick
        (if (s.die stack).agethr.toNat ≤ t.toNat - kvAge h ∧ kvAge h ≤ t.toNat then s.putKvState pa h 2 else s).rqePass stack frame
    | 2 =>
      if kvNoconv h || s.paMigrating pa then s.rqePass stack frame
      else if (s.kvNextSlot pa).isNone then (s.putKvState pa h 4).rqePass stack frame
      else { s with ms := (s.putKvState pa h 3).ms.kwriteNat (pa + 0x18) 4 ((kvGen h + 1) % 2 ^ 32) }.onDie stack fun u =>
        { u with cursor := frame }
    | 3 =>
      if (s.kvNextSlot pa).isNone && !s.paMigrating pa then (s.endConvert stack pa h).rqePass stack frame
      else s.onDie stack fun u => { u with cursor := frame }
    | _ => s.rqePass stack frame

/-- The engine reaches the header of the page it stands at: an access like any other, which an ARMED record fills (R240); a page
of a PENDING one is skipped (R243). -/
def State.rqeReach (s : State) (stack frame : Nat) (f : State → State) : State :=
  if !s.rqeMay stack frame then s
  else if s.rqeRefused stack then s.rqeAlarm stack frame
  else
    match s.ms.touch (framePa stack frame) 0x100 with
    | .ok ms => f { s with ms := ms }
    | _ => s.rqePass stack frame

/-- A visit to the page the engine stands at (R368, R370): it stays while the page is in CONVERTING. A page that is malformed, or
whose frame migrates, is passed (R243, R366). -/
def State.rqeVisit (s : State) (stack frame : Nat) : State := s.rqeReach stack frame fun s => s.rqeLook stack frame

/-- The bytes of a slot in MXFP4 form (R363, R372). -/
def kvSlotMx (tag slot rps : Nat) : Nat :=
  (List.range (kvR rps)).foldl (fun a k =>
    let xs := (List.range (kvE rps)).map fun i => kvValue tag slot rps k i
    putBits a (8 * (17 * k * kvE rps / 32)) (8 * (17 * kvE rps / 32)) (kvRowMx xs (kvE rps)).1) 0

/-- The first uncorrectable sector among some. -/
def State.firstBad (s : State) (l : List Nat) : Option Nat := l.find? fun q => s.ms.poison.contains q

/-- A slot step on the page the engine stands at, in CONVERTING (R368, R372): one that ends the conversion leaves the page, and
one that finds the frame migrating ends it in AGED. -/
def State.rqeConvert (s : State) (stack frame : Nat) : State :=
  let pa := framePa stack frame
  let h := s.kvSafeHeader pa
  if s.kvSkipped pa || kvState h != 3 then s.rqePass stack frame
  else if kvNoconv h || s.paMigrating pa then (s.abortConvert stack pa h).rqePass stack frame
  else
    match s.kvNextSlot pa with
    | none => (s.endConvert stack pa h).rqePass stack frame
    | some n =>
      let at_ := pa + 1024 * n
      match s.firstBad ((pa + kvTagOff n) / 64 :: (List.range 16).map fun i => at_ / 64 + i) with
      | some q => ((s.abortConvert stack pa h).ras (.uncorrectable q)).rqePass stack frame
      | none =>
        let slot := kvSlotMx (kvTag h n) (s.ms.kreadNat at_ 1024) (kvRps h)
        { s with ms := (s.ms.kwriteNat at_ 1024 slot).kwriteNat (pa + kvTagOff n) 2 0x7F02 }.onDie stack fun u =>
          { u with cursor := frame }

/-- A slot step (R372). -/
def State.rqeSlotStep (s : State) (stack frame : Nat) : State := s.rqeReach stack frame fun s => s.rqeConvert stack frame

/-- A write of RQECFG.EN (R371): EN := 0 waits for the page in CONVERTING. -/
def StackUnit.setRqe (u : StackUnit) (en : Bool) : StackUnit :=
  if en then { u with rqeEn := true, offPending := false } else { u with offPending := u.rqeEn }

/-- RQE_VISIT (R368). -/
def execRqeVisit (stack frame : Nat) (s : State) : Result := .next (s.rqeVisit stack frame)

/-- RQE_SLOT_STEP (R372). -/
def execRqeSlotStep (stack frame : Nat) (s : State) : Result := .next (s.rqeSlotStep stack frame)

/-! Far work (R295, R303, R305, R458). -/

/-- FAR_DISPATCH (R295): a far instruction at the head of a hart's queue is checked and sent. -/
def execFarDispatch (h : Nat) (s : State) : Result :=
  .next (
    let t := s.focus h
    if t.hart.no ≠ h ∨ t.hart.phase = .absent then s
    else
      match t.hart.vq with
      | e :: _ => if isFarWord e.instr then t.runHead else s
      | [] => s)

/-- The oldest open binding request of a hart: by its context and WID (R458). -/
def State.openBind (s : State) (h : Hart) : Option BindRequest :=
  s.far.binds.find? fun b => b.ctx == h.ctx && b.wid == h.ctl.wid && b.answer.isNone

/-- GUEST_BIND_ANSWER (R458): the remote stack's answer to the hart's oldest open request. -/
def execGuestBindAnswer (h : Nat) (bound : Bool) (s : State) : Result :=
  .next (match (s.findHart h).bind s.openBind with
    | some b => { s with far := { s.far with binds := s.far.binds.map fun q => if q = b then { q with answer := some bound } else q } }
    | none => s)

/-- FAR_PIECE_COMPLETE (R303). -/
def execFarPieceComplete (h stack : Nat) (s : State) : Result := .next (s.completeOldest h stack)

/-- REDUCE_CONTRIBUTION (R305): a contribution of a hart arrives at the MSC of its target; a fenced stack takes none (R466). -/
def execReduceContribution (c : Contribution) (s : State) : Result :=
  .next (
    let n := fmtWidth c.fmt / 8
    match s.findHart c.hart with
    | none => s
    | some h =>
      if n = 0 ∨ c.pa % n ≠ 0 ∨ s.backed c.pa n = false then s
      else if s.spanFenced c.pa n then s.asyncFault h.poster ⟨0x10, 0, 0, 0, 0⟩ none
      else if (c.kind == .sum && fmtIsFloat c.fmt && s.ms.poisoned c.pa n) = true then
        s.asyncFault h.poster ⟨0x10, 0, 0, 0, 0⟩ none
      else s.contributeAt h.owner c.pa c.kind c.fmt (c.value % 2 ^ fmtWidth c.fmt))

/-! Guest sets lent (R301, R302, R458). -/

/-- A write of FARCFG: GUEST := 0 is ignored while a set is bound; GUEST := 1 merges the lines of the lent part of the MSC,
taken as every reduce-state line of the stack. -/
def State.farcfg (s : State) (stack : Nat) (guest : Bool) : State :=
  let u := s.die stack
  if guest then
    let mine := (s.ms.reduce.map ReduceLine.line).filter fun l => s.ownerOf (512 * l) == stack
    { s with ms := mine.foldl (fun m l => m.merge (512 * l) 512) s.ms }.onDie stack fun u => { u with guest := true }
  else if u.sets.isEmpty then s.onDie stack fun u => { u with guest := false }
  else s

/-- The set is that of a hart of another package. -/
def GuestSet.isOf (g : GuestSet) (pkg ctx : Nat) (wid : Word) : Bool := g.pkg == pkg && g.ctx == ctx && g.wid == wid

def sendBind (s : State) (pkg ctx : Nat) (b : Bool) : State :=
  { s with link := { s.link with out := s.link.out ++ [.bindAnswer pkg ctx b] } }

/-- GUEST_BINDING_REQUEST (R301, R458). -/
def execGuestBindingRequest (stack pkg ctx : Nat) (wid : Word) (s : State) : Result :=
  .next (
    let u := s.die stack
    if !s.stackActive stack || s.mgmt.fenced.contains (.stack stack) || !u.guest then sendBind s pkg ctx false
    else if (u.sets.any fun g => g.isOf pkg ctx wid) = true then sendBind s pkg ctx true
    else if 64 ≤ u.sets.length then sendBind s pkg ctx false
    else
      sendBind (s.onDie stack fun u => { u with sets := u.sets ++ [⟨pkg, ctx, wid, Vector.replicate 8 .fresh⟩] }) pkg ctx true)

/-! What harts of other packages send (R303, R458). -/

/-- It was sent by a hart. -/
def GuestPiece.isOf (g : GuestPiece) (pkg ctx : Nat) (wid : Word) : Bool := g.pkg == pkg && g.ctx == ctx && g.wid == wid

/-- The number that stands for the context of another package: no context of this one. -/
def guestCtx : Nat := 4096

/-- It stands for the group and the kernel of another package: no key of this one comes to it. -/
def guestGroup : Nat := 2 ^ 64

/-- The entry of an instruction from another package, which names this site. -/
def GuestPiece.entry (g : GuestPiece) (i : Instr) (pkg stack : Nat) : VqEntry :=
  let o := g.ops
  { instr := i, addr := 0, vl := o.vl, start := o.start, rc := o.rc, vtail := o.vtail, vtag := o.vtag, vblk := o.vblk,
    frm := (RMode.ofCode (BitVec.ofNat 3 o.frm)).getD .rne, bank := false, bankVals := o.bank, sr := false,
    fsite := BitVec.ofNat 64 (stack + pkg * 256), srctr := o.srctr, srseed := o.srseed, xa := o.xa, xb := o.xb }

/-- A page it carries. -/
def farPageLeaf (p : FarPage) : Leaf where
  base := p.pa
  size := 2 ^ 16
  peer := none
  cp := p.cp
  mig := false
  kv := p.kv
  r := true
  w := p.w
  x := false
  pte := 0
  entry := 96
  path := []

/-- The registers with which it runs at a stack: those it carries, and those of its guest set. -/
def GuestPiece.hart (g : GuestPiece) (stack : Nat) (regs : Vector FarReg 8) : Hart :=
  let r := VecRegs.reset
  let r := { r with
    k := Vector.ofFn fun i => g.ops.preds.getD i.val 0
    plive := g.ops.plive
    far := Vector.ofFn fun i => if i.val / 8 = stack then regs[i.val % 8]?.getD .fresh else .fresh }
  let r := g.ops.near.foldl (fun r q =>
    { r with v := r.v.setIfInBounds q.reg q.bits, vtags := r.vtags.setIfInBounds q.reg ⟨q.fmt, q.blk⟩ }) r
  { Hart.reset with ctx := guestCtx, grp := guestGroup, kern := guestGroup, vec := r, ctl := { CtlRegs.reset with hpc := g.ops.hpc } }

/-- What was read for FEMBAG and FATT before they came; FATT's site reads its page headers here (R295, R317). -/
def State.guestPre (s : State) (st : Stream) (i : Instr) (o : FarOperands) : Acc (FarPre × State) :=
  match i with
  | .fembag .. => .ok (.bag o.desc, s)
  | .fatt .. =>
    ((s.attnPages st (o.blocks.map fun b => (b.1, b.2.1, b.2.2, 0, 0))).bind fun l =>
      s.attnHeaders st (attnDesc o.desc).rps (l.map Prod.fst)).map fun x =>
        (.attn o.desc o.fin ((o.blocks.zip x.1).map fun b => (b.1.1, b.1.2.1, b.1.2.2, b.2.1, b.2.2)), x.2)
  | _ => .ok (.none, s)

/-- The end of a piece: its guest set keeps the far registers, the stack counts it, and the answer goes to its package. -/
def GuestPiece.close (g : GuestPiece) (stack : Nat) (i : Instr) (code : BitVec 8) (t : State) : State :=
  let h := t.hart
  let near := if runsBehind i then [] else
    match (vecFields i).head? with
    | some d =>
      if isFarReg d then []
      else leBytes h.vlenb (h.vec.getV d.toNat) ++ (if (h.vec.tagV d.toNat).blk then leBytes h.vlenb (h.vec.getV (d.toNat + 1)) else [])
    | none => []
  let t := { t with
    hart := t.harts.headD .reset
    harts := t.harts.drop 1
    ms := { t.ms with tlb := t.ms.tlb.filter fun e => e.core ≠ farCore }
    link := { t.link with
      out := t.link.out ++ [OutMsg.farAnswer g.pkg g.ctx g.wid code (h.ctl.fflags.toNat + h.ctl.iflags.toNat * 32) near] } }
  t.onDie stack fun u =>
    { u with
      pieces := u.pieces + 1
      sets := u.sets.map fun (q : GuestSet) =>
        if q.isOf g.pkg g.ctx g.wid then { q with regs := Vector.ofFn fun i => h.vec.getF (8 * stack + i.val) } else q }

/-- A piece is performed at a stack, a site instruction in its guest set; none while something holds it. -/
def State.performGuest (s : State) (stack : Nat) (g : GuestPiece) (i : Instr) (regs : Vector FarReg 8) : Option State :=
  let here := (s.plat.pkg.toNat, stack)
  let h := g.hart stack regs
  let s1 : State := { s with
    hart := h
    harts := s.hart :: s.harts
    ms := { s.ms with tlb := (g.ops.pages.map fun p => ⟨farCore, guestCtx, p.vpn, 1, farPageLeaf p⟩) ++ s.ms.tlb } }
  let one := isPiecewise i
  let st : Stream := ⟨⟨guestCtx, farCore, none, 0, .chord stack⟩, true, if one then none else some here, h.poster,
    if one then some here else none⟩
  let v := s1.env (g.entry i here.1 stack)
  match s1.guestPre st i g.ops with
  | .held _ => none
  | .fault f => some (g.close stack i f.code s1)
  | .ok (pre, s2) =>
    if (spanPages (v.spansOf pre v.remaining)).any fun p => !(g.ops.pages.any fun q => q.vpn == p.1) then some (g.close stack i 0x05 s1)
    else
      match s2.runEntry st v pre v.remaining with
      | .done t => some (g.close stack i 0 t)
      | .fault t f _ => some (g.close stack i f.code t)
      | .wait _ _ => none

/-- The oldest instruction of a hart of another package at a stack is performed (R303, R458): one that is none of a far word, or
has no guest set to run in, leaves without effect. -/
def State.guestStep (s : State) (stack pkg ctx : Nat) (wid : Word) : State :=
  let u := s.die stack
  match u.guests.find? fun g => g.isOf pkg ctx wid with
  | none => s
  | some g =>
    let gone (t : State) : State := t.onDie stack fun u => { u with guests := u.guests.erase g }
    match (decodeWords g.word 0).toOption.filter isFarWord with
    | none => gone s
    | some i =>
      let regs := (u.sets.find? fun q => q.isOf pkg ctx wid).map GuestSet.regs
      if !isPiecewise i && regs.isNone then gone s
      else ((s.performGuest stack g i (regs.getD (Vector.replicate 8 .fresh))).map gone).getD s

/-- REMOTE_FAR_COMMAND (R303, R458): the instruction waits behind those of its hart at the stack, of which the far queue holds 32
and the others wait for room. -/
def execRemoteFarCommand (stack pkg ctx : Nat) (wid : Word) (word : FarCommand) (s : State) : Result :=
  .next (if !s.stackActive stack || s.mgmt.fenced.contains (.stack stack) then s
    else
      let t := s.onDie stack fun u => { u with guests := u.guests ++ [⟨pkg, ctx, wid, word.word, word.ops⟩] }
      if s.lag.far then t else t.guestStep stack pkg ctx wid)

/-- A guest set is released once the pieces of its hart are complete (R301). -/
def State.guestRelease (s : State) (stack pkg ctx : Nat) (wid : Word) : State :=
  let t := ((s.die stack).guests.filter fun g => g.isOf pkg ctx wid).foldl (fun t _ => t.guestStep stack pkg ctx wid) s
  if (t.die stack).guests.any fun g => g.isOf pkg ctx wid then { t with agenda := t.agenda ++ [.guestRelease stack pkg ctx wid] }
  else t.onDie stack fun u => { u with sets := u.sets.filter fun g => !g.isOf pkg ctx wid }

/-- GUEST_SET_RELEASE (R301). -/
def execGuestSetRelease (stack pkg ctx : Nat) (wid : Word) (s : State) : Result := .next (s.guestRelease stack pkg ctx wid)

end Sys2Proof.Machine
end

