-- ==== Sys2Proof/Machine/Platform.lean ====
section
/-! DEFINITION. Boot and power, reliability, and Meridian's mailbox (R30, R460 to R471). -/

namespace Sys2Proof.Machine

/-! Boot and power (R460, R462 to R464). -/

/-- What a loss of power, or a cold reset, leaves: the non-volatile state, and the model's own fields (R30, R460). -/
def State.wiped (s : State) : State :=
  { State.reset with
    plat := { Platform.reset with boot := s.plat.boot }
    mgmt := { Management.reset with keyErased := s.mgmt.keyErased }
    agenda := s.agenda
    lag := s.lag
    free := s.free }

/-- The stacks that are not marked retired and train at a boot. -/
def trainedStacks (n : Nat) (retired : BitVec 16) : BitVec 16 :=
  (List.range 16).foldl (fun a t => if !retired.getLsbD t && Config.stackTrains n t then a ||| (1#16 <<< t) else a) 0

/-- The firmware's signature is good under the fused key (R31, R460). -/
def imageSigned : Bool := ecdsaVerify Config.fusedKey Config.firmware Config.firmwareSignature

/-- A stage fails: the sequence halts. -/
def Platform.haltBoot (p : Platform) (e : BitVec 8) : Platform := { p with stage := 7, err := e }

/-- The boot sequence over the platform registers (R460): a stack that fails training is marked retired in the boot
configuration. -/
def Platform.bootSeq (p : Platform) (n : Nat) : Platform :=
  let c := p.boot
  if !imageSigned then p.haltBoot 1
  else
    let a := trainedStacks n c.retired
    let p := { p with pkg := c.pkg, domain := c.domain, ratio := c.ratio, boot := { c with retired := ~~~a } }
    if a = 0 then p.haltBoot 2
    else if 64 < c.share then p.haltBoot 3
    else { p with share := BitVec.ofNat 8 c.share, active := a, stage := 4 }

/-- COLD_RESET (R460): every register at its Reset value, then the stages. -/
def execColdReset (s : State) : Result :=
  .next (
    let (n, s) := s.useFree
    let w := s.wiped
    { w with plat := w.plat.bootSeq n })

/-- Power is lost (R30). -/
def State.losePower (s : State) : State := { s.wiped with plat := { s.wiped.plat with powered := false } }

/-- POWER_LOSS (R30). -/
def execPowerLoss (s : State) : Result := .next s.losePower

/-- THERMAL_TRIP (R464): module power is removed. -/
def execThermalTrip (s : State) : Result := .next s.losePower

/-- POWER_THROTTLE (R463): the clocks are lowered while the average exceeds PLIMIT. -/
def execPowerThrottle (watts : Nat) (s : State) : Result :=
  .next { s with plat := { s.plat with lowered := decide (s.plat.plimit.toNat < watts) } }

/-- A write of PWRCTL (R462). -/
def Platform.setPower (p : Platform) (v : Word) : Platform :=
  let w : BitVec 16 := v.extractLsb' 32 16
  { p with
    pstate := v.setWidth 2
    plimit := if 300 ≤ w.toNat ∧ w.toNat ≤ 2800 then w else p.plimit }

/-! Reliability (R465 to R467). -/

/-- A corrected error is logged with the time (R465, R467). -/
def State.logCorrected (s : State) (row : Option (Nat × Nat)) : State :=
  let (t, s) := s.readTick
  s.ras (.corrected row t)

/-- A sector of memory becomes uncorrectable, in DRAM, the MSC, an L2 or an L1: no copy of it is delivered any more (R465). -/
def State.spoilSector (s : State) (q : Nat) : State :=
  if s.backed (64 * q) 64 then
    ({ s with ms := { s.ms with poison := setInsert q s.ms.poison, l1 := s.ms.l1.filter fun l => l.sector != q } } : State).ras
      (.uncorrectable q)
  else s

/-- A sector of a register file or tile of a hart becomes uncorrectable (R465). -/
def State.spoilRegister (s : State) (no : Nat) (file : Option RegFile) (n sector : Nat) : State :=
  (s.onHart no fun h => h.spoil file n sector).ras (.register no)

/-- The register that an error strikes, by an open number: a word of x, a predicate, a sector of v, f or z. -/
def someRegister (n : Nat) : Option RegFile × Nat × Nat :=
  let i := Config.pick n 6
  let j := Config.pick n 7 % 1024
  match i % 5 with
  | 0 => (none, i / 5 % 64, 0)
  | 1 => (some .k, i / 5 % 16, 0)
  | 2 => (some .v, i / 5 % 64, j)
  | 3 => (some .f, i / 5 % 160, j % 64)
  | _ => (some .z, i / 5 % 8, j)

/-- An error of an SRAM array is detected, by a scrub or on a read (R465): corrected and logged, or beyond correction. Which
array and where is open. -/
def State.sramError (s : State) : State :=
  let (n, s) := s.useFree
  match Config.pick n 2 % 5 with
  | 1 => s.logCorrected none
  | 2 =>
    match s.ms.lsw[Config.pick n 5 % s.ms.lsw.length]? with
    | some q => { s with ms := { s.ms with lsBad := setInsert q s.ms.lsBad } }.ras (.localStore q)
    | none => s
  | 3 => s.spoilSector (Config.pick n 4)
  | 4 =>
    match s.placedHarts[Config.pick n 5 % s.placedHarts.length]? with
    | some h =>
      let r := someRegister n
      s.spoilRegister h.no r.1 r.2.1 r.2.2
    | none => s
  | _ => s

/-- An error of DRAM is detected, by a scrub or on a read (R465): corrected and logged with its row, or beyond correction. -/
def State.dramError (s : State) : State :=
  let (n, s) := s.useFree
  match Config.pick n 3 % 3 with
  | 1 => s.logCorrected (some (Config.pick n 5 % 16, Config.pick n 4))
  | 2 => s.spoilSector (Config.pick n 4)
  | _ => s

/-- SRAM_SCRUB (R465). -/
def execSramScrub (s : State) : Result := .next s.sramError

/-- DRAM_SCRUB (R465). -/
def execDramScrub (s : State) : Result := .next s.dramError

/-- A unit accepts no work until cold reset (R466). -/
def State.fence (s : State) (u : UnitId) : State := { s with mgmt := { s.mgmt with fenced := addNew s.mgmt.fenced u } }

/-- A placed hart uses a stack: a piece of it is there, it names the stack, or its data may lie there, which is open. -/
def State.usesStack (s : State) (n t : Nat) (h : Hart) : Bool :=
  (s.far.pieces.any fun p => p.hart == h.no && p.stack == t && p.pkg == s.plat.pkg.toNat) ||
    (h.ctl.fstack.toNat == t && h.ctl.fpkg == s.plat.pkg) || Config.pick n h.no % 2 == 1

/-- The harts of the groups that use a unit: a core by its harts, or by its local store, of which every group on the quad has a
part (R225). -/
def State.usersOf (s : State) (n : Nat) (u : UnitId) : List Hart :=
  s.placedHarts.filter fun h =>
    match u with
    | .core c => h.core == c || (h.core / 4 == c / 4 && s.lstoreOf h.kern != 0)
    | .quad q => h.core / 4 == q
    | .stack t => s.usesStack n t h
    | _ => false

/-- Each group of some harts takes one asynchronous 0x10 (R111, R466). -/
def State.faultUsers (s : State) : List Hart → List Nat → State
  | [], _ => s
  | h :: r, seen =>
    if seen.contains h.grp then s.faultUsers r seen else (s.asyncFault h.poster (.of 0x10) none).faultUsers r (h.grp :: seen)

/-- A context of a stopped module (R466): one that is not bound yet takes FAULTED too. -/
def State.stopContext (s : State) (c : Nat) : State :=
  if (s.ctx c).st = .created then s.setCtx c { s.ctx c with st := .faulted } else s.faultContext c

/-- CONTROL_ERROR (R466). -/
def execControlError (u : UnitId) (s : State) : Result :=
  .next (
    let s := ((s.retireDue fun _ => true).ras (.control u)).fence u
    match u with
    | .core _ | .quad _ | .stack _ =>
      let (n, s) := s.useFree
      s.faultUsers (s.usersOf n u) []
    | _ =>
      let s := (s.cmp.contexts.map Prod.fst).foldl State.stopContext s
      { s with mgmt := { s.mgmt with aer := true }, link := { s.link with out := s.link.out ++ [.fatal] } })

/-- Eight corrected errors of a row stand in the log of the last 24 h (R467). -/
def State.rowWorn (s : State) (row : Nat × Nat) : Bool :=
  decide (8 ≤ (s.mgmt.ras.filter fun e =>
    match e with
    | .corrected r t => r == some row && decide (s.plat.tick.toNat - t.toNat ≤ 86400000000)
    | _ => false).length)

/-- The pool of the row's bank has a spare row (R467). -/
def State.spareLeft (s : State) (row : Nat × Nat) : Bool :=
  let bank := Config.rowBank row.1 row.2
  decide (((s.mgmt.sparing ++ s.mgmt.spared).filter fun p => p.1 == row.1 && Config.rowBank p.1 p.2 == bank).length <
    Config.spareRows row.1 bank)

/-- Meridian spares the row now. -/
def State.maySpare (s : State) (row : Nat × Nat) : Bool :=
  !(s.mgmt.sparing ++ s.mgmt.spared).contains row && s.rowWorn row && s.spareLeft row

/-- The rows that Meridian spares now (R467). -/
def State.wornRows (s : State) : List (Nat × Nat) :=
  ((s.mgmt.ras.filterMap fun e =>
    match e with
    | .corrected r _ => r
    | _ => none).foldl addNew []).filter s.maySpare

/-- Sparing of a row begins (R467): writes go to both rows, reads to the old one; no value changes. -/
def State.spareRow (s : State) (stack row : Nat) : State :=
  if s.maySpare (stack, row) then { s with mgmt := { s.mgmt with sparing := addNew s.mgmt.sparing (stack, row) } } else s

/-- ROW_SPARE (R467). -/
def execRowSpare (stack row : Nat) (s : State) : Result := .next (s.spareRow stack row)

/-- Sparing of a row ends: reads come from its spare. -/
def State.commitRow (s : State) (stack row : Nat) : State :=
  if s.mgmt.sparing.contains (stack, row) then
    { s with mgmt := { s.mgmt with sparing := s.mgmt.sparing.filter fun p => p != (stack, row), spared := addNew s.mgmt.spared (stack, row) } }
  else s

/-- ROW_SPARE_COMMIT (R467). -/
def execRowSpareCommit (stack row : Nat) (s : State) : Result := .next (s.commitRow stack row)

/-! The mailbox (R468 to R471). -/

/-- A command joins those that Meridian performs one at a time, in arrival order (R471); where the firmware's signature failed,
nothing runs (R460). -/
def State.mbQueue (s : State) (e : MbEntry) : State :=
  if s.plat.err = 1 then s
  else { s with mgmt := { s.mgmt with queue := s.mgmt.queue ++ [e], busy := s.mgmt.busy || e.written } }

/-- A write of MBCMD: one that comes while BUSY is 1 is dropped. -/
def State.mbWrite (s : State) (op : BitVec 8) : State := if s.mgmt.busy then s else s.mbQueue ⟨true, .op op⟩

/-- A command of MCTP over PCIe or of SMBus: BUSY is of written commands alone, and its result goes back the way it came. DESIGN
CHOICE (log 38). -/
def State.mbStart (s : State) (c : MbCommand) : State := s.mbQueue ⟨false, c⟩

/-- Physical address of the buffer. -/
def State.mbBase (s : State) : Nat := s.mgmt.mbbuf.toNat * 2 ^ 12

/-- The buffer lies in device or host memory. -/
def State.mbOk (s : State) : Bool := s.backed s.mbBase 4096 || regionOf s.mbBase == .host

/-- What the caller put into the buffer. -/
def State.mbBuffer (s : State) : Nat := s.ms.creadNat s.mbBase 4096

/-- Set the entry of a target and a master. -/
def setTable (l : List AccessEntry) (e : AccessEntry) : List AccessEntry :=
  (l.filter fun q => !(q.target == e.target && q.master == e.master)) ++ [e]

def State.withTable (s : State) (e : AccessEntry) : State := { s with mgmt := { s.mgmt with tables := setTable s.mgmt.tables e } }

def State.withAlarm (s : State) (a : BitVec 2) : State := { s with mgmt := { s.mgmt with alarm := a } }

def State.withBoot (s : State) (c : BootConfig) : State := { s with plat := { s.plat with boot := c } }

/-- A change that a locked module refuses (R469, R471). -/
def State.mbChange {α : Type} (s : State) (x : Option α) (f : State → α → State) : BitVec 8 × State :=
  if s.mgmt.locked then (2, s)
  else
    match x with
    | some a => (0, f s a)
    | none => (3, s)

/-- An alarm setting that R469 lists. -/
def alarmSetting (a : BitVec 2) : Option (BitVec 2) := if a = 3 then none else some a

/-- A boot configuration whose k is from 1 to 7 (R20). -/
def bootSetting (c : BootConfig) : Option BootConfig := if 1 ≤ c.ratio ∧ c.ratio ≤ 7 then some c else none

/-- RESULT of a command, and its effect (R468 to R471). -/
def State.mbPerform (s : State) (c : MbCommand) : BitVec 8 × State :=
  let buf := s.mbBuffer
  if !s.mbOk then (3, s)
  else
    match c with
    | .attest => if s.mgmt.keyErased then (1, s) else (0, s)
    | .telemetry | .rasLog => (0, s)
    | .accessTable e => s.mbChange (some e) State.withTable
    | .setAlarm a => s.mbChange (alarmSetting a) State.withAlarm
    | .bootConfig b => s.mbChange (bootSetting b) State.withBoot
    | .op code =>
      match code.toNat with
      | 1 => if s.mgmt.keyErased then (1, s) else (0, s)
      | 2 | 3 => (0, s)
      | 4 => s.mbChange (Config.accessArg buf) State.withTable
      | 5 => s.mbChange ((Config.alarmArg buf).bind alarmSetting) State.withAlarm
      | 6 => s.mbChange ((Config.bootArg buf).bind bootSetting) State.withBoot
      | _ => (1, s)

/-- What an attestation report holds (R470): the nonce, the digests of ROM and firmware, BOOTSTAT, POOLCFG, k, the alarm
setting and the count of alarms. The numbers stand in 8 bytes each, in this order. DESIGN CHOICE (log 37). -/
def State.attestBody (s : State) : List Byte :=
  (List.range 64).map (Config.nonceByte s.mbBuffer) ++ sha512 Config.romImage ++ sha512 Config.firmware ++
    ([s.plat.err.toNat * 2 ^ 8 + s.plat.stage.toNat, s.plat.share.toNat * 2 ^ 24 + s.nact * 2 ^ 16 + s.plat.active.toNat,
      s.plat.ratio, s.mgmt.alarm.toNat, s.mgmt.alarms].flatMap (leBytes 8))

/-- The report with its signature under the identity key: r and s, 66 bytes each, the most significant first (R31, R470). -/
def State.attestReport (s : State) (seed : Nat) : List Byte :=
  let g := signWith Config.identityKey seed s.attestBody
  s.attestBody ++ beBytes 66 g.1 ++ beBytes 66 g.2

def MbCommand.isAttest : MbCommand → Bool
  | .attest => true
  | .op code => code == 1
  | _ => false

/-- The command reports into the buffer; a log and telemetry are open. -/
def MbCommand.reports : MbCommand → Bool
  | .attest | .telemetry | .rasLog => true
  | .op code => code == 1 || code == 2 || code == 3
  | _ => false

/-- The bytes of a report (R470, R471). -/
def State.mbReport (s : State) (c : MbCommand) : List Byte × State :=
  if c.isAttest then
    let (n, t) := s.useFree
    (s.attestReport (Config.pick n 8), t)
  else s.openBytes 4096

/-- The next command is performed, its report in the buffer (R471); the tables may keep Meridian from the buffer (R468). -/
def State.mbAnswer (s : State) (c : MbCommand) : BitVec 8 × State :=
  match (if s.backed s.mbBase 4096 then s.refusedByte (fun _ => .meridian) s.mbBase 4096 true c.reports else none) with
  | some a => (1, s.alarm ⟨.meridian, .stackMem (s.ownerOf a), a⟩)
  | none =>
    let (r, s) := s.mbPerform c
    if c.reports && r == 0 then
      let (bs, s) := s.mbReport c
      (r, s.cwrite s.mbBase bs)
    else (r, s)

/-- MB_COMMAND_DONE (R471): the result is in the buffer, and of a written command BUSY returns to 0. A buffer that a PENDING
record holds keeps the command waiting (R240). -/
def State.mbDone (s : State) : State :=
  match s.mgmt.queue, s.ms.touch s.mbBase 4096 with
  | e :: rest, .ok ms =>
    let (r, s) := ({ s with ms := ms } : State).settleAll.mbAnswer e.cmd
    if e.written then { s with mgmt := { s.mgmt with busy := false, result := r, queue := rest } }
    else { s with mgmt := { s.mgmt with queue := rest }, link := { s.link with out := s.link.out ++ [.mbResult r] } }
  | _, _ => s

/-- MB_ATTEST (R470). -/
def execMbAttest (s : State) : Result := .next (s.mbStart .attest)

/-- MB_TELEMETRY (R471). -/
def execMbTelemetry (s : State) : Result := .next (s.mbStart .telemetry)

/-- MB_RAS_LOG (R471). -/
def execMbRasLog (s : State) : Result := .next (s.mbStart .rasLog)

/-- MB_WRITE_ACCESS_TABLE (R468). -/
def execMbWriteAccessTable (e : AccessEntry) (s : State) : Result := .next (s.mbStart (.accessTable e))

/-- MB_SET_ALARM (R469). -/
def execMbSetAlarm (a : BitVec 2) (s : State) : Result := .next (s.mbStart (.setAlarm a))

/-- MB_WRITE_BOOT_CONFIG (R461). -/
def execMbWriteBootConfig (c : BootConfig) (s : State) : Result := .next (s.mbStart (.bootConfig c))

/-- MB_COMMAND_DONE (R471). -/
def execMbCommandDone (s : State) : Result := .next s.mbDone

end Sys2Proof.Machine
end

