-- ==== Sys2Proof/Machine/Link.lean ====
section
/-! DEFINITION. Events of the host port and the peer ports: requests from outside, answers to requests of the package, links,
CXL.cache, write-back of L1 sectors (R257, R448 to R459). -/

namespace Sys2Proof.Machine

def State.send (s : State) (m : OutMsg) : State := { s with link := { s.link with out := s.link.out ++ [m] } }

/-! Requests from outside (R450 to R452, R457). -/

/-- Physical address of an offset of BAR2 or of the HDM range (R450). -/
def bar2Pa (o : Nat) : Option Nat :=
  if o < 2 ^ 40 then some o
  else if o < 2 ^ 41 then some (2 ^ 44 + (o - 2 ^ 40) / 2 ^ 36 * 2 ^ 36 + (o - 2 ^ 40) % 2 ^ 36)
  else none

def outerWrites : OuterOp → Bool
  | .read => false
  | _ => true

/-- The master is another package's port. -/
def isPort : Master → Bool
  | .port _ => true
  | _ => false

/-- The format a peer's atomic works in, for `n` bytes (R286, R288). -/
def peerFmt (f : PeerAmo) (n : Nat) : Fmt :=
  match f with
  | .fadd => .fp32
  | .min t | .max t => t
  | .and | .or | .xor => if n = 8 then .n64 else .n32

/-- The atomic is one that R286 or R288 gives a hart, and covers `n` bytes. -/
def peerOk (f : PeerAmo) (n : Nat) : Bool :=
  [Fmt.s32, .s64, .n32, .n64, .fp32].contains (peerFmt f n) && n * 8 == fmtWidth (peerFmt f n)

/-- The new value of a peer's atomic; its flags are the issuer's to raise. -/
def peerNew (f : PeerAmo) (n old v : Nat) : Nat :=
  match f with
  | .and => old &&& v % 2 ^ (8 * n)
  | .or => old ||| v % 2 ^ (8 * n)
  | .xor => old ^^^ v % 2 ^ (8 * n)
  | .fadd => (VAmo.new .fadd .fp32 old v).1
  | .min t => (VAmo.new .min t old (v % 2 ^ (8 * n))).1
  | .max t => (VAmo.new .max t old (v % 2 ^ (8 * n))).1

/-- An atomic that a master may send: the AtomicOps of R448, of 32 or 64 aligned bits, and for a peer every atomic of a hart. -/
def atomicOk (m : Master) (r : OuterReq) (n pa : Nat) : Bool :=
  match r.op with
  | .read | .write => true
  | .amo f => isPort m && peerOk f n && pa % n == 0
  | .fetchAdd | .swap | .cas => (n == 4 || n == 8) && pa % n == 0

/-- The new value of an atomic of `n` bytes (R448, R457). -/
def outerNew (r : OuterReq) (n old : Nat) : Nat :=
  let v := leNat r.data
  match r.op with
  | .fetchAdd => (old + v) % 2 ^ (8 * n)
  | .swap => v % 2 ^ (8 * n)
  | .cas => if old = r.expect then v % 2 ^ (8 * n) else old
  | .amo f => peerNew f n old v
  | .read | .write => old

/-- The bytes a request covers. -/
def outerCount (r : OuterReq) : Nat := if r.op = .write then r.data.length else r.len

/-- A request performed at an address of device memory that admits it: raw, and past every L1 (R451, R452, R457). -/
def State.performOuter (s : State) (r : OuterReq) (pa : Nat) : State :=
  let n := outerCount r
  let old := s.ms.cread pa n
  match r.op with
  | .write => (s.cwrite pa r.data).send .ack
  | .read =>
    if s.ms.poisoned pa n then
      let (bs, s) := s.openBytes n
      (s.ras (.uncorrectable (pa / 64))).send (.poisoned bs)
    else { s with ms := s.ms.merge pa n }.send (.completion old)
  | _ =>
    if s.ms.poisoned pa n then
      let (bs, s) := s.openBytes n
      (s.ras (.uncorrectable (pa / 64))).send (.poisoned bs)
    else (s.cwrite pa (leBytes n (outerNew r n (leNat old)))).send (.completion old)

/-- A request that is refused: a write of the host to no memory is discarded, a peer is told of any refusal, and either of one
by the tables (R451, R457). -/
def State.refuseOuter (s : State) (m : Master) (r : OuterReq) (o : OutMsg) : State :=
  if r.op = .write ∧ isPort m = false ∧ o = .unsupported then s else s.send o

/-- A host write to device memory (R264): where releases run behind it is not performed yet, and the writes after it need not
wait for it; one that is performed releases those before it unless it is relaxed, and comes after those to the same bytes. -/
def State.hostWrite (s : State) (r : OuterReq) (pa : Nat) : State :=
  let l := s.ms.outer
  if s.lag.release then { s with ms := { s.ms with outer := l ++ [⟨pa, r.data, false⟩] } }
  else
    let s := if l.any (fun w => spanMeets (w.pa, w.bytes.length) (pa, r.data.length)) then s.landOuter l.length else s
    let s := if r.relaxed then s else { s with ms := { s.ms with outer := s.ms.outer.map fun w => { w with released := true } } }
    s.cwrite pa r.data

/-- A request of a master at a physical address: of a fenced stack it is answered as one without a taker (R466, log 39); one that a PENDING migration record holds stays an event to come (R240). -/
def State.outerAt (s : State) (m : Master) (r : OuterReq) (pa : Nat) (again : Instr) : State :=
  let n := outerCount r
  if !s.backed pa n || !atomicOk m r n pa || s.spanFenced pa n then s.refuseOuter m r .unsupported
  else
    match s.refusedByte (fun _ => m) pa n (r.op != .write) (outerWrites r.op) with
    | some a => (s.alarm ⟨m, .stackMem (s.ownerOf a), a⟩).refuseOuter m r .abort
    | none =>
      match s.ms.touch pa n with
      | .ok ms =>
        if r.op = .write ∧ isPort m = false then { s with ms := ms }.hostWrite r pa
        else ({ s with ms := ms } : State).settleAll.performOuter r pa
      | _ => { s with agenda := s.agenda ++ [.event again] }

/-- PEER_ACCESS (R457): the address of the request is a physical one of this package. -/
def execPeerAccess (port pkg : Nat) (r : OuterReq) (s : State) : Result :=
  .next (
    match (s.link.ports[port]?.getD .reset).st with
    | .up | .degraded => s.outerAt (.port port) r r.addr (.peerAccess port pkg r)
    | _ => s)

/-! Answers to requests of the package (R257, R459). -/

/-- A store that was refused, or not acknowledged: the fault of its engine queue, of its node, or of its hart's group (R341,
R405, R459). -/
def State.storeFails (s : State) (p : PostedStore) (reason : BitVec 8) : State :=
  let f : FaultInfo := ⟨0x0F, reason, BitVec.ofNat 64 p.va, 0, 0⟩
  match p.src.node, p.src.eng with
  | some (q, addr), _ => s.nodeStoreFails q addr f
  | none, some (q, seq) =>
    let head := (s.hartOf p.src.owner).bind fun h => (h.queue q).cmds.head?.map fun c => (h, c)
    match head with
    | some (h, c) => if c.seq = seq then s.engFault h.no q (c.master h none) f else s
    | none => s
  | none, none => s.asyncFault p.src f none

def State.keepAnswer (s : State) (r : RemoteResult) : State := { s with link := { s.link with answers := s.link.answers ++ [r] } }

/-- The stores at some places of the waiting list are answered. -/
def State.answered (s : State) (at_ : List Nat) : State := { s with link := s.link.dropStores at_ }

/-- REMOTE_RESPONSE (R459): an acknowledgement, a refusal or a failure answers the oldest unacknowledged store; data, or an
answer with no such store, waits for the request that it answers. -/
def execRemoteResponse (r : RemoteResult) (s : State) : Result :=
  .next (
    match r, s.link.waiting with
    | .ack, _ :: _ => s.answered [0]
    | .refused, p :: _ => (s.answered [0]).storeFails p 1
    | .failed, p :: _ => ((s.answered [0]).countFailed p.port).storeFails p 2
    | r, _ => s.keepAnswer r)

/-! Ports (R454 to R456). -/

def State.port (s : State) (p : Nat) : Port := s.link.ports[p]?.getD .reset

def State.setPort (s : State) (p : Nat) (q : Port) : State :=
  { s with link := { s.link with ports := s.link.ports.setIfInBounds p q } }

/-- The places of the waiting stores that travel on a port (R457). -/
def State.storesOn (s : State) (p : Nat) : List Nat :=
  (s.link.waiting.zipIdx.filter fun q => q.1.port == some p).map Prod.snd

/-- The far pieces at other packages that travel on a port (R458). -/
def State.piecesOn (s : State) (p : Nat) : List FarPiece := s.far.pieces.filter fun q => q.port == some p

/-- Accesses on a port complete: their stores are acknowledged, their far pieces complete. -/
def State.completeOn (s : State) (p : Nat) : State :=
  let s := s.answered (s.storesOn p)
  s.completeWanted fun q => q.port == some p

/-- The far pieces of a failed port end with reason 2 (R298, R459): pieces of their hart behind them come after. -/
def State.failPieces (s : State) (l : List FarPiece) : State :=
  l.foldl (fun s p =>
    let t := { s with far := { s.far with pieces := s.far.pieces.filter fun q => !q.same p } }
    match t.findHart p.hart with
    | some h => t.asyncFault h.poster (.withReason 0x0F 2) none
    | none => t) s

/-- Accesses on a port fail. -/
def State.failOn (s : State) (p : Nat) : State :=
  let lost := s.link.waiting.filter fun q => q.port == some p
  let far := s.piecesOn p
  let s := s.answered (s.storesOn p)
  let s := s.setPort p { s.port p with failed := (s.port p).failed + BitVec.ofNat 64 (lost.length + far.length) }
  (lost.foldl (fun s q => s.storeFails q 2) s).failPieces far

/-- LCTL train (R456). -/
def State.linkTrain (s : State) (p : Nat) : State :=
  match (s.port p).st with
  | .down => s.setPort p { s.port p with st := .training, attempts := 0 }
  | .degraded =>
    let s := s.completeOn p
    s.setPort p { s.port p with st := .training, attempts := 0 }
  | _ => s

/-- LCTL down (R456). -/
def State.linkDown (s : State) (p : Nat) : State :=
  match (s.port p).st with
  | .up | .degraded =>
    let s := s.completeOn p
    s.setPort p { s.port p with st := .down, lanes := 0 }
  | _ => s

/-- LCTL retire (R456). -/
def State.linkRetire (s : State) (p : Nat) : State :=
  match (s.port p).st with
  | .retired => s
  | _ =>
    let s := s.completeOn p
    s.setPort p { s.port p with st := .retired, lanes := 0 }

/-- LINK_TRAIN_DONE (R456). -/
def execLinkTrainDone (p lanes : Nat) (s : State) : Result :=
  .next (
    let q := s.port p
    if q.st = .training ∧ lanes = 4 then s.setPort p { q with st := .up, lanes := 4 }
    else if q.st = .training ∧ (lanes = 2 ∨ lanes = 1) then s.setPort p { q with st := .degraded, lanes := lanes }
    else s)

/-- LINK_TRAIN_ATTEMPT_FAIL (R456): the eighth takes the port DOWN, with WIDTH 00 (DESIGN CHOICE, log 54). -/
def execLinkTrainAttemptFail (p : Nat) (s : State) : Result :=
  .next (
    let q := s.port p
    if q.st ≠ .training then s
    else if q.attempts < 7 then s.setPort p { q with attempts := q.attempts + 1 }
    else s.setPort p { q with st := .down, lanes := 0, attempts := 8,
                              fails := if q.fails = 0xFFFF then q.fails else q.fails + 1 })

/-- LINK_LANE_FAIL (R456): `lanes` remain usable; accesses in flight are replayed. -/
def execLinkLaneFail (p lanes : Nat) (s : State) : Result :=
  .next (
    let q := s.port p
    let (n, t) := s.useFree
    let next := t.setPort p { q with st := .degraded, lanes := lanes, replay := q.replay + BitVec.ofNat 64 (Config.pick n p) }
    match q.st with
    | .up => if lanes = 2 ∨ lanes = 1 then next else s
    | .degraded => if lanes = 1 ∧ q.lanes = 2 then next else s
    | _ => s)

/-- LINK_FAIL (R456, R459). -/
def execLinkFail (p : Nat) (s : State) : Result :=
  .next (match (s.port p).st with
    | .up | .degraded =>
      let s := s.failOn p
      s.setPort p { s.port p with st := .down, lanes := 0 }
    | _ => s)

/-! The host port (R448, R449, R453, R460). -/

/-- HOST_PORT_RESET (R460): the host port retrains, and nothing else changes. -/
def execHostPortReset (s : State) : Result :=
  .next { s with plat := { s.plat with width := 0, rate := 0, flit := false, cxlmem := false, cxlcache := false } }

/-- HOST_PORT_TRAINED (R449). -/
def execHostPortTrained (rate width : Nat) (flit : Bool) (s : State) : Result :=
  .next (
    if 1 ≤ rate ∧ rate ≤ 6 ∧ (width = 1 ∨ width = 2 ∨ width = 4 ∨ width = 8 ∨ width = 16) then
      { s with plat := { s.plat with rate := BitVec.ofNat 3 rate, width := BitVec.ofNat 5 width, flit := flit } }
    else s)

/-- HOST_CXL_ENABLE (R449). -/
def execHostCxlEnable (mem cache : Bool) (s : State) : Result :=
  .next (if s.plat.width = 0 then s else { s with plat := { s.plat with cxlmem := mem, cxlcache := cache } })

/-- CXL_SNOOP (R453): the host has the line it now owns written; the L2 keeps no older copy. -/
def execCxlSnoop (pa : Nat) (data : List Byte) (s : State) : Result :=
  .next (if s.plat.cxlcache && regionOf pa == .host && regionOf (pa + data.length - 1) == .host then s.cwrite pa data else s)

/-- L1_WRITEBACK (R257). -/
def execL1Writeback (core sector : Nat) (s : State) : Result := .next { s with ms := s.ms.l1Flush core sector }

end Sys2Proof.Machine
end

