-- ==== Sys2Proof/Machine/MemoryIssue.lean ====
section
/-! DEFINITION. Vector loads, stores and atomics, the queued fences, KVPUT and KVINV: each is entered in the vector queue. -/

namespace Sys2Proof.Machine

/-- R276 to R278. -/
def execVld (g : Guard) (m : MMod) (d : VReg) (a : XReg) (s : State) : Result := .next (s.issueVq (.vld g m d a))

/-- R276, R279. -/
def execVlds (g : Guard) (m : MMod) (d : VReg) (a b : XReg) (s : State) : Result := .next (s.issueVq (.vlds g m d a b))

/-- R276, R279. -/
def execVldx (g : Guard) (m : MMod) (d : VReg) (a : XReg) (b : VReg) (s : State) : Result :=
  .next (s.issueVq (.vldx g m d a b))

/-- R279 to R282. -/
def execVldff (g : Guard) (m : MMod) (d : VReg) (a : XReg) (s : State) : Result := .next (s.issueVq (.vldff g m d a))

/-- R276 to R278. -/
def execVst (g : Guard) (m : MMod) (d : VReg) (a : XReg) (s : State) : Result := .next (s.issueVq (.vst g m d a))

/-- R276. -/
def execVsts (g : Guard) (m : MMod) (d : VReg) (a b : XReg) (s : State) : Result := .next (s.issueVq (.vsts g m d a b))

/-- R276. -/
def execVstx (g : Guard) (m : MMod) (d : VReg) (a : XReg) (b : VReg) (s : State) : Result :=
  .next (s.issueVq (.vstx g m d a b))

/-- R283, R284. -/
def execVldt (g : Guard) (m : MMod) (d : VReg) (a : XReg) (s : State) : Result := .next (s.issueVq (.vldt g m d a))

/-- R283, R285. -/
def execVldtCt (g : Guard) (m : MMod) (d : VReg) (a : XReg) (s : State) : Result := .next (s.issueVq (.vldtCt g m d a))

/-- R288, R289. -/
def execVamoadd (g : Guard) (m : MMod) (ret : Bool) (d : VReg) (a : XReg) (b c : VReg) (s : State) : Result :=
  .next (s.issueVq (.vamoadd g m ret d a b c))

/-- R288, R289. -/
def execVamofadd (g : Guard) (m : MMod) (ret : Bool) (d : VReg) (a : XReg) (b c : VReg) (s : State) : Result :=
  .next (s.issueVq (.vamofadd g m ret d a b c))

/-- R288, R289. -/
def execVamomin (g : Guard) (m : MMod) (ret : Bool) (d : VReg) (a : XReg) (b c : VReg) (s : State) : Result :=
  .next (s.issueVq (.vamomin g m ret d a b c))

/-- R288, R289. -/
def execVamomax (g : Guard) (m : MMod) (ret : Bool) (d : VReg) (a : XReg) (b c : VReg) (s : State) : Result :=
  .next (s.issueVq (.vamomax g m ret d a b c))

/-- R291. -/
def execFenceVv (g : Guard) (s : State) : Result := .next (s.issueVq (.fenceVv g))

/-- R291. -/
def execFenceVs (g : Guard) (s : State) : Result := .next (s.issueVq (.fenceVs g))

/-- R378 to R381. -/
def execKvput (g : Guard) (o : Ord) (sc : Scope) (d : VReg) (a b : XReg) (s : State) : Result :=
  .next (s.issueVq (.kvput g o sc d a b))

/-- R382. -/
def execKvinv (g : Guard) (o : Ord) (sc : Scope) (a b : XReg) (s : State) : Result := .next (s.issueVq (.kvinv g o sc a b))

end Sys2Proof.Machine
end

