-- ==== Sys2Proof/Machine/PredicateIssue.lean ====
section
/-! DEFINITION. Scalar compares, predicate instructions and VTAG (R129, R151, R155 to R160, R163): each is entered in the
vector queue. -/

namespace Sys2Proof.Machine

/-- R151. -/
def execCmp (g : Guard) (c : Cond) (d : KReg) (a b : XReg) (s : State) : Result := .next (s.issueVq (.cmp g c d a b))

/-- R151. -/
def execCmpi (g : Guard) (c : Cond) (d : KReg) (a : XReg) (imm : BitVec 17) (s : State) : Result :=
  .next (s.issueVq (.cmpi g c d a imm))

/-- R155. -/
def execKlog (g : Guard) (d a b c : KReg) (table : BitVec 8) (s : State) : Result :=
  .next (s.issueVq (.klog g d a b c table))

/-- R156. -/
def execKset (g : Guard) (d : KReg) (a : XReg) (s : State) : Result := .next (s.issueVq (.kset g d a))

/-- R157. -/
def execKtest (g : Guard) (t : KTest) (d : XReg) (a : KReg) (s : State) : Result := .next (s.issueVq (.ktest g t d a))

/-- R157. -/
def execKfirst (g : Guard) (d : XReg) (a : KReg) (s : State) : Result := .next (s.issueVq (.kfirst g d a))

/-- R158. -/
def execKdead (g : Guard) (mask : BitVec 16) (s : State) : Result := .next (s.issueVq (.kdead g mask))

/-- R159. -/
def execKtox (g : Guard) (d : XReg) (a : KReg) (b : XReg) (s : State) : Result := .next (s.issueVq (.ktox g d a b))

/-- R159. -/
def execKfromx (g : Guard) (d : KReg) (a b : XReg) (s : State) : Result := .next (s.issueVq (.kfromx g d a b))

/-- R163. -/
def execVtag (g : Guard) (d : VReg) (t : Fmt) (blk : Bool) (s : State) : Result := .next (s.issueVq (.vtag g d t blk))

end Sys2Proof.Machine
end

