-- ==== Sys2Proof/Machine/Translate.lean ====
section
/-! DEFINITION. Walks that fill a TLB, the invalidation block, and the migration block with its events (R230, R236, R238 to
R243, R245). -/

namespace Sys2Proof.Machine

/-! Walks (R230, R236). -/

/-- The TLB entry of a leaf found for an address. -/
def tlbEntryOf (core ctx va : Nat) (l : Leaf) : TlbEntry := ⟨core, ctx, va / l.size * l.size / 2 ^ 16, l.size / 2 ^ 16, l⟩

/-- Where a walk may begin: the level, its table and the entries read above it. -/
structure WalkStart where
  level : Nat
  table : Nat
  above : List Nat
  deriving DecidableEq, Repr

/-- The upper levels that an entry of a core caches for an address (R236): the tables its own walk came through. -/
def TlbEntry.starts (e : TlbEntry) (va : Nat) : List WalkStart :=
  let at_ (level bound : Nat) : Option WalkStart :=
    match e.leaf.path.drop (level - 1) with
    | ea :: _ =>
      if e.vpn * 2 ^ 16 / bound = va / bound then some ⟨level, ea / 2 ^ 16 * 2 ^ 16, e.leaf.path.take (level - 1)⟩ else none
    | [] => none
  [at_ 2 (2 ^ 40), at_ 3 (2 ^ 28)].filterMap id

/-- Every place a walk may begin: the root, and the upper levels cached by the entries that the core may use. -/
def State.walkStarts (s : State) (core ctx va : Nat) : List WalkStart :=
  ⟨1, (s.ctx ctx).ptroot.toNat * 2 ^ 16, []⟩ ::
    (s.ms.tlb.filter fun e => e.core == core && e.ctx == ctx && s.usable e).flatMap fun e => e.starts va

/-- A walk from such a place, with the path of the whole walk. -/
def State.walkStart (s : State) (va : Nat) (w : WalkStart) : Acc Leaf :=
  (s.walkFrom va (4 - w.level) w.level w.table).map fun l => { l with path := w.above ++ l.path }

/-- Entries of a core's TLB (R236). -/
def tlbEntries : Nat := 2048

/-- An entry enters its core's TLB; a full one loses its oldest entry. -/
def MemSys.tlbPut (ms : MemSys) (e : TlbEntry) : MemSys :=
  let (mine, others) := ms.tlb.partition fun q => q.core == e.core
  let mine := mine.filter fun q => !(q.ctx == e.ctx && q.vpn == e.vpn)
  { ms with tlb := e :: mine.take (tlbEntries - 1) ++ others }

/-- A walk for one of the 96 cores, from the root or a cached level, which is open: a leaf found enters the TLB, a fault leaves
none; its reads are accesses to their lines (R236, R240). -/
def State.fillTlb (s : State) (core ctx va : Nat) : State :=
  if 96 ≤ core ∨ winBase ≤ va then s
  else
    let (w, s) := s.choose ⟨1, 0, []⟩ (s.walkStarts core ctx va)
    match s.walkStart va w with
    | .ok l =>
      match s.ms.touchPath l.path with
      | .ok ms => { s with ms := ms.tlbPut (tlbEntryOf core ctx va l) }
      | _ => s
    | _ => s

/-- PAGE_WALK (R230). -/
def execPageWalk (core ctx : Nat) (va : Word) (s : State) : Result := .next (s.fillTlb core ctx va.toNat)

/-! Invalidation (R238). -/

/-- The command affects the translation of a page through a leaf that maps `size` bytes: for one page, every page or block
translation that covers it is affected (R238). -/
def TiCmd.hitsBlock (c : TiCmd) (ctx va size : Nat) : Bool := c.hits ctx (va / size * size / 2 ^ 16) (size / 2 ^ 16)

/-- Leaves carried by virtual page. -/
def TiCmd.hitsLeaves (c : TiCmd) (ctx : Nat) (ls : List (Nat × Leaf)) : Bool :=
  ls.any fun l => c.hitsBlock ctx (l.1 * 2 ^ 16) l.2.size

/-- A TICMD write. Until completion each access uses the old entry or the new one, as `lag.stale` says at the access. -/
def State.tiCommand (s : State) (c : TiCmd) : State :=
  let ti := s.ms.ti
  let ti := if ti.cmd.isSome then { ti with refused := true } else { ti with cmd := some c }
  { s with ms := { s.ms with ti := ti } }

/-- Engine commands, far pieces or unacknowledged stores carry an affected translation. -/
def State.tiBusyWith (s : State) (c : TiCmd) : Bool :=
  (s.placedHarts.any fun h => h.eng.toList.any fun q => q.cmds.any fun e => c.hitsLeaves h.ctx e.leaves) ||
    (s.far.pieces.any fun p =>
      match s.findHart p.hart with
      | some h => c.hitsLeaves h.ctx p.leaves
      | none => false) ||
    s.link.waiting.any fun p => c.hitsBlock p.ctx p.va p.size

/-- Every dirty sector of every core is written back. -/
def MemSys.l1FlushAll (ms : MemSys) : MemSys := ((ms.l1.map L1Sector.core).eraseDups).foldl MemSys.l1FlushCore ms

/-- An entry after a command: gone where the command affects it; for one page, the levels it caches above that page are gone too.
DEDUCED (log 33). -/
def TiCmd.after (c : TiCmd) (e : TlbEntry) : Option TlbEntry :=
  if c.hitsEntry e then none
  else
    match c with
    | .page k p => some (if e.ctx = k ∧ e.vpn / 2 ^ 24 = p / 2 ^ 24 then { e with leaf := { e.leaf with path := [] } } else e)
    | _ => some e

/-- The command in progress completes, once nothing carries an affected translation. -/
def State.tiComplete (s : State) : State :=
  match s.ms.ti.cmd with
  | none => s
  | some c =>
    if s.tiBusyWith c then s
    else
      let ms := s.ms.l1FlushAll
      { s with ms := { ms with ti := { ms.ti with cmd := none }, tlb := ms.tlb.filterMap c.after } }

/-- TLB_INV_PAGE (R238). -/
def execTlbInvPage (ctx vpn : Nat) (s : State) : Result := .next (s.tiCommand (.page ctx vpn))

/-- TLB_INV_CONTEXT (R238). -/
def execTlbInvContext (ctx : Nat) (s : State) : Result := .next (s.tiCommand (.context ctx))

/-- TLB_INV_ALL (R238). -/
def execTlbInvAll (s : State) : Result := .next (s.tiCommand .all)

/-- TLB_INV_COMPLETE (R238). -/
def execTlbInvComplete (s : State) : Result := .next s.tiComplete

/-! Migration (R239, R240). -/

def State.onMig (s : State) (f : MigBlock → MigBlock) : State := { s with ms := { s.ms with mig := f s.ms.mig } }

def MigBlock.record (m : MigBlock) (i : Nat) : MigRec := m.recs[i]?.getD .reset

def MigBlock.put (m : MigBlock) (i : Nat) (r : MigRec) : MigBlock := { m with recs := m.recs.setIfInBounds i r }

def State.migRefuse (s : State) : State := s.onMig fun m => { m with refused := true }

/-- A frame belongs to a record that is not FREE. -/
def MigBlock.owns (m : MigBlock) (frame : Nat) : Bool :=
  m.recs.toList.any fun r => r.st != .free && (r.new == frame || r.old == frame)

/-- The numbers of the FREE records. -/
def MigBlock.freeRecords (m : MigBlock) : List Nat := (List.range 64).filter fun i => (m.record i).st == .free

/-- Every copy of a frame's lines above DRAM is discarded without write-back. -/
def MemSys.discardFrame (ms : MemSys) (frame : Nat) : MemSys :=
  let ms := ms.l1Discard (frame * 2 ^ 16) (2 ^ 16)
  { ms with
    reduce := ms.reduce.filter fun l => l.line / 128 != frame
    msc := ms.msc.filter fun c => c.1 / 2 ^ 16 != frame
    code := ms.code.filter fun c => c.pa / 2 ^ 16 != frame }

/-- Open: which FREE record it takes is open. -/
def State.migOpen (s : State) : State :=
  let m := s.ms.mig
  if m.freeRecords.isEmpty || m.owns m.new.toNat || m.owns m.old.toNat then s.migRefuse
  else
    let (i, s) := s.choose 0 m.freeRecords
    let s := { s with ms := s.ms.discardFrame m.new.toNat }
    s.onMig fun m =>
      { m.put i { st := .pending, new := m.new.toNat, old := m.old.toNat, pte := m.pte.toNat * 8, filled := 0, err := 0, lines := 0 } with
        slot := BitVec.ofNat 6 i }

/-- A write that was held is performed; what another record holds waits again. -/
def State.redo (s : State) (w : HeldWrite) : State :=
  match w with
  | .bytes pa bs => { s with ms := s.ms.putThrough pa bs }
  | .status ctx va n v => s.compassPut ctx va n v
  | .flags ctx pa f => s.orFlagw ctx pa f
  | .endMig pte => { s with ms := s.ms.endMig pte }
  | .contribution who pa kind fmt v => s.contributeAt who pa kind fmt v

/-- Arm: held accesses proceed, the writes held in their order. -/
def State.migArm (s : State) (i : Nat) : State :=
  let r := s.ms.mig.record i
  if r.st ≠ .pending then s.migRefuse
  else
    let ws := s.ms.mig.writes
    let s := s.onMig fun m =>
      { m.put i { r with st := .armed } with held := m.held.filter fun p => p.2 / 2 ^ 16 != r.new, writes := [] }
    ws.foldl State.redo (s.mapHarts fun h => if h.wait = .held then { h with wait := .none } else h)

/-- Release. -/
def State.migRelease (s : State) (i : Nat) : State :=
  let r := s.ms.mig.record i
  if r.st ≠ .done then s.migRefuse else s.onMig fun m => m.put i { r with st := .free }

/-- MIG_OPEN (R240). -/
def execMigOpen (s : State) : Result := .next s.migOpen

/-- MIG_ARM (R240). -/
def execMigArm (slot : Nat) (s : State) : Result := .next (s.migArm slot)

/-- MIG_RELEASE (R240). -/
def execMigRelease (slot : Nat) (s : State) : Result := .next (s.migRelease slot)

/-- MIG_HELD_ACCESS (R240): the access of a hart waits at the stack's controller. -/
def execMigHeldAccess (h pa : Nat) (s : State) : Result :=
  .next (match s.ms.migOf pa with
    | some i =>
      if (s.ms.mig.record i).st = .pending then s.onMig fun m => { m with held := addNew m.held (h, pa) } else s
    | none => s)

/-- MIG_LINE_FILL (R240): the line of an address is read from the old frame. -/
def execMigLineFill (pa : Nat) (s : State) : Result :=
  .next (match s.ms.migOf pa with
    | some i => { s with ms := s.ms.migFill i (pa / 512 % 128) }
    | none => s)

/-- MIG_BACKGROUND_FILL (R240): the fill engine copies an unfilled line; which one is open. -/
def execMigBackgroundFill (slot : Nat) (s : State) : Result :=
  .next (
    let r := s.ms.mig.record slot
    if r.st ≠ .armed then s
    else
      let (l, s) := s.choose 0 ((List.range 128).filter fun l => !bitAt r.lines l)
      { s with ms := s.ms.migFill slot l })

end Sys2Proof.Machine
end

