-- ==== Sys2Proof/Machine/Registers.lean ====
section
/-! DEFINITION. Register space (R4, R5, R131, R220, R221, R224, R238, R239, R302, R329, R371, R397, R417, R420, R449, R454,
R455, R461, R462, R471, R485): which register an address names, what it reads, what a write does. -/

namespace Sys2Proof.Machine

/-- A 64-bit register of register space: its block, the number of its copy, and the index of its word in the block. -/
inductive Reg where
  | poolcfg | hpstat | bootstat | pwrctl | mbbuf | mbcmd | mbstat
  | tiaddr | ticmd | tistat
  | mnew | mold | mpte | mcmd | mstat | mrec (i : Nat)
  | far (stack word : Nat)
  | rqe (stack word : Nat)
  | queue (q word : Nat)
  | ring (r word : Nat)
  | ctx (c word : Nat)
  | upkg | route (i : Nat)
  | port (p word : Nat)
  | hartStat (no word : Nat)
  | engStat (no word : Nat)
  | unassigned
  deriving DecidableEq, Repr

/-- The copy and word of an offset in a block of `count` copies of `size` bytes. -/
def blockAt (base size count o : Nat) : Option (Nat × Nat) :=
  if base ≤ o ∧ o < base + size * count then some ((o - base) / size, (o - base) % size / 8) else none

/-- Registers with one copy. -/
def packageReg (o : Nat) : Option Reg :=
  match o / 8 * 8 with
  | 0x100 => some .poolcfg
  | 0x200 => some .hpstat
  | 0x300 => some .bootstat
  | 0x400 => some .pwrctl
  | 0x800 => some .mbbuf
  | 0x808 => some .mbcmd
  | 0x810 => some .mbstat
  | 0x1000 => some .tiaddr
  | 0x1008 => some .ticmd
  | 0x1010 => some .tistat
  | 0x2000 => some .mnew
  | 0x2008 => some .mold
  | 0x2010 => some .mpte
  | 0x2018 => some .mcmd
  | 0x2020 => some .mstat
  | 0x5000000 => some .upkg
  | _ => none

/-- The register at an offset of register space. -/
def regAt (o : Nat) : Reg :=
  (packageReg o).getD
    (((blockAt 0x2040 8 64 o).map fun p => Reg.mrec p.1).getD
    (((blockAt 0x300000 0x100 16 o).map fun p => Reg.far p.1 p.2).getD
    (((blockAt 0x320000 0x100 16 o).map fun p => Reg.rqe p.1 p.2).getD
    (((blockAt 0x1000000 0x40 1024 o).map fun p => Reg.queue p.1 p.2).getD
    (((blockAt 0x2000000 0x40 256 o).map fun p => Reg.ring p.1 p.2).getD
    (((blockAt 0x4000000 0x80 4096 o).map fun p => Reg.ctx p.1 p.2).getD
    (((blockAt 0x5001000 8 256 o).map fun p => Reg.route p.1).getD
    (((blockAt 0x5010000 0x100 12 o).map fun p => Reg.port p.1 p.2).getD
    (((blockAt 0x100000000 0x40 512 o).map fun p => Reg.hartStat p.1 p.2).getD
    (((blockAt 0x100010000 0x40 512 o).map fun p => Reg.engStat p.1 p.2).getD .unassigned))))))))))

/-! Reads. -/

/-- A number shifted up to a bit position. -/
def up (v pos : Nat) : Nat := v <<< pos

def upBit (b : Bool) (pos : Nat) : Nat := if b then 1 <<< pos else 0

def MigState.code : MigState → Nat
  | .free => 0 | .pending => 1 | .armed => 2 | .done => 3

def CtxState.code : CtxState → Nat
  | .free => 0 | .created => 1 | .bound => 2 | .active => 3 | .preempted => 4 | .faulted => 5 | .destroying => 6

def PortState.code : PortState → Nat
  | .down => 0 | .training => 1 | .up => 2 | .degraded => 3 | .retired => 4

def EqState.code : EqState → Nat
  | .empty => 0 | .running => 1 | .held => 2 | .faulted => 3

/-- LSTAT.WIDTH (R455). -/
def laneCode (n : Nat) : Nat := if n = 1 then 1 else if n = 2 then 2 else if n = 4 then 3 else 0

def StackUnit.readRqe (u : StackUnit) (w : Nat) : Nat :=
  match w with
  | 0 => up u.agethr.toNat 32 + upBit u.rqeEn 0
  | 1 => up u.done.toNat 32 + u.aborted.toNat
  | w =>
    if 4 ≤ w ∧ w < 12 then
      let p := u.pools[(w - 4) / 2]?.getD ⟨0, 0⟩
      if w % 2 = 0 then up p.base.toNat 16 else p.count.toNat
    else 0

def StackUnit.readFar (u : StackUnit) (w : Nat) : Nat :=
  match w with
  | 0 => upBit u.guest 0
  | 1 => u.sets.length
  | 2 => u.pieces.toNat
  | _ => 0

def WorkQueue.readReg (w : WorkQueue) (i : Nat) : Nat :=
  match i with
  | 0 => up w.ctx.toNat 12 + up w.weight.toNat 4 + up w.prio.toNat 1 + upBit w.en 0
  | 3 => up w.fcode.toNat 24 + upBit w.badsub 17 + upBit w.ovf 16 + up (64 - w.subs.length) 4 + w.state.code
  | 4 => w.qfnode.toNat
  | 5 => (w.cur.getD 0).toNat
  | 6 => w.qdone.toNat
  | _ => 0

def Ring.readReg (k : Ring) (i : Nat) : Nat :=
  match i with
  | 0 => k.base.toNat
  | 1 => up k.ctx.toNat 32 + up k.vec.toNat 16 + up k.log2n.toNat 1 + upBit k.en 0
  | 2 => up k.time.toNat 16 + k.count.toNat
  | 3 => k.prod.toNat
  | 4 => k.cons.toNat
  | 5 => up k.pend.toNat 32 + k.ints.toNat
  | _ => 0

def Context.readReg (k : Context) (i : Nat) : Nat :=
  match i with
  | 1 => up k.slots.length 32 + upBit k.refused 16 + upBit k.st.resident 8 + k.st.code
  | 2 => up k.ptroot.toNat 16
  | 3 => upBit k.pasidEn 20 + k.pasidId.toNat
  | 4 => up k.savebase.toNat 16
  | 5 => k.saven.toNat
  | 6 => up k.ring.base.toNat 6
  | 7 => up k.ring.vec.toNat 16 + up k.ring.log2n.toNat 1 + upBit k.ring.en 0
  | 8 => k.ring.prod.toNat
  | 9 => k.ring.cons.toNat
  | 10 => up k.ring.lost.toNat 32 + k.ring.held.length
  | 12 => upBit k.dbgEn 0
  | 14 => k.ctgen.toNat
  | _ => 0

def Port.readReg (q : Port) (i : Nat) : Nat :=
  match i with
  | 1 => up q.fails.toNat 32 + up (laneCode q.lanes) 4 + q.st.code
  | 2 => q.replay.toNat
  | 3 => q.failed.toNat
  | _ => 0

def Hart.readStat (h : Hart) (i : Nat) : Nat :=
  match i with
  | 0 => h.counts.rsyncn.toNat
  | 1 => h.counts.rsyncc.toNat
  | 2 => h.counts.issued.toNat
  | 3 => h.counts.starve.toNat
  | _ => 0

def Hart.readEng (h : Hart) (i : Nat) : Nat :=
  if i < 4 then up (h.queue i).done.toNat 32 + up (h.queue i).cmds.length 3 + (h.queue i).st.code else 0

/-- ROUTE of four packages (R454). -/
def State.readRoute (s : State) (i : Nat) : Nat :=
  (List.range 4).foldl (fun a j => a + up (Table.get s.link.routes (4 * i + j) 0).toNat (16 * j)) 0

def Platform.readBoot (p : Platform) : Nat := up p.err.toNat 8 + p.stage.toNat

def Platform.readHost (p : Platform) : Nat :=
  upBit p.flit 18 + upBit p.cxlmem 17 + upBit p.cxlcache 16 + up p.width.toNat 4 + p.rate.toNat

def State.readPool (s : State) : Nat := up s.plat.share.toNat 24 + up s.nact 16 + s.plat.active.toNat

/-- The value of a 64-bit register. PWRCTL.PNOW is an open value from its first read on; a counter of promotions grows by an open
amount. -/
def State.regWord (s : State) (r : Reg) : Nat × State :=
  match r with
  | .poolcfg => (s.readPool, s)
  | .hpstat => (s.plat.readHost, s)
  | .bootstat => (s.plat.readBoot, s)
  | .pwrctl =>
    (up s.plat.plimit.toNat 32 + up s.plat.pnow.toNat 16 + s.plat.pstate.toNat, s.readTick.2)
  | .mbbuf => (up s.mgmt.mbbuf.toNat 12, s)
  | .mbstat => (upBit s.mgmt.busy 16 + up s.mgmt.result.toNat 8, s)
  | .tiaddr => (up s.ms.ti.vpn.toNat 16, s)
  | .tistat => (upBit s.ms.ti.refused 1 + upBit s.ms.ti.cmd.isSome 0, s)
  | .mnew => (up s.ms.mig.new.toNat 16, s)
  | .mold => (up s.ms.mig.old.toNat 16, s)
  | .mpte => (up s.ms.mig.pte.toNat 3, s)
  | .mstat => (upBit s.ms.mig.refused 8 + s.ms.mig.slot.toNat, s)
  | .mrec i =>
    let r := s.ms.mig.record i
    (up r.err 32 + up r.filled 8 + r.st.code, s)
  | .far t w => ((s.die t).readFar w, s)
  | .rqe t w => ((s.die t).readRqe w, s)
  | .queue q w => ((s.queue q).readReg w, s)
  | .ring k w => ((s.ring k).readReg w, s)
  | .ctx c w => ((s.ctx c).readReg w, s)
  | .upkg => (up s.plat.domain.toNat 16 + s.plat.pkg.toNat, s)
  | .route i => (s.readRoute i, s)
  | .port p w => ((s.port p).readReg w, s)
  | .hartStat n w =>
    match s.findHart n with
    | some h =>
      let (k, s) := s.useFree
      let s := s.onHart n fun h => { h with counts := { h.counts with starve := h.counts.starve + BitVec.ofNat 64 (Config.starve k) } }
      (if w = 3 then ((s.findHart n).getD h).readStat 3 else h.readStat w, s)
    | none => (0, s)
  | .engStat n w =>
    match s.findHart n with
    | some h => (h.readEng w, s)
    | none => (0, s)
  | .mbcmd | .ticmd | .mcmd | .unassigned => (0, s)

/-- A read of `n` bytes, 4 or 8, at an offset of register space (R485). -/
def State.regRead (s : State) (o n : Nat) : Nat × State :=
  let (v, s) := s.regWord (regAt o)
  (bits v (8 * (o % 8)) (8 * n), s)

/-! Writes. -/

/-- The bits a write covers. -/
def coverMask (o n : Nat) : Word := BitVec.ofNat 64 (onesN (8 * n) <<< (8 * (o % 8)))

/-- What a register of RW fields takes: the bits covered from the write, the others as they read. -/
def mergeWrite (old : Nat) (v m : Word) : Word := (BitVec.ofNat 64 old &&& ~~~m) ||| (v &&& m)

/-- RQECFG, POOLBASE and POOLN (R371); each half of RQECFG acts at its own write. -/
def StackUnit.writeRqe (u : StackUnit) (w : Nat) (v m : Word) : StackUnit :=
  if w = 0 then
    let u := { u with agethr := (mergeWrite (u.readRqe 0) v m).extractLsb' 32 32 }
    if m.getLsbD 0 then u.setRqe (v.getLsbD 0) else u
  else if 4 ≤ w ∧ w < 12 ∧ u.rqeEn = false then
    let i := (w - 4) / 2
    let p := u.pools[i]?.getD ⟨0, 0⟩
    let x := mergeWrite (u.readRqe w) v m
    { u with pools := u.pools.setIfInBounds i (if w % 2 = 0 then { p with base := x.extractLsb' 16 20 } else { p with count := x.setWidth 21 }) }
  else u

/-- A write of a queue register: `wide` is a 64-bit write (R397 to R401). -/
def State.writeQueue (s : State) (q w : Nat) (v m : Word) (wide : Bool) : State :=
  let k := s.queue q
  match w with
  | 0 => s.setQueue q (k.configure (mergeWrite (k.readReg 0) v m))
  | 1 => s.submitTo q v wide
  | 2 =>
    match (v.setWidth 2).toNat with
    | 1 => s.suspendQueue q
    | 2 => s.resumeQueue q
    | 3 => s.resetQueue q
    | _ => s
  | 3 => s.setQueue q { k with badsub := k.badsub && !v.getLsbD 17, ovf := k.ovf && !v.getLsbD 16 }
  | _ => s

/-- A write of a ring register other than RCFG (R417). -/
def Ring.writeReg (k : Ring) (w : Nat) (v m : Word) : Ring :=
  let x := mergeWrite (k.readReg w) v m
  match w with
  | 0 => if k.en then k else { k with base := x }
  | 2 => { k with time := x.extractLsb' 16 16, count := x.setWidth 16 }
  | 4 => k.consume x
  | _ => k

/-- RCFG acts through its own operation. -/
def State.writeRing (s : State) (r w : Nat) (v m : Word) : State :=
  if w = 1 then s.configureRing r (mergeWrite ((s.ring r).readReg 1) v m) else s.setRing r ((s.ring r).writeReg w v m)

/-- A write of PTROOT to FRCFG, which only CREATED takes (R421). -/
def Context.writeSetup (k : Context) (w : Nat) (v m : Word) : Context :=
  let x := mergeWrite (k.readReg w) v m
  if k.st ≠ .created then k
  else
    match w with
    | 2 => { k with ptroot := x.extractLsb' 16 32 }
    | 3 => { k with pasidEn := x.getLsbD 20, pasidId := x.setWidth 20 }
    | 4 => { k with savebase := x.extractLsb' 16 32 }
    | 5 => { k with saven := x.setWidth 16 }
    | 6 => { k with ring := { k.ring with base := x.extractLsb' 6 42 } }
    | 7 => { k with ring := { k.ring with vec := x.extractLsb' 16 11, log2n := x.extractLsb' 1 4, en := x.getLsbD 0 } }
    | _ => k

/-- A write of a context register (R420, R421). -/
def State.writeCtx (s : State) (c w : Nat) (v m : Word) : State :=
  let k := s.ctx c
  match w with
  | 0 => s.ctxCommand c (v.setWidth 3).toNat
  | 1 => s.setCtx c { k with refused := k.refused && !v.getLsbD 16 }
  | 9 => s.setCtx c { k with ring := k.ring.consume (mergeWrite (k.readReg 9) v m) }
  | 11 => s.reply c (v.extractLsb' 16 2).toNat (v.setWidth 16).toNat
  | 12 => s.setCtx c { k with dbgEn := (mergeWrite (k.readReg 12) v m).getLsbD 0 }
  | 13 => if v.getLsbD 20 then s.debugContinue c (v.setWidth 16).toNat (v.extractLsb' 16 4).toNat else s
  | w => s.setCtx c (k.writeSetup w v m)

/-- A write of four ROUTE entries (R454). -/
def State.writeRoute (s : State) (i : Nat) (v m : Word) : State :=
  let x := mergeWrite (s.readRoute i) v m
  let t := (List.range 4).foldl (fun t j => Table.set t (4 * i + j) (x.extractLsb' (16 * j) 12)) s.link.routes
  { s with link := { s.link with routes := t } }

/-- A write of TICMD (R238). -/
def State.writeTicmd (s : State) (v : Word) : State :=
  let c := (v.setWidth 12).toNat
  match (v.extractLsb' 12 2).toNat with
  | 0 => s.tiCommand (.page c s.ms.ti.vpn.toNat)
  | 1 => s.tiCommand (.context c)
  | 2 => s.tiCommand .all
  | _ => { s with ms := { s.ms with ti := { s.ms.ti with refused := true } } }

/-- A write of MCMD (R239). -/
def State.writeMcmd (s : State) (v : Word) : State :=
  let i := (v.extractLsb' 8 6).toNat
  match (v.setWidth 2).toNat with
  | 1 => s.migOpen
  | 2 => s.migArm i
  | 3 => s.migRelease i
  | _ => s

/-- A write of LCTL (R455). -/
def State.writeLctl (s : State) (p : Nat) (v : Word) : State :=
  match (v.setWidth 2).toNat with
  | 1 => s.linkTrain p
  | 2 => s.linkDown p
  | 3 => s.linkRetire p
  | _ => s

/-- A write of the bits `m` of a 64-bit register; `v` is 0 elsewhere. -/
def State.writeReg (s : State) (r : Reg) (v m : Word) (wide : Bool) : State :=
  let merged (old : Nat) : Word := mergeWrite old v m
  let low := m.getLsbD 0
  match r with
  | .pwrctl => { s with plat := s.plat.setPower (merged (up s.plat.plimit.toNat 32 + s.plat.pstate.toNat)) }
  | .mbbuf => { s with mgmt := { s.mgmt with mbbuf := (merged (up s.mgmt.mbbuf.toNat 12)).extractLsb' 12 36 } }
  | .mbcmd => if low then s.mbWrite (v.setWidth 8) else s
  | .tiaddr => { s with ms := { s.ms with ti := { s.ms.ti with vpn := (merged (up s.ms.ti.vpn.toNat 16)).extractLsb' 16 36 } } }
  | .ticmd => if low then s.writeTicmd v else s
  | .tistat => { s with ms := { s.ms with ti := { s.ms.ti with refused := s.ms.ti.refused && !v.getLsbD 1 } } }
  | .mnew => s.onMig fun g => { g with new := (merged (up g.new.toNat 16)).extractLsb' 16 32 }
  | .mold => s.onMig fun g => { g with old := (merged (up g.old.toNat 16)).extractLsb' 16 32 }
  | .mpte => s.onMig fun g => { g with pte := (merged (up g.pte.toNat 3)).extractLsb' 3 45 }
  | .mcmd => s.writeMcmd v
  | .mstat => s.onMig fun g => { g with refused := g.refused && !v.getLsbD 8 }
  | .far t w => if w = 0 ∧ low = true then s.farcfg t (v.getLsbD 0) else s
  | .rqe t w => (s.onDie t fun u => u.writeRqe w v m).settleRqe t
  | .queue q w => s.writeQueue q w v m wide
  | .ring k w => s.writeRing k w v m
  | .ctx c w => s.writeCtx c w v m
  | .route i => s.writeRoute i v m
  | .port p w => if w = 0 then s.writeLctl p v else s
  | .poolcfg | .hpstat | .bootstat | .mbstat | .mrec _ | .upkg | .hartStat _ _ | .engStat _ _ | .unassigned => s

/-- A write of `n` bytes, 4 or 8, at an offset of register space (R485). -/
def State.regWrite (s : State) (o n v : Nat) : State :=
  let m := coverMask o n
  s.writeReg (regAt o) (BitVec.ofNat 64 (v <<< (8 * (o % 8))) &&& m) m (n == 8)

/-- The mailbox's registers (R461, R469). -/
def isMailbox (o : Nat) : Bool := decide (0x800 ≤ o) && decide (o < 0x818)

/-! The host in register space and in device memory (R450, R451, R461). -/

/-- A write through BAR0 has its effect now (R461, R469). -/
def State.bar0Open (s : State) (off : Nat) : Bool := (s.plat.stage == 4 && !s.mgmt.locked) || isMailbox off

/-- A write of the host through BAR0 (R451, R461, R469): it comes after the host's earlier writes (R264). -/
def State.hostRegWrite (s : State) (off : Nat) (wide : Bool) (value : Word) : State :=
  let n := if wide then 8 else 4
  if 2 ^ 33 ≤ off ∨ off % n ≠ 0 then s.send .unsupported
  else if !s.bar0Open off then s
  else if !s.permits .host (regBlockOf off) true then (s.alarm ⟨.host, regBlockOf off, 0xF * 2 ^ 44 + off⟩).send .abort
  else s.settleAll.regWrite off n value.toNat

/-- A read of the host through BAR0: 32 or 64 aligned bits (R451, R485). -/
def State.hostRegRead (s : State) (off n : Nat) : State :=
  if (n ≠ 4 ∧ n ≠ 8) ∨ off % n ≠ 0 then s.send .unsupported
  else if !s.permits .host (regBlockOf off) false then (s.alarm ⟨.host, regBlockOf off, 0xF * 2 ^ 44 + off⟩).send .abort
  else
    let (v, s) := s.settleAll.regRead off n
    s.send (.completion (leBytes n v))

/-- An AtomicOp of the host on 32 or 64 aligned bits of register space (R448, R451): it reads the register and writes it. -/
def State.hostRegAtomic (s : State) (r : OuterReq) (off : Nat) : State :=
  let n := r.len
  if (n ≠ 4 ∧ n ≠ 8) ∨ off % n ≠ 0 ∨ atomicOk .host r n off = false then s.send .unsupported
  else if !s.admits .host (regBlockOf off) true true then (s.alarm ⟨.host, regBlockOf off, 0xF * 2 ^ 44 + off⟩).send .abort
  else
    let (v, s) := s.settleAll.regRead off n
    let s := if s.bar0Open off then s.regWrite off n (outerNew r n v) else s
    s.send (.completion (leBytes n v))

/-- A request through BAR0 (R451). -/
def State.bar0 (s : State) (r : OuterReq) (off : Nat) : State :=
  match r.op with
  | .read => s.hostRegRead off r.len
  | .write =>
    if r.data.length = 4 ∨ r.data.length = 8 then s.hostRegWrite off (r.data.length == 8) (BitVec.ofNat 64 (leNat r.data))
    else s.send .unsupported
  | _ => s.hostRegAtomic r off

/-- REGISTER_WRITE (R4, R451, R461, R469): a write of the host through BAR0. -/
def execRegisterWrite (off : Nat) (wide : Bool) (value : Word) (s : State) : Result := .next (s.hostRegWrite off wide value)

/-! Writes of the host that have an event of their own: they pass the same checks. -/

/-- A command written into LCTL of a port. -/
def State.hostLctl (s : State) (p : Nat) (cmd : Word) : State := if p < 12 then s.hostRegWrite (0x5010000 + 0x100 * p) false cmd else s

/-- LINK_TRAIN (R455, R456). -/
def execLinkTrain (p : Nat) (s : State) : Result := .next (s.hostLctl p 1)

/-- LINK_DOWN (R455, R456). -/
def execLinkDown (p : Nat) (s : State) : Result := .next (s.hostLctl p 2)

/-- LINK_RETIRE (R455, R456). -/
def execLinkRetire (p : Nat) (s : State) : Result := .next (s.hostLctl p 3)

/-- FARCFG_WRITE (R302). -/
def execFarcfgWrite (stack : Nat) (value : Word) (s : State) : Result :=
  .next (if stack < 16 then s.hostRegWrite (0x300000 + 0x100 * stack) true value else s)

/-- RQE_DISABLE (R371): EN := 0 is written. -/
def execRqeDisable (stack : Nat) (s : State) : Result :=
  .next (if stack < 16 then s.hostRegWrite (0x320000 + 0x100 * stack) false 0 else s)

/-- The offset in BAR0 of a request's address: register space stands at its physical addresses (R450). -/
def bar0Off (a : Nat) : Option Nat := if 0xF * 2 ^ 44 ≤ a ∧ a < 0xF * 2 ^ 44 + 2 ^ 33 then some (a - 0xF * 2 ^ 44) else none

/-- HOST_MEM_ACCESS (R451, R461): the address of the request is an offset of BAR2, or a physical address of register space. -/
def execHostMemAccess (r : OuterReq) (s : State) : Result :=
  .next (
    match bar0Off r.addr, bar2Pa r.addr with
    | some off, _ => s.bar0 r off
    | none, some pa => if s.plat.stage = 4 then s.outerAt .host r pa (.hostMemAccess r) else s.send .unsupported
    | none, none => s.refuseOuter .host r .unsupported)

end Sys2Proof.Machine
end

