-- ==== Sys2Proof/Machine/ScalarMem.lean ====
section
/-! DEFINITION. Scalar loads, stores and atomics, the fences of the front end, and QSIG (R224, R252 to R257, R271 to R275, R286,
R287, R290 to R292, R416). -/

namespace Sys2Proof.Machine

/-- Offset in register space of a physical address. -/
def regOff (pa : Nat) : Nat := pa % 2 ^ 44

/-! Accesses of the scalar stream. -/

/-- Read the bytes of resolved parts: memory, or a register (R224). -/
def State.scalarRead (s : State) (plain : Bool) (va n : Nat) (ps : List Part) : Acc (Nat × State) :=
  match ps with
  | [⟨_, _, .register pa, _⟩] => .ok ((s.markParts false ps).regRead (regOff pa) n)
  | _ => (s.readAll s.hart.core plain va ps).map fun x => (leNat x.1, x.2)

/-- Store the low `n` bytes of a value; with `past` the store is not kept in L1 (R256). The failure of a posted store is
asynchronous (R459). -/
def State.scalarWrite (s : State) (past : Bool) (va n v : Nat) (ps : List Part) : Acc State :=
  match ps with
  | [⟨_, _, .register pa, _⟩] => .ok ((s.markParts true ps).regWrite (regOff pa) n (v % 2 ^ (8 * n)))
  | _ =>
    let ps := if past then ps.map Part.uncached else ps
    (s.prepareWrite ps).map fun s1 =>
      let (f, s2) := s1.writeParts s1.agent s1.hart.poster va (leBytes n v) ps
      s2.asyncIf s2.hart.poster f

/-- An atomic of `n` bytes: memory at its place of performance, or a register. -/
def State.scalarAtomic (s : State) (va n : Nat) (f : Nat → Nat) (ps : List Part) : Acc (Nat × State) :=
  match ps with
  | [⟨_, _, .register pa, _⟩] =>
    let (old, s) := (s.markParts true ps).regRead (regOff pa) n
    .ok (old, s.regWrite (regOff pa) n (f old % 2 ^ (8 * n)))
  | _ => s.atomicAll s.hart.core va n f ps

/-- The effect of an instruction after a release, which waits where it is not complete (R253). -/
def afterRelease (r : Option State) (f : State → FrontAct) : FrontAct :=
  match r with
  | some t => f t
  | none => .wait .fenceStk

/-- The release of an instruction that writes, with the instruction's effect after it (R253). -/
def State.releasing (s : State) (o : Ord) (sc : Scope) (f : State → FrontAct) : FrontAct :=
  if ordRel o then afterRelease (s.frontReleaseWrite sc) f else f s

/-- The acquire of an instruction that has one. -/
def State.acquiring (s : State) (o : Ord) (sc : Scope) : State := if ordAcq o then s.acquireAt sc else s

/-- Acquire and release forms are naturally aligned (R271). -/
def alignOf (o : Ord) (n : Nat) : Nat := if ordAcq o || ordRel o then n else 1

/-! LD and ST (R275). -/

def widthBytes : Width → Nat
  | .w8 => 1 | .w16 => 2 | .w32 => 4 | .w64 => 8

/-- The value of a load of `n` bytes. -/
def loadValue (sx : Bool) (n v : Nat) : Word :=
  if sx then BitVec.ofInt 64 (sextInt (8 * n) v) else BitVec.ofNat 64 v

/-- What an access of LD needs. -/
def ldWant (o : Ord) (n : Nat) : Want := { r := true, scalar := true, align := alignOf o n }

/-- What an access of ST needs. -/
def stWant (o : Ord) (n : Nat) : Want := { w := true, scalar := true, align := alignOf o n }

/-- LD (R275). DESIGN CHOICE (log 6): it completes as it is issued, with bytes that its hart may have read ahead (R251). -/
def execLd (g : Guard) (w : Width) (sx : Bool) (o : Ord) (sc : Scope) (d a : XReg) (s : State) : Result :=
  .next (s.frontEnd (.ld g w sx o sc d a) g 8 fun s =>
    let n := widthBytes w
    let va := (s.hart.getX a).toNat
    ((s.resolve s.agent (ldWant o n) va n).bind fun ps => s.scalarRead (!ordAcq o) va n ps).act fun x =>
      let t := x.2.acquiring o sc
      .next { t with hart := t.hart.setX d (loadValue sx n x.1) })

/-- The effect of a store of the scalar stream (R275). -/
def State.store (s : State) (a : Agent) (o : Ord) (sc : Scope) (n va v : Nat) (done : State → State) : FrontAct :=
  (s.resolve a (stWant o n) va n).act fun ps =>
    s.releasing o sc fun t => (t.scalarWrite (ordRel o && sc != .group) va n v ps).act fun u => .next (done u)

/-- ST (R275). -/
def execSt (g : Guard) (w : Width) (o : Ord) (sc : Scope) (d a : XReg) (s : State) : Result :=
  .next (s.frontEnd (.st g w o sc d a) g 8 fun s =>
    s.store s.agent o sc (widthBytes w) (s.hart.getX a).toNat (s.hart.getX d).toNat id)

/-! Scalar atomics (R286, R287). -/

/-- Bytes of an integer atomic. -/
def amoBytes (w64 : Bool) : Nat := if w64 then 8 else 4

/-- What a scalar atomic needs; `exotic` one that no AtomicOp carries (R453). -/
def amoWant (exotic : Bool) (n : Nat) : Want := { r := true, w := true, atomic := true, scalar := true, exotic := exotic, align := n }

/-- A scalar atomic: release, the step of the atomic order, acquire; the old value in x[D]. -/
def State.amo (s : State) (i : Instr) (g : Guard) (o : Ord) (sc : Scope) (exotic : Bool) (n : Nat) (d a b : XReg)
    (f : Nat → Nat → Nat) (out : Nat → Word) (fl : Nat → Nat → Flags) : State :=
  s.frontEnd i g 8 fun s =>
    let va := (s.hart.getX a).toNat
    let op := (s.hart.getX b).toNat % 2 ^ (8 * n)
    (s.resolve s.agent (amoWant exotic n) va n).act fun ps =>
      s.releasing o sc fun t =>
        (t.scalarAtomic va n (fun m => f m op) ps).act fun x =>
          let u := x.2.acquiring o sc
          .next { u with hart := (u.hart.setX d (out x.1)).orFlags (fl x.1 op) }

/-- An integer atomic of R286: its old value is sign-extended in the 32-bit form. -/
def State.amoInt (s : State) (i : Instr) (g : Guard) (w64 : Bool) (o : Ord) (sc : Scope) (exotic : Bool) (d a b : XReg)
    (f : Nat → Nat → Nat → Nat) : State :=
  s.amo i g o sc exotic (amoBytes w64) d a b (f (8 * amoBytes w64)) (loadValue true (amoBytes w64)) fun _ _ => .none

/-- The smaller or larger of two signed values of `w` bits. -/
def amoPick (mx : Bool) (w m op : Nat) : Nat :=
  if mx then (if sextInt w m < sextInt w op then op else m) else (if sextInt w op < sextInt w m then op else m)

/-- AMOADD (R286). -/
def execAmoadd (g : Guard) (w64 : Bool) (o : Ord) (sc : Scope) (d a b : XReg) (s : State) : Result :=
  .next (s.amoInt (.amoadd g w64 o sc d a b) g w64 o sc false d a b fun w m op => (m + op) % 2 ^ w)

/-- AMOAND (R286). -/
def execAmoand (g : Guard) (w64 : Bool) (o : Ord) (sc : Scope) (d a b : XReg) (s : State) : Result :=
  .next (s.amoInt (.amoand g w64 o sc d a b) g w64 o sc true d a b fun _ m op => m &&& op)

/-- AMOOR (R286). -/
def execAmoor (g : Guard) (w64 : Bool) (o : Ord) (sc : Scope) (d a b : XReg) (s : State) : Result :=
  .next (s.amoInt (.amoor g w64 o sc d a b) g w64 o sc true d a b fun _ m op => m ||| op)

/-- AMOXOR (R286). -/
def execAmoxor (g : Guard) (w64 : Bool) (o : Ord) (sc : Scope) (d a b : XReg) (s : State) : Result :=
  .next (s.amoInt (.amoxor g w64 o sc d a b) g w64 o sc true d a b fun _ m op => m ^^^ op)

/-- AMOMIN (R286). -/
def execAmomin (g : Guard) (w64 : Bool) (o : Ord) (sc : Scope) (d a b : XReg) (s : State) : Result :=
  .next (s.amoInt (.amomin g w64 o sc d a b) g w64 o sc true d a b (amoPick false))

/-- AMOMAX (R286). -/
def execAmomax (g : Guard) (w64 : Bool) (o : Ord) (sc : Scope) (d a b : XReg) (s : State) : Result :=
  .next (s.amoInt (.amomax g w64 o sc d a b) g w64 o sc true d a b (amoPick true))

/-- AMOSWP (R286). -/
def execAmoswp (g : Guard) (w64 : Bool) (o : Ord) (sc : Scope) (d a b : XReg) (s : State) : Result :=
  .next (s.amoInt (.amoswp g w64 o sc d a b) g w64 o sc false d a b fun _ _ op => op)

/-- AMOCAS (R286): the compare value is x[C]. -/
def execAmocas (g : Guard) (w64 : Bool) (o : Ord) (sc : Scope) (d a b c : XReg) (s : State) : Result :=
  .next (s.amoInt (.amocas g w64 o sc d a b c) g w64 o sc false d a b fun w m op =>
    if m = (s.hart.getX c).toNat % 2 ^ w then op else m)

/-- AMOFADD (R286, R287): FP32, rounded to nearest even; its flags reach FFLAGS. -/
def execAmofadd (g : Guard) (o : Ord) (sc : Scope) (d a b : XReg) (s : State) : Result :=
  .next (s.amo (.amofadd g o sc d a b) g o sc true 4 d a b
    (fun m op => (addF (decodeFmt .fp32 m) (decodeFmt .fp32 op) .fp32 .rne 0).1) (loadValue false 4)
    fun m op => (addF (decodeFmt .fp32 m) (decodeFmt .fp32 op) .fp32 .rne 0).2)

/-! Fences of the front end (R290 to R292). -/

/-- FENCE (R290): earlier near accesses come before it, whichever point it is (R252, R253). -/
def execFence (g : Guard) (o : Ord) (sc : Scope) (s : State) : Result :=
  .next (s.frontEnd (.fence g o sc) g 8 fun s =>
    if !s.hart.vq.isEmpty then .wait .fenceStk
    else if ordRel o then afterRelease (s.frontRelease sc) fun t => .next (t.acquiring o sc)
    else .next (s.acquiring o sc))

/-- FENCE.SV (R291): the earlier scalar accesses are performed, and the later vector reads come after them. -/
def execFenceSv (g : Guard) (s : State) : Result :=
  .next (s.frontEnd (.fenceSv g) g 8 fun s =>
    if s.unacked s.hart.owner then .wait .fenceStk else .next (s.fenceNear))

/-- The pieces of a hart that a FENCE.STK mask covers (R259). -/
def FarPiece.covered (no : Nat) (mask : BitVec 16) (p : FarPiece) : Bool := p.hart == no && mask.getLsbD p.stack

/-- FENCE.STK (R292): the far accesses at the covered sites, and the near accesses, are performed. -/
def execFenceStk (g : Guard) (mask : BitVec 16) (s : State) : Result :=
  .next (s.frontEnd (.fenceStk g mask) g 8 fun s =>
    if !s.hart.vq.isEmpty then .wait .fenceStk
    else
      let t := s.completeWanted (FarPiece.covered s.hart.no mask)
      if t.far.pieces.any (FarPiece.covered t.hart.no mask) || t.unacked t.hart.owner then .wait .fenceStk
      else
        let t := t.fenceNear
        .next (if mask = 0 then t else t.dropClean))

/-! QSIG (R416). -/

/-- The Compass reads again every BLOCKED WAIT node whose ADDR lies in the sector of an address. -/
def State.signalSector (s : State) (ctx va : Nat) : State :=
  (s.cmp.queues.filter fun q => q.2.ctx.toNat == ctx).foldl (fun s q =>
    (q.2.nodes.filter fun n => n.type == typeWait && n.st == .blocked && n.word 3 / 64 == va / 64).foldl
      (fun s n => s.pollWait q.1 n) s) s

/-- QSIG: ST.64.R.S of x[B] at x[A], outside the window. -/
def execQsig (g : Guard) (a b : XReg) (s : State) : Result :=
  .next (s.frontEnd (.qsig g a b) g 8 fun s =>
    let va := (s.hart.getX a).toNat
    s.store { s.agent with grp := none } .release .system 8 va (s.hart.getX b).toNat fun t => t.signalSector t.hart.ctx va)

end Sys2Proof.Machine
end

