-- ==== Sys2Proof/Machine/Resume.lean ====
section
/-! DEFINITION. Waits of a front end that end, and the faults found at fetch and decode (R87, R89, R130, R282, R353, R359, R360,
R384, R394, R415, R418). -/

namespace Sys2Proof.Machine

/-- The instruction that waits is retaken next: its hart's front end takes the next move. -/
def State.retake (s : State) (no : Nat) (p : HartWait → Bool) : State :=
  match s.findHart no with
  | some h => if h.phase = .running ∧ p h.wait = true then { s with agenda := .front no :: s.agenda } else s
  | none => s

/-- A wait on a barrier record. -/
def HartWait.onBarrier : HartWait → Bool
  | .barrier .. => true
  | _ => false

/-- RESYNC_ISSUE (R130). -/
def execResyncIssue (h : Nat) (s : State) : Result := .next (s.retake h (· == .resync))

/-- BARRIER_WAKE (R359, R360). -/
def execBarrierWake (h : Nat) (s : State) : Result := .next (s.retake h HartWait.onBarrier)

/-- QSUB_RESUME (R415). -/
def execQsubResume (h : Nat) (s : State) : Result := .next (s.retake h (· == .qsub))

/-- HRPUT_RESUME (R418). -/
def execHrputResume (h : Nat) (s : State) : Result := .next (s.retake h HartWait.onRing)

/-- CTW_RESUME (R384). -/
def execCtwResume (h : Nat) (s : State) : Result := .next (s.retake h (· == .ctw))

/-- KLAUNCH_ANSWER (R394). -/
def execKlaunchAnswer (h : Nat) (s : State) : Result := .next (s.retake h (· == .klaunch))

/-- ILLEGAL_INSTRUCTION (R87, R89). -/
def execIllegalInstruction (s : State) : Result := .next (s.frontFault (.of 0x01))

/-- FETCH_FAULT (R89): a fault of either word, reported against the first. -/
def execFetchFault (code reason : BitVec 8) (va : Word) (s : State) : Result :=
  .next (s.frontFault ⟨code, reason, va, 0, 0⟩)

end Sys2Proof.Machine
end

