-- ==== Sys2Proof/Machine/Scalar.lean ====
section
/-! DEFINITION. Scalar arithmetic and immediates at the front end (R141 to R147). -/

namespace Sys2Proof.Machine

/-! Values. -/

/-- MULH: the high half of the signed product (R144). -/
def mulHigh (a b : Word) : Word := BitVec.ofInt 64 (a.toInt * b.toInt / 2 ^ 64)

/-- MULHU (R144). -/
def mulHighU (a b : Word) : Word := BitVec.ofNat 64 (a.toNat * b.toNat / 2 ^ 64)

/-- DIV: truncated toward zero, 0 by zero (R144, R145). -/
def quotS (a b : Word) : Word := if b = 0 then 0 else BitVec.ofInt 64 (a.toInt.tdiv b.toInt)

/-- DIVU (R144, R145). -/
def quotU (a b : Word) : Word := if b = 0 then 0 else BitVec.ofNat 64 (a.toNat / b.toNat)

/-- REM: the sign of the dividend, `a` by zero (R144, R145). -/
def remS (a b : Word) : Word := if b = 0 then a else a - b * quotS a b

/-- REMU (R144, R145). -/
def remU (a b : Word) : Word := if b = 0 then a else a - b * quotU a b

/-- A shift amount in a register: bits [5:0] (R144). -/
def amount (b : Word) : Nat := b.toNat % 64

def shiftL (a : Word) (n : Nat) : Word := a <<< n
def shiftR (a : Word) (n : Nat) : Word := a >>> n
def shiftA (a : Word) (n : Nat) : Word := a.sshiftRight n

def minS (a b : Word) : Word := if b.slt a then b else a
def maxS (a b : Word) : Word := if a.slt b then b else a
def minU (a b : Word) : Word := if b.ult a then b else a
def maxU (a b : Word) : Word := if a.ult b then b else a

/-- The sign-extended immediate (R141). -/
def sextImm (imm : BitVec 17) : Word := imm.signExtend 64

/-- EXT (R146): `width` is the field C + 1. -/
def extract (a : Word) (pos width : Nat) (sx : Bool) : Word :=
  let f := a.toNat / 2 ^ pos % 2 ^ width
  if sx && decide (width < 64) && bitAt f (width - 1) then BitVec.ofNat 64 f - BitVec.ofNat 64 (2 ^ width) else BitVec.ofNat 64 f

/-- INS (R146). -/
def insertBits (old a : Word) (pos width : Nat) : Word :=
  let m := BitVec.ofNat 64 (2 ^ width - 1) <<< pos
  (old &&& ~~~m) ||| ((a <<< pos) &&& m)

/-! The frame: x[D] from the hart's registers, and the IFLAGS a division sets (R143). -/

/-- A scalar instruction: one word into x[D]. -/
def State.scalar (s : State) (i : Instr) (g : Guard) (len : Nat) (d : XReg) (v : Hart → Word) : State :=
  s.frontEnd i g len fun s => .next { s with hart := s.hart.setX d (v s.hart) }

/-- A division: IFLAGS.DZ is set by a zero divisor (R145). -/
def State.divide (s : State) (i : Instr) (g : Guard) (d b : XReg) (v : Hart → Word) : State :=
  s.frontEnd i g 8 fun s =>
    .next { s with hart := (s.hart.setX d (v s.hart)).orFlags (Flags.when (s.hart.getX b == 0) .idz) }

/-- NOP (R84): it has no guard and no effect. -/
def execNop (s : State) : Result := .next (s.frontEnd .nop ⟨0xFF, 0, 0, 0⟩ 8 fun s => .next s)

/-- ADD (R144). -/
def execAdd (g : Guard) (d a b : XReg) (s : State) : Result :=
  .next (s.scalar (.add g d a b) g 8 d fun h => h.getX a + h.getX b)

/-- SUB (R144). -/
def execSub (g : Guard) (d a b : XReg) (s : State) : Result :=
  .next (s.scalar (.sub g d a b) g 8 d fun h => h.getX a - h.getX b)

/-- AND (R144). -/
def execAnd (g : Guard) (d a b : XReg) (s : State) : Result :=
  .next (s.scalar (.and g d a b) g 8 d fun h => h.getX a &&& h.getX b)

/-- OR (R144). -/
def execOr (g : Guard) (d a b : XReg) (s : State) : Result :=
  .next (s.scalar (.or g d a b) g 8 d fun h => h.getX a ||| h.getX b)

/-- XOR (R144). -/
def execXor (g : Guard) (d a b : XReg) (s : State) : Result :=
  .next (s.scalar (.xor g d a b) g 8 d fun h => h.getX a ^^^ h.getX b)

/-- SHL (R144). -/
def execShl (g : Guard) (d a b : XReg) (s : State) : Result :=
  .next (s.scalar (.shl g d a b) g 8 d fun h => shiftL (h.getX a) (amount (h.getX b)))

/-- SHR (R144). -/
def execShr (g : Guard) (d a b : XReg) (s : State) : Result :=
  .next (s.scalar (.shr g d a b) g 8 d fun h => shiftR (h.getX a) (amount (h.getX b)))

/-- SRA (R144). -/
def execSra (g : Guard) (d a b : XReg) (s : State) : Result :=
  .next (s.scalar (.sra g d a b) g 8 d fun h => shiftA (h.getX a) (amount (h.getX b)))

/-- MUL (R144). -/
def execMul (g : Guard) (d a b : XReg) (s : State) : Result :=
  .next (s.scalar (.mul g d a b) g 8 d fun h => h.getX a * h.getX b)

/-- MULH (R144). -/
def execMulh (g : Guard) (d a b : XReg) (s : State) : Result :=
  .next (s.scalar (.mulh g d a b) g 8 d fun h => mulHigh (h.getX a) (h.getX b))

/-- MULHU (R144). -/
def execMulhu (g : Guard) (d a b : XReg) (s : State) : Result :=
  .next (s.scalar (.mulhu g d a b) g 8 d fun h => mulHighU (h.getX a) (h.getX b))

/-- MIN (R144). -/
def execMin (g : Guard) (d a b : XReg) (s : State) : Result :=
  .next (s.scalar (.min g d a b) g 8 d fun h => minS (h.getX a) (h.getX b))

/-- MAX (R144). -/
def execMax (g : Guard) (d a b : XReg) (s : State) : Result :=
  .next (s.scalar (.max g d a b) g 8 d fun h => maxS (h.getX a) (h.getX b))

/-- MINU (R144). -/
def execMinu (g : Guard) (d a b : XReg) (s : State) : Result :=
  .next (s.scalar (.minu g d a b) g 8 d fun h => minU (h.getX a) (h.getX b))

/-- MAXU (R144). -/
def execMaxu (g : Guard) (d a b : XReg) (s : State) : Result :=
  .next (s.scalar (.maxu g d a b) g 8 d fun h => maxU (h.getX a) (h.getX b))

/-- DIV (R144, R145). -/
def execDiv (g : Guard) (d a b : XReg) (s : State) : Result :=
  .next (s.divide (.div g d a b) g d b fun h => quotS (h.getX a) (h.getX b))

/-- DIVU (R144, R145). -/
def execDivu (g : Guard) (d a b : XReg) (s : State) : Result :=
  .next (s.divide (.divu g d a b) g d b fun h => quotU (h.getX a) (h.getX b))

/-- REM (R144, R145). -/
def execRem (g : Guard) (d a b : XReg) (s : State) : Result :=
  .next (s.divide (.rem g d a b) g d b fun h => remS (h.getX a) (h.getX b))

/-- REMU (R144, R145). -/
def execRemu (g : Guard) (d a b : XReg) (s : State) : Result :=
  .next (s.divide (.remu g d a b) g d b fun h => remU (h.getX a) (h.getX b))

/-- CLZ (R144). -/
def execClz (g : Guard) (d a : XReg) (s : State) : Result :=
  .next (s.scalar (.clz g d a) g 8 d fun h => BitVec.ofNat 64 (leadingZeros (h.getX a).toNat 64))

/-- CTZ (R144). -/
def execCtz (g : Guard) (d a : XReg) (s : State) : Result :=
  .next (s.scalar (.ctz g d a) g 8 d fun h => BitVec.ofNat 64 (trailingZeros (h.getX a).toNat 64))

/-- POPC (R144). -/
def execPopc (g : Guard) (d a : XReg) (s : State) : Result :=
  .next (s.scalar (.popc g d a) g 8 d fun h => BitVec.ofNat 64 (popcount (h.getX a).toNat 64))

/-- EXT (R146). -/
def execExt (g : Guard) (d a : XReg) (pos wm1 : BitVec 6) (sx : Bool) (s : State) : Result :=
  .next (s.scalar (.ext g d a pos wm1 sx) g 8 d fun h => extract (h.getX a) pos.toNat (wm1.toNat + 1) sx)

/-- INS (R146). -/
def execIns (g : Guard) (d a : XReg) (pos wm1 : BitVec 6) (s : State) : Result :=
  .next (s.scalar (.ins g d a pos wm1) g 8 d fun h => insertBits (h.getX d) (h.getX a) pos.toNat (wm1.toNat + 1))

/-- ADDSH (R146). -/
def execAddsh (g : Guard) (d a b : XReg) (sh : BitVec 6) (s : State) : Result :=
  .next (s.scalar (.addsh g d a b sh) g 8 d fun h => h.getX a + shiftL (h.getX b) sh.toNat)

/-- ADDI (R147). -/
def execAddi (g : Guard) (d a : XReg) (imm : BitVec 17) (s : State) : Result :=
  .next (s.scalar (.addi g d a imm) g 8 d fun h => h.getX a + sextImm imm)

/-- ANDI (R147). -/
def execAndi (g : Guard) (d a : XReg) (imm : BitVec 17) (s : State) : Result :=
  .next (s.scalar (.andi g d a imm) g 8 d fun h => h.getX a &&& sextImm imm)

/-- ORI (R147). -/
def execOri (g : Guard) (d a : XReg) (imm : BitVec 17) (s : State) : Result :=
  .next (s.scalar (.ori g d a imm) g 8 d fun h => h.getX a ||| sextImm imm)

/-- XORI (R147). -/
def execXori (g : Guard) (d a : XReg) (imm : BitVec 17) (s : State) : Result :=
  .next (s.scalar (.xori g d a imm) g 8 d fun h => h.getX a ^^^ sextImm imm)

/-- SHLI (R147). -/
def execShli (g : Guard) (d a : XReg) (n : BitVec 6) (s : State) : Result :=
  .next (s.scalar (.shli g d a n) g 8 d fun h => shiftL (h.getX a) n.toNat)

/-- SHRI (R147). -/
def execShri (g : Guard) (d a : XReg) (n : BitVec 6) (s : State) : Result :=
  .next (s.scalar (.shri g d a n) g 8 d fun h => shiftR (h.getX a) n.toNat)

/-- SRAI (R147). -/
def execSrai (g : Guard) (d a : XReg) (n : BitVec 6) (s : State) : Result :=
  .next (s.scalar (.srai g d a n) g 8 d fun h => shiftA (h.getX a) n.toNat)

/-- LI (R147). -/
def execLi (g : Guard) (d : XReg) (imm : BitVec 17) (s : State) : Result :=
  .next (s.scalar (.li g d imm) g 8 d fun _ => sextImm imm)

/-- LI64 (R147): two words. -/
def execLi64 (g : Guard) (d : XReg) (imm : Word) (s : State) : Result :=
  .next (s.scalar (.li64 g d imm) g 16 d fun _ => imm)

end Sys2Proof.Machine
end

