-- ==== Sys2Proof/Machine/System.lean ====
section
/-! DEFINITION. TRAP, ERET, BKPT and the debug halt; CTW and CTSWAP; the entry to a handler that waited (R383 to R385, R437,
R442 to R446). -/

namespace Sys2Proof.Machine

/-! TRAP, BKPT, ERET. -/

/-- A trap of the hart in focus: it waits for every earlier entry, and its resume address is the next instruction's
(R437, R442). -/
def State.raiseTrap (s : State) (code : BitVec 8) (n : BitVec 16) : FrontAct :=
  if !s.hart.vq.isEmpty then .wait .drain
  else
    let t := s.takeFault ⟨code, 0, 0, 0, n⟩ s.hart.pc (s.hart.pc + 8) 0
    .goto t t.hart.pc

/-- TRAP (R442). -/
def execTrap (g : Guard) (n : BitVec 16) (s : State) : Result :=
  .next (s.frontEnd (.trap g n) g 8 fun s => s.raiseTrap 0x12 n)

/-- ERET (R444). -/
def execEret (g : Guard) (s : State) : Result :=
  .next (s.frontEnd (.eret g) g 8 fun s =>
    if !s.hart.trap.inh then .fault (.of 0x04)
    else if !s.hart.vq.isEmpty then .wait .drain
    else .goto { s with hart := s.hart.leaveHandler } s.hart.leaveHandler.pc)

/-- The hart as a halting breakpoint leaves it (R446). -/
def Hart.halt (h : Hart) : Hart :=
  { h.settle with
    pc := h.pc + 8
    phase := .halted
    trap := { h.trap with epc := h.pc, code := 0x11 } }

/-- A debug halt: far work completes, the hart's image and a record with HALT are written (R446); an image write that meets
uncorrectable data faults the context (R431). -/
def State.debugHalt (s : State) : State :=
  let s := s.drainFar s.hart.no
  let pc := s.hart.pc
  let (r, s) := s.hartRecord s.hart (.of 0x11) pc false false true none
  let h := s.hart.halt
  let s := { s with hart := h }
  let (s, bad) := match s.hartArea h with
    | some a => s.putChunks a ({ h with phase := .running }.imageChunks true)
    | none => (s, false)
  let s := s.record h.ctx r
  if bad || h.imageSpoilt then s.faultContext h.ctx else s

/-- BKPT (R443, R446). -/
def execBkpt (g : Guard) (n : BitVec 16) (s : State) : Result :=
  .next (s.frontEnd (.bkpt g n) g 8 fun s =>
    if (s.ctx s.hart.ctx).dbgEn then
      if !s.hart.vq.isEmpty || !((s.drainFar s.hart.no).piecesOf s.hart.no).isEmpty then .wait .drain
      else .goto s.debugHalt s.debugHalt.hart.pc
    else s.raiseTrap 0x11 n)

/-- TRAP_ENTRY (R142, R437): the front-end fault of a hart whose earlier entries have completed is taken. -/
def execTrapEntry (h : Nat) (s : State) : Result :=
  .next (
    let s := s.focus h
    if s.hart.no ≠ h ∨ s.hart.phase = .absent then s
    else
      match s.hart.pend with
      | some p => if s.hart.vq.isEmpty then { s with hart := { s.hart with pend := none } }.takeFault p.fault p.epc p.resume 0 else s
      | none => s)

/-! The code table (R383 to R385). -/

/-- Entries of a saved VQ or trap image that hold a capture of a bank (R429). -/
def State.imageHolds (s : State) (pa n : Nat) (bank : Bool) : Bool :=
  (List.range n).any fun i => bitAt (s.imageNat (pa + 64 * i + 8) 8) 52 == bank

/-- A stopped group that may run again holds a capture of a bank in its image. -/
def State.savedHolds (s : State) (c : Nat) (bank : Bool) : Bool :=
  s.cmp.groups.any fun g =>
    g.ctx == c && g.st == .preempted &&
      (match g.slot, s.kernel g.kern with
        | some i, some k =>
          (List.range k.hdr.extent).any fun f =>
            let a := (s.ctx c).slotBase i + areaOffset k.hdr.hpc f
            let hs := s.imageNat a 8
            s.imageHolds (a + 0x300) (bits hs 16 6) bank || s.imageHolds (a + 0x1000) (bits hs 24 6) bank
        | _, _ => false)

/-- Some uncompleted instruction of a context holds a capture of a bank (R384). -/
def State.bankHeld (s : State) (c : Nat) (bank : Bool) : Bool :=
  (s.placedHarts.any fun h =>
    h.ctx == c && (h.vq.any (fun e => e.bank == bank) || h.trapImage.any (fun e => e.bank == bank) ||
      s.far.pieces.any fun p => p.hart == h.no && p.entry.bank == bank)) ||
  s.savedHolds c bank

/-- Write an entry of a bank. -/
def Context.writeBank (c : Context) (bank : Bool) (i : Nat) (v : BitVec 16) : Context :=
  if bank then { c with bank1 := c.bank1.setIfInBounds i v } else { c with bank0 := c.bank0.setIfInBounds i v }

/-- CTW (R384): the inactive bank is written once nothing holds it. -/
def execCtw (g : Guard) (a b : XReg) (s : State) : Result :=
  .next (s.frontEnd (.ctw g a b) g 8 fun s =>
    let i := (s.hart.getX a).toNat
    let c := s.ctx s.hart.ctx
    if 16 ≤ i then .fault (.of 0x04)
    else if s.bankHeld s.hart.ctx (!c.bankInForce) then .wait .ctw
    else .next (s.setCtx s.hart.ctx (c.writeBank (!c.bankInForce) i ((s.hart.getX b).setWidth 16))))

/-- CTSWAP (R385). -/
def execCtswap (g : Guard) (s : State) : Result :=
  .next (s.frontEnd (.ctswap g) g 8 fun s =>
    let c := s.ctx s.hart.ctx
    .next (s.setCtx s.hart.ctx { c with ctgen := c.ctgen + 1 }))

end Sys2Proof.Machine
end

