-- ==== Sys2Proof/Machine/TileIssue.lean ====
section
/-! DEFINITION. Tile instructions (R201 to R215): each is entered in the vector queue. -/

namespace Sys2Proof.Machine

/-- R204 to R207. -/
def execZopa (g : Guard) (rne : Bool) (d : ZReg) (a b : VReg) (s : State) : Result := .next (s.issueVq (.zopa g rne d a b))

/-- R208 to R210. -/
def execZopaL (g : Guard) (rne : Bool) (d : ZReg) (a b : XReg) (s : State) : Result :=
  .next (s.issueVq (.zopaL g rne d a b))

/-- R211. -/
def execZzero (g : Guard) (d : ZReg) (s : State) : Result := .next (s.issueVq (.zzero g d))

/-- R212. -/
def execZfill (g : Guard) (zm : Bool) (d : ZReg) (a : VReg) (b : XReg) (s : State) : Result :=
  .next (s.issueVq (.zfill g zm d a b))

/-- R213. -/
def execZdrain (g : Guard) (rm : Rm) (zm : Bool) (d : VReg) (a : ZReg) (b : XReg) (s : State) : Result :=
  .next (s.issueVq (.zdrain g rm zm d a b))

/-- R214, R215. -/
def execZld (g : Guard) (d : ZReg) (a b : XReg) (s : State) : Result := .next (s.issueVq (.zld g d a b))

/-- R214, R215. -/
def execZst (g : Guard) (d : ZReg) (a b : XReg) (s : State) : Result := .next (s.issueVq (.zst g d a b))

end Sys2Proof.Machine
end

