-- ==== Sys2Proof/Machine/VectorIssue.lean ====
section
/-! DEFINITION. Vector compares, arithmetic, reductions, conversions and permutations: each is entered in the vector queue, and
its effect is that of its result function. -/

namespace Sys2Proof.Machine

/-- R152. -/
def execVcmp (g : Guard) (m : VMod) (c : Cond) (d : KReg) (a b : VReg) (s : State) : Result :=
  .next (s.issueVq (.vcmp g m c d a b))

/-- R174. -/
def execVadd (g : Guard) (m : VMod) (d a b : VReg) (s : State) : Result := .next (s.issueVq (.vadd g m d a b))

/-- R174. -/
def execVsub (g : Guard) (m : VMod) (d a b : VReg) (s : State) : Result := .next (s.issueVq (.vsub g m d a b))

/-- R174. -/
def execVmul (g : Guard) (m : VMod) (d a b : VReg) (s : State) : Result := .next (s.issueVq (.vmul g m d a b))

/-- R174. -/
def execVmulh (g : Guard) (m : VMod) (d a b : VReg) (s : State) : Result := .next (s.issueVq (.vmulh g m d a b))

/-- R174. -/
def execVfma (g : Guard) (m : VMod) (d a b c : VReg) (s : State) : Result := .next (s.issueVq (.vfma g m d a b c))

/-- R174. -/
def execVfms (g : Guard) (m : VMod) (d a b c : VReg) (s : State) : Result := .next (s.issueVq (.vfms g m d a b c))

/-- R174. -/
def execVfnma (g : Guard) (m : VMod) (d a b c : VReg) (s : State) : Result := .next (s.issueVq (.vfnma g m d a b c))

/-- R175. -/
def execVdiv (g : Guard) (m : VMod) (d a b : VReg) (s : State) : Result := .next (s.issueVq (.vdiv g m d a b))

/-- R174. -/
def execVmin (g : Guard) (m : VMod) (d a b : VReg) (s : State) : Result := .next (s.issueVq (.vmin g m d a b))

/-- R174. -/
def execVmax (g : Guard) (m : VMod) (d a b : VReg) (s : State) : Result := .next (s.issueVq (.vmax g m d a b))

/-- R176. -/
def execVadds (g : Guard) (m : VMod) (d a b : VReg) (s : State) : Result := .next (s.issueVq (.vadds g m d a b))

/-- R176. -/
def execVsubs (g : Guard) (m : VMod) (d a b : VReg) (s : State) : Result := .next (s.issueVq (.vsubs g m d a b))

/-- R177. -/
def execVand (g : Guard) (m : VMod) (d a b : VReg) (s : State) : Result := .next (s.issueVq (.vand g m d a b))

/-- R177. -/
def execVor (g : Guard) (m : VMod) (d a b : VReg) (s : State) : Result := .next (s.issueVq (.vor g m d a b))

/-- R177. -/
def execVxor (g : Guard) (m : VMod) (d a b : VReg) (s : State) : Result := .next (s.issueVq (.vxor g m d a b))

/-- R177. -/
def execVshl (g : Guard) (m : VMod) (d a b : VReg) (s : State) : Result := .next (s.issueVq (.vshl g m d a b))

/-- R177. -/
def execVshr (g : Guard) (m : VMod) (d a b : VReg) (s : State) : Result := .next (s.issueVq (.vshr g m d a b))

/-- R178. -/
def execVscale (g : Guard) (m : VMod) (d a b : VReg) (s : State) : Result := .next (s.issueVq (.vscale g m d a b))

/-- R179. -/
def execVsqrt (g : Guard) (m : VMod) (d a : VReg) (s : State) : Result := .next (s.issueVq (.vsqrt g m d a))

/-- R179. -/
def execVrsqrt (g : Guard) (m : VMod) (d a : VReg) (s : State) : Result := .next (s.issueVq (.vrsqrt g m d a))

/-- R179. -/
def execVrcp (g : Guard) (m : VMod) (d a : VReg) (s : State) : Result := .next (s.issueVq (.vrcp g m d a))

/-- R179. -/
def execVexp2 (g : Guard) (m : VMod) (d a : VReg) (s : State) : Result := .next (s.issueVq (.vexp2 g m d a))

/-- R179. -/
def execVlog2 (g : Guard) (m : VMod) (d a : VReg) (s : State) : Result := .next (s.issueVq (.vlog2 g m d a))

/-- R180. -/
def execVabs (g : Guard) (m : VMod) (d a : VReg) (s : State) : Result := .next (s.issueVq (.vabs g m d a))

/-- R180. -/
def execVneg (g : Guard) (m : VMod) (d a : VReg) (s : State) : Result := .next (s.issueVq (.vneg g m d a))

/-- R182. -/
def execVredsum (g : Guard) (m : VMod) (d : BitVec 6) (a : VReg) (sc : Bool) (s : State) : Result :=
  .next (s.issueVq (.vredsum g m d a sc))

/-- R182. -/
def execVredmax (g : Guard) (m : VMod) (d : BitVec 6) (a : VReg) (sc : Bool) (s : State) : Result :=
  .next (s.issueVq (.vredmax g m d a sc))

/-- R182. -/
def execVredmin (g : Guard) (m : VMod) (d : BitVec 6) (a : VReg) (sc : Bool) (s : State) : Result :=
  .next (s.issueVq (.vredmin g m d a sc))

/-- R182. -/
def execVredand (g : Guard) (m : VMod) (d : BitVec 6) (a : VReg) (sc : Bool) (s : State) : Result :=
  .next (s.issueVq (.vredand g m d a sc))

/-- R182. -/
def execVredor (g : Guard) (m : VMod) (d : BitVec 6) (a : VReg) (sc : Bool) (s : State) : Result :=
  .next (s.issueVq (.vredor g m d a sc))

/-- R184. -/
def execVargmax (g : Guard) (m : VMod) (d : BitVec 6) (a : VReg) (sc : Bool) (s : State) : Result :=
  .next (s.issueVq (.vargmax g m d a sc))

/-- R185. -/
def execVdot (g : Guard) (m : VMod) (d : BitVec 6) (a b : VReg) (sc : Bool) (s : State) : Result :=
  .next (s.issueVq (.vdot g m d a b sc))

/-- R186. -/
def execVsmax (g : Guard) (m : VMod) (d a : VReg) (s : State) : Result := .next (s.issueVq (.vsmax g m d a))

/-- R187. -/
def execVtopk (g : Guard) (m : VMod) (d a : VReg) (b : XReg) (s : State) : Result := .next (s.issueVq (.vtopk g m d a b))

/-- R188, R189. -/
def execVcvt (g : Guard) (m : VMod) (d a : VReg) (t : Fmt) (blk sat : Bool) (s : State) : Result :=
  .next (s.issueVq (.vcvt g m d a t blk sat))

/-- R190. -/
def execVqmx (g : Guard) (m : VMod) (d a : VReg) (t : Fmt) (s : State) : Result := .next (s.issueVq (.vqmx g m d a t))

/-- R191. -/
def execVpack (g : Guard) (m : VMod) (d a b : VReg) (s : State) : Result := .next (s.issueVq (.vpack g m d a b))

/-- R192. -/
def execVunpk (g : Guard) (m : VMod) (d a : VReg) (hi : Bool) (s : State) : Result := .next (s.issueVq (.vunpk g m d a hi))

/-- R193. -/
def execVmov (g : Guard) (m : VMod) (d a : VReg) (s : State) : Result := .next (s.issueVq (.vmov g m d a))

/-- R194. -/
def execVgathr (g : Guard) (m : VMod) (d a b : VReg) (s : State) : Result := .next (s.issueVq (.vgathr g m d a b))

/-- R195. -/
def execVslideup (g : Guard) (m : VMod) (d a : VReg) (b : XReg) (s : State) : Result :=
  .next (s.issueVq (.vslideup g m d a b))

/-- R195. -/
def execVslidedn (g : Guard) (m : VMod) (d a : VReg) (b : XReg) (s : State) : Result :=
  .next (s.issueVq (.vslidedn g m d a b))

/-- R196. -/
def execVcompress (g : Guard) (m : VMod) (d a : VReg) (b : KReg) (s : State) : Result :=
  .next (s.issueVq (.vcompress g m d a b))

/-- R196. -/
def execVexpand (g : Guard) (m : VMod) (d a : VReg) (b : KReg) (s : State) : Result :=
  .next (s.issueVq (.vexpand g m d a b))

/-- R197. -/
def execViota (g : Guard) (m : VMod) (d : VReg) (a : KReg) (s : State) : Result := .next (s.issueVq (.viota g m d a))

/-- R198. -/
def execVtransp (g : Guard) (m : VMod) (d a : VReg) (s : State) : Result := .next (s.issueVq (.vtransp g m d a))

/-- R199. -/
def execVins (g : Guard) (m : VMod) (d : VReg) (a b : XReg) (s : State) : Result := .next (s.issueVq (.vins g m d a b))

/-- R200. -/
def execVextr (g : Guard) (m : VMod) (d : XReg) (a : VReg) (b : XReg) (s : State) : Result :=
  .next (s.issueVq (.vextr g m d a b))

end Sys2Proof.Machine
end

