-- ==== Sys2Proof/Machine/Dispatch.lean ====
section
/-! DEFINITION. What each instruction and each event does: one arm per constructor, each one call of its meaning. -/

namespace Sys2Proof.Machine

/-- The effect of one instruction or event on the machine. -/
def exec (i : Instr) (s : State) : Host.Outcome State Fault Refusal :=
  match i with
  | .nop => Sys2Proof.Machine.execNop s
  | .add g d a b => Sys2Proof.Machine.execAdd g d a b s
  | .sub g d a b => Sys2Proof.Machine.execSub g d a b s
  | .and g d a b => Sys2Proof.Machine.execAnd g d a b s
  | .or g d a b => Sys2Proof.Machine.execOr g d a b s
  | .xor g d a b => Sys2Proof.Machine.execXor g d a b s
  | .shl g d a b => Sys2Proof.Machine.execShl g d a b s
  | .shr g d a b => Sys2Proof.Machine.execShr g d a b s
  | .sra g d a b => Sys2Proof.Machine.execSra g d a b s
  | .mul g d a b => Sys2Proof.Machine.execMul g d a b s
  | .mulh g d a b => Sys2Proof.Machine.execMulh g d a b s
  | .mulhu g d a b => Sys2Proof.Machine.execMulhu g d a b s
  | .div g d a b => Sys2Proof.Machine.execDiv g d a b s
  | .divu g d a b => Sys2Proof.Machine.execDivu g d a b s
  | .rem g d a b => Sys2Proof.Machine.execRem g d a b s
  | .remu g d a b => Sys2Proof.Machine.execRemu g d a b s
  | .min g d a b => Sys2Proof.Machine.execMin g d a b s
  | .max g d a b => Sys2Proof.Machine.execMax g d a b s
  | .minu g d a b => Sys2Proof.Machine.execMinu g d a b s
  | .maxu g d a b => Sys2Proof.Machine.execMaxu g d a b s
  | .clz g d a => Sys2Proof.Machine.execClz g d a s
  | .ctz g d a => Sys2Proof.Machine.execCtz g d a s
  | .popc g d a => Sys2Proof.Machine.execPopc g d a s
  | .ext g d a pos wm1 sx => Sys2Proof.Machine.execExt g d a pos wm1 sx s
  | .ins g d a pos wm1 => Sys2Proof.Machine.execIns g d a pos wm1 s
  | .addsh g d a b sh => Sys2Proof.Machine.execAddsh g d a b sh s
  | .addi g d a imm => Sys2Proof.Machine.execAddi g d a imm s
  | .andi g d a imm => Sys2Proof.Machine.execAndi g d a imm s
  | .ori g d a imm => Sys2Proof.Machine.execOri g d a imm s
  | .xori g d a imm => Sys2Proof.Machine.execXori g d a imm s
  | .shli g d a n => Sys2Proof.Machine.execShli g d a n s
  | .shri g d a n => Sys2Proof.Machine.execShri g d a n s
  | .srai g d a n => Sys2Proof.Machine.execSrai g d a n s
  | .li g d imm => Sys2Proof.Machine.execLi g d imm s
  | .li64 g d imm => Sys2Proof.Machine.execLi64 g d imm s
  | .br g off => Sys2Proof.Machine.execBr g off s
  | .call g d off => Sys2Proof.Machine.execCall g d off s
  | .jr g d a => Sys2Proof.Machine.execJr g d a s
  | .addpc g d off => Sys2Proof.Machine.execAddpc g d off s
  | .bstrip g d off => Sys2Proof.Machine.execBstrip g d off s
  | .cmp g c d a b => Sys2Proof.Machine.execCmp g c d a b s
  | .cmpi g c d a imm => Sys2Proof.Machine.execCmpi g c d a imm s
  | .vcmp g m c d a b => Sys2Proof.Machine.execVcmp g m c d a b s
  | .klog g d a b c table => Sys2Proof.Machine.execKlog g d a b c table s
  | .kset g d a => Sys2Proof.Machine.execKset g d a s
  | .ktest g t d a => Sys2Proof.Machine.execKtest g t d a s
  | .kfirst g d a => Sys2Proof.Machine.execKfirst g d a s
  | .kdead g mask => Sys2Proof.Machine.execKdead g mask s
  | .ktox g d a b => Sys2Proof.Machine.execKtox g d a b s
  | .kfromx g d a b => Sys2Proof.Machine.execKfromx g d a b s
  | .setvl g d a t blk step => Sys2Proof.Machine.execSetvl g d a t blk step s
  | .setrc g code => Sys2Proof.Machine.execSetrc g code s
  | .vtag g d t blk => Sys2Proof.Machine.execVtag g d t blk s
  | .mfs g d r => Sys2Proof.Machine.execMfs g d r s
  | .mts g r a => Sys2Proof.Machine.execMts g r a s
  | .vadd g m d a b => Sys2Proof.Machine.execVadd g m d a b s
  | .vsub g m d a b => Sys2Proof.Machine.execVsub g m d a b s
  | .vmul g m d a b => Sys2Proof.Machine.execVmul g m d a b s
  | .vmulh g m d a b => Sys2Proof.Machine.execVmulh g m d a b s
  | .vfma g m d a b c => Sys2Proof.Machine.execVfma g m d a b c s
  | .vfms g m d a b c => Sys2Proof.Machine.execVfms g m d a b c s
  | .vfnma g m d a b c => Sys2Proof.Machine.execVfnma g m d a b c s
  | .vdiv g m d a b => Sys2Proof.Machine.execVdiv g m d a b s
  | .vmin g m d a b => Sys2Proof.Machine.execVmin g m d a b s
  | .vmax g m d a b => Sys2Proof.Machine.execVmax g m d a b s
  | .vadds g m d a b => Sys2Proof.Machine.execVadds g m d a b s
  | .vsubs g m d a b => Sys2Proof.Machine.execVsubs g m d a b s
  | .vand g m d a b => Sys2Proof.Machine.execVand g m d a b s
  | .vor g m d a b => Sys2Proof.Machine.execVor g m d a b s
  | .vxor g m d a b => Sys2Proof.Machine.execVxor g m d a b s
  | .vshl g m d a b => Sys2Proof.Machine.execVshl g m d a b s
  | .vshr g m d a b => Sys2Proof.Machine.execVshr g m d a b s
  | .vscale g m d a b => Sys2Proof.Machine.execVscale g m d a b s
  | .vsqrt g m d a => Sys2Proof.Machine.execVsqrt g m d a s
  | .vrsqrt g m d a => Sys2Proof.Machine.execVrsqrt g m d a s
  | .vrcp g m d a => Sys2Proof.Machine.execVrcp g m d a s
  | .vexp2 g m d a => Sys2Proof.Machine.execVexp2 g m d a s
  | .vlog2 g m d a => Sys2Proof.Machine.execVlog2 g m d a s
  | .vabs g m d a => Sys2Proof.Machine.execVabs g m d a s
  | .vneg g m d a => Sys2Proof.Machine.execVneg g m d a s
  | .vredsum g m d a sc => Sys2Proof.Machine.execVredsum g m d a sc s
  | .vredmax g m d a sc => Sys2Proof.Machine.execVredmax g m d a sc s
  | .vredmin g m d a sc => Sys2Proof.Machine.execVredmin g m d a sc s
  | .vredand g m d a sc => Sys2Proof.Machine.execVredand g m d a sc s
  | .vredor g m d a sc => Sys2Proof.Machine.execVredor g m d a sc s
  | .vargmax g m d a sc => Sys2Proof.Machine.execVargmax g m d a sc s
  | .vdot g m d a b sc => Sys2Proof.Machine.execVdot g m d a b sc s
  | .vsmax g m d a => Sys2Proof.Machine.execVsmax g m d a s
  | .vtopk g m d a b => Sys2Proof.Machine.execVtopk g m d a b s
  | .vcvt g m d a t blk sat => Sys2Proof.Machine.execVcvt g m d a t blk sat s
  | .vqmx g m d a t => Sys2Proof.Machine.execVqmx g m d a t s
  | .vpack g m d a b => Sys2Proof.Machine.execVpack g m d a b s
  | .vunpk g m d a hi => Sys2Proof.Machine.execVunpk g m d a hi s
  | .vmov g m d a => Sys2Proof.Machine.execVmov g m d a s
  | .vgathr g m d a b => Sys2Proof.Machine.execVgathr g m d a b s
  | .vslideup g m d a b => Sys2Proof.Machine.execVslideup g m d a b s
  | .vslidedn g m d a b => Sys2Proof.Machine.execVslidedn g m d a b s
  | .vcompress g m d a b => Sys2Proof.Machine.execVcompress g m d a b s
  | .vexpand g m d a b => Sys2Proof.Machine.execVexpand g m d a b s
  | .viota g m d a => Sys2Proof.Machine.execViota g m d a s
  | .vtransp g m d a => Sys2Proof.Machine.execVtransp g m d a s
  | .vins g m d a b => Sys2Proof.Machine.execVins g m d a b s
  | .vextr g m d a b => Sys2Proof.Machine.execVextr g m d a b s
  | .zopa g rne d a b => Sys2Proof.Machine.execZopa g rne d a b s
  | .zopaL g rne d a b => Sys2Proof.Machine.execZopaL g rne d a b s
  | .zzero g d => Sys2Proof.Machine.execZzero g d s
  | .zfill g zm d a b => Sys2Proof.Machine.execZfill g zm d a b s
  | .zdrain g rm zm d a b => Sys2Proof.Machine.execZdrain g rm zm d a b s
  | .zld g d a b => Sys2Proof.Machine.execZld g d a b s
  | .zst g d a b => Sys2Proof.Machine.execZst g d a b s
  | .ld g w sx o sc d a => Sys2Proof.Machine.execLd g w sx o sc d a s
  | .st g w o sc d a => Sys2Proof.Machine.execSt g w o sc d a s
  | .vld g m d a => Sys2Proof.Machine.execVld g m d a s
  | .vlds g m d a b => Sys2Proof.Machine.execVlds g m d a b s
  | .vldx g m d a b => Sys2Proof.Machine.execVldx g m d a b s
  | .vldff g m d a => Sys2Proof.Machine.execVldff g m d a s
  | .vst g m d a => Sys2Proof.Machine.execVst g m d a s
  | .vsts g m d a b => Sys2Proof.Machine.execVsts g m d a b s
  | .vstx g m d a b => Sys2Proof.Machine.execVstx g m d a b s
  | .vldt g m d a => Sys2Proof.Machine.execVldt g m d a s
  | .vldtCt g m d a => Sys2Proof.Machine.execVldtCt g m d a s
  | .amoadd g w64 o sc d a b => Sys2Proof.Machine.execAmoadd g w64 o sc d a b s
  | .amoand g w64 o sc d a b => Sys2Proof.Machine.execAmoand g w64 o sc d a b s
  | .amoor g w64 o sc d a b => Sys2Proof.Machine.execAmoor g w64 o sc d a b s
  | .amoxor g w64 o sc d a b => Sys2Proof.Machine.execAmoxor g w64 o sc d a b s
  | .amomin g w64 o sc d a b => Sys2Proof.Machine.execAmomin g w64 o sc d a b s
  | .amomax g w64 o sc d a b => Sys2Proof.Machine.execAmomax g w64 o sc d a b s
  | .amoswp g w64 o sc d a b => Sys2Proof.Machine.execAmoswp g w64 o sc d a b s
  | .amocas g w64 o sc d a b c => Sys2Proof.Machine.execAmocas g w64 o sc d a b c s
  | .amofadd g o sc d a b => Sys2Proof.Machine.execAmofadd g o sc d a b s
  | .vamoadd g m ret d a b c => Sys2Proof.Machine.execVamoadd g m ret d a b c s
  | .vamofadd g m ret d a b c => Sys2Proof.Machine.execVamofadd g m ret d a b c s
  | .vamomin g m ret d a b c => Sys2Proof.Machine.execVamomin g m ret d a b c s
  | .vamomax g m ret d a b c => Sys2Proof.Machine.execVamomax g m ret d a b c s
  | .fence g o sc => Sys2Proof.Machine.execFence g o sc s
  | .fenceSv g => Sys2Proof.Machine.execFenceSv g s
  | .fenceVs g => Sys2Proof.Machine.execFenceVs g s
  | .fenceVv g => Sys2Proof.Machine.execFenceVv g s
  | .fenceStk g mask => Sys2Proof.Machine.execFenceStk g mask s
  | .fredadd g elem t a b => Sys2Proof.Machine.execFredadd g elem t a b s
  | .fredmax g elem t a b => Sys2Proof.Machine.execFredmax g elem t a b s
  | .fscadd g rne a b c => Sys2Proof.Machine.execFscadd g rne a b c s
  | .fembag g rne wgt d a b c => Sys2Proof.Machine.execFembag g rne wgt d a b c s
  | .fatt g rne zm acc d a b => Sys2Proof.Machine.execFatt g rne zm acc d a b s
  | .fmerge g rne zm norm d a => Sys2Proof.Machine.execFmerge g rne zm norm d a s
  | .kvput g o sc d a b => Sys2Proof.Machine.execKvput g o sc d a b s
  | .kvinv g o sc a b => Sys2Proof.Machine.execKvinv g o sc a b s
  | .ctw g a b => Sys2Proof.Machine.execCtw g a b s
  | .ctswap g => Sys2Proof.Machine.execCtswap g s
  | .binit g a b => Sys2Proof.Machine.execBinit g a b s
  | .bexp g a b ahead => Sys2Proof.Machine.execBexp g a b ahead s
  | .barr g a => Sys2Proof.Machine.execBarr g a s
  | .barrd g a => Sys2Proof.Machine.execBarrd g a s
  | .bwait g a dist => Sys2Proof.Machine.execBwait g a dist s
  | .btest g d a dist => Sys2Proof.Machine.execBtest g d a dist s
  | .qfence g mask => Sys2Proof.Machine.execQfence g mask s
  | .ecpy g e d a b c w2 => Sys2Proof.Machine.execEcpy g e d a b c w2 s
  | .emcast g e d a b c w2 => Sys2Proof.Machine.execEmcast g e d a b c w2 s
  | .efill g e d a b c w2 => Sys2Proof.Machine.execEfill g e d a b c w2 s
  | .egath g e d a b c w2 => Sys2Proof.Machine.execEgath g e d a b c w2 s
  | .escat g e d a b c w2 => Sys2Proof.Machine.execEscat g e d a b c w2 s
  | .trap g n => Sys2Proof.Machine.execTrap g n s
  | .eret g => Sys2Proof.Machine.execEret g s
  | .bkpt g n => Sys2Proof.Machine.execBkpt g n s
  | .qsub g a b => Sys2Proof.Machine.execQsub g a b s
  | .qsig g a b => Sys2Proof.Machine.execQsig g a b s
  | .hrput g a b => Sys2Proof.Machine.execHrput g a b s
  | .klaunch g d a => Sys2Proof.Machine.execKlaunch g d a s
  | .hyield g => Sys2Proof.Machine.execHyield g s
  | .hexit g => Sys2Proof.Machine.execHexit g s
  | .resyncIssue h => Sys2Proof.Machine.execResyncIssue h s
  | .trapEntry h => Sys2Proof.Machine.execTrapEntry h s
  | .groupPlace grp quad => Sys2Proof.Machine.execGroupPlace grp quad s
  | .groupPreempt quad => Sys2Proof.Machine.execGroupPreempt quad s
  | .groupStopComplete grp => Sys2Proof.Machine.execGroupStopComplete grp s
  | .groupRetire grp => Sys2Proof.Machine.execGroupRetire grp s
  | .kernelDispatch => Sys2Proof.Machine.execKernelDispatch s
  | .kernelComplete kern => Sys2Proof.Machine.execKernelComplete kern s
  | .priorityAging grp => Sys2Proof.Machine.execPriorityAging grp s
  | .candidateHold => Sys2Proof.Machine.execCandidateHold s
  | .farDispatch h => Sys2Proof.Machine.execFarDispatch h s
  | .guestBindAnswer h bound => Sys2Proof.Machine.execGuestBindAnswer h bound s
  | .farPieceComplete h stack => Sys2Proof.Machine.execFarPieceComplete h stack s
  | .reduceContribution c => Sys2Proof.Machine.execReduceContribution c s
  | .engineCmdStart h q => Sys2Proof.Machine.execEngineCmdStart h q s
  | .engineRangeRelease h q => Sys2Proof.Machine.execEngineRangeRelease h q s
  | .engineCmdComplete h q => Sys2Proof.Machine.execEngineCmdComplete h q s
  | .barrierSubtract h q bytes => Sys2Proof.Machine.execBarrierSubtract h q bytes s
  | .barrierWake h => Sys2Proof.Machine.execBarrierWake h s
  | .qsubResume h => Sys2Proof.Machine.execQsubResume h s
  | .hrputResume h => Sys2Proof.Machine.execHrputResume h s
  | .ctwResume h => Sys2Proof.Machine.execCtwResume h s
  | .klaunchAnswer h => Sys2Proof.Machine.execKlaunchAnswer h s
  | .pageWalk core ctx va => Sys2Proof.Machine.execPageWalk core ctx va s
  | .tlbInvPage ctx vpn => Sys2Proof.Machine.execTlbInvPage ctx vpn s
  | .tlbInvContext ctx => Sys2Proof.Machine.execTlbInvContext ctx s
  | .tlbInvAll => Sys2Proof.Machine.execTlbInvAll s
  | .tlbInvComplete => Sys2Proof.Machine.execTlbInvComplete s
  | .migOpen => Sys2Proof.Machine.execMigOpen s
  | .migArm slot => Sys2Proof.Machine.execMigArm slot s
  | .migRelease slot => Sys2Proof.Machine.execMigRelease slot s
  | .l1Writeback core sector => Sys2Proof.Machine.execL1Writeback core sector s
  | .migHeldAccess h pa => Sys2Proof.Machine.execMigHeldAccess h pa s
  | .migLineFill pa => Sys2Proof.Machine.execMigLineFill pa s
  | .migBackgroundFill slot => Sys2Proof.Machine.execMigBackgroundFill slot s
  | .rqeVisit stack frame => Sys2Proof.Machine.execRqeVisit stack frame s
  | .rqeSlotStep stack frame => Sys2Proof.Machine.execRqeSlotStep stack frame s
  | .rqeDisable stack => Sys2Proof.Machine.execRqeDisable stack s
  | .farcfgWrite stack value => Sys2Proof.Machine.execFarcfgWrite stack value s
  | .qsubmit q value wide => Sys2Proof.Machine.execQsubmit q value wide s
  | .qcfgWrite q value => Sys2Proof.Machine.execQcfgWrite q value s
  | .qctlSuspend q => Sys2Proof.Machine.execQctlSuspend q s
  | .qctlResume q => Sys2Proof.Machine.execQctlResume q s
  | .qctlReset q => Sys2Proof.Machine.execQctlReset q s
  | .submissionTake q => Sys2Proof.Machine.execSubmissionTake q s
  | .nodeSelect => Sys2Proof.Machine.execNodeSelect s
  | .nodeEnd q => Sys2Proof.Machine.execNodeEnd q s
  | .waitNodePoll q node => Sys2Proof.Machine.execWaitNodePoll q node s
  | .kernelSlotFree q node => Sys2Proof.Machine.execKernelSlotFree q node s
  | .nodeComplete q node => Sys2Proof.Machine.execNodeComplete q node s
  | .rcfgWrite r value => Sys2Proof.Machine.execRcfgWrite r value s
  | .rconsWrite r value => Sys2Proof.Machine.execRconsWrite r value s
  | .ringTimer r => Sys2Proof.Machine.execRingTimer r s
  | .ctxCreate c => Sys2Proof.Machine.execCtxCreate c s
  | .ctxBind c => Sys2Proof.Machine.execCtxBind c s
  | .ctxUnbind c => Sys2Proof.Machine.execCtxUnbind c s
  | .ctxSuspend c => Sys2Proof.Machine.execCtxSuspend c s
  | .ctxResume c => Sys2Proof.Machine.execCtxResume c s
  | .ctxReset c => Sys2Proof.Machine.execCtxReset c s
  | .ctxDestroy c => Sys2Proof.Machine.execCtxDestroy c s
  | .ctxFree c => Sys2Proof.Machine.execCtxFree c s
  | .replyResume c slot => Sys2Proof.Machine.execReplyResume c slot s
  | .replyAbort c slot => Sys2Proof.Machine.execReplyAbort c slot s
  | .replyRelease c slot => Sys2Proof.Machine.execReplyRelease c slot s
  | .dbgcmdCont c slot f0 => Sys2Proof.Machine.execDbgcmdCont c slot f0 s
  | .frconsWrite c value => Sys2Proof.Machine.execFrconsWrite c value s
  | .faultRecordDrain c => Sys2Proof.Machine.execFaultRecordDrain c s
  | .hostMemAccess r => Sys2Proof.Machine.execHostMemAccess r s
  | .peerAccess port pkg r => Sys2Proof.Machine.execPeerAccess port pkg r s
  | .remoteResponse r => Sys2Proof.Machine.execRemoteResponse r s
  | .linkTrain p => Sys2Proof.Machine.execLinkTrain p s
  | .linkDown p => Sys2Proof.Machine.execLinkDown p s
  | .linkRetire p => Sys2Proof.Machine.execLinkRetire p s
  | .linkTrainDone p lanes => Sys2Proof.Machine.execLinkTrainDone p lanes s
  | .linkTrainAttemptFail p => Sys2Proof.Machine.execLinkTrainAttemptFail p s
  | .linkLaneFail p lanes => Sys2Proof.Machine.execLinkLaneFail p lanes s
  | .linkFail p => Sys2Proof.Machine.execLinkFail p s
  | .coldReset => Sys2Proof.Machine.execColdReset s
  | .hostPortReset => Sys2Proof.Machine.execHostPortReset s
  | .powerThrottle watts => Sys2Proof.Machine.execPowerThrottle watts s
  | .thermalTrip => Sys2Proof.Machine.execThermalTrip s
  | .sramScrub => Sys2Proof.Machine.execSramScrub s
  | .dramScrub => Sys2Proof.Machine.execDramScrub s
  | .controlError u => Sys2Proof.Machine.execControlError u s
  | .rowSpare stack row => Sys2Proof.Machine.execRowSpare stack row s
  | .rowSpareCommit stack row => Sys2Proof.Machine.execRowSpareCommit stack row s
  | .mbAttest => Sys2Proof.Machine.execMbAttest s
  | .mbTelemetry => Sys2Proof.Machine.execMbTelemetry s
  | .mbRasLog => Sys2Proof.Machine.execMbRasLog s
  | .mbWriteAccessTable e => Sys2Proof.Machine.execMbWriteAccessTable e s
  | .mbSetAlarm a => Sys2Proof.Machine.execMbSetAlarm a s
  | .mbWriteBootConfig c => Sys2Proof.Machine.execMbWriteBootConfig c s
  | .mbCommandDone => Sys2Proof.Machine.execMbCommandDone s
  | .registerWrite off wide value => Sys2Proof.Machine.execRegisterWrite off wide value s
  | .illegalInstruction => Sys2Proof.Machine.execIllegalInstruction s
  | .fetchFault code reason va => Sys2Proof.Machine.execFetchFault code reason va s
  | .powerLoss => Sys2Proof.Machine.execPowerLoss s
  | .hostPortTrained rate width flit => Sys2Proof.Machine.execHostPortTrained rate width flit s
  | .hostCxlEnable mem cache => Sys2Proof.Machine.execHostCxlEnable mem cache s
  | .cxlSnoop pa data => Sys2Proof.Machine.execCxlSnoop pa data s
  | .guestBindingRequest stack pkg ctx wid => Sys2Proof.Machine.execGuestBindingRequest stack pkg ctx wid s
  | .remoteFarCommand stack pkg ctx wid word => Sys2Proof.Machine.execRemoteFarCommand stack pkg ctx wid word s
  | .guestSetRelease stack pkg ctx wid => Sys2Proof.Machine.execGuestSetRelease stack pkg ctx wid s

end Sys2Proof.Machine
end

