-- ==== Sys2Proof/Machine/Fetch.lean ====
section
/-! DEFINITION. Fetching and decoding the instruction at the program counter (R67, R87, R89, R90, R226, R232). -/

namespace Sys2Proof.Machine

/-- What an instruction fetch needs. -/
def fetchWant : Want := { x := true, align := 8 }

/-- The word an instruction cache holds for a fetch: its value of an earlier time (R90). -/
def State.codeHit (s : State) (ps : List Part) : Option Nat :=
  match s.lag.code, ps with
  | true, [p] => p.coherent.bind fun pa => (s.ms.codeFind s.hart.core pa).map CodeWord.value
  | _, _ => none

/-- A word fetched from memory enters the instruction cache. -/
def State.codeKeep (s : State) (ps : List Part) (w : Nat) : State :=
  match s.lag.code, ps with
  | true, [p] =>
    match p.coherent with
    | some pa => { s with ms := s.ms.codeFill s.hart.core pa w }
    | none => s
  | _, _ => s

/-- Fetch one word, past the L1 data cache: as the instruction cache holds it, or from memory (R90). -/
def State.fetchWord (s : State) (va : Nat) : Acc (Nat × State) :=
  (s.resolve s.agent fetchWant va 8).bind fun ps =>
    let ps := ps.map Part.uncached
    match s.codeHit ps with
    | some w => (s.touchParts ps).map fun s => (w, s.markParts false ps)
    | none => (s.readAll s.hart.core false va ps).map fun x => (leNat x.1, x.2.codeKeep ps (leNat x.1))

/-- What a fetch finds. -/
inductive Fetched where
  | instr (i : Instr) (s : State)
  | illegal (e : DecodeError) (s : State)
  | fault (f : FaultInfo)
  | held
  deriving DecidableEq, Repr

/-- The instruction of fetched words. -/
def decoded (w1 w2 : Nat) (s : State) : Fetched :=
  match decodeWords (BitVec.ofNat 64 w1) (BitVec.ofNat 64 w2) with
  | .ok i => .instr i s
  | .error e => .illegal e s

/-- The outcome of a fetch, or what stopped it. -/
def fetchOutcome (x : Acc (Nat × State)) (f : Nat → State → Fetched) : Fetched :=
  match x with
  | .ok (w, s) => f w s
  | .fault e => .fault e
  | .held _ => .held

/-- Fetch the instruction at the program counter: one word, or two for a long form. The virtual address recorded for a fault of
the second word is that word's. DESIGN CHOICE (log 53). -/
def State.fetch (s : State) : Fetched :=
  let pc := s.hart.pc
  fetchOutcome (s.fetchWord pc.toNat) fun w1 s1 =>
    if lengthOf (BitVec.ofNat 64 w1) = 16 then
      fetchOutcome (s1.fetchWord (pc + 8).toNat) fun w2 s2 => decoded w1 w2 s2
    else decoded w1 0 s1

/-- A word that does not decode (R87). -/
def State.decodeFault (s : State) (e : DecodeError) : State :=
  match e with
  | .illegal => s.frontFault (.of 0x01)
  | .placement => s.frontFault (.of 0x02)

end Sys2Proof.Machine
end

