-- ==== Sys2Proof/Machine/Schedule.lean ====
section
/-! DEFINITION. Which move comes next, and what a move does (R9, R66, R125 to R133, R411 to R414, log 1). -/

namespace Sys2Proof.Machine

/-- The group of the hart in focus runs. -/
def State.groupRuns (s : State) : Bool := (s.group s.hart.grp).any fun g => g.st == .running

/-- The front end of the hart in focus takes the instruction at its program counter. -/
def State.frontStep (s : State) : Result :=
  match s.fetch with
  | .instr i t => exec i t
  | .illegal e t => .next (t.decodeFault e)
  | .fault f => Sys2Proof.Machine.execFetchFault f.code f.reason f.va s
  | .held => .next { s with hart := s.hart.waitFor .held }

/-- The vector side of the hart in focus: a fault that waited for the queue, or its head. -/
def State.vectorStep (s : State) : Result :=
  if s.hart.vq.isEmpty && s.hart.pend.isSome then Sys2Proof.Machine.execTrapEntry s.hart.no s else .next s.runHead

/-- A row that has no instruction word. -/
def isEvent (i : Instr) : Bool := (encode i).isEmpty

/-- A fault record of the hart stands among those of its group's stop. -/
def State.hasRec (s : State) (h : Hart) : Bool := (s.group h.grp).any fun g => g.recs.any fun r => r.1 == h.f0

/-- The group of the hart in focus stops for faults, of other harts or of another group of its kernel: a fault of this hart may
come at the same clock (R107, R391). -/
def State.lateFault (s : State) : Bool :=
  (s.group s.hart.grp).any fun g => g.st == .stopping && (g.reason == .fault || !g.recs.isEmpty) && !s.hasRec s.hart

/-- A move of a hart: while its group runs; while the group stops for faults, the move counts only where it adds this hart's
record. -/
def State.hartMove (s : State) (h : Nat) (ready : Hart → Bool) (f : State → Result) : Result :=
  let t := s.focus h
  if t.hart.no ≠ h ∨ t.hart.phase = .absent ∨ ready t.hart = false then .next t
  else if t.groupRuns then f t
  else if t.lateFault then
    match f t with
    | .next u => .next (if u.hasRec t.hart then u else t)
    | r => r
  else .next t

/-- A clean sector of memory enters a core's L1 data cache (R262): not of a frame that migrates (R243). -/
def State.prefetch (s : State) (core sector : Nat) : State :=
  if s.lag.clean && decide (core < 96) && s.backed (64 * sector) 64 && !s.ms.migrating (sector / 1024) then
    { s with ms := s.ms.l1Alloc core sector }
  else s

/-- A hart reads an aligned 1, 2, 4 or 8 bytes ahead of the plain load that returns them (R251, R252): not of a frame that
migrates. -/
def State.readEarly (s : State) (h pa n : Nat) : State :=
  match s.findHart h with
  | some k =>
    if s.lag.clean && [1, 2, 4, 8].contains n && pa % n == 0 && s.backed pa n && !s.ms.poisoned pa n && !s.ms.migrating (pa / 2 ^ 16) then
      let ms := s.ms.merge pa n
      { s with ms := { ms with early := ms.early ++ [⟨h, pa, ms.nearBytes k.core pa false n⟩] } }
    else s
  | none => s

/-- An aligned word of memory enters a core's L1 instruction cache (R90). -/
def State.codePrefetch (s : State) (core pa : Nat) : State :=
  if s.lag.code && decide (core < 96) && pa % 8 == 0 && s.backed pa 8 && !s.ms.migrating (pa / 2 ^ 16) then
    { s with ms := s.ms.codeFill core pa (s.ms.creadNat pa 8) }
  else s

/-- Another choice of the sides that run behind: without `lag.code` no instruction cache holds a word. -/
def State.setLag (s : State) (l : Lag) : State :=
  { s with lag := l, ms := if l.code then s.ms else { s.ms with code := [] } }

/-- Moves that reach a module stopped by a control-logic error (R466): what takes its power, and the cold reset. -/
def Move.survivesStop : Move → Bool
  | .event .coldReset | .event .powerLoss | .event .thermalTrip => true
  | _ => false

/-- What a move does, but for what follows at once from it. -/
def State.rawMove (s : State) (m : Move) : Result :=
  if s.mgmt.aer && !m.survivesStop then .next s
  else match m with
  | .front h => s.hartMove h (fun h => h.phase == .running && h.pend.isNone) State.frontStep
  | .vector h => s.hartMove h (fun _ => true) State.vectorStep
  | .groups h n => s.hartMove h (fun _ => true) fun t => .next (t.runGroups n)
  | .elems h n => s.hartMove h (fun _ => true) fun t => .next (t.runElements n)
  | .pieces h stack n => .next (s.pieceElems h stack n)
  | .guest stack pkg ctx wid => .next (s.guestStep stack pkg ctx wid)
  | .guestRelease stack pkg ctx wid => .next (s.guestRelease stack pkg ctx wid)
  | .land h q i => .next (s.engLand h q i)
  | .datapath h => s.hartMove h (fun h => !h.vq.isEmpty) fun t => .next t.headBad
  | .prefetch core sector => .next (s.prefetch core sector)
  | .code core pa => .next (s.codePrefetch core pa)
  | .early h pa n => .next (s.readEarly h pa n)
  | .spill core pa => .next { s with ms := s.ms.l1Spill core pa }
  | .outer => .next (s.landOuter 1)
  | .storage dram => .next (if dram then s.dramError else s.sramError)
  | .spare stack row => .next (s.spareRow stack row)
  | .spareCommit stack row => .next (s.commitRow stack row)
  | .evict sector => .next { s with ms := s.ms.l2Writeback sector }
  | .event i => if isEvent i then exec i s else .next s
  | .lag l => .next (s.setLag l)

/-! What follows a move at once. -/

/-- Each write of RQECFG.EN that waits takes effect where no page is in CONVERTING any more (R371). -/
def State.settleRqes (s : State) : State :=
  if s.far.dies.toList.any StackUnit.offPending then (List.range 16).foldl State.settleRqe s else s

/-- A hart that waits on a barrier record, with its place in the order of R352: the class, then f0. -/
abbrev Waiter := Nat × Nat × Nat

/-- The waiter comes before another. -/
def waitsBefore (a b : Waiter) : Bool := decide (a.1 < b.1) || (a.1 == b.1 && decide (a.2.1 < b.2.1))

def insertWaiter (a : Waiter) : List Waiter → List Waiter
  | [] => [a]
  | b :: r => if waitsBefore a b then a :: b :: r else if a == b then b :: r else b :: insertWaiter a r

/-- The harts that wait on a barrier record which differs from what it was (R353), in order. -/
def State.barrierWaiters (s : State) (old : MemSys) : List Waiter :=
  (s.placedHarts.filterMap fun h =>
    match h.wait with
    | .barrier key cls => if old.lsRead key 64 = s.ms.lsRead key 64 then none else some (cls, h.f0, h.no)
    | _ => none).foldr insertWaiter []

/-- The waiting instruction of a hart is taken again. -/
def State.retryFront (s : State) (no : Nat) : State :=
  match s.hartMove no (fun h => h.phase == .running && h.pend.isNone) State.frontStep with
  | .next t => t.focus s.hart.no
  | _ => s

/-- Waiting instructions are tested at every change to their record, in the order of R352 (R353). -/
def State.testWaiters : Nat → List Waiter → State → State
  | 0, _, s => s
  | _ + 1, [], s => s
  | fuel + 1, w :: r, s =>
    let t := s.retryFront w.2.2
    State.testWaiters fuel ((t.barrierWaiters s.ms).foldr insertWaiter r) t

/-- Some hart waits on a barrier record. -/
def State.someWaiter (s : State) : Bool := s.placedHarts.any fun h => h.wait.onBarrier

/-- What follows at once from a move that began with memory `old`: flags of merges reach their harts, RQEs stop, barrier waits
are tested. -/
def State.afterMove (s : State) (old : MemSys) : State :=
  let s := s.deliverOwed.settleRqes
  if s.someWaiter then State.testWaiters ((s.placedHarts.length + 1) ^ 2) (s.barrierWaiters old) s else s

/-- One move (log 1). A hart that is not placed, or whose group does not run, makes none. -/
def State.move (s : State) (m : Move) : Result :=
  match s.rawMove m with
  | .next t => .next (t.afterMove s.ms)
  | r => r

/-! The moves of a machine whose agenda is empty: a round gives every hart a turn, the one in focus first, then the device's
own events (R132, R133, log 1). -/

/-- The vector side of a hart has something to do. -/
def Hart.vectorWork (h : Hart) : Bool := !h.vq.isEmpty || h.pend.isSome || h.phase == .exiting

/-- A hart of a running group. -/
def State.runs (s : State) (h : Hart) : Bool := h.phase != .absent && (s.group h.grp).any fun g => g.st == .running

/-- A hart's turn: its front end, then its vector side. -/
def State.turn (s : State) (h : Hart) : List Move :=
  if s.runs h then
    (if h.phase == .running && h.pend.isNone then [.front h.no] else []) ++ (if h.vectorWork then [.vector h.no] else [])
  else []

/-- Engine queues: the head begins, makes its writes, or completes. -/
def Hart.engineMoves (h : Hart) : List Move :=
  (List.range 4).flatMap fun q =>
    match (h.queue q).cmds with
    | c :: _ =>
      if !c.started then [.event (.engineCmdStart h.no q)]
      else if c.puts.isEmpty then [.event (.engineCmdComplete h.no q)]
      else c.puts.map fun _ => .land h.no q 0
    | [] => []

/-- A node's next event: a WAIT or KERN node that is BLOCKED is looked at again, a RUNNING one completes. -/
def State.nodeMove (s : State) (q : Nat) (w : WorkQueue) (n : RunNode) : Option Move :=
  match n.st with
  | .ready => none
  | .blocked => some (.event (if n.type = typeWait then .waitNodePoll q n.addr else .kernelSlotFree q n.addr))
  | .running =>
    if n.type = typeEnd then
      if w.nodes.all fun m => m.addr == n.addr || m.st == .ready then some (.event (.nodeEnd q)) else none
    else if n.type = typeKern then
      if (n.kern.bind s.kernel).any fun k => k.st == .complete || (k.st == .faulted && k.told) then
        some (.event (.nodeComplete q n.addr))
      else none
    else if n.worked && s.nodeUnacked q n.addr then none
    else some (.event (.nodeComplete q n.addr))

/-- A queue's next events of R400, R405, R406, R407. -/
def State.queueMoves (s : State) (q : Nat) (w : WorkQueue) : List Move :=
  (if w.en && !w.faulted && !w.suspended && !w.resetting && w.cur.isNone && !w.subs.isEmpty then [.event (.submissionTake q)] else []) ++
    w.nodes.filterMap (s.nodeMove q w)

/-- Events of the Compass over kernels and groups. -/
def State.groupMoves (s : State) : List Move :=
  (s.cmp.groups.filterMap fun g =>
    if g.st = .stopping then some (.event (.groupStopComplete g.key))
    else if s.mayRetire g then some (.event (.groupRetire g.key))
    else none) ++
  (s.cmp.kernels.filterMap fun k =>
    if k.st = .draining ∨ (k.st = .faulted ∧ k.told = false) then some (.event (.kernelComplete k.key)) else none) ++
  (if s.nextKernel.isSome then [.event .kernelDispatch] else []) ++
  (match s.nextPlacement.bind s.group with
    | some g =>
      match s.kernel g.kern with
      | some k => ((List.range quadCount).filter fun q => s.quadFits k q []).take 1 |>.map fun q => .event (.groupPlace g.key q)
      | none => []
    | none => [])

/-- Preemption for the first candidate that no quad takes, on the first quad where it makes room (R414). -/
def State.preemptMoves (s : State) : List Move :=
  match s.roomFor with
  | none => []
  | some c =>
    match s.kernel c.kern with
    | none => []
    | some k =>
      (((List.range quadCount).filter fun q =>
        !(s.victims c q).isEmpty && s.quadFits k q ((s.victims c q).map Group.key)).take 1).map fun q => .event (.groupPreempt q)

/-- The rest of the device. -/
def State.deviceMoves (s : State) : List Move :=
  (if s.ms.ti.cmd.isSome then [.event .tlbInvComplete] else []) ++
  (if s.mgmt.queue.isEmpty then [] else [.event .mbCommandDone]) ++ (s.wornRows.map fun r => .spare r.1 r.2) ++
  (s.mgmt.sparing.map fun r => .spareCommit r.1 r.2) ++
  ((List.range 64).filterMap fun i => if (s.ms.mig.record i).st = .armed then some (.event (.migBackgroundFill i)) else none) ++
  (s.cmp.contexts.filterMap fun c => if !c.2.ring.held.isEmpty && !c.2.ring.full then some (.event (.faultRecordDrain c.1)) else none) ++
  (s.cmp.contexts.filterMap fun c => if c.2.st = .destroying then some (.event (.ctxFree c.1)) else none) ++
  ((s.ms.l1.filter fun q => q.dirty != 0).map fun q => .event (.l1Writeback q.core q.sector)) ++
  ((s.ms.msc.map fun c => c.1 / 64).eraseDups.map fun q => .evict q) ++ (s.ms.outer.map fun _ => .outer) ++
  ((s.far.pieces.map fun p => (p.hart, p.stack)).eraseDups.map fun p => .event (.farPieceComplete p.1 p.2)) ++
  ((List.range 16).flatMap fun t => (s.die t).guests.map fun g => .guest t g.pkg g.ctx g.wid)

/-- Every event of the device that is due. -/
def State.dueEvents (s : State) : List Move :=
  let queues := s.cmp.queues.flatMap fun (q : Nat × WorkQueue) => s.queueMoves q.1 q.2
  let select := if s.cmp.queues.any fun (q : Nat × WorkQueue) => s.eligible q.2 then [Move.event .nodeSelect] else []
  s.placedHarts.flatMap Hart.engineMoves ++ queues ++ select ++ s.groupMoves ++ s.preemptMoves ++ s.deviceMoves

/-- The moves of a round: none where nothing is left to do. -/
def State.round (s : State) : List Move :=
  if s.plat.powered = false || s.mgmt.aer then []
  else if s.plat.stage = 0 then [.event .coldReset]
  else s.placedHarts.flatMap s.turn ++ s.dueEvents

/-- The next move, and the machine without it. -/
def State.nextMove (s : State) : Option Move × State :=
  match s.agenda with
  | m :: r => (some m, { s with agenda := r })
  | [] =>
    match s.round with
    | m :: r => (some m, { s with agenda := r })
    | [] => (none, s)

/-- One step: without power nothing runs but a cold reset (R30, R464). -/
def State.stepOnce (s : State) : Result :=
  match s.nextMove with
  | (some m, t) => if s.plat.powered = false ∧ m ≠ .event .coldReset then .fault .unpowered else t.move m
  | (none, t) => if s.plat.powered = false then .fault .unpowered else .next t

/-! A program placed without the Compass (log 12). -/

/-- The page-table entry of a 1 TiB block of package `pkg` at physical address 0: V, R, W, X, A, D. -/
def placedPte (pkg : Nat) : Nat := 125 + pkg * 2 ^ 48

/-- A group whose harts run. -/
def placedGroup (h : Hart) : Group :=
  ⟨h.grp, h.kern, h.ctx, 0, .running, false, none, h.core / 4, .preempt, 0, [], 0, 0, 0, true, false⟩

/-- The hart in focus as it fetches at address 0. -/
def Hart.placed (h : Hart) : Hart := { h with pc := 0, phase := .running, wait := .none, pend := none }

/-- The machine, READY, with bytes at virtual address 0 of the context of the hart in focus, whose root table is the frame
at 0x10000, and the hart's group running. -/
def State.placeProgram (s : State) (bs : List Byte) : State :=
  let h := s.hart.placed
  let m := Memory.writeNat (Memory.write s.ms.mem 0 bs) 0x10000 8 (placedPte s.plat.pkg.toNat)
  { s with
    hart := h
    ms := { s.ms with mem := m, tlb := [], l1 := [], code := [], reduce := [], rel := [], early := [], outer := [] }
    mgmt := { s.mgmt with aer := false }
    plat := { s.plat with powered := true, stage := 4, share := 32, active := s.plat.active ||| 1 }
    cmp := { s.cmp with
      contexts := Table.set s.cmp.contexts h.ctx { s.ctx h.ctx with st := .active, ptroot := 1 }
      groups := placedGroup h :: s.cmp.groups.filter fun g => g.key != h.grp }
    agenda := [.front h.no] }

end Sys2Proof.Machine
end

