-- ==== Sys2Proof/Machine/Step.lean ====
section
/-! DEFINITION. One step of the machine, and the placing of one instruction where the next step fetches. -/

namespace Sys2Proof.Machine

/-- One step (log 1). -/
def step (s : State) : Host.Outcome State Fault Refusal := s.stepOnce

/-- The machine with one instruction where its next step fetches: a group placed, and the instruction's bytes, 16 of them, at
the program counter (log 12). -/
def State.withFetchWord (s : State) (nbits w : Nat) : State := s.placeProgram (leBytes 16 (w % 2 ^ nbits))

end Sys2Proof.Machine
end

