-- ==== Sys2Proof/Safety.lean ====
section
/-! DEFINITION. What counts as a safe run: the machine only stops for want of power, and its state stays well formed. -/

namespace Sys2Proof

open Machine

/-- The only stop of the machine: power is off. -/
def stopsOnlyForPower (s : State) : Prop :=
  (∃ t, step s = .next t) ∨ (step s = .fault .unpowered ∧ s.plat.powered = false)

/-- Physical memory and the local stores are in canonical form. -/
def memoryOk (s : State) : Prop := Memory.wf s.ms.mem = true ∧ Memory.wf s.ms.ls = true

end Sys2Proof
end

