-- ==== Sys2Proof/Certificates/Slice0/Obligations.lean ====
section
/-! DEFINITION. The statements of this row, and the few notions they are written in. -/

open Sys2Proof Sys2Proof.Machine

/-! What the statements speak of. -/

namespace Sys2Proof.Say

/-- The front end performs `i`: it waits for nothing, and its guard holds (R71, R72, R130). -/
def performs (s : State) (i : Instr) (g : Guard) : Prop := s.gate i = .go ∧ s.hart.frontGuard g = true

/-- No register of the hart holds an error beyond correction (R465). -/
def soundRegs (s : State) : Prop := s.hart.xbad = 0 ∧ s.hart.vec.bad = []

/-- The guard of a whole instruction waits for nothing and holds. -/
def guardPasses (s : State) (i : Instr) : Prop :=
  s.hart.guardPending i = false ∧ s.hart.guardSpoilt i = false ∧ (guardedWhole i = false ∨ (guardOf i).all s.hart.frontGuard = true)

/-- The hart has no entry in its queue and no far work behind. -/
def nothingBehind (s : State) : Prop := s.hart.vq = [] ∧ ∀ p ∈ s.far.pieces, p.hart ≠ s.hart.no

/-- The machine after an instruction of the hart in focus that leaves its hart as `h` and goes on at `pc`: a wait that has
ended is cleared, and ISSUED counts one (R131). Nothing else changes. -/
def goesOn (s : State) (h : Hart) (pc : Word) : State :=
  let t := { s with hart := h }.endWait
  { t with hart := { t.hart with pc := pc, counts := { t.hart.counts with issued := t.hart.counts.issued + 1 } } }

/-- No entry of the hart holds the front end back whatever stands behind it (R282, R291). -/
def heldByNone (s : State) : Prop := ∀ e ∈ s.hart.vq, isFirstFault e.instr = false ∧ isFenceVs e.instr = false

/-- The machine whose front end waits for a resynchronisation: the wait is counted in RSYNCN once (R130, R131). -/
def resynchronises (s : State) : State :=
  { s with hart := { s.hart with
    wait := .resync
    counts := { s.hart.counts with
      rsyncn := if s.hart.wait = .resync then s.hart.counts.rsyncn else s.hart.counts.rsyncn + 1 } } }

/-- The value of an x register. -/
abbrev xOf (s : State) (r : XReg) : Word := s.hart.getX r

/-- The number of the leading bits of `n` that a test passes, from position 0 on. -/
def runLength (n : Nat) (p : Nat → Bool) : Nat := ((List.range n).takeWhile p).length

/-- The two-source scalar forms: constructor, result, and whether a zero divisor sets IFLAGS.DZ. -/
def twoSource : List ((Guard → XReg → XReg → XReg → Instr) × (Word → Word → Word) × Bool) :=
  [(.add, fun a b => BitVec.ofNat 64 (a.toNat + b.toNat), false),
   (.sub, fun a b => BitVec.ofInt 64 ((a.toNat : Int) - b.toNat), false),
   (.and, fun a b => a &&& b, false),
   (.or, fun a b => a ||| b, false),
   (.xor, fun a b => a ^^^ b, false),
   (.shl, fun a b => BitVec.ofNat 64 (a.toNat * 2 ^ (b.toNat % 64)), false),
   (.shr, fun a b => BitVec.ofNat 64 (a.toNat / 2 ^ (b.toNat % 64)), false),
   (.sra, fun a b => BitVec.ofInt 64 (a.toInt / 2 ^ (b.toNat % 64)), false),
   (.mul, fun a b => BitVec.ofNat 64 (a.toNat * b.toNat), false),
   (.mulh, fun a b => (BitVec.ofInt 128 (a.toInt * b.toInt)).extractLsb' 64 64, false),
   (.mulhu, fun a b => (BitVec.ofNat 128 (a.toNat * b.toNat)).extractLsb' 64 64, false),
   (.div, fun a b => if b = 0 then 0 else BitVec.ofInt 64 (a.toInt.tdiv b.toInt), true),
   (.divu, fun a b => if b = 0 then 0 else BitVec.ofNat 64 (a.toNat / b.toNat), true),
   (.rem, fun a b => if b = 0 then a else BitVec.ofInt 64 (a.toInt - b.toInt * a.toInt.tdiv b.toInt), true),
   (.remu, fun a b => if b = 0 then a else BitVec.ofNat 64 (a.toNat - b.toNat * (a.toNat / b.toNat)), true),
   (.min, fun a b => if a.toInt ≤ b.toInt then a else b, false),
   (.max, fun a b => if a.toInt ≤ b.toInt then b else a, false),
   (.minu, fun a b => if a.toNat ≤ b.toNat then a else b, false),
   (.maxu, fun a b => if a.toNat ≤ b.toNat then b else a, false)]

/-- The one-source scalar forms and their results. -/
def oneSource : List ((Guard → XReg → XReg → Instr) × (Word → Word)) :=
  [(.clz, fun a => BitVec.ofNat 64 (runLength 64 fun i => !a.getLsbD (63 - i))),
   (.ctz, fun a => BitVec.ofNat 64 (runLength 64 fun i => !a.getLsbD i)),
   (.popc, fun a => BitVec.ofNat 64 ((List.range 64).filter fun i => a.getLsbD i).length)]

/-- The immediate forms on one source and their results; `imm` is the 17-bit immediate, sign-extended. -/
def withImmediate : List ((Guard → XReg → XReg → BitVec 17 → Instr) × (Word → Word → Word)) :=
  [(.addi, fun a i => a + i), (.andi, fun a i => a &&& i), (.ori, fun a i => a ||| i), (.xori, fun a i => a ^^^ i)]

/-- The shifts by an immediate and their results. -/
def shiftImmediate : List ((Guard → XReg → XReg → BitVec 6 → Instr) × (Word → Nat → Word)) :=
  [(.shli, fun a n => BitVec.ofNat 64 (a.toNat * 2 ^ n)), (.shri, fun a n => BitVec.ofNat 64 (a.toNat / 2 ^ n)),
   (.srai, fun a n => BitVec.ofInt 64 (a.toInt / 2 ^ n))]

/-- Eight times the words of an instruction: its bytes (R67). -/
def bytesOfInstr (i : Instr) : Nat := 8 * (encode i).length

end Sys2Proof.Say

open Sys2Proof.Say

/-- Each scalar register form writes its result into x[D], division by zero sets IFLAGS.DZ, and nothing else changes but pc and ISSUED (R144, R145). -/
def Obligations.ScalarRegisterFormsResults : Prop :=
  (∀ p ∈ twoSource, ∀ (g : Guard) (d a b : XReg) (s : State), performs s (p.1 g d a b) g →
    exec (p.1 g d a b) s = .next (goesOn s
      ((s.hart.setX d (p.2.1 (xOf s a) (xOf s b))).orFlags ⟨0, if p.2.2 = true ∧ xOf s b = 0 then 1 else 0⟩) (s.hart.pc + 8))) ∧
  (∀ p ∈ oneSource, ∀ (g : Guard) (d a : XReg) (s : State), performs s (p.1 g d a) g →
    exec (p.1 g d a) s = .next (goesOn s (s.hart.setX d (p.2 (xOf s a))) (s.hart.pc + 8)))

/-- EXT, INS, ADDSH, the immediate forms, LI, LI64 and NOP write the values of their entries; LI64 is two words long (R146). -/
def Obligations.BitFieldAndImmediateFormsResults : Prop :=
  (∀ (g : Guard) (d a : XReg) (pos wm1 : BitVec 6) (sx : Bool) (s : State), performs s (.ext g d a pos wm1 sx) g →
    exec (.ext g d a pos wm1 sx) s = .next (goesOn s (s.hart.setX d
      (let f := (xOf s a).toNat / 2 ^ pos.toNat % 2 ^ (wm1.toNat + 1)
       if sx = true ∧ wm1.toNat + 1 < 64 ∧ 2 ^ wm1.toNat ≤ f then BitVec.ofInt 64 ((f : Int) - 2 ^ (wm1.toNat + 1))
       else BitVec.ofNat 64 f)) (s.hart.pc + 8))) ∧
  (∀ (g : Guard) (d a : XReg) (pos wm1 : BitVec 6) (s : State), performs s (.ins g d a pos wm1) g →
    ∃ v : Word, exec (.ins g d a pos wm1) s = .next (goesOn s (s.hart.setX d v) (s.hart.pc + 8)) ∧
      ∀ i < 64, v.getLsbD i =
        if pos.toNat ≤ i ∧ i ≤ pos.toNat + wm1.toNat then (xOf s a).getLsbD (i - pos.toNat) else (xOf s d).getLsbD i) ∧
  (∀ (g : Guard) (d a b : XReg) (sh : BitVec 6) (s : State), performs s (.addsh g d a b sh) g →
    exec (.addsh g d a b sh) s = .next (goesOn s (s.hart.setX d
      (BitVec.ofNat 64 ((xOf s a).toNat + (xOf s b).toNat * 2 ^ sh.toNat))) (s.hart.pc + 8))) ∧
  (∀ p ∈ withImmediate, ∀ (g : Guard) (d a : XReg) (imm : BitVec 17) (s : State), performs s (p.1 g d a imm) g →
    exec (p.1 g d a imm) s = .next (goesOn s (s.hart.setX d (p.2 (xOf s a) (BitVec.ofInt 64 imm.toInt))) (s.hart.pc + 8))) ∧
  (∀ p ∈ shiftImmediate, ∀ (g : Guard) (d a : XReg) (n : BitVec 6) (s : State), performs s (p.1 g d a n) g →
    exec (p.1 g d a n) s = .next (goesOn s (s.hart.setX d (p.2 (xOf s a) n.toNat)) (s.hart.pc + 8))) ∧
  (∀ (g : Guard) (d : XReg) (imm : BitVec 17) (s : State), performs s (.li g d imm) g →
    exec (.li g d imm) s = .next (goesOn s (s.hart.setX d (BitVec.ofInt 64 imm.toInt)) (s.hart.pc + 8))) ∧
  (∀ (g : Guard) (d : XReg) (imm : Word) (s : State), performs s (.li64 g d imm) g →
    exec (.li64 g d imm) s = .next (goesOn s (s.hart.setX d imm) (s.hart.pc + 16))) ∧
  (∀ s : State, s.gate .nop = .go → exec .nop s = .next (goesOn s s.hart (s.hart.pc + 8))) ∧
  (∀ (g : Guard) (d a b : XReg) (pos wm1 sh : BitVec 6) (sx : Bool),
    let word (i : Instr) : Word := (encode i).getD 0 0
    let f := Fields.ofWord (word (.ext g d a pos wm1 sx))
    let n := Fields.ofWord (word (.ins g d a pos wm1))
    f.b = pos ∧ f.c = wm1 ∧ f.x.getLsbD 0 = sx ∧ n.b = pos ∧ n.c = wm1 ∧
    (Fields.ofWord (word (.addsh g d a b sh))).x.extractLsb' 0 6 = sh ∧
    (64 < pos.toNat + (wm1.toNat + 1) → ∀ w2 : Word, decodeWords (word (.ext g d a pos wm1 sx)) w2 = .error .illegal ∧
      decodeWords (word (.ins g d a pos wm1)) w2 = .error .illegal)) ∧
  ∀ (g : Guard) (d a : XReg) (pos wm1 : BitVec 6) (s : State), heldByNone s → guardPasses s (.ins g d a pos wm1) →
    d ∈ s.hart.pendingX → exec (.ins g d a pos wm1) s = .next (resynchronises s)

/-- BR, CALL, JR, ADDPC and BSTRIP set the pc and x[D], SETVL grants min(ceil(avl / g) * g, VLMAX) and SETRC zeroes VL, as their entries give them (R148, R150). -/
def Obligations.ControlAndLengthResults : Prop :=
  let T (s : State) (off : BitVec 29) : Word := BitVec.ofInt 64 (s.hart.pc.toNat + 8 * off.toInt)
  (∀ (g : Guard) (off : BitVec 29) (s : State), performs s (.br g off) g →
    exec (.br g off) s = .next (goesOn s s.hart (T s off))) ∧
  (∀ (g : Guard) (d : XReg) (off : BitVec 29) (s : State), performs s (.call g d off) g →
    exec (.call g d off) s = .next (goesOn s (s.hart.setX d (s.hart.pc + 8)) (T s off))) ∧
  (∀ (g : Guard) (d a : XReg) (s : State), performs s (.jr g d a) g →
    ((xOf s a).toNat % 8 = 0 → exec (.jr g d a) s = .next (goesOn s (s.hart.setX d (s.hart.pc + 8)) (xOf s a))) ∧
    ((xOf s a).toNat % 8 ≠ 0 → exec (.jr g d a) s = .next (s.frontFault ⟨0x08, 0, xOf s a, 0, 0⟩))) ∧
  (∀ (g : Guard) (d : XReg) (off : BitVec 29) (s : State), performs s (.addpc g d off) g →
    exec (.addpc g d off) s = .next (goesOn s (s.hart.setX d (T s off)) (s.hart.pc + 8))) ∧
  (∀ (g : Guard) (d : XReg) (off : BitVec 29) (s : State), performs s (.bstrip g d off) g →
    (s.hart.ctl.vl.toNat < (xOf s d).toNat →
      exec (.bstrip g d off) s =
        .next (goesOn s (s.hart.setX d (BitVec.ofNat 64 ((xOf s d).toNat - s.hart.ctl.vl.toNat))) (T s off))) ∧
    ((xOf s d).toNat ≤ s.hart.ctl.vl.toNat →
      exec (.bstrip g d off) s = .next (goesOn s (s.hart.setX d 0) (s.hart.pc + 8)))) ∧
  (∀ (g : Guard) (off : BitVec 29) (s : State), performs s (.bstrip g 0 off) g →
    exec (.bstrip g 0 off) s = .next (goesOn s s.hart (s.hart.pc + 8))) ∧
  (∀ (g : Guard) (d a : XReg) (off : BitVec 29) (s : State), heldByNone s →
    (∀ i ∈ [Instr.br g off, .call g d off, .jr g d a, .addpc g d off, .bstrip g d off],
      ((∃ k ∈ guardK g, k ∈ s.hart.pendingK) → exec i s = .next (resynchronises s)) ∧
      ((∀ k ∈ guardK g, k ∉ s.hart.pendingK) → s.hart.guardSpoilt i = false → s.hart.frontGuard g = false →
        exec i s = .next (goesOn s s.hart (s.hart.pc + 8)))) ∧
    (guardPasses s (.bstrip g d off) → d ∈ s.hart.pendingX → exec (.bstrip g d off) s = .next (resynchronises s))) ∧
  (∀ (g : Guard) (d a : XReg) (t : Fmt) (blk step : Bool) (s : State), performs s (.setvl g d a t blk step) g →
    (blk = true ∧ t.blockOk = false → exec (.setvl g d a t blk step) s = .next (s.frontFault ⟨0x04, 0, 0, 0, 0⟩)) ∧
    (blk = false ∨ t.blockOk = true →
      let avl := (xOf s a).toNat
      let unit := if blk then 32 else 1
      let vlmax := 8 * s.hart.vlenb / (2 ^ s.hart.ctl.rc.val * fmtWidth t)
      let vl := min ((avl + unit - 1) / unit * unit) vlmax
      let tail := if avl < vl then vl - avl else 0
      exec (.setvl g d a t blk step) s = .next (goesOn s
        ({ s.hart with ctl := { s.hart.ctl with
            vl := BitVec.ofNat 18 vl, vtail := BitVec.ofNat 5 tail, vtag := t, vblk := blk,
            sc := if step then s.hart.ctl.sc + 1 else s.hart.ctl.sc } }.setX d (BitVec.ofNat 64 (vl - tail))) (s.hart.pc + 8)))) ∧
  (∀ (g : Guard) (code : Fin 6) (s : State), performs s (.setrc g code) g →
    exec (.setrc g code) s = .next (goesOn s
      { s.hart with ctl := { s.hart.ctl with rc := code, vl := 0, vtail := 0 } } (s.hart.pc + 8)))

namespace Sys2Proof.Say

/-- What MFS reads of each state register but TICK (R54, R58 to R60, R119, R436). -/
def srValue (s : State) : SReg → Nat
  | .vl => s.hart.ctl.vl.toNat
  | .rc => 2 ^ s.hart.ctl.rc.val
  | .vstart => s.hart.ctl.vstart.toNat
  | .vtail => s.hart.ctl.vtail.toNat
  | .vcfg => s.hart.ctl.hpc.val * 2 ^ 8 + s.hart.ctl.rc.val * 2 ^ 5 + (if s.hart.ctl.vblk then 2 ^ 4 else 0) +
      s.hart.ctl.vtag.code.toNat
  | .sc => s.hart.ctl.sc.toNat
  | .fflags => s.hart.ctl.fflags.toNat
  | .iflags => s.hart.ctl.iflags.toNat
  | .frm => match s.hart.ctl.frm with
      | .rne => 1 | .rz => 2 | .ru => 3 | .rd => 4 | .sr => 5
  | .srseed => s.hart.ctl.srseed.toNat
  | .srctr => s.hart.ctl.srctr.toNat
  | .fsite => s.hart.ctl.fpkg.toNat * 2 ^ 8 + s.hart.ctl.fstack.toNat
  | .wid => s.hart.ctl.wid.toNat
  | .hartno => s.hart.core * 4 + s.hart.slot
  | .ctgen => (s.ctx s.hart.ctx).ctgen.toNat
  | .plive => s.hart.frontVec.plive.toNat
  | .tick => s.plat.tick.toNat
  | .trapvec => s.hart.trap.vec.toNat * 8
  | .epc => s.hart.trap.epc.toNat
  | .ecause => s.hart.trap.trapno.toNat * 2 ^ 32 + (if s.hart.trap.inh then 2 ^ 25 else 0) +
      (if s.hart.trap.ret then 2 ^ 24 else 0) + s.hart.trap.qpos.toNat * 2 ^ 16 + s.hart.trap.reason.toNat * 2 ^ 8 +
      s.hart.trap.code.toNat
  | .einfo => s.hart.trap.einfo.toNat

end Sys2Proof.Say

/-- MFS writes the whole state register into x[D]; MTS writes the writable fields of the register it names and refuses a reserved FRM mode. -/
def Obligations.StateRegisterForms : Prop :=
  (∀ (g : Guard) (d : XReg) (r : SReg) (s : State), performs s (.mfs g d r) g → r ≠ .tick →
    exec (.mfs g d r) s = .next (goesOn s (s.hart.setX d (BitVec.ofNat 64 (srValue s r))) (s.hart.pc + 8))) ∧
  (∀ (g : Guard) (d : XReg) (s : State), performs s (.mfs g d .tick) g →
    ∃ n : Nat, exec (.mfs g d .tick) s = .next
      (goesOn { s with free := s.free + 1, plat := { s.plat with
          tick := BitVec.ofNat 64 (min (s.plat.tick.toNat + n) (2 ^ 64 - 1)), pnow := Config.power s.free } }
        (s.hart.setX d (BitVec.ofNat 64 (min (s.plat.tick.toNat + n) (2 ^ 64 - 1)))) (s.hart.pc + 8))) ∧
  (∀ (g : Guard) (r : SReg) (a : XReg) (s : State), performs s (.mts g r a) g →
    let v := xOf s a
    let h := s.hart
    let goes (h' : Hart) : Prop := exec (.mts g r a) s = .next (goesOn s h' (s.hart.pc + 8))
    match r with
    | .vstart => goes { h with ctl := { h.ctl with vstart := BitVec.ofNat 18 v.toNat } }
    | .sc => goes { h with ctl := { h.ctl with sc := BitVec.ofNat 32 v.toNat } }
    | .fflags => goes { h with ctl := { h.ctl with fflags := BitVec.ofNat 5 v.toNat } }
    | .iflags => goes { h with ctl := { h.ctl with iflags := BitVec.ofNat 2 v.toNat } }
    | .frm =>
      match v.toNat % 8 with
      | 1 => goes { h with ctl := { h.ctl with frm := .rne } }
      | 2 => goes { h with ctl := { h.ctl with frm := .rz } }
      | 3 => goes { h with ctl := { h.ctl with frm := .ru } }
      | 4 => goes { h with ctl := { h.ctl with frm := .rd } }
      | 5 => goes { h with ctl := { h.ctl with frm := .sr } }
      | _ => exec (.mts g r a) s = .next (s.frontFault ⟨0x04, 0, 0, 0, 0⟩)
    | .srseed => goes { h with ctl := { h.ctl with srseed := v } }
    | .srctr => goes { h with ctl := { h.ctl with srctr := v } }
    | .fsite => goes { h with ctl := { h.ctl with fpkg := BitVec.ofNat 10 (v.toNat / 2 ^ 8), fstack := BitVec.ofNat 4 v.toNat } }
    | .trapvec => goes { h with trap := { h.trap with vec := BitVec.ofNat 49 (v.toNat / 8) } }
    | .epc => goes { h with trap := { h.trap with epc := v } }
    | .einfo => goes { h with trap := { h.trap with einfo := v } }
    | .ecause => goes { h with trap := { h.trap with
        trapno := BitVec.ofNat 16 (v.toNat / 2 ^ 32), ret := v.getLsbD 24, qpos := BitVec.ofNat 6 (v.toNat / 2 ^ 16),
        reason := BitVec.ofNat 8 (v.toNat / 2 ^ 8), code := BitVec.ofNat 8 v.toNat } }
    | _ => True) ∧
  ∀ (g : Guard) (r : SReg) (a : XReg), r ∈ [SReg.vl, .rc, .vtail, .vcfg, .wid, .hartno, .ctgen, .tick] →
    (Instr.mts g r a).wf = false

/-- A false guard skips a whole instruction; what R130 names waits, changing nothing but its wait and RSYNCN; with nothing behind nothing waits. -/
def Obligations.SkipsAndWaits : Prop :=
  (∀ (i : Instr) (s : State), isEvent i = false → s.gate i = .skip →
    exec i s = .next (goesOn s s.hart (s.hart.pc + BitVec.ofNat 64 (bytesOfInstr i)))) ∧
  (∀ (i : Instr) (s : State) (w : HartWait), isEvent i = false → s.gate i = .hold w →
    exec i s = .next { s with hart := { s.hart with
      wait := w,
      counts := { s.hart.counts with
        rsyncn := if w = .resync ∧ s.hart.wait ≠ .resync then s.hart.counts.rsyncn + 1 else s.hart.counts.rsyncn } } }) ∧
  (∀ (i : Instr) (s : State), isEvent i = false → s.gate i = .bad → exec i s = .next (s.frontTakes ⟨0x10, 0, 0, 0, 0⟩)) ∧
  (∀ (i : Instr) (s : State), nothingBehind s → soundRegs s →
    s.gate i = if guardedWhole i = false ∨ (guardOf i).all s.hart.frontGuard = true then .go else .skip) ∧
  (∀ (i : Instr) (s : State), (∃ e ∈ s.hart.vq, isFirstFault e.instr = true ∨ isFenceVs e.instr = true) →
    ∃ w, s.gate i = .hold w) ∧
  ∀ s : State, (∀ e ∈ s.hart.vq, isFirstFault e.instr = false ∧ isFenceVs e.instr = false) →
    (∀ (i : Instr) (g : Guard), guardedWhole i = true → guardOf i = some g → (∃ k ∈ guardK g, k ∈ s.hart.pendingK) →
      s.gate i = .hold .resync) ∧
    (∀ i : Instr, guardPasses s i → (∃ x ∈ frontX i, x ∈ s.hart.pendingX) ∨ (∃ k ∈ frontK i, k ∈ s.hart.pendingK) →
      s.gate i = .hold .resync) ∧
    (∀ (g : Guard) (d a : XReg) (q : SReg), q ∈ [SReg.fflags, .iflags] →
      (∃ e ∈ s.hart.vq, setsFlags e.instr = true) ∨ (∃ p ∈ s.far.pieces, p.hart = s.hart.no ∧ setsFlags p.entry.instr = true) →
      (guardPasses s (.mfs g d q) → s.gate (.mfs g d q) = .hold .resync) ∧
      (guardPasses s (.mts g q a) → s.gate (.mts g q a) = .hold .resync)) ∧
    ∀ g : Guard, guardPasses s (.fenceVs g) → s.hart.vq ≠ [] → s.gate (.fenceVs g) = .hold .resync

/-- x0 reads zero and discards writes, k0 reads all-true and discards writes, a dead predicate reads all-false. -/
def Obligations.HardwiredRegisters : Prop :=
  (∀ (h : Hart) (v : Word), h.getX 0 = 0 ∧ h.setX 0 v = h) ∧
  (∀ (h : Hart) (d r : XReg) (v : Word), d ≠ 0 → (h.setX d v).getX r = if r = d then v else h.getX r) ∧
  (∀ (q : VecRegs) (n v : Nat), q.getK n 0 = 2 ^ n - 1 ∧ q.setK 0 v = q) ∧
  (∀ (q : VecRegs) (n : Nat) (p : KReg), p ≠ 0 → q.plive.getLsbD p.toNat = false → q.getK n p = 0) ∧
  (∀ (q : VecRegs) (n v : Nat) (p r : KReg), p ≠ 0 →
    (q.setK p v).getK n r = (if r = p then v else q.getK n r) ∧ (q.setK p v).plive.getLsbD p.toNat = true)

namespace Sys2Proof.Say

/-- The vector side takes `i` at once: no lag, nothing before it in the queue, the hart runs and no register of it is in error;
the word is a near one. A whole instruction with a false guard is not taken: it is skipped. -/
def takenAtOnce (s : State) (i : Instr) : Prop :=
  inVq i = true ∧ isFarWord i = false ∧ s.lag.vq = false ∧ s.hart.vq = [] ∧ s.hart.phase = .running ∧ soundRegs s

/-- The hart of the issue of `i`: the queue with the new entry, VSTART taken by the instructions that use it, SRCTR stepped by
those that draw (R53, R123, R125 to R128). -/
def issuedHart (s : State) (i : Instr) : Hart :=
  { s.hart with
    vq := s.hart.vq ++ [s.makeEntry i]
    ctl := { s.hart.ctl with
      vstart := if takesStart i then 0 else s.hart.ctl.vstart
      srctr := if usesSr i s.hart.ctl.frm then s.hart.ctl.srctr + 1 else s.hart.ctl.srctr } }

/-- The machine once `i` has been issued and not yet performed: a resynchronisation is counted where the front end waits, behind a
first-fault form (R130, R282). -/
def issued (s : State) (i : Instr) : State :=
  let t := goesOn s (issuedHart s i) (s.hart.pc + 8)
  if isFirstFault i then
    { t with hart := { t.hart with wait := .resync, counts := { t.hart.counts with rsyncn := t.hart.counts.rsyncn + 1 } } }
  else t

/-- The machine before `i` has an effect, where its guard is false (R72): the front end goes on. -/
def passedOver (s : State) : State := goesOn s s.hart (s.hart.pc + 8)

/-- The head of the queue has left it: the wait behind a first-fault form ends, and engine commands behind an acquire point have
one entry less to wait for (R252, R282). -/
def behind (i : Instr) (t : State) : State :=
  let u := if isFirstFault i then t.endWait else t
  if isAcquire i then
    { u with hart := { u.hart with eng := u.hart.eng.map fun q =>
      { q with cmds := q.cmds.map fun c => { c with fences := c.fences - 1 } } } }
  else u

/-- What the performing of `i` works on. -/
def envOf (s : State) (i : Instr) : Env := s.env (s.makeEntry i)

/-- The machine once `i` has been issued and performed with these vector registers, flags and x register. -/
def performedAs (s : State) (i : Instr) (vec : VecRegs) (f : Flags) (x : Option (XReg × Word)) : State :=
  let t := issued s i
  let h := { t.hart with vec := vec, vq := [], owes := false }.orFlags f
  behind i { t with hart := match x with
    | some (d, w) => h.setX d w
    | none => h }

/-- The machine once `i` has been issued and its performing reports a fault of this code, with these vector registers: the
entry is still the head of the queue, at its start position (R134, R137). -/
def faultsAs (s : State) (i : Instr) (vec : VecRegs) (code : BitVec 8) : State :=
  let t := { issued s i with hart := { (issued s i).hart with vec := vec, owes := false } }
  t.takeFault (.of code) s.hart.pc t.hart.pc (s.makeEntry i).start

/-- Element (r, e) of a register, `w` bits wide. -/
def elemOf (v : Env) (vec : VecRegs) (d : VReg) (w r e : Nat) : Nat :=
  bits (vec.getRef (v.ref d)) (r * v.rowBits (v.ref d) + e * w) w

/-- Nothing but the listed near registers changed on the vector side. -/
def onlyNear (a b : VecRegs) (ds : List Nat) : Prop :=
  b.k = a.k ∧ b.plive = a.plive ∧ b.far = a.far ∧ b.gsite = a.gsite ∧ b.z = a.z ∧ b.zdirty = a.zdirty ∧ b.bad = a.bad ∧
  ∀ n < 64, n ∉ ds → b.getV n = a.getV n ∧ b.tagV n = a.tagV n ∧ b.vdirty.getLsbD n = a.vdirty.getLsbD n ∧
    b.vhwe[n]? = a.vhwe[n]?

/-- The flags of the eligible positions from the start on, ORed. -/
def flagsOver (v : Env) (op : Nat → Nat → Flags) : Flags :=
  ((List.range v.positions).filter fun n => decide (v.e.start ≤ n) && v.eligible (n / v.e.vl) (n % v.e.vl)).foldl
    (fun f n => f.or (op (n / v.e.vl) (n % v.e.vl))) Flags.none

/-- What an element-wise instruction leaves (R115, R122 to R124, R168): at each position from the start on, 0 in the tail, the
operation's code where the guard holds, elsewhere 0 under zeroing and the old bits else; the tag; the flags; and `more` about
the other registers. -/
def sweptWith (s : State) (i : Instr) (d : VReg) (t : RegTag) (zm : Bool) (op : Nat → Nat → Flagged Nat)
    (more : VecRegs → Prop) : Prop :=
  let v := envOf s i
  let w := fmtWidth t.fmt
  ∃ (vec : VecRegs) (fl : Flags), exec i s = .next (performedAs s i vec fl none) ∧
    (∀ r < v.rows, ∀ e < v.e.vl, elemOf v vec d w r e =
      if r * v.e.vl + e < v.e.start then elemOf v v.vec d w r e
      else if v.e.vl - v.e.vtail ≤ e then 0
      else if v.guard r e then (op r e).1 % 2 ^ w
      else if zm then 0 else elemOf v v.vec d w r e) ∧
    vec.tagV d.toNat = t ∧ fl = flagsOver v (fun r e => (op r e).2) ∧ more vec

/-- The same, and nothing else changed. -/
def sweptInto (s : State) (i : Instr) (d : VReg) (t : RegTag) (zm : Bool) (op : Nat → Nat → Flagged Nat) : Prop :=
  sweptWith s i d t zm op fun vec => onlyNear (envOf s i).vec vec [d.toNat]

/-- The sweep fits its registers and the sources do not overlap the destination wrongly (R122, R169). -/
def sweepFits (v : Env) (fields : List VReg) (srcs : List SrcUse) (d : VReg) (w : Nat) : Prop :=
  v.tooLong fields (srcs.foldl (fun m q => max m q.width) w) = false ∧ overlapBad srcs [v.ref d] w = false

/-- An integer modulo 2^w. -/
def codeOf (t : Fmt) (x : Int) : Nat := (x % (2 ^ fmtWidth t : Nat)).toNat

/-- The range of an integer format (R35, R37). -/
def lowest (t : Fmt) : Int := if fmtKind t = .signed then -(2 ^ (fmtWidth t - 1) : Nat) else 0
def highest (t : Fmt) : Int := if fmtKind t = .signed then (2 ^ (fmtWidth t - 1) : Nat) - 1 else (2 ^ fmtWidth t : Nat) - 1

/-- Saturation to an integer format, with IFLAGS.SAT (R37). -/
def saturated (t : Fmt) (x : Int) : Flagged Nat :=
  if x < lowest t then (codeOf t (lowest t), .isat) else if highest t < x then (codeOf t (highest t), .isat) else (codeOf t x, .none)

/-- A two-source form: constructor, the tags it admits, the integer result, the floating-point result. -/
structure TwoSourceForm where
  instr : Guard → VMod → VReg → VReg → VReg → Instr
  admits : Admits
  onInt : Fmt → Int → Int → Flagged Nat
  onFloat : FVal → FVal → Fmt → RMode → Nat → Flagged Nat

/-- The two-source arithmetic forms (R174 to R176). -/
def twoSourceForms : List TwoSourceForm :=
  [⟨.vadd, .any, fun t x y => (codeOf t (x + y), .none), addF⟩,
   ⟨.vsub, .any, fun t x y => (codeOf t (x - y), .none), fun x y => addF x y.negate⟩,
   ⟨.vmul, .any, fun t x y => (codeOf t (x * y), .none), mulF⟩,
   ⟨.vmulh, .ints, fun t x y => (codeOf t (x * y / (2 ^ fmtWidth t : Nat)), .none), mulF⟩,
   ⟨.vdiv, .any, fun t x y => if y = 0 then (0, .idz) else (codeOf t (x.tdiv y), .none), divF⟩,
   ⟨.vmin, .any, fun t x y => (codeOf t (if x ≤ y then x else y), .none), fun x y => roundF (minmaxVals false x y)⟩,
   ⟨.vmax, .any, fun t x y => (codeOf t (if x ≤ y then y else x), .none), fun x y => roundF (minmaxVals true x y)⟩,
   ⟨.vadds, .ints, fun t x y => saturated t (x + y), addF⟩,
   ⟨.vsubs, .ints, fun t x y => saturated t (x - y), addF⟩]

/-- The one-source forms: the integer result and the floating-point result (R179, R180). -/
structure OneSourceForm where
  instr : Guard → VMod → VReg → VReg → Instr
  admits : Admits
  onInt : Fmt → Int → Flagged Nat
  onFloat : FVal → Fmt → RMode → Nat → Flagged Nat

def oneSourceForms : List OneSourceForm :=
  [⟨.vsqrt, .floats, fun _ _ => (0, .none), fn1F .sqrt⟩, ⟨.vrsqrt, .floats, fun _ _ => (0, .none), fn1F .rsqrt⟩,
   ⟨.vrcp, .floats, fun _ _ => (0, .none), fn1F .rcp⟩, ⟨.vexp2, .floats, fun _ _ => (0, .none), fn1F .exp2⟩,
   ⟨.vlog2, .floats, fun _ _ => (0, .none), fn1F .log2⟩,
   ⟨.vabs, .any, fun t x => (codeOf t x.natAbs, .none), signedResult FVal.abs⟩,
   ⟨.vneg, .any, fun t x => (codeOf t (-x), .none), signedResult FVal.negate⟩]

/-- The bitwise and shift forms on codes (R177). -/
def bitwiseForms : List ((Guard → VMod → VReg → VReg → VReg → Instr) × Admits × (Fmt → Nat → Nat → Nat)) :=
  [(.vand, .any, fun _ x y => x &&& y), (.vor, .any, fun _ x y => x ||| y), (.vxor, .any, fun _ x y => x ^^^ y),
   (.vshl, .ints, fun t x y => x * 2 ^ (y % fmtWidth t)),
   (.vshr, .ints, fun t x y => codeOf t (decodeInt t x / (2 ^ (y % fmtWidth t) : Nat)))]

/-- The fused forms: whether the product and whether the addend is negated (R174). -/
def fusedForms : List ((Guard → VMod → VReg → VReg → VReg → VReg → Instr) × Bool × Bool) :=
  [(.vfma, false, false), (.vfms, false, true), (.vfnma, true, false)]

end Sys2Proof.Say

/-- An instruction of the vector queue is entered with the values the front end holds, and the front end goes on. -/
def Obligations.QueueIssueCapturesValues : Prop :=
  ∀ (i : Instr) (s : State), inVq i = true → s.gate i = .go →
    let answers := (s.hart.vq.filter fun e => (queueX e.instr).isSome).length
    let room := s.hart.vq.length < 32 ∧ ((queueX i).isSome = true → answers < 8)
    (room → s.lag.vq = true → exec i s = .next (issued s i)) ∧
    (¬room → exec i s = .next { s with hart := { s.hart with wait := .room } }) ∧
    (let e := s.makeEntry i
     e.instr = i ∧ e.addr = s.hart.pc ∧ e.vl = s.hart.ctl.vl.toNat ∧ e.rc = s.hart.ctl.rc ∧
     e.start = (if takesStart i then s.hart.ctl.vstart.toNat else 0) ∧ e.vtail = s.hart.ctl.vtail.toNat ∧
     e.vtag = s.hart.ctl.vtag ∧ e.vblk = s.hart.ctl.vblk ∧ e.frm = s.hart.ctl.frm ∧
     e.fsite = BitVec.ofNat 64 (s.hart.ctl.fpkg.toNat * 2 ^ 8 + s.hart.ctl.fstack.toNat) ∧
     e.srctr = s.hart.ctl.srctr ∧ (usesSr i s.hart.ctl.frm = true → e.srseed = s.hart.ctl.srseed) ∧
     e.bank = (s.ctx s.hart.ctx).ctgen.getLsbD 0 ∧
     e.bankVals = (if e.bank then (s.ctx s.hart.ctx).bank1 else (s.ctx s.hart.ctx).bank0).toList ∧
     (∀ r, (entryX i).1 = some r → e.xa = xOf s r) ∧ (∀ r, (entryX i).2 = some r → e.xb = xOf s r))

/-- VADD, VSUB, VMUL, VMULH, VDIV, VMIN, VMAX, VADDS and VSUBS leave each element's result, tails 0, and change nothing else. -/
def Obligations.VectorArithmeticResults : Prop :=
  ∀ p ∈ twoSourceForms, ∀ (g : Guard) (m : VMod) (d a b : VReg) (s : State), takenAtOnce s (p.instr g m d a b) →
    let i := p.instr g m d a b
    let v := envOf s i
    (∀ t, v.resultFmt m.w [a, b] = some t → p.admits.ok (v.tag a).fmt = true →
      sweepFits v [d, a, b] [v.use a m.repa, v.use b m.repb] d (fmtWidth t) →
      sweptInto s i d ⟨t, false⟩ m.zm fun r e =>
        if fmtIsFloat t then
          p.onFloat ((v.source a).valAt m.repa r e) ((v.source b).valAt m.repb r e) t (v.mode m.rm) (v.draw (v.mode m.rm) r e)
        else p.onInt t ((v.source a).intAt m.repa r e) ((v.source b).intAt m.repb r e)) ∧
    (v.resultFmt m.w [a, b] = none ∨ p.admits.ok (v.tag a).fmt = false → exec i s = .next (faultsAs s i v.vec 0x03))

/-- VFMA, VFMS and VFNMA round a product plus an addend once, the addend tagged with the result format. -/
def Obligations.FusedArithmeticResults : Prop :=
  ∀ p ∈ fusedForms, ∀ (g : Guard) (m : VMod) (d a b c : VReg) (s : State), takenAtOnce s (p.1 g m d a b c) →
    let i := p.1 g m d a b c
    let v := envOf s i
    (∀ t, v.resultFmt m.w [a, b] = some t → v.tag c = ⟨t, false⟩ →
      sweepFits v [d, a, b, c] [v.use a m.repa, v.use b m.repb, v.use c .none] d (fmtWidth t) →
      sweptInto s i d ⟨t, false⟩ m.zm fun r e =>
        if fmtIsFloat t then
          fmaF (if p.2.1 then ((v.source a).valAt m.repa r e).negate else (v.source a).valAt m.repa r e)
            ((v.source b).valAt m.repb r e)
            (if p.2.2 then ((v.source c).val r e).negate else (v.source c).val r e) t (v.mode m.rm) (v.draw (v.mode m.rm) r e)
        else
          (codeOf t ((if p.2.1 then -1 else 1) * ((v.source a).intAt m.repa r e * (v.source b).intAt m.repb r e) +
            (if p.2.2 then -1 else 1) * (v.source c).int r e), .none)) ∧
    (v.resultFmt m.w [a, b] = none → exec i s = .next (faultsAs s i v.vec 0x03)) ∧
    (∀ t, v.resultFmt m.w [a, b] = some t → v.tag c ≠ ⟨t, false⟩ → exec i s = .next (faultsAs s i v.vec 0x03))

/-- VAND, VOR, VXOR work on bit patterns and VSHL, VSHR shift by the amount modulo the width. -/
def Obligations.BitwiseAndShiftResults : Prop :=
  ∀ p ∈ bitwiseForms, ∀ (g : Guard) (m : VMod) (d a b : VReg) (s : State), takenAtOnce s (p.1 g m d a b) →
    let i := p.1 g m d a b
    let v := envOf s i
    let t := (v.tag a).fmt
    let legal := v.tag a = ⟨t, false⟩ ∧ v.tag b = ⟨t, false⟩ ∧ p.2.1.ok t = true
    (legal → sweepFits v [d, a, b] [v.use a m.repa, v.use b m.repb] d (fmtWidth t) →
      sweptInto s i d ⟨t, false⟩ m.zm fun r e =>
        (p.2.2 t ((v.source a).codeAt m.repa r e) ((v.source b).codeAt m.repb r e), .none)) ∧
    (¬legal → exec i s = .next (faultsAs s i v.vec 0x03))

/-- VSQRT, VRSQRT, VRCP, VEXP2, VLOG2, VABS, VNEG and VSCALE leave the rounded function of each element. -/
def Obligations.UnaryAndScaleResults : Prop :=
  (∀ p ∈ oneSourceForms, ∀ (g : Guard) (m : VMod) (d a : VReg) (s : State), takenAtOnce s (p.instr g m d a) →
    let i := p.instr g m d a
    let v := envOf s i
    (∀ t, v.resultFmt m.w [a] = some t → p.admits.ok (v.tag a).fmt = true →
      sweepFits v [d, a] [v.use a m.repa] d (fmtWidth t) →
      sweptInto s i d ⟨t, false⟩ m.zm fun r e =>
        if fmtIsFloat t then p.onFloat ((v.source a).valAt m.repa r e) t (v.mode m.rm) (v.draw (v.mode m.rm) r e)
        else p.onInt t ((v.source a).intAt m.repa r e)) ∧
    (v.resultFmt m.w [a] = none ∨ p.admits.ok (v.tag a).fmt = false → exec i s = .next (faultsAs s i v.vec 0x03))) ∧
  (∀ (g : Guard) (m : VMod) (d a b : VReg) (s : State), takenAtOnce s (.vscale g m d a b) →
    let i := Instr.vscale g m d a b
    let v := envOf s i
    let ta := v.tag a
    let tb := v.tag b
    let t := if ta.blk then Fmt.fp32 else ta.fmt
    let legal := v.pairOk a = true ∧ fmtIsFloat ta.fmt = true ∧ tb.blk = false ∧ tb.fmt ∈ [Fmt.s8, .s16, .s32, .n8]
    (legal → sweepFits v [d, a, b] [v.use a m.repa, v.use b m.repb] d (fmtWidth t) →
      sweptInto s i d ⟨t, false⟩ m.zm fun r e =>
        let x := (v.source a).valAt m.repa r e
        let n := (v.source b).intAt m.repb r e
        let signal := if x.isSnan then Flags.nv else .none
        if tb.fmt = .n8 ∧ n = 255 then ((deliverNan t).1, signal)
        else
          let k := if tb.fmt = .n8 then n - 127 else if n < -2000 then -2000 else if 2000 < n then 2000 else n
          let q := roundVal (x.scale k) t (v.mode m.rm) (v.draw (v.mode m.rm) r e)
          (q.1, q.2.or signal)) ∧
    (¬legal → exec i s = .next (faultsAs s i v.vec 0x03)))

namespace Sys2Proof.Say

/-- The near part of a statement about an instruction that gives its result whole: it completes with these registers. -/
def completesAs (s : State) (i : Instr) (x : Option (XReg × Word)) (more : VecRegs → Flags → Prop) : Prop :=
  ∃ (vec : VecRegs) (fl : Flags), exec i s = .next (performedAs s i vec fl x) ∧ more vec fl

/-- Nothing on the vector side changed. -/
def noVecChange (s : State) (vec : VecRegs) : Prop := vec = s.hart.vec

/-- An eligible position (R181). -/
abbrev eligible (v : Env) (r e : Nat) : Prop := e < v.e.vl - v.e.vtail ∧ v.guard r e = true

/-- The eligible indices of a row, rising. -/
def eligibleOf (v : Env) (r : Nat) : List Nat :=
  (List.range v.e.vl).filter fun e => decide (e < v.e.vl - v.e.vtail) && v.guard r e

/-- The whole-sweep instruction starts at 0 and fits its rows (R122, R181). -/
def wholeFits (v : Env) (fields : List VReg) (w : Nat) : Prop := v.e.start = 0 ∧ v.tooLong fields w = false

/-- An integer reduction, exact and then modulo 2^w (R36, R55, R56). -/
def intReduction (op : RedOp) (t : Fmt) (xs : List Int) : Nat :=
  match op with
  | .sum => codeOf t xs.sum
  | .max => codeOf t (xs.foldr (fun x y => if y ≤ x then x else y) (lowest t))
  | .min => codeOf t (xs.foldr (fun x y => if x ≤ y then x else y) (highest t))
  | .and => xs.foldr (fun x y => codeOf t x &&& y) (2 ^ fmtWidth t - 1)
  | .or => xs.foldr (fun x y => codeOf t x ||| y) 0

/-- The reductions of one source. -/
def reductions : List ((Guard → VMod → BitVec 6 → VReg → Bool → Instr) × RedOp) :=
  [(.vredsum, .sum), (.vredmax, .max), (.vredmin, .min), (.vredand, .and), (.vredor, .or)]

/-- The code an instruction of one result per row delivers, and where: an x register, or element 0 of each row of vd, whose other
positions follow the zeroing bit (R181, R182, R184). -/
def deliversRows (s : State) (i : Instr) (m : VMod) (d : BitVec 6) (sc : Bool) (t : Fmt) (x : Nat → Word)
    (row : Nat → Flagged Nat) : Prop :=
  let v := envOf s i
  let fl := (List.range v.rows).foldl (fun f r => f.or (row r).2) Flags.none
  if sc then exec i s = .next (performedAs s i v.vec fl (some (d, x (row 0).1)))
  else completesAs s i none fun vec f => f = fl ∧ vec.tagV d.toNat = ⟨t, false⟩ ∧ onlyNear v.vec vec [d.toNat] ∧
    ∀ r < v.rows, (0 < v.e.vl → elemOf v vec d (fmtWidth t) r 0 = (row r).1 % 2 ^ fmtWidth t) ∧
      ∀ e < v.e.vl, 0 < e →
        elemOf v vec d (fmtWidth t) r e = if m.zm then 0 else elemOf v v.vec d (fmtWidth t) r e

/-- A permutation's result: rows of codes, none where the position is left to the zeroing bit (R181). -/
def permutesTo (s : State) (i : Instr) (m : VMod) (d : VReg) (t : Fmt) (row : Nat → Nat → Option Nat) : Prop :=
  let v := envOf s i
  completesAs s i none fun vec f => f = .none ∧ vec.tagV d.toNat = ⟨t, false⟩ ∧ onlyNear v.vec vec [d.toNat] ∧
    ∀ r < v.rows, ∀ e < v.e.vl, elemOf v vec d (fmtWidth t) r e =
      if v.e.vl - v.e.vtail ≤ e then 0
      else match row r e with
        | some c => c % 2 ^ fmtWidth t
        | none => if m.zm then 0 else elemOf v v.vec d (fmtWidth t) r e

/-- A predicate's bit at element (r, e) of a sweep (R117). -/
def predBit (v : Env) (k : KReg) (r e : Nat) : Bool := (v.vec.getK v.klen k).testBit (r * (v.klen / v.rows) + e)

end Sys2Proof.Say

/-- VCMP writes the condition and its complement into a pair of predicates, makes both live, and sets only NV. -/
def Obligations.VectorCompareResults : Prop :=
  ∀ (g : Guard) (m : VMod) (c : Cond) (d : KReg) (a b : VReg) (s : State), takenAtOnce s (.vcmp g m c d a b) →
    d.toNat % 2 = 0 →
    let i := Instr.vcmp g m c d a b
    let v := envOf s i
    let t := (v.tag a).fmt
    let legal := v.pairOk a = true ∧ v.pairOk b = true ∧ (v.tag b).fmt = t ∧ ((c = .un ∨ c = .ord) → fmtIsFloat t = true)
    (legal → v.tooLong [a, b] (fmtWidth t) = false →
      completesAs s i none fun vec fl =>
        let holds (r e : Nat) : Bool := condVals c ((v.source a).valAt m.repa r e) ((v.source b).valAt m.repb r e)
        let bit (r e : Nat) (old new : Bool) : Bool :=
          if r * v.e.vl + e < v.e.start then old else if v.e.vl - v.e.vtail ≤ e then false else if v.guard r e then new else old
        (∀ r < v.rows, ∀ e < v.e.vl,
          (d ≠ 0 → (vec.getK v.klen d).testBit (r * (v.klen / v.rows) + e) = bit r e (predBit v d r e) (holds r e)) ∧
          (vec.getK v.klen (d + 1)).testBit (r * (v.klen / v.rows) + e) = bit r e (predBit v (d + 1) r e) (!holds r e)) ∧
        vec.plive = v.vec.plive ||| ((if d = 0 then 0 else 1#16 <<< d.toNat) ||| 1#16 <<< (d.toNat + 1)) ∧
        (∀ p : KReg, p ≠ d → p ≠ d + 1 → vec.k[p.toNat] = v.vec.k[p.toNat]) ∧
        vec.v = v.vec.v ∧ vec.vtags = v.vec.vtags ∧ vec.far = v.vec.far ∧ vec.z = v.vec.z ∧
        fl = flagsOver v fun r e =>
          if ((v.source a).valAt m.repa r e).isSnan || ((v.source b).valAt m.repb r e).isSnan then .nv else .none) ∧
    (¬legal → exec i s = .next (faultsAs s i v.vec 0x03))

/-- VCVT, VQMX, VPACK and VUNPK leave the converted elements, VQMX with one scale per block. -/
def Obligations.ConversionResults : Prop :=
  (∀ (g : Guard) (m : VMod) (d a : VReg) (t : Fmt) (blk sat : Bool) (s : State), takenAtOnce s (.vcvt g m d a t blk sat) →
    let i := Instr.vcvt g m d a t blk sat
    let v := envOf s i
    let mode := v.mode m.rm
    let legal := v.pairOk a = true ∧ (blk = true → d.toNat % 2 = 0 ∧ t.blockOk = true)
    let odd := d.toNat + 1
    let dests := if blk then [RegRef.near d.toNat, .near odd] else [.near d.toNat]
    (legal → v.tooLong [d, a] (max (fmtWidth t) (fmtWidth (v.tag a).fmt)) = false →
      overlapBad [v.use a m.repa] dests (fmtWidth t) = false →
      sweptWith s i d ⟨t, blk⟩ m.zm
        (fun r e =>
          if blk then
            convBlock ((v.source a).valAt m.repa r e) (bits (v.vec.getV odd) (r * v.rowBits (.near d.toNat) + e / 32 * 8) 8) t mode
              (v.draw mode r e)
          else if fmtIsFloat t then convFloat ((v.source a).valAt m.repa r e) t mode (v.draw mode r e) sat
          else if fmtIsFloat (v.tag a).fmt then toIntFmt ((v.source a).valAt m.repa r e) t mode (v.draw mode r e)
          else (codeOf t ((v.source a).intAt m.repa r e), .none))
        fun vec => onlyNear v.vec vec (if blk then [d.toNat, odd] else [d.toNat]) ∧
          (blk = true → vec.tagV odd = .n8 ∧ vec.getV odd = v.vec.getV odd)) ∧
    (¬legal → exec i s = .next (faultsAs s i v.vec 0x03))) ∧
  (∀ (g : Guard) (m : VMod) (d a : VReg) (t : Fmt) (s : State), takenAtOnce s (.vqmx g m d a t) →
    let i := Instr.vqmx g m d a t
    let v := envOf s i
    let odd := d.toNat + 1
    let legal := fmtIsFloat (v.tag a).fmt = true ∧ (v.tag a).blk = false ∧ d.toNat % 2 = 0 ∧ t.blockOk = true
    (legal → v.e.vl % 32 = 0 → v.tooLong [d, a] (max (fmtWidth (v.tag a).fmt) (fmtWidth t)) = false →
      a.toNat ≠ d.toNat → a.toNat ≠ odd →
      let val (r e : Nat) : FVal := if v.eligible r e then (v.source a).valAt m.repa r e else .zero false
      let scale (r b : Nat) : Nat := mxScaleOf ((List.range 32).map fun j => val r (32 * b + j)) t
      completesAs s i none fun vec fl =>
        (fl = (List.range v.rows).foldl (fun f r => (List.range (v.e.vl / 32)).foldl (fun f b =>
          if r * v.e.vl + 32 * b + 31 < v.e.start then f
          else ((List.range 32).foldl (fun f j =>
            if v.e.start ≤ r * v.e.vl + (32 * b + j) ∧ v.eligible r (32 * b + j) = true then
              f.or (mxCode (val r (32 * b + j)) (scale r b) t (v.mode m.rm) (v.draw (v.mode m.rm) r (32 * b + j))).2
            else f) f).or (if scale r b = 255 then .nv else .none)) f) Flags.none) ∧
        vec.tagV d.toNat = ⟨t, true⟩ ∧ vec.tagV odd = .n8 ∧ onlyNear v.vec vec [d.toNat, odd] ∧
        ∀ r < v.rows, ∀ b < v.e.vl / 32,
          (∀ j < 32, elemOf v vec d (fmtWidth t) r (32 * b + j) =
            if r * v.e.vl + (32 * b + j) < v.e.start then elemOf v v.vec d (fmtWidth t) r (32 * b + j)
            else if v.e.vl - v.e.vtail ≤ 32 * b + j then 0
            else if v.guard r (32 * b + j) then
              (mxCode (val r (32 * b + j)) (scale r b) t (v.mode m.rm) (v.draw (v.mode m.rm) r (32 * b + j))).1 % 2 ^ fmtWidth t
            else if m.zm then 0 else elemOf v v.vec d (fmtWidth t) r (32 * b + j)) ∧
          (v.e.start ≤ r * v.e.vl + 32 * b + 31 → (∃ j < 32, v.e.vl - v.e.vtail ≤ 32 * b + j ∨ v.guard r (32 * b + j) = true) →
            bits (vec.getV odd) (r * v.rowBits (.near d.toNat) + 8 * b) 8 = scale r b % 2 ^ 8)) ∧
    (¬legal → exec i s = .next (faultsAs s i v.vec 0x03))) ∧
  (∀ (g : Guard) (m : VMod) (d a b : VReg) (s : State), takenAtOnce s (.vpack g m d a b) →
    let i := Instr.vpack g m d a b
    let v := envOf s i
    let ta := v.tag a
    let mode := v.mode m.rm
    (∀ t, ta.blk = false → v.tag b = ta → halfFmt ta.fmt = some t → v.tooLong [d, a, b] (fmtWidth ta.fmt) = false →
      overlapBad [v.use a m.repa, v.use b m.repb] [.near d.toNat] (fmtWidth t) = false →
      let half (r e : Nat) (second : Bool) : Flagged Nat :=
        let q := if second then v.source b else v.source a
        let rep := if second then m.repb else m.repa
        if fmtIsFloat t then convFloat (q.valAt rep r e) t mode (v.draw mode r (if second then v.e.vl + e else e)) false
        else saturated t (q.intAt rep r e)
      completesAs s i none fun vec fl => vec.tagV d.toNat = ⟨t, false⟩ ∧ onlyNear v.vec vec [d.toNat] ∧
        fl = flagsOver v (fun r e => (half r e false).2.or (half r e true).2) ∧
        ∀ r < v.rows, ∀ e < v.e.vl, ∀ second : Bool,
          let place := if second then v.e.vl + e else e
          elemOf v vec d (fmtWidth t) r place =
            if r * v.e.vl + e < v.e.start then elemOf v v.vec d (fmtWidth t) r place
            else if v.e.vl - v.e.vtail ≤ e then 0
            else if v.guard r e then
              (half r e second).1 % 2 ^ fmtWidth t
            else if m.zm then 0 else elemOf v v.vec d (fmtWidth t) r place) ∧
    (ta.blk = true ∨ v.tag b ≠ ta ∨ halfFmt ta.fmt = none → exec i s = .next (faultsAs s i v.vec 0x03))) ∧
  (∀ (g : Guard) (m : VMod) (d a : VReg) (hi : Bool) (s : State), takenAtOnce s (.vunpk g m d a hi) →
    let i := Instr.vunpk g m d a hi
    let v := envOf s i
    let ta := v.tag a
    (∀ t, ta.blk = false → wideFmt ta.fmt = some t → sweepFits v [d, a] [v.use a m.repa] d (fmtWidth t) →
      sweptInto s i d ⟨t, false⟩ m.zm fun r e =>
        let from_ := if hi then v.e.vl + e else e
        if fmtIsFloat t then convFloat ((v.source a).valAt m.repa r from_) t .rne 0 false
        else (codeOf t ((v.source a).intAt m.repa r from_), .none)) ∧
    (ta.blk = true ∨ wideFmt ta.fmt = none → exec i s = .next (faultsAs s i v.vec 0x03)))

/-- VMOV copies elements with their tags and block scales, VINS writes one element, VEXTR reads one. -/
def Obligations.MoveAndInsertResults : Prop :=
  (∀ (g : Guard) (m : VMod) (d a : VReg) (s : State), takenAtOnce s (.vmov g m d a) →
    let i := Instr.vmov g m d a
    let v := envOf s i
    let t := v.tag a
    let odd := d.toNat + 1
    let dests := if t.blk then [RegRef.near d.toNat, .near odd] else [.near d.toNat]
    v.pairOk a = true → (t.blk = true → d.toNat % 2 = 0 ∧ t.fmt.blockOk = true) →
      v.tooLong [d, a] (fmtWidth t.fmt) = false → overlapBad [v.use a m.repa] dests (fmtWidth t.fmt) = false →
      sweptWith s i d t m.zm (fun r e => ((v.source a).codeAt m.repa r e, .none)) fun vec =>
        onlyNear v.vec vec (if t.blk then [d.toNat, odd] else [d.toNat]) ∧
        (t.blk = true → vec.tagV odd = .n8 ∧ (m.repa = .none → ∀ r < v.rows, ∀ e < v.e.vl,
          v.e.start ≤ r * v.e.vl + e → eligible v r e →
            bits (vec.getV odd) (r * v.rowBits (.near d.toNat) + e / 32 * 8) 8 = (v.source a).scale r e))) ∧
  (∀ (g : Guard) (m : VMod) (d : VReg) (a b : XReg) (s : State), takenAtOnce s (.vins g m d a b) →
    let i := Instr.vins g m d a b
    let v := envOf s i
    let p := (xOf s b).toNat
    let w := fmtWidth (v.tag d).fmt
    (p < v.positions → v.tooLong [d] w = false →
      completesAs s i none fun vec fl => fl = .none ∧ onlyNear v.vec vec [d.toNat] ∧ vec.vtags = v.vec.vtags ∧
        ∀ r < v.rows, ∀ e < v.e.vl, elemOf v vec d w r e =
          if r * v.e.vl + e ≠ p ∨ p < v.e.start then elemOf v v.vec d w r e
          else if v.e.vl - v.e.vtail ≤ e then 0
          else if v.guard r e then (xOf s a).toNat % 2 ^ w
          else if m.zm then 0 else elemOf v v.vec d w r e) ∧
    (v.positions ≤ p → exec i s = .next (faultsAs s i v.vec 0x04))) ∧
  (∀ (g : Guard) (m : VMod) (d : XReg) (a : VReg) (b : XReg) (s : State), takenAtOnce s (.vextr g m d a b) →
    let i := Instr.vextr g m d a b
    let v := envOf s i
    let p := (xOf s b).toNat
    let t := (v.tag a).fmt
    let c := (v.source a).code (p / v.e.vl) (p % v.e.vl)
    (v.vec.guard00 v.klen g = false → exec i s = .next (passedOver s)) ∧
    (v.vec.guard00 v.klen g = true → p < v.positions → exec i s = .next (performedAs s i v.vec .none
      (some (d, if fmtKind t = .signed ∧ 2 ^ (fmtWidth t - 1) ≤ c then BitVec.ofInt 64 ((c : Int) - (2 ^ fmtWidth t : Nat))
        else BitVec.ofNat 64 c)))) ∧
    (v.vec.guard00 v.klen g = true → v.positions ≤ p → exec i s = .next (faultsAs s i v.vec 0x04)))

/-- The reductions, VARGMAX and VDOT deliver one result per row, to element 0 of each row or to an x register. -/
def Obligations.ReductionResults : Prop :=
  (∀ p ∈ reductions, ∀ (g : Guard) (m : VMod) (d : BitVec 6) (a : VReg) (sc : Bool) (s : State),
    takenAtOnce s (p.1 g m d a sc) →
    let i := p.1 g m d a sc
    let v := envOf s i
    let ta := v.tag a
    (∀ t, v.pairOk a = true → accFmt p.2 m.w ta.blk ta.fmt = some t → (sc = true → v.e.rc = 0) →
      wholeFits v (if sc then [a] else [d, a]) (max (fmtWidth ta.fmt) (fmtWidth t)) →
      deliversRows s i m d sc t
        (fun c => if fmtKind t = .signed ∧ 2 ^ (fmtWidth t - 1) ≤ c then BitVec.ofInt 64 ((c : Int) - (2 ^ fmtWidth t : Nat))
          else BitVec.ofNat 64 c)
        fun r =>
          if fmtIsFloat t then
            treeF p.2 t ((List.range v.e.vl).map fun e => if v.eligible r e then (v.source a).valAt m.repa r e else identityF p.2 t)
          else (intReduction p.2 t ((eligibleOf v r).map fun e => (v.source a).intAt m.repa r e), .none)) ∧
    (v.pairOk a = false ∨ accFmt p.2 m.w ta.blk ta.fmt = none → exec i s = .next (faultsAs s i v.vec 0x03))) ∧
  (∀ (g : Guard) (m : VMod) (d : BitVec 6) (a : VReg) (sc : Bool) (s : State), takenAtOnce s (.vargmax g m d a sc) →
    let i := Instr.vargmax g m d a sc
    let v := envOf s i
    let wa := fmtWidth (v.tag a).fmt
    let above (r e f : Nat) : Bool := rankLt ((v.source a).valAt m.repa r f) ((v.source a).valAt m.repa r e)
    v.pairOk a = true → (sc = true → v.e.rc = 0) →
      wholeFits v (if sc then [a] else [d, a]) (if sc then wa else max wa 32) →
      ∃ best : Nat → Nat,
        (∀ r < v.rows,
          (eligibleOf v r = [] → best r = if sc then 2 ^ 64 - 1 else 2 ^ 32 - 1) ∧
          (eligibleOf v r ≠ [] → best r ∈ eligibleOf v r ∧
            (∀ e ∈ eligibleOf v r, above r e (best r) = false) ∧
            ∀ e ∈ eligibleOf v r, e < best r → above r (best r) e = true)) ∧
        deliversRows s i m d sc .n32 (BitVec.ofNat 64) fun r => (best r, .none)) ∧
  (∀ (g : Guard) (m : VMod) (d : BitVec 6) (a b : VReg) (sc : Bool) (s : State), takenAtOnce s (.vdot g m d a b sc) →
    let i := Instr.vdot g m d a b sc
    let v := envOf s i
    let ta := v.tag a
    let tb := v.tag b
    ∀ t, v.pairOk a = true → v.pairOk b = true → tb.fmt = ta.fmt → accFmt .sum m.w (ta.blk || tb.blk) ta.fmt = some t →
      (sc = true → v.e.rc = 0) → wholeFits v (if sc then [a, b] else [d, a, b]) (max (fmtWidth ta.fmt) (fmtWidth t)) →
      deliversRows s i m d sc t
        (fun c => if fmtKind t = .signed ∧ 2 ^ (fmtWidth t - 1) ≤ c then BitVec.ofInt 64 ((c : Int) - (2 ^ fmtWidth t : Nat))
          else BitVec.ofNat 64 c)
        fun r =>
          let product (e : Nat) : Flagged FVal :=
            if v.eligible r e then mulVals ((v.source a).valAt m.repa r e) ((v.source b).valAt m.repb r e) else (.zero true, .none)
          if fmtIsFloat t then
            let q := treeF .sum t ((List.range v.e.vl).map fun e => (product e).1)
            (q.1, (List.range v.e.vl).foldl (fun f e => f.or (product e).2) q.2)
          else (intReduction .sum t ((eligibleOf v r).map fun e =>
            (v.source a).intAt m.repa r e * (v.source b).intAt m.repb r e), .none))

/-- VGATHR, VSLIDEUP, VSLIDEDN, VCOMPRESS, VEXPAND, VIOTA and VTRANSP move codes between positions as their entries say. -/
def Obligations.PermutationResults : Prop :=
  let legal (v : Env) (a : VReg) (fields : List VReg) (w : Nat) : Prop :=
    (v.tag a).blk = false ∧ wholeFits v fields (max w (fmtWidth (v.tag a).fmt))
  (∀ (g : Guard) (m : VMod) (d a b : VReg) (s : State), takenAtOnce s (.vgathr g m d a b) →
    let i := Instr.vgathr g m d a b
    let v := envOf s i
    legal v a [d, a, b] (fmtWidth (v.tag b).fmt) → (v.tag b).blk = false → fmtKind (v.tag b).fmt = .unsigned →
      permutesTo s i m d (v.tag a).fmt fun r e =>
        if v.guard r e then
          let p := repAt m.repa r ((v.source b).codeAt m.repb r e)
          some (if p.2 < v.e.vl then (v.source a).code p.1 p.2 else 0)
        else none) ∧
  (∀ (g : Guard) (m : VMod) (d a : VReg) (b : XReg) (s : State),
    let n := (xOf s b).toNat
    (takenAtOnce s (.vslideup g m d a b) →
      let i := Instr.vslideup g m d a b
      let v := envOf s i
      legal v a [d, a] 4 → permutesTo s i m d (v.tag a).fmt fun r e =>
        if v.guard r e then some (if e < n then 0 else (v.source a).codeAt m.repa r (e - n)) else none) ∧
    (takenAtOnce s (.vslidedn g m d a b) →
      let i := Instr.vslidedn g m d a b
      let v := envOf s i
      legal v a [d, a] 4 → permutesTo s i m d (v.tag a).fmt fun r e =>
        if v.guard r e then some (if e + n < v.e.vl then (v.source a).codeAt m.repa r (e + n) else 0) else none)) ∧
  (∀ (g : Guard) (m : VMod) (d a : VReg) (k : KReg) (s : State),
    (takenAtOnce s (.vcompress g m d a k) →
      let i := Instr.vcompress g m d a k
      let v := envOf s i
      legal v a [d, a] 4 → permutesTo s i m d (v.tag a).fmt fun r e =>
        some ((((eligibleOf v r).filter fun x => predBit v k r x).map fun x => (v.source a).codeAt m.repa r x).getD e 0)) ∧
    (takenAtOnce s (.vexpand g m d a k) →
      let i := Instr.vexpand g m d a k
      let v := envOf s i
      legal v a [d, a] 4 → permutesTo s i m d (v.tag a).fmt fun r e =>
        if v.guard r e ∧ predBit v k r e = true then
          some ((v.source a).codeAt m.repa r (((List.range e).filter fun x => predBit v k r x).length))
        else none)) ∧
  (∀ (g : Guard) (m : VMod) (d : VReg) (k : KReg) (s : State), takenAtOnce s (.viota g m d k) →
    let i := Instr.viota g m d k
    let v := envOf s i
    fmtIsFloat v.e.vtag = false → v.e.vblk = false → wholeFits v [d] (fmtWidth v.e.vtag) →
      permutesTo s i m d v.e.vtag fun r e =>
        if v.guard r e then some (((List.range e).filter fun x => predBit v k r x).length) else none) ∧
  (∀ (g : Guard) (m : VMod) (d a : VReg) (s : State), takenAtOnce s (.vtransp g m d a) →
    let i := Instr.vtransp g m d a
    let v := envOf s i
    legal v a [d, a] 4 → v.e.vl % v.rows = 0 → permutesTo s i m d (v.tag a).fmt fun c e =>
      if v.guard c e then
        let p := e / v.rows * v.rows + c
        some (if v.e.vl - v.e.vtail ≤ p then 0 else (v.source a).codeAt m.repa (e % v.rows) p)
      else none)

/-- VSMAX leaves the four words of the online softmax state per row, VTOPK the k best elements and their indices. -/
def Obligations.SoftmaxAndTopKResults : Prop :=
  (∀ (g : Guard) (m : VMod) (d a : VReg) (s : State), takenAtOnce s (.vsmax g m d a) →
    let i := Instr.vsmax g m d a
    let v := envOf s i
    let legal := v.pairOk a = true ∧ fmtIsFloat (v.tag a).fmt = true ∧ v.tag d = ⟨.fp32, false⟩
    let row (r : Nat) : List Nat × Flags := smaxRow ((v.source d).val r 0) ((v.source d).val r 1)
      ((List.range v.e.vl).map fun e => if v.eligible r e then some ((v.source a).valAt m.repa r e) else none)
    (legal → wholeFits v [d, a] 32 → completesAs s i none fun vec fl =>
      fl = (List.range v.rows).foldl (fun f r => f.or (row r).2) Flags.none ∧
      vec.tagV d.toNat = ⟨.fp32, false⟩ ∧ onlyNear v.vec vec [d.toNat] ∧
      ∀ r < v.rows, ∀ e < 4, 32 * (e + 1) ≤ v.rowBits (.near d.toNat) → elemOf v vec d 32 r e = (row r).1.getD e 0 % 2 ^ 32) ∧
    (¬legal → exec i s = .next (faultsAs s i v.vec 0x03))) ∧
  (∀ (g : Guard) (m : VMod) (d a : VReg) (b : XReg) (s : State), takenAtOnce s (.vtopk g m d a b) → d.toNat % 2 = 0 →
    let i := Instr.vtopk g m d a b
    let v := envOf s i
    let t := (v.tag a).fmt
    let k := (xOf s b).toNat
    let legal := (v.tag a).blk = false
    (legal → 0 < k → k ≤ min v.e.vl 1024 → wholeFits v [d, a] (max (fmtWidth t) 32) → completesAs s i none fun vec fl =>
      fl = .none ∧ vec.tagV d.toNat = ⟨t, false⟩ ∧ vec.tagV (d.toNat + 1) = ⟨.n32, false⟩ ∧
      onlyNear v.vec vec [d.toNat, d.toNat + 1] ∧
      ∀ r < v.rows,
        let best := topk (fun e => (v.source a).valAt m.repa r e) k (eligibleOf v r)
        let worst := if fmtIsFloat t then (roundVal (identityF .max t) t .rne 0).1 else codeOf t (lowest t)
        ∀ e < k,
          elemOf v vec d (fmtWidth t) r e = ((best.map fun x => (v.source a).codeAt m.repa r x).getD e worst) % 2 ^ fmtWidth t ∧
          bits (vec.getV (d.toNat + 1)) (r * v.rowBits (.near d.toNat) + e * 32) 32 = (best.getD e (2 ^ 32 - 1)) % 2 ^ 32) ∧
    (legal → k = 0 ∨ min v.e.vl 1024 < k → exec i s = .next (faultsAs s i v.vec 0x04)) ∧
    (¬legal → exec i s = .next (faultsAs s i v.vec 0x03)))

namespace Sys2Proof.Say

/-- The guard of a whole instruction at its place in the queue (R72). -/
def wholeGuard (s : State) (i : Instr) (g : Guard) : Bool := (envOf s i).vec.guard00 (envOf s i).klen g

/-- Which conditions hold of two scalar values (R85). -/
def holds : Cond → Word → Word → Bool
  | .eq, a, b => decide (a.toNat = b.toNat)
  | .ne, a, b => decide (a.toNat ≠ b.toNat)
  | .lt, a, b => decide (a.toInt < b.toInt)
  | .ge, a, b => decide (b.toInt ≤ a.toInt)
  | .le, a, b => decide (a.toInt ≤ b.toInt)
  | .gt, a, b => decide (b.toInt < a.toInt)
  | .ltu, a, b => decide (a.toNat < b.toNat)
  | .geu, a, b => decide (b.toNat ≤ a.toNat)
  | .leu, a, b => decide (a.toNat ≤ b.toNat)
  | .gtu, a, b => decide (b.toNat < a.toNat)
  | .un, _, _ => false
  | .ord, _, _ => true

/-- All-true or all-false, `n` bits. -/
def allOf (n : Nat) (b : Bool) : Nat := if b then 2 ^ n - 1 else 0

/-- The instruction, taken at once, leaves these vector registers when its guard holds and nothing but its issue else. -/
def predicatesBecome (s : State) (i : Instr) (g : Guard) (want : VecRegs → Prop) : Prop :=
  (wholeGuard s i g = false → exec i s = .next (passedOver s)) ∧
  (wholeGuard s i g = true → ∃ vec, exec i s = .next (performedAs s i vec .none none) ∧ want vec)

/-- The core's dirty L1 sectors are written back (R253, R257). -/
def flushed (s : State) : State := s.flushCore s.hart.core

/-- They are, and what the hart has read ahead is read again (R252). -/
def fenced (s : State) : State := s.fenceNear

/-- Nothing but predicates and PLIVE differs. -/
def onlyPredicates (a b : VecRegs) : Prop := b = { a with k := b.k, plive := b.plive }

end Sys2Proof.Say

/-- CMP, CMPI, KLOG, KSET, KFROMX, KDEAD and MTS of PLIVE leave the predicates their entries give, and nothing else. -/
def Obligations.PredicateWriterResults : Prop :=
  (∀ (g : Guard) (c : Cond) (d : KReg) (a b : XReg) (s : State), takenAtOnce s (.cmp g c d a b) →
    let v := envOf s (.cmp g c d a b)
    let t := holds c (xOf s a) (xOf s b)
    predicatesBecome s (.cmp g c d a b) g fun vec =>
      vec = (v.vec.setK d (allOf v.klen t)).setK (d + 1) (allOf v.klen !t)) ∧
  (∀ (g : Guard) (c : Cond) (d : KReg) (a : XReg) (imm : BitVec 17) (s : State), takenAtOnce s (.cmpi g c d a imm) →
    let v := envOf s (.cmpi g c d a imm)
    let t := holds c (xOf s a) (BitVec.ofInt 64 imm.toInt)
    predicatesBecome s (.cmpi g c d a imm) g fun vec =>
      vec = (v.vec.setK d (allOf v.klen t)).setK (d + 1) (allOf v.klen !t)) ∧
  (∀ (g : Guard) (d a b c : KReg) (table : BitVec 8) (s : State), takenAtOnce s (.klog g d a b c table) →
    let v := envOf s (.klog g d a b c table)
    let bit (p : KReg) (j : Nat) : Nat := if bitAt (v.vec.getK v.klen p) j then 1 else 0
    predicatesBecome s (.klog g d a b c table) g fun vec => ∃ K : Nat, vec = v.vec.setK d K ∧
      ∀ j < v.klen, bitAt K j = table.getLsbD (4 * bit a j + 2 * bit b j + bit c j)) ∧
  (∀ (g : Guard) (d : KReg) (a : XReg) (s : State), takenAtOnce s (.kset g d a) →
    let v := envOf s (.kset g d a)
    v.e.vl * v.rows ≤ v.klen →
    predicatesBecome s (.kset g d a) g fun vec => ∃ K : Nat, vec = v.vec.setK d K ∧
      ∀ r < v.rows, ∀ e < v.klen / v.rows,
        bitAt K (kpos v.klen v.e.rc r e) = decide (e < v.e.vl ∧ r * v.e.vl + e < (xOf s a).toNat)) ∧
  (∀ (g : Guard) (d : KReg) (a b : XReg) (s : State), takenAtOnce s (.kfromx g d a b) →
    let i := Instr.kfromx g d a b
    let v := envOf s i
    let w := (xOf s b).toNat
    (w < v.vlenb / 32 → predicatesBecome s i g fun vec =>
      vec = v.vec.setK d (putBits (v.vec.getK v.klen d) (64 * w) 64 (xOf s a).toNat)) ∧
    (v.vlenb / 32 ≤ w → wholeGuard s i g = false → exec i s = .next (passedOver s)) ∧
    (v.vlenb / 32 ≤ w → wholeGuard s i g = true → exec i s = .next (faultsAs s i v.vec 0x04))) ∧
  (∀ (g : Guard) (mask : BitVec 16) (s : State), takenAtOnce s (.kdead g mask) →
    let v := envOf s (.kdead g mask)
    predicatesBecome s (.kdead g mask) g fun vec => onlyPredicates v.vec vec ∧
      ∀ p : KReg, vec.plive.getLsbD p.toNat = (decide (p = 0) || (v.vec.plive.getLsbD p.toNat && !mask.getLsbD p.toNat)) ∧
        vec.getK v.klen p = if p ≠ 0 ∧ mask.getLsbD p.toNat = true then 0 else v.vec.getK v.klen p) ∧
  (∀ (g : Guard) (a : XReg) (s : State), takenAtOnce s (.mts g .plive a) →
    let v := envOf s (.mts g .plive a)
    predicatesBecome s (.mts g .plive a) g fun vec => onlyPredicates v.vec vec ∧
      vec.plive = (BitVec.ofNat 16 (xOf s a).toNat ||| 1) ∧
      ∀ p : KReg, vec.getK v.klen p =
        if p ≠ 0 ∧ vec.plive.getLsbD p.toNat ≠ v.vec.plive.getLsbD p.toNat then 0 else v.vec.getK v.klen p)

/-- KTEST, KFIRST and KTOX answer from predicate bits, VTAG writes tags, FENCE.VS and FENCE.VV pass. -/
def Obligations.PredicateReaderResults : Prop :=
  let before (v : Env) (e : Nat) : Prop := e < v.e.vl - v.e.vtail
  (∀ (g : Guard) (t : KTest) (d : XReg) (a : KReg) (s : State), takenAtOnce s (.ktest g t d a) →
    let i := Instr.ktest g t d a
    let v := envOf s i
    let some_ (b : Bool) : Prop := ∃ r < v.rows, ∃ e, before v e ∧ predBit v a r e = b
    (wholeGuard s i g = false → exec i s = .next (passedOver s)) ∧
    (wholeGuard s i g = true → ∃ w : Word, exec i s = .next (performedAs s i v.vec .none (some (d, w))) ∧ (w = 0 ∨ w = 1) ∧
      (w = 1 ↔ match t with
        | .any => some_ true
        | .all => ¬some_ false
        | .none => ¬some_ true))) ∧
  (∀ (g : Guard) (d : XReg) (a : KReg) (s : State), takenAtOnce s (.kfirst g d a) →
    let i := Instr.kfirst g d a
    let v := envOf s i
    (wholeGuard s i g = false → exec i s = .next (passedOver s)) ∧
    (wholeGuard s i g = true → ∃ w : Word, exec i s = .next (performedAs s i v.vec .none (some (d, w))) ∧
      ((∀ r < v.rows, ∀ e, before v e → predBit v a r e = false) → w = BitVec.allOnes 64) ∧
      ∀ r < v.rows, ∀ e, before v e → predBit v a r e = true →
        (∀ r' ≤ r, ∀ e', before v e' → r' * v.e.vl + e' < r * v.e.vl + e → predBit v a r' e' = false) →
        w = BitVec.ofNat 64 (r * v.e.vl + e))) ∧
  (∀ (g : Guard) (d : XReg) (a : KReg) (b : XReg) (s : State), takenAtOnce s (.ktox g d a b) →
    let i := Instr.ktox g d a b
    let v := envOf s i
    let w := (xOf s b).toNat
    (wholeGuard s i g = false → exec i s = .next (passedOver s)) ∧
    (wholeGuard s i g = true → w < v.vlenb / 32 →
      exec i s = .next (performedAs s i v.vec .none (some (d, BitVec.ofNat 64 (bits (v.vec.getK v.klen a) (64 * w) 64))))) ∧
    (wholeGuard s i g = true → v.vlenb / 32 ≤ w → exec i s = .next (faultsAs s i v.vec 0x04))) ∧
  (∀ (g : Guard) (d : VReg) (t : Fmt) (blk : Bool) (s : State), takenAtOnce s (.vtag g d t blk) →
    let i := Instr.vtag g d t blk
    let v := envOf s i
    let bad := blk = true ∧ (d.toNat % 2 = 1 ∨ t.blockOk = false)
    (bad → exec i s = .next (faultsAs s i v.vec 0x03)) ∧
    (¬bad → wholeGuard s i g = false → exec i s = .next (passedOver s)) ∧
    (¬bad → wholeGuard s i g = true → ∃ vec, exec i s = .next (performedAs s i vec .none none) ∧
      vec = { v.vec with vtags := vec.vtags } ∧
      ∀ n < 64, vec.tagV n = if n = d.toNat then ⟨t, blk⟩ else if blk = true ∧ n = d.toNat + 1 then .n8 else v.vec.tagV n)) ∧
  (∀ (g : Guard) (s : State),
    (takenAtOnce s (.fenceVs g) →
      (wholeGuard s (.fenceVs g) g = false → exec (.fenceVs g) s = .next (passedOver s)) ∧
      (wholeGuard s (.fenceVs g) g = true → exec (.fenceVs g) s =
        .next (fenced (performedAs s (.fenceVs g) (envOf s (.fenceVs g)).vec .none none)))) ∧
    (takenAtOnce s (.fenceVv g) →
      let t := performedAs s (.fenceVv g) (envOf s (.fenceVv g)).vec .none none
      (wholeGuard s (.fenceVv g) g = false → exec (.fenceVv g) s = .next (passedOver s)) ∧
      (wholeGuard s (.fenceVv g) g = true →
        exec (.fenceVv g) s = .next (fenced { t with hart := { t.hart with eng := t.hart.eng.map fun q =>
          { q with cmds := q.cmds.map fun c => { c with fences := c.fences - 1 } } } }))))

namespace Sys2Proof.Say

/-- Word (m, n) of a tile. -/
def tileWord (vec : VecRegs) (z : ZReg) (m n : Nat) : Nat := bits (vec.getZ z) (32 * (128 * m + n)) 32

/-- Only the tile `d` differs: its words where `written` says so become `word`. -/
def onlyTile (a b : VecRegs) (d : ZReg) (written : Nat → Nat → Prop) (word : Nat → Nat → Nat) : Prop :=
  b = { a with z := b.z, zdirty := b.zdirty } ∧ (∀ z, z ≠ d → b.getZ z = a.getZ z) ∧
  ∀ m < 128, ∀ n < 128, (written m n → tileWord b d m n = word m n % 2 ^ 32) ∧ (¬written m n → tileWord b d m n = tileWord a d m n)

/-- The flags of that step: those of its products and of its rounding; a NaN in the accumulator sets none (R57). -/
def rankFlags (c : Nat) (terms : List (Flagged FVal)) : Flags :=
  if terms.isEmpty then .none
  else
    let z := decodeFloat .fp32 c
    terms.foldl (fun f t => f.or t.2) (roundF (sumVals ((if z.isNan then .qnan else z) :: terms.map Prod.fst) .rne) .fp32 .rne 0).2

/-- Flags over the elements of `steps` rank-k steps of a tile, `rows` by `cols`. -/
def tileFlags (steps rows cols : Nat) (f : Nat → Nat → Nat → Flags) : Flags :=
  (List.range steps).foldl (fun g j => (List.range rows).foldl (fun g m => (List.range cols).foldl (fun g n => g.or (f j m n)) g) g) .none

/-- One rank-k step of one element: its terms and the accumulator, exact, rounded once to FP32 (R57, R206); with no term
nothing happens. -/
def rankStep (c : Nat) (terms : List FVal) : Nat :=
  if terms.isEmpty then c
  else
    let z := decodeFloat .fp32 c
    (roundF (sumVals ((if z.isNan then .qnan else z) :: terms) .rne) .fp32 .rne 0).1 % 2 ^ 32

end Sys2Proof.Say

/-- ZOPA and ZOPA.L add rank-k products to each element of a tile, rounded once per step; nothing else changes. -/
def Obligations.OuterProductResults : Prop :=
  (∀ (g : Guard) (rne : Bool) (d : ZReg) (a b : VReg) (s : State), takenAtOnce s (.zopa g rne d a b) →
    let i := Instr.zopa g rne d a b
    let v := envOf s i
    let vl := v.e.vl
    let h := vl / 2
    (∀ k, v.pairOk a = true → v.pairOk b = true → zopaDepth (v.tag a) (v.tag b) = some k →
      vl % 2 = 0 → h % k = 0 → h ≤ 128 * k → v.e.vtail = 0 → (v.e.start % vl = 0 ∨ v.positions ≤ v.e.start) →
      v.tooLong [a, b] (max (fmtWidth (v.tag a).fmt) (fmtWidth (v.tag b).fmt)) = false →
      let terms (r m n : Nat) : List (Flagged FVal) := (List.range k).filterMap fun t =>
        if v.guard r (m * k + t) = true ∧ v.guard r (h + (n * k + t)) = true then
          some (mulVals ((v.source a).val r (m * k + t)) ((v.source b).val r (n * k + t)))
        else none
      let after (rows m n : Nat) : Nat := (List.range rows).foldl (fun c r =>
        if r * vl < v.e.start then c else rankStep c ((terms r m n).map Prod.fst)) (tileWord v.vec d m n)
      ∃ vec fl, exec i s = .next (performedAs s i vec fl none) ∧
        fl = tileFlags v.rows (h / k) (h / k) (fun r m n => if r * vl < v.e.start then .none else rankFlags (after r m n) (terms r m n)) ∧
        onlyTile v.vec vec d (fun m n => m < h / k ∧ n < h / k) fun m n => after v.rows m n) ∧
    (v.pairOk a = false ∨ v.pairOk b = false ∨ zopaDepth (v.tag a) (v.tag b) = none →
      exec i s = .next (faultsAs s i v.vec 0x03))) ∧
  (∀ (g : Guard) (rne : Bool) (d : ZReg) (a b : XReg) (s : State), takenAtOnce s (.zopaL g rne d a b) →
    let i := Instr.zopaL g rne d a b
    let v := envOf s i
    let p := panelOf (xOf s a)
    let q := panelOf (xOf s b)
    let lstore := s.lstoreOf s.hart.kern
    (wholeGuard s i g = false → exec i s = .next (passedOver s)) ∧
    (wholeGuard s i g = true → ∀ k, zopaDepth p.tag q.tag = some k →
      p.blockOk k = true → q.blockOk k = true → p.steps = q.steps →
      p.bytes k ≤ 64 * p.rpitch → q.bytes k ≤ 64 * q.rpitch → p.inside k lstore = true → q.inside k lstore = true →
      let terms (j m n : Nat) : List (Flagged FVal) := (List.range k).map fun t =>
        mulVals (p.val (p.step s.ms s.hart.grp k j) (m * k + t)) (q.val (q.step s.ms s.hart.grp k j) (n * k + t))
      let after (steps m n : Nat) : Nat :=
        (List.range steps).foldl (fun c j => rankStep c ((terms j m n).map Prod.fst)) (tileWord v.vec d m n)
      ∃ vec fl, exec i s = .next (performedAs s i vec fl none) ∧
        fl = tileFlags p.steps p.ext q.ext (fun j m n => rankFlags (after j m n) (terms j m n)) ∧
        onlyTile v.vec vec d (fun m n => m < p.ext ∧ n < q.ext) fun m n => after p.steps m n) ∧
    (wholeGuard s i g = true → zopaDepth p.tag q.tag = none → exec i s = .next (faultsAs s i v.vec 0x03)))

/-- ZZERO clears a tile, ZFILL writes rows of it from a vector register, ZDRAIN rounds rows of it into one. -/
def Obligations.TileFillDrainResults : Prop :=
  (∀ (g : Guard) (d : ZReg) (s : State), takenAtOnce s (.zzero g d) →
    let i := Instr.zzero g d
    let v := envOf s i
    (wholeGuard s i g = false → exec i s = .next (passedOver s)) ∧
    (wholeGuard s i g = true → ∃ vec, exec i s = .next (performedAs s i vec .none none) ∧
      onlyTile v.vec vec d (fun _ _ => True) fun _ _ => 0)) ∧
  (∀ (g : Guard) (zm : Bool) (d : ZReg) (a : VReg) (b : XReg) (s : State), takenAtOnce s (.zfill g zm d a b) →
    let i := Instr.zfill g zm d a b
    let v := envOf s i
    let row0 := (xOf s b).toNat
    (v.pairOk a = true → v.e.vl ≤ 128 → row0 + v.rows ≤ 128 → v.tooLong [a] (max (fmtWidth (v.tag a).fmt) 32) = false →
      ∃ vec fl, exec i s = .next (performedAs s i vec fl none) ∧
        onlyTile v.vec vec d
          (fun m e => row0 ≤ m ∧ m < row0 + v.rows ∧ e < v.e.vl ∧ v.e.start ≤ (m - row0) * v.e.vl + e ∧
            (v.e.vl - v.e.vtail ≤ e ∨ v.guard (m - row0) e = true ∨ zm = true))
          (fun m e =>
            if v.e.vl - v.e.vtail ≤ e then 0
            else if v.guard (m - row0) e then (convFloat ((v.source a).val (m - row0) e) .fp32 .rne 0 false).1
            else 0) ∧
        fl = flagsOver v fun r e => (convFloat ((v.source a).val r e) .fp32 .rne 0 false).2) ∧
    (v.pairOk a = true → (128 < v.e.vl ∨ 128 < row0 + v.rows) → exec i s = .next (faultsAs s i v.vec 0x04))) ∧
  (∀ (g : Guard) (rm : Rm) (zm : Bool) (d : VReg) (a : ZReg) (b : XReg) (s : State), takenAtOnce s (.zdrain g rm zm d a b) →
    let i := Instr.zdrain g rm zm d a b
    let v := envOf s i
    let row0 := (xOf s b).toNat
    let t := v.e.vtag
    let legal := v.e.vblk = false ∧ t ∈ [Fmt.fp32, .fp16, .bf16, .e5m2, .e4m3]
    let tagged := if v.tooLong [d] 32 then v.vec else v.vec.setTagV d.toNat ⟨t, false⟩
    (legal → v.e.vl ≤ 128 → row0 + v.rows ≤ 128 → v.tooLong [d] 32 = false →
      sweptInto s i d ⟨t, false⟩ zm fun r e =>
        convFloat (decodeFloat .fp32 (tileWord v.vec a (row0 + r) e)) t (v.mode rm) (v.draw (v.mode rm) r e) false) ∧
    (¬legal → exec i s = .next (faultsAs s i tagged 0x03)) ∧
    (legal → (128 < v.e.vl ∨ 128 < row0 + v.rows) → exec i s = .next (faultsAs s i tagged 0x04)))

namespace Sys2Proof.Say

/-- What a front-end instruction does with an access: it goes on, reports the fault, or waits for a migration record. -/
def accessEnds {α : Type} (s : State) (i : Instr) (x : Acc α) (ok : α → Prop) : Prop :=
  match x with
  | .ok a => ok a
  | .fault f => exec i s = .next (s.frontFault f)
  | .held _ => exec i s = .next { s with hart := s.hart.waitFor .held }

/-- Memory in its canonical form; no cached sector, nothing older in the memory-side cache, nothing read ahead,
no host write still to come, no line in reduce state, no migration under way, no uncorrectable sector: memory is what `mem`
says. -/
def quietMemory (s : State) : Prop :=
  memoryOk s ∧ s.ms.l1 = [] ∧ s.ms.msc = [] ∧ s.ms.early = [] ∧ s.ms.outer = [] ∧ s.ms.reduce = [] ∧ s.ms.poison = [] ∧ s.lag.cache = false ∧ s.lag.clean = false ∧
    ∀ r ∈ s.ms.mig.recs.toList, r.st = .free ∨ r.st = .done

/-- Every part of an access lies in device memory, through a leaf whose accessed (and dirty) bits stand already. -/
def devicePlaced (s : State) (store : Bool) (ps : List Part) : Prop :=
  ∀ p ∈ ps, ∃ (pa : Nat) (l : Leaf), p.place = .device pa ∧ p.leaf = some l ∧ s.setAD l store = s

/-- The physical bytes a device part covers. -/
def covers (p : Part) (a : Nat) : Prop := match p.place with
  | .device pa => pa ≤ a ∧ a < pa + p.n
  | _ => False

/-- The bytes of the parts of an access, in order. -/
def bytesAt (m : Memory) (ps : List Part) : List Byte :=
  ps.flatMap fun p => match p.place with
    | .device pa => (List.range p.n).map fun j => Memory.byte m (pa + j)
    | _ => []

/-- The value of bytes, least significant first (R2). -/
def leValue : List Byte → Nat
  | [] => 0
  | b :: r => b.toNat + 256 * leValue r

/-- Bytes of a scalar width. -/
def widthOf : Width → Nat
  | .w8 => 1
  | .w16 => 2
  | .w32 => 4
  | .w64 => 8

/-- `n` bytes as a load delivers them to an x register. -/
def loaded (sx : Bool) (n v : Nat) : Word :=
  if sx = true ∧ 2 ^ (8 * n - 1) ≤ v then BitVec.ofInt 64 ((v : Int) - (2 ^ (8 * n) : Nat)) else BitVec.ofNat 64 v

/-- Acquire and release points of an ORD field. -/
def acquires (o : Ord) : Bool := decide (o = .acquire ∨ o = .acqRel)
def releases (o : Ord) : Bool := decide (o = .release ∨ o = .acqRel)

/-- A release of the front end can be performed at once: no earlier vector-queue entry, and at system scope no store without
its acknowledgement (R252, R265). -/
def releaseReady (s : State) (o : Ord) (sc : Scope) : Prop :=
  releases o = true → s.hart.vq = [] ∧ (sc = .system → s.unacked s.hart.owner = false)

/-- What LD needs of its address: natural alignment in acquire and release forms (R271). -/
def ldNeeds (o : Ord) (n : Nat) : Want :=
  { r := true, scalar := true, align := if acquires o || releases o then n else 1 }

def stNeeds (o : Ord) (n : Nat) : Want :=
  { w := true, scalar := true, align := if acquires o || releases o then n else 1 }

end Sys2Proof.Say

/-- LD checks its bytes at x[A], reads them and writes them to x[D]; from device memory it delivers them least significant first. -/
def Obligations.ScalarLoadResults : Prop :=
  ∀ (g : Guard) (w : Width) (sx : Bool) (o : Ord) (sc : Scope) (d a : XReg) (s : State),
    performs s (.ld g w sx o sc d a) g →
    let i := Instr.ld g w sx o sc d a
    let n := widthOf w
    let va := (xOf s a).toNat
    accessEnds s i (s.resolve s.agent (ldNeeds o n) va n) fun ps =>
      (accessEnds s i (s.scalarRead (!acquires o) va n ps) fun x =>
        let t := if acquires o then x.2.acquireAt sc else x.2
        exec i s = .next (goesOn t (t.hart.setX d (loadValue sx n x.1)) (s.hart.pc + 8))) ∧
      (quietMemory s → devicePlaced s false ps →
        exec i s = .next (goesOn s (s.hart.setX d (loaded sx n (leValue (bytesAt s.ms.mem ps)))) (s.hart.pc + 8)))

/-- ST writes the low bytes of x[D] at x[A], and every other byte of memory and every register stays; QSIG does so for x[B]. -/
def Obligations.ScalarStoreResults : Prop :=
  let stores (s : State) (i : Instr) (v : Nat) (ps : List Part) (after : State → State) : Prop :=
    ∃ m : Memory,
      (let t := after { s with ms := { s.ms with mem := m } }
       exec i s = .next (goesOn t t.hart (s.hart.pc + 8))) ∧
      (∀ a, (∀ p ∈ ps, ¬covers p a) → Memory.byte m a = Memory.byte s.ms.mem a) ∧
      ∀ p ∈ ps, ∀ pa j, p.place = .device pa → j < p.n → (∀ q ∈ ps, q ≠ p → ¬covers q (pa + j)) →
        Memory.byte m (pa + j) = BitVec.ofNat 8 (v / 2 ^ (8 * (p.off + j)) % 256)
  let anywhere (s : State) (i : Instr) (o : Ord) (sc : Scope) (n va v : Nat) (ps : List Part) (after : State → State) : Prop :=
    match (if releases o then s.frontReleaseWrite sc else some s) with
    | none => exec i s = .next { s with hart := s.hart.waitFor .fenceStk }
    | some t => accessEnds s i (t.scalarWrite (releases o && sc != .group) va n v ps) fun u =>
        exec i s = .next (goesOn (after u) (after u).hart (s.hart.pc + 8))
  (∀ (g : Guard) (w : Width) (o : Ord) (sc : Scope) (d a : XReg) (s : State), performs s (.st g w o sc d a) g →
    let i := Instr.st g w o sc d a
    let n := widthOf w
    accessEnds s i (s.resolve s.agent (stNeeds o n) (xOf s a).toNat n) fun ps =>
      anywhere s i o sc n (xOf s a).toNat (xOf s d).toNat ps id ∧
      (quietMemory s → devicePlaced s true ps → releaseReady s o sc → stores s i (xOf s d).toNat ps id)) ∧
  (∀ (g : Guard) (a b : XReg) (s : State), performs s (.qsig g a b) g →
    let i := Instr.qsig g a b
    let va := (xOf s a).toNat
    accessEnds s i (s.resolve { s.agent with grp := none } (stNeeds .release 8) va 8) fun ps =>
      anywhere s i .release .system 8 va (xOf s b).toNat ps (fun t => t.signalSector t.hart.ctx va) ∧
      (quietMemory s → devicePlaced s true ps → releaseReady s .release .system →
        stores s i (xOf s b).toNat ps fun t => t.signalSector t.hart.ctx va))

/-- A core that writes bytes of device memory, under any policy, reads exactly them back there and what it read before elsewhere. -/
def Obligations.StoredBytesReadBack : Prop :=
  ∀ (s : State) (core pa : Nat) (p : Part) (bs : List Byte) (a : Nat), memoryOk s → s.ms.reduce = [] →
    (s.nearPut core pa p bs).ms.nearByte core a false =
      if pa ≤ a ∧ a < pa + bs.length then bs.getD (a - pa) 0 else s.ms.nearByte core a false

namespace Sys2Proof.Say

/-- The signed value of `w` bits. -/
def signedOf (w v : Nat) : Int := if 2 ^ (w - 1) ≤ v then (v : Int) - (2 ^ w : Nat) else v

/-- The integer atomics: constructor, whether no AtomicOp carries it, and the new value of a word of `w` bits from the old one
and the operand (R286). -/
def atomicForms : List ((Guard → Bool → Ord → Scope → XReg → XReg → XReg → Instr) × Bool × (Nat → Nat → Nat → Nat)) :=
  [(.amoadd, false, fun w m x => (m + x) % 2 ^ w), (.amoand, true, fun _ m x => m &&& x), (.amoor, true, fun _ m x => m ||| x),
   (.amoxor, true, fun _ m x => m ^^^ x), (.amomin, true, fun w m x => if signedOf w x < signedOf w m then x else m),
   (.amomax, true, fun w m x => if signedOf w m < signedOf w x then x else m), (.amoswp, false, fun _ _ x => x)]

/-- What an atomic of `n` bytes needs of its address: R and W, natural alignment (R271, R272, R453). -/
def atomicNeeds (exotic : Bool) (n : Nat) : Want :=
  { r := true, w := true, atomic := true, scalar := true, exotic := exotic, align := n }

/-- An atomic of `n` bytes in quiet device memory: the bytes at `pa` become `new old`, x[D] takes the old value, and nothing
else changes but the flags `fl old`, pc and ISSUED. -/
def atomicLeaves (s : State) (i : Instr) (n pa : Nat) (d : XReg) (sx : Bool) (new : Nat → Nat) (fl : Nat → Flags) : Prop :=
  let old := leValue ((List.range n).map fun j => Memory.byte s.ms.mem (pa + j))
  ∃ m : Memory,
    exec i s = .next (goesOn { s with ms := { s.ms with mem := m } } ((s.hart.setX d (loaded sx n old)).orFlags (fl old)) (s.hart.pc + 8)) ∧
    ∀ a, Memory.byte m a =
      if pa ≤ a ∧ a < pa + n then BitVec.ofNat 8 (new old / 2 ^ (8 * (a - pa)) % 256) else Memory.byte s.ms.mem a

/-- The statement of an atomic: what its checks find is reported or waited for, and in quiet device memory it does its step. -/
def atomicDoes (s : State) (i : Instr) (o : Ord) (sc : Scope) (exotic : Bool) (n : Nat) (d a : XReg) (sx : Bool)
    (new : Nat → Nat) (fl : Nat → Flags) : Prop :=
  accessEnds s i (s.resolve s.agent (atomicNeeds exotic n) (xOf s a).toNat n) fun ps =>
    (match (if releases o then s.frontReleaseWrite sc else some s) with
      | none => exec i s = .next { s with hart := s.hart.waitFor .fenceStk }
      | some t => accessEnds s i (t.scalarAtomic (xOf s a).toNat n new ps) fun x =>
          let u := if acquires o then x.2.acquireAt sc else x.2
          exec i s = .next (goesOn u ((u.hart.setX d (loadValue sx n x.1)).orFlags (fl x.1)) (s.hart.pc + 8))) ∧
    ∀ p pa, ps = [p] → p.place = .device pa → quietMemory s → devicePlaced s true ps → releaseReady s o sc →
      atomicLeaves s i n pa d sx new fl

end Sys2Proof.Say

/-- Each scalar atomic writes its new value at x[A] and the old one to x[D], and changes no other byte, flag or register. -/
def Obligations.ScalarAtomicResults : Prop :=
  (∀ p ∈ atomicForms, ∀ (g : Guard) (w64 : Bool) (o : Ord) (sc : Scope) (d a b : XReg) (s : State),
    performs s (p.1 g w64 o sc d a b) g →
    let n := if w64 then 8 else 4
    atomicDoes s (p.1 g w64 o sc d a b) o sc p.2.1 n d a true
      (fun m => p.2.2 (8 * n) m ((xOf s b).toNat % 2 ^ (8 * n))) fun _ => .none) ∧
  (∀ (g : Guard) (w64 : Bool) (o : Ord) (sc : Scope) (d a b c : XReg) (s : State), performs s (.amocas g w64 o sc d a b c) g →
    let n := if w64 then 8 else 4
    atomicDoes s (.amocas g w64 o sc d a b c) o sc false n d a true
      (fun m => if m = (xOf s c).toNat % 2 ^ (8 * n) then (xOf s b).toNat % 2 ^ (8 * n) else m) fun _ => .none) ∧
  (∀ (g : Guard) (o : Ord) (sc : Scope) (d a b : XReg) (s : State), performs s (.amofadd g o sc d a b) g →
    let sum (m : Nat) : Flagged Nat := addF (decodeFmt .fp32 m) (decodeFmt .fp32 ((xOf s b).toNat % 2 ^ 32)) .fp32 .rne 0
    atomicDoes s (.amofadd g o sc d a b) o sc true 4 d a false (fun m => (sum m).1) fun m => (sum m).2)

/-- FENCE, FENCE.SV and FENCE.STK wait for what their entries name, then leave the core's writes in memory and go on. -/
def Obligations.FenceResults : Prop :=
  let waits (s : State) (i : Instr) : Prop := exec i s = .next { s with hart := s.hart.waitFor .fenceStk }
  (∀ (g : Guard) (o : Ord) (sc : Scope) (s : State), performs s (.fence g o sc) g →
    let t := if releases o then flushed s else s
    let u := if acquires o then t.acquireAt sc else t
    (s.hart.vq = [] → (releases o = true → sc = .system → s.unacked s.hart.owner = false) →
      exec (.fence g o sc) s = .next (goesOn u s.hart (s.hart.pc + 8))) ∧
    (s.hart.vq ≠ [] ∨ (releases o = true ∧ sc = .system ∧ s.unacked s.hart.owner = true) → waits s (.fence g o sc))) ∧
  (∀ (g : Guard) (s : State), performs s (.fenceSv g) g →
    (s.unacked s.hart.owner = false → exec (.fenceSv g) s = .next (goesOn (fenced s) s.hart (s.hart.pc + 8))) ∧
    (s.unacked s.hart.owner = true → waits s (.fenceSv g))) ∧
  (∀ (g : Guard) (mask : BitVec 16) (s : State), performs s (.fenceStk g mask) g →
    let covered (h : Hart) (p : FarPiece) : Bool := p.hart == h.no && mask.getLsbD p.stack
    let c := s.completeWanted (covered s.hart)
    let left := c.far.pieces.any (covered c.hart)
    let t := fenced c
    let u := if mask = 0 then t else t.dropClean
    (s.hart.vq = [] → left = false → c.unacked c.hart.owner = false →
      exec (.fenceStk g mask) s = .next (goesOn u u.hart (s.hart.pc + 8))) ∧
    (s.hart.vq ≠ [] ∨ left = true ∨ c.unacked c.hart.owner = true → waits s (.fenceStk g mask)) ∧
    ((∀ p ∈ s.far.pieces, p.hart = s.hart.no → mask.getLsbD p.stack = false) → c = s))

namespace Sys2Proof.Say

/-- The entry at the head of the queue is complete and leaves it; a hart that waited for its exit exits. -/
def finished (i : Instr) (t : State) : State :=
  (behind i { t with hart := { t.hart with vq := t.hart.vq.drop 1, owes := false } }).finishExit

/-- An address modulo 2^64 (R271). -/
def wrap64 (x : Int) : Nat := (x % (2 ^ 64 : Nat)).toNat

/-- Byte address of element (r, e) of width `w`, and the nibble of its first byte where its bits begin (R276). -/
def elementAt (v : Env) (form : Form) (w r e : Nat) : Nat × Nat :=
  let n := r * v.e.vl + e
  match form with
  | .contig => (wrap64 ((v.e.xa.toNat + n * w / 8 : Nat) : Int), n * w / 4 % 2)
  | .strided => (wrap64 (v.e.xa.toNat + n * v.e.xb.toInt), 0)
  | .indexed b => (wrap64 (v.e.xa.toNat + (v.source b).int r e), 0)

/-- Byte address of the scale byte of block `b` of row `r` (R277). -/
def blockScaleAt (v : Env) (w r b : Nat) : Nat :=
  wrap64 ((v.e.xa.toNat + v.positions * w / 8 + r * (v.e.vl / 32) + b : Nat) : Int)

/-- Bytes of an element of width `w`: a 4-bit element lies in one. -/
def bytesOf (w : Nat) : Nat := if w = 4 then 1 else w / 8

/-- Natural alignment in acquire and release forms, none else (R271). -/
def alignTo (o : Ord) (w : Nat) : Nat := if acquires o || releases o then bytesOf w else 1

/-- The tags and the register an indexed form takes offsets from (R276, R279, R122): which the entry admits. -/
def loadTagsOk (v : Env) (form : Form) (d : VReg) (ff : Bool) : Prop :=
  let w := fmtWidth v.e.vtag
  (v.e.vblk = true → form = .contig ∧ ff = false ∧ d.toNat % 2 = 0 ∧ v.e.vtag.blockOk = true) ∧
  (form ≠ .contig → w ≠ 4) ∧
  ∀ b, form = .indexed b → (v.tag b).blk = false ∧ fmtIsFloat (v.tag b).fmt = false ∧ fmtWidth (v.tag b).fmt ≠ 4

def offsetFields : Form → List VReg
  | .indexed b => [b]
  | _ => []

/-- The performed sweep positions, in order. -/
def performedPositions (v : Env) : List Nat :=
  ((List.range v.positions).filter fun n => decide (v.e.start ≤ n)).filter fun n => v.eligible (n / v.e.vl) (n % v.e.vl)

/-- The entry of `i`, alone in the queue, stops with a fault at sweep position `n` in the state `t`, which holds what the positions
below did: EINFO holds `n` and the entry starts there when it is entered again (R134, R436, R437). -/
def stopsAt (s : State) (i : Instr) (t : State) (f : FaultInfo) (n : Nat) : State :=
  let g := { f with info := BitVec.ofNat 64 n }
  let u := t.met (t.entryMaster (s.makeEntry i)) t.hart.core t.hart.ctx g
  { u with hart := { u.hart with vq := [{ s.makeEntry i with start := n, begun := none }], owes := false } }.takeFault g s.hart.pc t.hart.pc n

/-- The machine after a first-fault load that a fault at position `n` has trimmed (R281). -/
def trimmedTo (n : Nat) (f : FaultInfo) (s : State) (i : Instr) (t : State) : State :=
  let u := t.met (t.entryMaster (s.makeEntry i)) t.hart.core t.hart.ctx { f with info := BitVec.ofNat 64 n }
  { u with hart := { u.hart with ctl := { u.hart.ctl with vl := BitVec.ofNat 18 n, vtail := 0 } } }

/-- A fault trims a first-fault form where an element before it is performed (R280, R281). -/
def trims (v : Env) (ff : Bool) (f : FaultInfo) (n : Nat) : Prop :=
  ff = true ∧ (f.code = 0x05 ∨ f.code = 0x06 ∨ f.code = 0x07) ∧ ∃ x ∈ performedPositions v, x < n

/-- What a vector load does: `data r e` are the bytes of element (r, e), `scale r b` the scale byte of block b. It completes where
every performed element can be read; else the lowest position whose checks find a fault stops it, or trims it. -/
def loadDoes (s : State) (i : Instr) (m : MMod) (form : Form) (d : VReg) (ff : Bool) : Prop :=
  takenAtOnce s i →
  let v := envOf s i
  let u := issued s i
  let t : RegTag := ⟨v.e.vtag, v.e.vblk⟩
  let w := fmtWidth t.fmt
  let odd := d.toNat + 1
  let fields := d :: offsetFields form
  let wide := ((offsetFields form).map fun b => fmtWidth (v.tag b).fmt).foldl max w
  let plain := !acquires m.ord
  (loadTagsOk v form d ff → (ff = true → v.e.rc = 0) → v.tooLong fields wide = false →
    overlapBad ((offsetFields form).map fun b => v.use b .none) [v.ref d] w = false →
    ∀ (data : Nat → Nat → List Byte) (scale : Nat → Nat → Byte),
      let k : Want := { r := true, align := alignTo m.ord w }
      let readable (n : Nat) : Prop := ∀ r < v.rows, ∀ e < v.e.vl, v.e.start ≤ r * v.e.vl + e → r * v.e.vl + e < n → eligible v r e →
        u.readOn u.nearStream k plain (elementAt v form w r e).1 (bytesOf w) = .ok (data r e, u) ∧
        (t.blk = true → u.readOn u.nearStream { r := true } plain (blockScaleAt v w r (e / 32)) 1 = .ok ([scale r (e / 32)], u))
      let below (n : Nat) (vec : VecRegs) : Prop :=
        vec.tagV d.toNat = t ∧ (t.blk = true → vec.tagV odd = .n8) ∧
        onlyNear v.vec vec (if t.blk then [d.toNat, odd] else [d.toNat]) ∧
        (∀ r < v.rows, ∀ e < v.e.vl, elemOf v vec d w r e =
          if r * v.e.vl + e < v.e.start ∨ n ≤ r * v.e.vl + e then elemOf v v.vec d w r e
          else if v.e.vl - v.e.vtail ≤ e then 0
          else if v.guard r e then leValue (data r e) / 16 ^ (elementAt v form w r e).2 % 2 ^ w
          else elemOf v v.vec d w r e) ∧
        (t.blk = true → ∀ r < v.rows, ∀ e < v.e.vl, v.e.start ≤ r * v.e.vl + e → r * v.e.vl + e < n → eligible v r e →
          bits (vec.getV odd) (r * v.rowBits (.near d.toNat) + e / 32 * 8) 8 = (scale r (e / 32)).toNat)
      let ends (x : State) : State := if acquires m.ord then x.acquireAt m.scope else x
      (readable v.positions → ∃ vec, exec i s = .next (ends (performedAs s i vec .none none)) ∧ below v.positions vec) ∧
      ∀ n ∈ performedPositions v, ∀ f, readable n →
        u.checkSpans u.nearStream k (((elementAt v form w (n / v.e.vl) (n % v.e.vl)).1, bytesOf w) ::
          (if t.blk then [(blockScaleAt v w (n / v.e.vl) (n % v.e.vl / 32), 1)] else [])) = .fault f →
        ∃ vec, below n vec ∧
          (trims v ff f n → exec i s = .next (ends (trimmedTo n f s i (performedAs s i vec .none none)))) ∧
          (¬trims v ff f n → exec i s = .next (stopsAt s i { u with hart := { u.hart with vec := vec } } f n))) ∧
  (¬loadTagsOk v form d ff → exec i s = .next (faultsAs s i v.vec 0x03))

end Sys2Proof.Say

/-- VLD, VLDS, VLDX, VLDFF and VLDT by code table read each performed element; the lowest one whose checks fault stops them, or trims a first-fault form. -/
def Obligations.VectorLoadResults : Prop :=
  (∀ (g : Guard) (m : MMod) (d : VReg) (a : XReg) (s : State), loadDoes s (.vld g m d a) m .contig d false) ∧
  (∀ (g : Guard) (m : MMod) (d : VReg) (a b : XReg) (s : State), loadDoes s (.vlds g m d a b) m .strided d m.ff) ∧
  (∀ (g : Guard) (m : MMod) (d : VReg) (a : XReg) (b : VReg) (s : State), loadDoes s (.vldx g m d a b) m (.indexed b) d m.ff) ∧
  (∀ (g : Guard) (m : MMod) (d : VReg) (a : XReg) (s : State), loadDoes s (.vldff g m d a) m .contig d true) ∧
  (∀ (g : Guard) (m : MMod) (d : VReg) (a : XReg) (s : State), takenAtOnce s (.vldtCt g m d a) →
    let i := Instr.vldtCt g m d a
    let v := envOf s i
    let u := issued s i
    let t := v.e.vtag
    let legal := v.e.vblk = false ∧ t ∈ [Fmt.bf16, .fp16, .fp32]
    (legal → (m.ff = true → v.e.rc = 0) → v.tooLong [d] (fmtWidth t) = false →
      ∀ data : Nat → Nat → Byte,
        let entry (r e : Nat) : Flagged Nat :=
          let c := (v.e.bankVals.getD ((data r e).toNat / 16 ^ (elementAt v .contig 4 r e).2 % 16) 0).toNat
          if t = .bf16 then (c, .none) else convFloat (decodeFloat .bf16 c) t .rne 0 false
        let readable (n : Nat) : Prop := ∀ r < v.rows, ∀ e < v.e.vl, v.e.start ≤ r * v.e.vl + e → r * v.e.vl + e < n → eligible v r e →
          u.readOn u.nearStream { r := true } (!acquires m.ord) (elementAt v .contig 4 r e).1 1 = .ok ([data r e], u)
        let flags (n : Nat) : Flags :=
          ((performedPositions v).filter fun x => decide (x < n)).foldl (fun f x => f.or (entry (x / v.e.vl) (x % v.e.vl)).2) .none
        let below (n : Nat) (vec : VecRegs) : Prop :=
          vec.tagV d.toNat = ⟨t, false⟩ ∧ onlyNear v.vec vec [d.toNat] ∧
          ∀ r < v.rows, ∀ e < v.e.vl, elemOf v vec d (fmtWidth t) r e =
            if r * v.e.vl + e < v.e.start ∨ n ≤ r * v.e.vl + e then elemOf v v.vec d (fmtWidth t) r e
            else if v.e.vl - v.e.vtail ≤ e then 0
            else if v.guard r e then (entry r e).1 % 2 ^ fmtWidth t
            else elemOf v v.vec d (fmtWidth t) r e
        let ends (x : State) : State := if acquires m.ord then x.acquireAt m.scope else x
        (readable v.positions → ∃ vec, below v.positions vec ∧
          exec i s = .next (ends (performedAs s i vec (flags v.positions) none))) ∧
        ∀ n ∈ performedPositions v, ∀ f, readable n →
          u.checkSpans u.nearStream { r := true } [((elementAt v .contig 4 (n / v.e.vl) (n % v.e.vl)).1, 1)] = .fault f →
          ∃ vec, below n vec ∧
            (trims v m.ff f n → exec i s = .next (ends (trimmedTo n f s i (performedAs s i vec (flags n) none)))) ∧
            (¬trims v m.ff f n →
              exec i s = .next (stopsAt s i { u with hart := { u.hart with vec := vec }.orFlags (flags n) } f n))) ∧
    (¬legal → exec i s = .next (faultsAs s i v.vec 0x03)))

namespace Sys2Proof.Say

/-- The elements of the listed positions, stored one after the other. -/
def storeEach (v : Env) (form : Form) (q : Source) (k : Want) (st : Stream) : List Nat → State → Acc State
  | [], t => .ok t
  | n :: l, t =>
    let w := fmtWidth q.tag.fmt
    let r := n / v.e.vl
    let e := n % v.e.vl
    ((t.storeCode st k (elementAt v form w r e) w (q.code r e)).bind fun t =>
      if q.tag.blk then t.writeOn st { w := true, past := k.past } (blockScaleAt v w r (e / 32)) [BitVec.ofNat 8 (q.scale r e)] else .ok t).bind
        (storeEach v form q k st l)

/-- The tags a store admits (R276). -/
def storeTagsOk (v : Env) (form : Form) (a : VReg) : Prop :=
  (form ≠ .contig → (v.tag a).blk = false ∧ fmtWidth (v.tag a).fmt ≠ 4) ∧ v.pairOk a = true ∧
  ∀ b, form = .indexed b → (v.tag b).blk = false ∧ fmtIsFloat (v.tag b).fmt = false ∧ fmtWidth (v.tag b).fmt ≠ 4

/-- What a vector store does. -/
def storeDoes (s : State) (i : Instr) (m : MMod) (form : Form) (a : VReg) : Prop :=
  takenAtOnce s i →
  let v := envOf s i
  let q := v.source a
  let w := fmtWidth q.tag.fmt
  let past := releases m.ord && m.scope != .group
  let k : Want := { w := true, align := alignTo m.ord w, past := past }
  let wide := ((offsetFields form).map fun b => fmtWidth (v.tag b).fmt).foldl max w
  let spans (n : Nat) : List (Nat × Nat) :=
    ((elementAt v form w (n / v.e.vl) (n % v.e.vl)).1, bytesOf w) ::
      (if q.tag.blk then [(blockScaleAt v w (n / v.e.vl) (n % v.e.vl / 32), 1)] else [])
  (¬storeTagsOk v form a → exec i s = .next (faultsAs s i v.vec 0x03)) ∧
  (storeTagsOk v form a → v.tooLong (a :: offsetFields form) wide = false →
    ∀ u, (if releases m.ord then (issued s i).releaseWriteAt m.scope else some (issued s i)) = some u →
      let runs (l : List Nat) (t : State) : Prop :=
        (∀ n ∈ l, u.checkSpans u.nearStream k (spans n) = .ok ()) ∧
        (form = .contig ∨ m.ord = .ordered ∨ ∀ n ∈ l, ∀ n' ∈ l, n ≠ n' → ∀ p ∈ spans n, ∀ p' ∈ spans n', spanMeets p p' = false) ∧
        storeEach v form q k u.nearStream l u = .ok t
      (∀ t, runs (performedPositions v) t → exec i s = .next (finished i t)) ∧
      ∀ n ∈ performedPositions v, ∀ f t, u.checkSpans u.nearStream k (spans n) = .fault f →
        runs ((performedPositions v).filter fun x => decide (x < n)) t → exec i s = .next (stopsAt s i t f n)) ∧
  (storeTagsOk v form a → v.tooLong (a :: offsetFields form) wide = false → q.tag.blk = false → quietMemory s →
    (form = .contig ∨ m.ord = .ordered) → (releases m.ord = true → m.scope = .system → s.unacked s.hart.owner = false) →
    ∀ place : Nat → Nat,
      let mine (n b : Nat) : Prop := place n ≤ b ∧ b < place n + bytesOf w
      let outside (b : Nat) : Prop := ∀ n ∈ performedPositions v, ¬mine n b
      (∀ mem : Memory, (∀ b, outside b → Memory.byte mem b = Memory.byte s.ms.mem b) → ∀ n ∈ performedPositions v, ∃ l : Leaf,
        let u := { issued s i with ms := { s.ms with mem := mem } }
        u.resolve u.agent k (elementAt v form w (n / v.e.vl) (n % v.e.vl)).1 (bytesOf w) =
          .ok [⟨0, bytesOf w, .device (place n), some l⟩] ∧ u.setAD l true = u) →
      ∃ mem : Memory,
        (let t := performedAs s i v.vec .none none
         exec i s = .next { t with ms := { t.ms with mem := mem } }) ∧
        (∀ b, outside b → Memory.byte mem b = Memory.byte s.ms.mem b) ∧
        ∀ n ∈ performedPositions v,
          let nib (x : Nat) : Nat := (elementAt v form w (x / v.e.vl) (x % v.e.vl)).2
          (∀ n' ∈ performedPositions v, n' ≠ n → (∀ b, mine n b → ¬mine n' b) ∨ (w = 4 ∧ place n' = place n ∧ nib n' ≠ nib n)) →
          leValue ((List.range (bytesOf w)).map fun j => Memory.byte mem (place n + j)) / 16 ^ nib n % 2 ^ w =
            q.code (n / v.e.vl) (n % v.e.vl))

end Sys2Proof.Say

/-- VST, VSTS and VSTX store each performed element and leave every other byte as it was; the lowest one whose checks fault stops them. -/
def Obligations.VectorStoreResults : Prop :=
  (∀ (g : Guard) (m : MMod) (d : VReg) (a : XReg) (s : State), storeDoes s (.vst g m d a) m .contig d) ∧
  (∀ (g : Guard) (m : MMod) (d : VReg) (a b : XReg) (s : State), storeDoes s (.vsts g m d a b) m .strided d) ∧
  (∀ (g : Guard) (m : MMod) (d : VReg) (a : XReg) (b : VReg) (s : State), storeDoes s (.vstx g m d a b) m (.indexed b) d)

namespace Sys2Proof.Say

/-- New value and flags of a vector atomic on a format (R288). -/
def vectorAtomicNew (k : VAmo) (t : Fmt) (m x : Nat) : Flagged Nat :=
  if fmtIsFloat t then
    match k with
    | .add | .fadd => addF (decodeFmt t m) (decodeFmt t x) t .rne 0
    | .min => roundF (minmaxVals false (decodeFmt t m) (decodeFmt t x)) t .rne 0
    | .max => roundF (minmaxVals true (decodeFmt t m) (decodeFmt t x)) t .rne 0
  else
    match k with
    | .add => (codeOf t (decodeInt t m + decodeInt t x), .none)
    | .min => (codeOf t (if decodeInt t m ≤ decodeInt t x then decodeInt t m else decodeInt t x), .none)
    | .max => (codeOf t (if decodeInt t m ≤ decodeInt t x then decodeInt t x else decodeInt t m), .none)
    | .fadd => addF (decodeFmt t m) (decodeFmt t x) t .rne 0

/-- The formats of a vector atomic's operand (R288). -/
def vectorAtomicFmts : VAmo → List Fmt
  | .add => [.s32, .s64, .n32, .n64]
  | .fadd => [.fp32]
  | _ => [.s32, .s64, .n32, .n64, .fp32]

/-- The atomics of the listed positions, one after the other: 0 for a tail position, the old value elsewhere, where a
destination is written. -/
def atomicEach (v : Env) (k : VAmo) (want : Want) (ret : Bool) (d b c : VReg) (st : Stream) : List Nat → State → Acc State
  | [], t => .ok t
  | n :: l, t =>
    let q := v.source c
    let w := fmtWidth q.tag.fmt
    let r := n / v.e.vl
    let e := n % v.e.vl
    let put (t : State) (x : Nat) : State := if ret then t.putReg (v.ref d) (r * v.rowBits (v.ref d) + e * w) w x else t
    if v.e.vl - v.e.vtail ≤ e then atomicEach v k want ret d b c st l (put t 0)
    else if v.guard r e then
      (t.atomicOn st want (elementAt v (.indexed b) w r e).1 (w / 8) fun m => (vectorAtomicNew k q.tag.fmt m (q.code r e)).1).bind
        fun x => atomicEach v k want ret d b c st l
          (put { x.2 with hart := x.2.hart.orFlags (vectorAtomicNew k q.tag.fmt x.1 (q.code r e)).2 } x.1)
    else atomicEach v k want ret d b c st l t

/-- What a vector atomic does. -/
def atomicsDo (s : State) (i : Instr) (k : VAmo) (m : MMod) (ret : Bool) (d b c : VReg) : Prop :=
  takenAtOnce s i →
  let v := envOf s i
  let t := (v.tag c).fmt
  let w := fmtWidth t
  let want : Want := { r := true, w := true, atomic := true, exotic := true, align := w / 8 }
  let legal := (v.tag c).blk = false ∧ t ∈ vectorAtomicFmts k ∧
    (v.tag b).blk = false ∧ fmtIsFloat (v.tag b).fmt = false ∧ fmtWidth (v.tag b).fmt ≠ 4
  (¬legal → exec i s = .next (faultsAs s i v.vec 0x03)) ∧
  (legal → v.tooLong (if ret then [d, b, c] else [b, c]) (max w (fmtWidth (v.tag b).fmt)) = false →
    (ret = true → overlapBad [v.use b .none] [v.ref d] w = false) →
    let tagged := if ret then (issued s i).tagReg (v.ref d) ⟨t, false⟩ else issued s i
    ∀ u, (if releases m.ord then tagged.releaseWriteAt m.scope else some tagged) = some u →
      let check (n : Nat) : Acc Unit :=
        u.checkSpans u.nearStream want [((elementAt v (.indexed b) w (n / v.e.vl) (n % v.e.vl)).1, w / 8)]
      let runs (lim : Nat) (x : State) : Prop :=
        (∀ n ∈ performedPositions v, n < lim → check n = .ok ()) ∧
        atomicEach v k want ret d b c u.nearStream ((List.range lim).filter fun n => decide (v.e.start ≤ n)) u = .ok x
      (∀ x, runs v.positions x → exec i s = .next (finished i (if acquires m.ord then x.acquireAt m.scope else x))) ∧
      ∀ n ∈ performedPositions v, ∀ f x, check n = .fault f → runs n x → exec i s = .next (stopsAt s i x f n))

end Sys2Proof.Say

/-- VAMOADD, VAMOFADD, VAMOMIN, VAMOMAX make one atomic per performed element, in sweep order; the lowest one whose checks fault stops them. -/
def Obligations.VectorAtomicResults : Prop :=
  (∀ (g : Guard) (m : MMod) (ret : Bool) (d : VReg) (a : XReg) (b c : VReg) (s : State),
    atomicsDo s (.vamoadd g m ret d a b c) .add m ret d b c ∧ atomicsDo s (.vamofadd g m ret d a b c) .fadd m ret d b c ∧
    atomicsDo s (.vamomin g m ret d a b c) .min m ret d b c ∧ atomicsDo s (.vamomax g m ret d a b c) .max m ret d b c)

namespace Sys2Proof.Say

/-- Address of word n of row m of a tile in memory (R214). -/
def tileWordAt (xa xb : Word) (m n : Nat) : Nat := wrap64 ((xa.toNat : Int) + m * xb.toInt + 4 * n)

/-- The 512 bytes of a tile row at `a` lie all outside the local-store window, or all inside it. -/
def rowTogether (a : Nat) : Prop := a + 512 ≤ 0xFFFFFFF800000 ∨ (0xFFFFFFF800000 ≤ a ∧ a + 512 ≤ 2 ^ 52) ∨ 2 ^ 52 ≤ a

/-- The words of rows `m` on, stored one after the other. -/
def storeWords (st : Stream) (d : ZReg) (xa xb : Word) (vec : VecRegs) : List Nat → State → Acc State
  | [], t => .ok t
  | n :: l, t => (t.writeOn st { w := true } (tileWordAt xa xb (n / 128) (n % 128)) (leBytes 4 (tileWord vec d (n / 128) (n % 128)))).bind
      (storeWords st d xa xb vec l)

end Sys2Proof.Say

/-- ZLD fills the rows of a tile from memory and ZST writes them to memory, 512 bytes a row at x[A] + m*x[B]. -/
def Obligations.TileMemoryResults : Prop :=
  (∀ (g : Guard) (d : ZReg) (a b : XReg) (s : State), takenAtOnce s (.zld g d a b) →
    let i := Instr.zld g d a b
    let v := envOf s i
    let u := issued s i
    let xa := xOf s a
    let xb := xOf s b
    let startOk := v.e.start % 128 = 0 ∨ 16384 ≤ v.e.start
    let aligned := xa.toNat % 64 = 0 ∧ xb.toNat % 64 = 0
    (wholeGuard s i g = false → exec i s = .next (passedOver s)) ∧
    (wholeGuard s i g = true → startOk → aligned → ∀ data : Nat → Nat → List Byte,
      (∀ m < 128, v.e.start ≤ 128 * m → rowTogether (tileWordAt xa xb m 0)) →
      (∀ m < 128, ∀ n < 128, v.e.start ≤ 128 * m →
        u.readOn u.nearStream { r := true } true (tileWordAt xa xb m n) 4 = .ok (data m n, u)) →
      ∃ vec, exec i s = .next (performedAs s i vec .none none) ∧
        onlyTile v.vec vec d (fun m _ => v.e.start ≤ 128 * m) fun m n => leValue (data m n)) ∧
    (wholeGuard s i g = true → startOk → aligned → v.e.start < 16384 →
      let row := tileWordAt xa xb (v.e.start / 128) 0
      ¬rowTogether row → exec i s = .next (stopsAt s i u ⟨0x07, 0, BitVec.ofNat 64 row, 0, 0⟩ v.e.start)) ∧
    (wholeGuard s i g = true → ¬startOk → exec i s = .next (faultsAs s i v.vec 0x04)) ∧
    (wholeGuard s i g = true → startOk → ¬aligned → exec i s = .next (faultsAs s i v.vec 0x08))) ∧
  (∀ (g : Guard) (d : ZReg) (a b : XReg) (s : State), takenAtOnce s (.zst g d a b) →
    let i := Instr.zst g d a b
    let v := envOf s i
    let u := issued s i
    let xa := xOf s a
    let xb := xOf s b
    let startOk := v.e.start % 128 = 0 ∨ 16384 ≤ v.e.start
    let pitchOk := 512 ≤ xb.toInt.natAbs
    let aligned := xa.toNat % 64 = 0 ∧ xb.toNat % 64 = 0
    let words := (List.range 16384).filter fun n => decide (v.e.start ≤ n)
    (wholeGuard s i g = false → exec i s = .next (passedOver s)) ∧
    (wholeGuard s i g = true → startOk → pitchOk → aligned →
      (∀ m < 128, v.e.start ≤ 128 * m → rowTogether (tileWordAt xa xb m 0)) →
      (∀ n ∈ words, u.checkSpans u.nearStream { w := true } [(tileWordAt xa xb (n / 128) (n % 128), 4)] = .ok ()) →
      ∀ t, storeWords u.nearStream d xa xb v.vec words u = .ok t → exec i s = .next (finished i t)) ∧
    (wholeGuard s i g = true → startOk → pitchOk → aligned → v.e.start < 16384 →
      let row := tileWordAt xa xb (v.e.start / 128) 0
      ¬rowTogether row → exec i s = .next (stopsAt s i u ⟨0x07, 0, BitVec.ofNat 64 row, 0, 0⟩ v.e.start)) ∧
    (wholeGuard s i g = true → ¬startOk ∨ ¬pitchOk → exec i s = .next (faultsAs s i v.vec 0x04)) ∧
    (wholeGuard s i g = true → startOk → pitchOk → ¬aligned → exec i s = .next (faultsAs s i v.vec 0x08)))

namespace Sys2Proof.Say

/-- The record at `x` of the hart in focus: the checks of its address in their order, then what follows for its key. -/
def recordAt (s : State) (i : Instr) (x : Word) (k : Nat → Prop) : Prop :=
  let reports (code reason : BitVec 8) : Prop := exec i s = .next (s.frontTakes ⟨code, reason, x, 0, 0⟩)
  let off := x.toNat - 0xFFFFFFF800000
  if x.toNat % 64 ≠ 0 then reports 0x08 0
  else if x.toNat < 0xFFFFFFF800000 ∨ 2 ^ 52 ≤ x.toNat then reports 0x06 6
  else if inWindow (s.lstoreOf s.hart.kern) off 64 = false then reports 0x07 0
  else if 64 * s.barrierCount s.hart.kern ≤ off then reports 0x04 0
  else k (lsKey s.hart.grp 0 off)

/-- Which records are well formed for a group of `n` harts. -/
def recordOk (n : Nat) (r : BarRec) : Prop :=
  (r.state = 0 ∨ r.state = 0xB1 ∨ r.state = 0xB2) ∧ r.reserved = 0 ∧ (r.state = 0xB1 → 1 ≤ r.exp ∧ r.exp ≤ n) ∧
  (∀ h, n ≤ h → r.gone.getLsbD h = false ∧ ∀ s : Fin 4, r.arrived[s].getLsbD h = false ∧ r.dropped[s].getLsbD h = false) ∧
  ∀ s : Fin 4, -2 ^ 35 ≤ r.pend[s] ∧ r.pend[s] ≤ 2 ^ 35 - 1

/-- The record of a barrier instruction other than BINIT: fault 0x04 where it is malformed. -/
def wellFormedRecordAt (s : State) (i : Instr) (x : Word) (k : Nat → BarRec → Prop) : Prop :=
  recordAt s i x fun key =>
    let r := BarRec.ofNat (leNat (s.ms.lsRead key 64))
    (s.ms.lsSpoilt key 64 = true → exec i s = .next (s.frontTakes ⟨0x10, 0, x, 0, 0⟩)) ∧
    (s.ms.lsSpoilt key 64 = false → ¬recordOk (s.groupExtent s.hart.kern) r → exec i s = .next (s.frontTakes ⟨0x04, 0, x, 0, 0⟩)) ∧
    (s.ms.lsSpoilt key 64 = false → recordOk (s.groupExtent s.hart.kern) r → k key r)

/-- How far phase `q` lies from the base phase, modulo 2^32. -/
def ahead (r : BarRec) (q : BitVec 32) : Nat := (q.toNat + 2 ^ 32 - r.ph.toNat) % 2 ^ 32

/-- The slot of the phase `j` after the base phase. -/
def slotOf (r : BarRec) (j : Nat) : Fin 4 := ⟨(r.ph.toNat + j) % 4, Nat.mod_lt _ (by decide)⟩

/-- Harts of a mask. -/
def headCount (m : BitVec 16) : Nat := ((List.range 16).filter fun h => m.getLsbD h).length

/-- E(PH + j): what is expected `j` phases after the base phase. -/
def expectedAt (r : BarRec) : Nat → Int
  | 0 => r.exp
  | j + 1 => expectedAt r j - headCount r.dropped[slotOf r j]

/-- The oldest phase of an open record has all its arrivals and its bytes. -/
def phaseDue (r : BarRec) : Prop :=
  r.state = 0xB1 ∧ headCount r.arrived[slotOf r 0] = r.exp ∧ r.pend[slotOf r 0] = 0

/-- The record after its oldest phase completes. -/
def phaseDone (r : BarRec) : BarRec :=
  let s := slotOf r 0
  let exp := (r.exp + 2 ^ 16 - headCount r.dropped[s]) % 2 ^ 16
  { r with gone := r.gone ||| r.dropped[s], exp := exp, arrived := r.arrived.set s 0, dropped := r.dropped.set s 0,
           pend := r.pend.set s 0, ph := r.ph + 1, state := if exp = 0 then 0xB2 else r.state }

/-- `t` is `r` with every phase completed that is due, in order. -/
inductive Completes : BarRec → BarRec → Prop where
  | done (r : BarRec) : ¬phaseDue r → Completes r r
  | next (r t : BarRec) : phaseDue r → Completes (phaseDone r) t → Completes r t

/-- The instruction writes the record that completion leaves of `r`, and goes on; nothing else changes. -/
def leavesRecord (s t : State) (i : Instr) (key : Nat) (r : BarRec) : Prop :=
  ∃ r', Completes r r' ∧
    exec i s = .next (goesOn { t with ms := t.ms.lsWrite key (leBytes 64 r'.toNat) } s.hart (s.hart.pc + 8))

/-- An arrival at phase `q` by hart `h` is legal. -/
def mayArrive (r : BarRec) (q : BitVec 32) (h : Nat) (drop : Bool) : Prop :=
  let d := ahead r q
  r.gone.getLsbD h = false ∧ r.arrived[slotOf r d].getLsbD h = false ∧
  (∀ j < d, r.dropped[slotOf r j].getLsbD h = false) ∧
  (headCount r.arrived[slotOf r d] : Int) ≠ expectedAt r d ∧
  (drop = true → ∀ j, d < j → j < 4 →
    r.arrived[slotOf r j].getLsbD h = false ∧ (headCount r.arrived[slotOf r j] : Int) ≤ expectedAt r j - 1)

/-- The bit of hart `h`. -/
def hartBit (h : Nat) : BitVec 16 := BitVec.ofNat 16 (2 ^ h)

end Sys2Proof.Say

/-- BINIT opens a record, BEXP adds its bytes to a phase, BWAIT and BTEST ask for completion, and no other byte or register changes. -/
def Obligations.BarrierRecordResults : Prop :=
  let waits (s : State) (i : Instr) (key cls : Nat) : Prop := exec i s = .next { s with hart := s.hart.waitFor (.barrier key cls) }
  let reports (s : State) (i : Instr) (code : BitVec 8) (x : Word) : Prop :=
    exec i s = .next (s.frontTakes ⟨code, 0, x, 0, 0⟩)
  let pastPhase (r : BarRec) (q : BitVec 32) : Prop := r.state = 0xB2 ∨ 2 ^ 31 ≤ ahead r q
  (∀ (g : Guard) (a b : XReg) (s : State), performs s (.binit g a b) g →
    let c := (xOf s b).toNat
    (c = 0 ∨ s.groupExtent s.hart.kern < c → reports s (.binit g a b) 0x04 (xOf s a)) ∧
    (1 ≤ c → c ≤ s.groupExtent s.hart.kern → recordAt s (.binit g a b) (xOf s a) fun key =>
      ∃ r : BarRec,
        r.ph = s.hart.ctl.sc ∧ r.exp = c ∧ r.gone = 0 ∧ r.state = 0xB1 ∧ r.reserved = 0 ∧
        (∀ k : Fin 4, r.arrived[k] = 0 ∧ r.dropped[k] = 0 ∧ r.pend[k] = 0) ∧
        exec (.binit g a b) s =
          .next (goesOn { s with ms := s.ms.lsWrite key (leBytes 64 r.toNat) } s.hart (s.hart.pc + 8)))) ∧
  (∀ (g : Guard) (a b : XReg) (e : BitVec 2) (s : State), performs s (.bexp g a b e) g →
    let i := Instr.bexp g a b e
    wellFormedRecordAt s i (xOf s a) fun key r =>
      let q := s.hart.ctl.sc + BitVec.ofNat 32 e.toNat
      let k := slotOf r (ahead r q)
      let v := r.pend[k] + ((xOf s b).toNat : Int)
      (r.state = 0 → waits s i key 3) ∧
      (r.state ≠ 0 → pastPhase r q → reports s i 0x0B (xOf s a)) ∧
      (r.state ≠ 0 → ¬pastPhase r q → 4 ≤ ahead r q → waits s i key 3) ∧
      (r.state ≠ 0 → ¬pastPhase r q → ahead r q < 4 → 2 ^ 35 - 1 < v → reports s i 0x0C (xOf s a)) ∧
      (r.state ≠ 0 → ¬pastPhase r q → ahead r q < 4 → v ≤ 2 ^ 35 - 1 →
        leavesRecord s s i key { r with pend := r.pend.set k v })) ∧
  (∀ (g : Guard) (a : XReg) (d : BitVec 2) (s : State), performs s (.bwait g a d) g →
    let i := Instr.bwait g a d
    wellFormedRecordAt s i (xOf s a) fun key r =>
      let q := s.hart.ctl.sc - BitVec.ofNat 32 d.toNat
      (r.state ≠ 0 → pastPhase r q → exec i s = .next (goesOn (s.acquireAt .group) s.hart (s.hart.pc + 8))) ∧
      (¬(r.state ≠ 0 ∧ pastPhase r q) → waits s i key 5)) ∧
  (∀ (g : Guard) (d a : XReg) (n : BitVec 2) (s : State), performs s (.btest g d a n) g →
    let i := Instr.btest g d a n
    wellFormedRecordAt s i (xOf s a) fun _ r =>
      let q := s.hart.ctl.sc - BitVec.ofNat 32 n.toNat
      (r.state ≠ 0 → pastPhase r q → exec i s = .next (goesOn (s.acquireAt .group) (s.hart.setX d 1) (s.hart.pc + 8))) ∧
      (¬(r.state ≠ 0 ∧ pastPhase r q) → exec i s = .next (goesOn s (s.hart.setX d 0) (s.hart.pc + 8))))

/-- BARR and BARRD arrive at phase SC when the arrival is legal, set their bits, complete what is due, and fault or wait else. -/
def Obligations.BarrierArrivalResults : Prop :=
  ∀ p ∈ [(Instr.barr, false), (Instr.barrd, true)], ∀ (g : Guard) (a : XReg) (s : State), performs s (p.1 g a) g →
    let i := p.1 g a
    let reports (code : BitVec 8) : Prop := exec i s = .next (s.frontTakes ⟨code, 0, xOf s a, 0, 0⟩)
    let waits (key : Nat) : Prop := exec i s = .next { s with hart := s.hart.waitFor (.barrier key 4) }
    (s.hart.vq ≠ [] → exec i s = .next { s with hart := s.hart.waitFor .drain }) ∧
    (s.hart.vq = [] → wellFormedRecordAt s i (xOf s a) fun key r =>
      let q := s.hart.ctl.sc
      let k := slotOf r (ahead r q)
      let bit := hartBit s.hart.f0
      (r.state = 0 → waits key) ∧
      (r.state = 0xB2 → reports 0x0A) ∧
      (r.state = 0xB1 → 2 ^ 31 ≤ ahead r q → reports 0x0B) ∧
      (r.state = 0xB1 → 4 ≤ ahead r q → ahead r q < 2 ^ 31 → waits key) ∧
      (r.state = 0xB1 → ahead r q < 4 → ¬mayArrive r q s.hart.f0 p.2 → reports 0x0A) ∧
      (r.state = 0xB1 → ahead r q < 4 → mayArrive r q s.hart.f0 p.2 →
        leavesRecord s (flushed s) i key
          { r with arrived := r.arrived.set k (r.arrived[k] ||| bit),
                   dropped := if p.2 then r.dropped.set k (r.dropped[k] ||| bit) else r.dropped }))

namespace Sys2Proof.Say

/-- The vector side takes the far word `i` at once: no lag, nothing before it in the queue, no far piece of the hart under way,
no register of the hart in error, and its site, where it has one, is an active stack of this package (R297). -/
def farAtOnce (s : State) (i : Instr) : Prop :=
  inVq i = true ∧ isFarWord i = true ∧ s.lag.vq = false ∧ s.lag.far = false ∧ s.hart.vq = [] ∧ s.hart.phase = .running ∧ soundRegs s ∧
  (∀ p ∈ s.far.pieces, p.hart ≠ s.hart.no) ∧ s.mgmt.fenced = [] ∧
  (isPiecewise i = false → s.hart.ctl.fpkg.toNat = s.plat.pkg.toNat ∧ s.stackActive s.hart.ctl.fstack.toNat = true)

/-- The stream of the far instruction `i`. -/
def farStreamOf (s : State) (i : Instr) : Stream := (issued s i).farStream (s.makeEntry i) s.agent

/-- The far instruction is complete with the machine `t`: its stacks count its pieces, and it leaves the queue. -/
def farDone (s : State) (i : Instr) (t : State) : State :=
  finished i (t.countPieces ((issued s i).pieceSites (farStreamOf s i) (envOf s i) (envOf s i).remaining))

/-- Addresses of source element n and of target word n of a far reduction. -/
def redSource (v : Env) (n : Nat) : Nat := wrap64 ((v.e.xa.toNat + n * (fmtWidth v.e.vtag / 8) : Nat) : Int)
def redTarget (v : Env) (t : Fmt) (n : Nat) : Nat := wrap64 ((v.e.xb.toNat + n * (fmtWidth t / 8) : Nat) : Int)

/-- What a target word needs: R and W, natural alignment. -/
def redNeeds (t : Fmt) : Want := { r := true, w := true, align := fmtWidth t / 8 }

/-- A source element in the target's format. -/
def redCode (v : Env) (t : Fmt) (bs : List Byte) : Flagged Nat :=
  if fmtIsFloat t then convFloat (decodeFmt v.e.vtag (leValue bs)) t .rne 0 false
  else (codeOf t (decodeInt v.e.vtag (leValue bs)), .none)

/-- The tree over a row of codes: the identity stands for an element that is not eligible. -/
def redTree (mx : Bool) (v : Env) (t : Fmt) (r : Nat) (code : Nat → Nat) : Flagged Nat :=
  let op : RedOp := if mx then .max else .sum
  if fmtIsFloat t then
    treeF op t ((List.range v.e.vl).map fun e => if v.eligible r e then decodeFmt t (code e) else identityF op t)
  else (intReduction op t ((eligibleOf v r).map fun e => decodeInt t (code e)), .none)

/-- Every performed element's checks pass before anything is performed. -/
def redChecked (s : State) (i : Instr) (t : Fmt) (elem : Bool) : Prop :=
  let v := envOf s i
  ∀ n ∈ performedPositions v,
    ∃ a b, (issued s i).checkSpans (farStreamOf s i) (redNeeds t)
        [(redTarget v t (if elem then n else n / v.e.vl), fmtWidth t / 8)] = .ok a ∧
      (issued s i).checkSpans (farStreamOf s i) { r := true } [(redSource v n, fmtWidth v.e.vtag / 8)] = .ok b

/-- The far reductions: constructor, and whether it takes the maximum. -/
def farReductions : List ((Guard → Bool → Fmt → XReg → XReg → Instr) × Bool) := [(.fredadd, false), (.fredmax, true)]

/-- The elements of a list that are the first with their value of `f`, in order. -/
def firstSeen (f : Nat → Place) (l : List Nat) : List Nat := l.foldl (fun k a => if f a ∈ k.map f then k else k ++ [a]) []

/-- Values added up in order, each step rounded to the format. -/
def runningSum (t : Fmt) : Nat → List Nat → Flagged Nat
  | u, [] => (u, .none)
  | u, c :: l =>
    let x := reduceCombine .sum t u c
    let y := runningSum t x.1 l
    (y.1, x.2.or y.2)

end Sys2Proof.Say

/-- FREDADD and FREDMAX contribute each element, or each row's tree, to its target word; FSCADD contributes one sum to each indexed word. -/
def Obligations.FarReductionResults : Prop :=
  (∀ p ∈ farReductions, ∀ (g : Guard) (t : Fmt) (a b : XReg) (s : State), farAtOnce s (p.1 g true t a b) →
    let i := p.1 g true t a b
    let v := envOf s i
    let st := farStreamOf s i
    let kind : RedKind := if p.2 then .max else .sum
    v.fredBad true t = none → redChecked s i t true →
    ∀ (f : Nat → State) (data : Nat → List Byte) (mid : Nat → State), f v.e.start = issued s i →
      (∀ n, v.e.start ≤ n → n < v.positions →
        if v.eligible (n / v.e.vl) (n % v.e.vl) then
          (f n).readOn st { r := true } false (redSource v n) (fmtWidth v.e.vtag / 8) = .ok (data n, mid n) ∧
          ((mid n).addFlags (redCode v t (data n)).2).contributeOn st (redNeeds t) (redTarget v t n) kind t
            (redCode v t (data n)).1 = .ok (f (n + 1))
        else f (n + 1) = f n) →
      v.e.start ≤ v.positions → exec i s = .next (farDone s i (f v.positions))) ∧
  (∀ p ∈ farReductions, ∀ (g : Guard) (t : Fmt) (a b : XReg) (s : State), farAtOnce s (p.1 g false t a b) →
    let i := p.1 g false t a b
    let v := envOf s i
    let st := farStreamOf s i
    let kind : RedKind := if p.2 then .max else .sum
    v.fredBad false t = none → redChecked s i t false →
    ∀ (f : Nat → State) (data : Nat → Nat → List Byte) (mid : Nat → Nat → State) (read : Nat → Nat → State), f 0 = issued s i →
      (∀ r < v.rows,
        if eligibleOf v r = [] then f (r + 1) = f r
        else
          mid r 0 = f r ∧
          (∀ k e, (eligibleOf v r)[k]? = some e →
            (mid r k).readOn st { r := true } false (redSource v (r * v.e.vl + e)) (fmtWidth v.e.vtag / 8) =
              .ok (data r e, read r k) ∧
            mid r (k + 1) = (read r k).addFlags (redCode v t (data r e)).2) ∧
          (let x := redTree p.2 v t r fun e => (redCode v t (data r e)).1
           ((mid r (eligibleOf v r).length).addFlags x.2).contributeOn st (redNeeds t) (redTarget v t r) kind t x.1 =
             .ok (f (r + 1)))) →
      exec i s = .next (farDone s i (f v.rows))) ∧
  (∀ p ∈ farReductions, ∀ (g : Guard) (elem : Bool) (t : Fmt) (a b : XReg) (s : State), farAtOnce s (p.1 g elem t a b) →
    ∀ c, (envOf s (p.1 g elem t a b)).fredBad elem t = some c →
      exec (p.1 g elem t a b) s = .next (faultsAs s (p.1 g elem t a b) s.hart.vec c)) ∧
  (∀ (g : Guard) (rne : Bool) (a : XReg) (b c : VReg) (s : State), farAtOnce s (.fscadd g rne a b c) →
    let i := Instr.fscadd g rne a b c
    let v := envOf s i
    let st := farStreamOf s i
    let t := (v.tag c).fmt
    let at_ (n : Nat) : Nat := wrap64 (v.e.xa.toNat + (v.source b).int (n / v.e.vl) (n % v.e.vl))
    let code (n : Nat) : Nat := (v.source c).code (n / v.e.vl) (n % v.e.vl)
    let place (n : Nat) : Place := (issued s i).targetPlace st v (v.source b) t n
    let targets := firstSeen place (performedPositions v)
    let total (x : Nat) : Flagged Nat :=
      match ((performedPositions v).filter fun n => place n = place x).map code with
      | u :: l => runningSum t u l
      | [] => (0, .none)
    let legal := (v.tag b).blk = false ∧ fmtIsFloat (v.tag b).fmt = false ∧ fmtWidth (v.tag b).fmt ≠ 4 ∧ (v.tag c).blk = false ∧
      t ∈ [Fmt.fp32, .bf16, .fp16, .s32, .s64, .n32, .n64]
    (¬legal → exec i s = .next (faultsAs s i s.hart.vec 0x03)) ∧
    (legal → v.tooLong [b, c] (max (fmtWidth t) (fmtWidth (v.tag b).fmt)) = false →
      (∀ n ∈ performedPositions v, ∃ z, (issued s i).checkSpans st (redNeeds t) [(at_ n, fmtWidth t / 8)] = .ok z) →
      ∀ f : Nat → State, f 0 = issued s i →
        (∀ k x, targets[k]? = some x →
          ((f k).addFlags (total x).2).contributeOn st (redNeeds t) (at_ x) .sum t (total x).1 = .ok (f (k + 1))) →
        exec i s = .next (farDone s i (f targets.length))))

namespace Sys2Proof.Say

/-- Nothing but the listed registers, near or far, changed on the vector side. -/
def onlyRefs (a b : VecRegs) (fs : List RegRef) : Prop :=
  b.k = a.k ∧ b.plive = a.plive ∧ b.gsite = a.gsite ∧ b.z = a.z ∧ b.zdirty = a.zdirty ∧
  ∀ f : RegRef, f ∉ fs → b.getRef f = a.getRef f ∧ b.tagRef f = a.tagRef f

/-- The machine `t` with these vector registers and these flags raised. -/
def withVec (t : State) (vec : VecRegs) (f : Flags) : State := { t with hart := ({ t.hart with vec := vec }).orFlags f }

/-- FP32 element i of row r of a register, as an instruction finds it. -/
def fp32Of (v : Env) (f : RegRef) (r i : Nat) : FVal := decodeFloat .fp32 (bits (v.vec.getRef f) (r * v.rowBits f + 32 * i) 32)

/-- A softmax state rescaled and joined: round(round(x * c) + round(y * d)) at FP32 (R319). -/
def joined (x c y d : FVal) : Flagged FVal :=
  let p := toFp32 (mulVals x c)
  let q := toFp32 (mulVals y d)
  let r := toFp32 (sumVals [p.1, q.1] .rne)
  (r.1, (p.2.or q.2).or r.2)

/-- w(a, m): 2^(a - m), and 1 where both are minus infinity (R319). -/
def rescale (a m : FVal) : Flagged FVal := if a = .inf true ∧ m = .inf true then (.one, .none) else exp2Diff a m

/-- From element `n` of 32 bits on, row r of a register is as it was, or zero under the zeroing bit. -/
def restOfRow (v : Env) (vec : VecRegs) (f : RegRef) (r n : Nat) (zm : Bool) : Prop :=
  bits (vec.getRef f) (r * v.rowBits f + 32 * n) (v.rowBits f - 32 * n) =
    if zm then 0 else bits (v.vec.getRef f) (r * v.rowBits f + 32 * n) (v.rowBits f - 32 * n)

/-- Row r of a state pair (f, f + 1) holds outputs o, maximum m and sum z, each as its FP32 code, and beyond them what it
held, or zero under the zeroing bit. -/
def holdsState (v : Env) (vec : VecRegs) (f : RegRef) (r : Nat) (zm : Bool) (o : Nat → FVal) (m z : FVal) : Prop :=
  restOfRow v vec f r v.e.vl zm ∧ restOfRow v vec f.odd r 2 zm ∧
  (∀ i < v.e.vl, bits (vec.getRef f) (r * v.rowBits f + 32 * i) 32 = (roundVal (o i) .fp32 .rne 0).1) ∧
  bits (vec.getRef f.odd) (r * v.rowBits f.odd) 32 = (roundVal m .fp32 .rne 0).1 ∧
  bits (vec.getRef f.odd) (r * v.rowBits f.odd + 32) 32 = (roundVal z .fp32 .rne 0).1

/-- A row that is not written: as it was, or zero under the zeroing bit. -/
def rowLeft (v : Env) (vec : VecRegs) (f : RegRef) (r : Nat) (zm : Bool) : Prop :=
  restOfRow v vec f r 0 zm ∧ restOfRow v vec f.odd r 0 zm

/-- Element j of the bag of row r: the tree over the row's weighted table elements, 0 for indices that are not eligible. -/
def bagSum (v : Env) (t : TableDesc) (weight : Nat → Nat → FVal) (row : Nat → Nat → List Byte) (r j : Nat) : Flagged Nat :=
  let terms : List (Flagged FVal) := (List.range v.e.vl).map fun e =>
    if v.eligible r e then mulVals (weight r e) (t.val (leValue (row r e)) j) else (.zero true, .none)
  let c := treeF .sum .fp32 (terms.map Prod.fst)
  (c.1, terms.foldl (fun g x => g.or x.2) c.2)

end Sys2Proof.Say

/-- FEMBAG sums weighted table rows into fd, FATT folds attention blocks into the state pair fd, fd + 1, FMERGE joins two state pairs. -/
def Obligations.FarGatherResults : Prop :=
  let fp : RegTag := ⟨.fp32, false⟩
  (∀ (g : Guard) (rne wgt : Bool) (d a : VReg) (b : XReg) (c : VReg) (s : State), farAtOnce s (.fembag g rne wgt d a b c) →
    (Instr.fembag g rne wgt d a b c).wf = true →
    let i := Instr.fembag g rne wgt d a b c
    let v := envOf s i
    let st := farStreamOf s i
    let f := v.ref d
    let ta := v.tag a
    let tc := v.tag c
    let w := if wgt then max (fmtWidth ta.fmt) (fmtWidth tc.fmt) else fmtWidth ta.fmt
    let legal := ta.blk = false ∧ ta.fmt ∈ [Fmt.n16, .n32, .n64] ∧
      (wgt = true → tc.blk = false ∧ tc.fmt ∈ [Fmt.fp32, .bf16, .fp16])
    let index (n : Nat) : Nat := (v.source a).code (n / v.e.vl) (n % v.e.vl)
    (¬legal → exec i s = .next (faultsAs s i s.hart.vec 0x03)) ∧
    (legal → wholeFits v (if wgt then [d, a, c] else [d, a]) w → ∀ (desc : List Byte) (u : State) (n : Nat),
      (issued s i).readOn (issued s i).nearStream { r := true, align := 32 } false v.e.xb.toNat 32 = .ok (desc, u) →
      let t := tableDesc (leNat desc)
      t.bad v.rows = false → t.rowBytes = some n →
      (∀ p ∈ performedPositions v, index p < t.nrows ∧
        ∃ z, u.checkSpans st { r := true } [(wrap64 ((t.base + index p * t.pitch : Nat) : Int), n)] = .ok z) →
      ∀ (row : Nat → Nat → List Byte),
        (∀ r < v.rows, ∀ e ∈ eligibleOf v r, ∀ vec ctl,
          let x : State := { u with hart := { u.hart with vec := vec, ctl := ctl } }
          x.readOn st { r := true } false (wrap64 ((t.base + index (r * v.e.vl + e) * t.pitch : Nat) : Int)) n = .ok (row r e, x)) →
        let weight (r e : Nat) : FVal := if wgt then (v.source c).val r e else .one
        ∃ vec, exec i s = .next (farDone s i (withVec u vec
            (((List.range v.rows).flatMap fun r => (List.range t.e).map fun j => (bagSum v t weight row r j).2).foldl Flags.or .none))) ∧
          vec.tagRef f = fp ∧ onlyRefs u.hart.vec vec [f] ∧
          (∀ r < v.rows, ∀ j < t.e, bits (vec.getRef f) (r * v.rowBits f + 32 * j) 32 = (bagSum v t weight row r j).1) ∧
          ∀ r < v.rows, restOfRow v vec f r t.e false)) ∧
  (∀ (g : Guard) (rne zm acc : Bool) (d a : VReg) (b : XReg) (s : State), farAtOnce s (.fatt g rne zm acc d a b) →
    (Instr.fatt g rne zm acc d a b).wf = true →
    let i := Instr.fatt g rne zm acc d a b
    let v := envOf s i
    let st := farStreamOf s i
    let f := v.ref d
    let ta := v.tag a
    let legal := ta.blk = false ∧ ta.fmt ∈ [Fmt.fp32, .bf16, .fp16, .e4m3] ∧
      (acc = true → v.vec.tagRef f = fp ∧ v.vec.tagRef f.odd = fp)
    (¬legal → exec i s = .next (faultsAs s i s.hart.vec 0x03)) ∧
    (legal → v.softBad = false → ∀ desc fin blocks u1 hd u2 pages mask u3 data u4,
      let dsc := attnDesc desc
      (issued s i).attnPrepass st v = .ok (desc, fin, blocks, u1) → u1.attnHeaders st dsc.rps blocks = .ok (hd, u2) →
      u2.attnPages st ((blocks.zip hd).map fun b => (b.1.b, b.1.kva, b.1.vva, b.2.1, b.2.2)) = .ok pages →
      u2.readOn st { r := true } false (dsc.maskSpan fin).1 (dsc.maskSpan fin).2 = .ok (mask, u3) →
      u3.attnData st dsc fin v.e.vl (leNat mask) pages = .ok (data, u4) →
      let folded (r : Nat) : SoftState :=
        let start : SoftState :=
          if acc then ⟨fp32Of v f.odd r 0, fp32Of v f.odd r 1, (List.range v.e.vl).map fun e => fp32Of v f r e, .none⟩
          else ⟨.inf true, .zero false, List.replicate v.e.vl (.zero false), .none⟩
        let q := (List.range v.e.vl).map fun e => (v.source a).val r e
        data.foldl (fun z ts => softBlock q (decodeFloat .fp32 dsc.scale) (kvTpp dsc.rps) ts z) start
      let fl := (List.range v.rows).foldl (fun f r => if v.guard r 0 then f.or (folded r).fl else f) .none
      ∃ vec, exec i s = .next (farDone s i (withVec u4 vec fl)) ∧ vec.tagRef f = fp ∧ vec.tagRef f.odd = fp ∧
        onlyRefs u4.hart.vec vec [f, f.odd] ∧
        ∀ r < v.rows,
          (v.guard r 0 = false → rowLeft v vec f r zm) ∧
          (v.guard r 0 = true →
            let z := folded r
            holdsState v vec f r zm (fun e => z.o.getD e (.zero false)) z.m z.s))) ∧
  (∀ (g : Guard) (rne zm norm : Bool) (d a : VReg) (s : State), farAtOnce s (.fmerge g rne zm norm d a) →
    (Instr.fmerge g rne zm norm d a).wf = true →
    let i := Instr.fmerge g rne zm norm d a
    let v := envOf s i
    let f := v.ref d
    let h := v.ref a
    let legal := v.vec.tagRef f = fp ∧ v.vec.tagRef f.odd = fp ∧ v.vec.tagRef h = fp ∧ v.vec.tagRef h.odd = fp
    (¬legal → exec i s = .next (faultsAs s i s.hart.vec 0x03)) ∧
    (legal → v.softBad = false →
      let m (r : Nat) : Flagged FVal := minmaxVals true (fp32Of v f.odd r 0) (fp32Of v h.odd r 0)
      let cd (r : Nat) : Flagged FVal := rescale (fp32Of v f.odd r 0) (m r).1
      let ca (r : Nat) : Flagged FVal := rescale (fp32Of v h.odd r 0) (m r).1
      let z (r : Nat) : Flagged FVal := joined (fp32Of v f.odd r 1) (cd r).1 (fp32Of v h.odd r 1) (ca r).1
      let o (r e : Nat) : Flagged FVal :=
        let x := joined (fp32Of v f r e) (cd r).1 (fp32Of v h r e) (ca r).1
        let y := divF x.1 (z r).1 .fp32 .rne 0
        if norm then (decodeFloat .fp32 y.1, x.2.or y.2) else x
      let fl := (List.range v.rows).foldl (fun f r =>
        if v.guard r 0 then
          (List.range v.e.vl).foldl (fun f e => f.or (o r e).2) (f.or ((((m r).2.or (cd r).2).or (ca r).2).or (z r).2))
        else f) .none
      ∃ vec, exec i s = .next (farDone s i (withVec (issued s i) vec fl)) ∧ vec.tagRef f = fp ∧ vec.tagRef f.odd = fp ∧
        onlyRefs s.hart.vec vec [f, f.odd] ∧
        ∀ r < v.rows,
          (v.guard r 0 = false → rowLeft v vec f r zm) ∧
          (v.guard r 0 = true → holdsState v vec f r zm (fun e => (o r e).1) (m r).1 (z r).1)))

namespace Sys2Proof.Say

/-- The 64 KiB page and the token position an address in x[A] names (R362). -/
def pageOf (x : Word) : Nat := x.toNat / 2 ^ 16 * 2 ^ 16
def tokenOf (x : Word) : Nat := x.toNat % 2 ^ 16

/-- Machine `s` with the memory `m`. -/
def withMem (s : State) (m : Memory) : State := { s with ms := { s.ms with mem := m } }

/-- Bit `k` of the byte string at `pa` in memory. -/
def memBit (m : Memory) (pa k : Nat) : Bool := (Memory.byte m (pa + k / 8)).getLsbD (k % 8)

/-- The `n` bytes at `pa` in memory as a number. -/
def memNat (m : Memory) (pa n : Nat) : Nat := leValue ((List.range n).map fun j => Memory.byte m (pa + j))

end Sys2Proof.Say

/-- VLDT decodes key-value rows, KVPUT writes the header and then one row per guarded row, KVINV clears VALID bits, CTW and CTSWAP act on the banks. -/
def Obligations.KvPageResults : Prop :=
  (∀ (g : Guard) (m : MMod) (d : VReg) (a : XReg) (s : State), takenAtOnce s (.vldt g m d a) →
    let i := Instr.vldt g m d a
    let v := envOf s i
    let w := fmtWidth v.e.vtag
    let u := (issued s i).tagReg (.near d.toNat) ⟨v.e.vtag, false⟩
    let st := u.nearStream
    (v.e.vblk = true ∨ v.e.vtag ∉ [Fmt.bf16, .fp16, .fp32] → exec i s = .next (faultsAs s i v.vec 0x03)) ∧
    (v.e.vblk = false → v.e.vtag ∈ [Fmt.bf16, .fp16, .fp32] → (m.ff = true → v.e.rc = 0) → v.tooLong [d] w = false →
      ∀ (p : Part) (h : Nat), u.kvPage st { r := true } v.e.xa = .ok p → u.kvRead st p (pageOf v.e.xa) 0 0x100 = .ok (h, u) →
        kvVersion h = 1 → kvRps h ≠ 3 → v.e.vl ≤ kvRowElems h → tokenOf v.e.xa + v.rows ≤ kvTpp (kvRps h) →
        let slot (r : Nat) : Nat := kvSlot (kvRps h) (tokenOf v.e.xa + r)
        ∀ (tag codes : Nat → Nat),
          (∀ n ∈ performedPositions v,
            ∃ z, u.checkSpans st { r := true } [(pageOf v.e.xa + kvTagOff (slot (n / v.e.vl)), 2), (pageOf v.e.xa + 1024 * slot (n / v.e.vl), 1024)] = .ok z) →
          (∀ r < v.rows, ∀ vec ctl,
            let x : State := { u with hart := { u.hart with vec := vec, ctl := ctl } }
            x.kvRead st p (pageOf v.e.xa) (kvTagOff (slot r)) 2 = .ok (tag r, x) ∧
            x.kvRead st p (pageOf v.e.xa) (1024 * slot r) 1024 = .ok (codes r, x)) →
          ∃ vec fl, exec i s =
              .next (if acquires m.ord then (performedAs s i vec fl none).acquireAt m.scope else performedAs s i vec fl none) ∧
            vec.tagV d.toNat = ⟨v.e.vtag, false⟩ ∧ onlyNear v.vec vec [d.toNat] ∧
            ∀ r < v.rows, ∀ e < v.e.vl, elemOf v vec d w r e =
              if r * v.e.vl + e < v.e.start then elemOf v v.vec d w r e
              else if v.e.vl - v.e.vtail ≤ e then 0
              else if v.guard r e then
                (convFloat (kvValue (tag r) (codes r) (kvRps h) (kvRow (kvRps h) (tokenOf v.e.xa + r)) e) v.e.vtag .rne 0 false).1 % 2 ^ w
              else elemOf v v.vec d w r e)) ∧
  (∀ (g : Guard) (o : Ord) (sc : Scope) (d : VReg) (a b : XReg) (s : State), takenAtOnce s (.kvput g o sc d a b) →
    let i := Instr.kvput g o sc d a b
    let v := envOf s i
    let u := issued s i
    let st := u.nearStream
    let page := pageOf v.e.xa
    let s0 := (xOf s b).toNat % 256
    let rowDone (r : Nat) : Bool := decide (v.e.start ≤ r * v.e.vl) && v.guard r 0
    (fmtIsFloat (v.tag d).fmt = false ∨ v.pairOk d = false → exec i s = .next (faultsAs s i v.vec 0x03)) ∧
    (fmtIsFloat (v.tag d).fmt = true → v.pairOk d = true → v.tooLong [d] (fmtWidth (v.tag d).fmt) = false →
      ∀ (p : Part) (h : Nat), u.kvOpen st v.e.xa = .ok (p, h, u) → kvMalformed h = false → v.e.vl ≤ kvRowElems h →
        tokenOf v.e.xa + v.rows ≤ kvTpp (kvRps h) → (v.e.start < v.positions → v.e.start % v.e.vl = 0) →
        (kvDfmt h = 1 → s0 ≠ 255) →
        ((1 < kvRefcnt h ∨ kvShared h = true) → exec i s = .next (faultsAs s i v.vec 0x13)) ∧
        (kvRefcnt h ≤ 1 → kvShared h = false → ∀ t, (if releases o then u.releaseWriteAt sc else some u) = some t →
          ((∀ r < v.rows, rowDone r = false) → exec i s = .next (finished i t)) ∧
          ((∃ r < v.rows, rowDone r = true) →
            ∀ (y : State) (f : Nat → State), t.kvHeaderStep st p page h = .ok y → f 0 = y.carry { v.begun with header := some h } →
              (∀ r < v.rows, if rowDone r = true then
                  (f r).kvPutRow st p page (kvRps h) (kvDfmt h) (tokenOf v.e.xa + r) s0
                    ((List.range (kvE (kvRps h))).map fun e =>
                      if e < v.e.vl - v.e.vtail then (v.source d).val r e else FVal.zero false) = .ok (f (r + 1))
                else f (r + 1) = f r) →
              exec i s = .next (finished i (f v.rows)))))) ∧
  (∀ (g : Guard) (o : Ord) (sc : Scope) (a b : XReg) (s : State), takenAtOnce s (.kvinv g o sc a b) →
    let i := Instr.kvinv g o sc a b
    let v := envOf s i
    let u := issued s i
    (wholeGuard s i g = false → exec i s = .next (passedOver s)) ∧
    (wholeGuard s i g = true → ∀ (p : Part) (h : Nat), u.kvOpen u.nearStream v.e.xa = .ok (p, h, u) → kvMalformed h = false →
      (∀ k < 64, (xOf s b).getLsbD k = true → tokenOf v.e.xa + k < kvTpp (kvRps h)) →
      ((1 < kvRefcnt h ∨ kvShared h = true) → exec i s = .next (faultsAs s i v.vec 0x13)) ∧
      (kvRefcnt h ≤ 1 → kvShared h = false → ∀ pa, p.place = .device pa → pa % 2 ^ 16 = 0 → quietMemory s →
        devicePlaced s true [p] → (releases o = true → sc = .system → s.unacked s.hart.owner = false) →
        h = memNat s.ms.mem pa 256 →
        ∃ mem, exec i s = .next (withMem (performedAs s i v.vec .none none) mem) ∧
          (∀ x, (x < pa + 0x20 ∨ pa + 0x40 ≤ x) → Memory.byte mem x = Memory.byte s.ms.mem x) ∧
          ∀ k < 256, memBit mem (pa + 0x20) k =
            (memBit s.ms.mem (pa + 0x20) k && !(decide (tokenOf v.e.xa ≤ k) && (xOf s b).getLsbD (k - tokenOf v.e.xa)))))) ∧
  (∀ (g : Guard) (a b : XReg) (s : State), performs s (.ctw g a b) g →
    let i := Instr.ctw g a b
    let c := s.ctx s.hart.ctx
    let other := !c.ctgen.getLsbD 0
    let n := (xOf s a).toNat
    let e : BitVec 16 := BitVec.ofNat 16 (xOf s b).toNat
    (16 ≤ n → exec i s = .next (s.frontTakes ⟨0x04, 0, 0, 0, 0⟩)) ∧
    (n < 16 → s.bankHeld s.hart.ctx other = true → exec i s = .next { s with hart := s.hart.waitFor .ctw }) ∧
    (n < 16 → s.bankHeld s.hart.ctx other = false → exec i s = .next (goesOn
      (s.setCtx s.hart.ctx (if other then { c with bank1 := c.bank1.setIfInBounds n e } else { c with bank0 := c.bank0.setIfInBounds n e }))
      s.hart (s.hart.pc + 8)))) ∧
  (∀ (g : Guard) (s : State), performs s (.ctswap g) g →
    exec (.ctswap g) s = .next (goesOn
      (s.setCtx s.hart.ctx { s.ctx s.hart.ctx with ctgen := (s.ctx s.hart.ctx).ctgen + 1 }) s.hart (s.hart.pc + 8)))

/-- The header step of KVPUT makes a page LIVE with AGE the tick; writing a row writes its slot, tag, VALID bit and ROWS, and no other byte. -/
def Obligations.KvRowWritten : Prop :=
  (∀ (s : State) (st : Stream) (p : Part) (pa page rps dfmt j s0 : Nat) (xs : List FVal), quietMemory s → p.place = .device pa →
    devicePlaced s true [p] → devicePlaced s false [p] → pa % 2 ^ 16 = 0 → rps ≤ 2 → j < kvTpp rps → (dfmt = 1 ∨ dfmt = 2) →
    xs.length = kvE rps → s0 < 256 → (∀ l, p.leaf = some l → l.pte + 8 ≤ pa ∨ pa + 2 ^ 16 ≤ l.pte) →
    let slot := kvSlot rps j
    let tag := kvNewTag (memNat s.ms.mem (pa + kvTagOff slot) 2) dfmt rps s0
    let mx := decide (tag % 4 = 2)
    let n := if mx then 17 * kvE rps / 32 else kvE rps
    let codes := if mx then kvRowMx xs (kvE rps) else kvRowE4m3 xs (tag / 256 % 256)
    let row := pa + 1024 * slot + kvRow rps j * n
    ∃ mem, s.kvPutRow st p page rps dfmt j s0 xs = .ok ((withMem s mem).addFlags codes.2) ∧
      memNat mem row n = codes.1 % 2 ^ (8 * n) ∧
      memNat mem (pa + kvTagOff slot) 2 = tag ∧
      (∀ k < 256, memBit mem (pa + 0x20) k = (decide (k = j) || memBit s.ms.mem (pa + 0x20) k)) ∧
      memNat mem (pa + 0x10) 4 = max (memNat s.ms.mem (pa + 0x10) 4) (j + 1) ∧
      (mx = true → ∀ k < 480, Memory.byte mem (pa + 1024 * slot + 544 + k) = 0) ∧
      ∀ x, ¬(row ≤ x ∧ x < row + n) → ¬(pa + kvTagOff slot ≤ x ∧ x < pa + kvTagOff slot + 2) →
        ¬(pa + 0x20 ≤ x ∧ x < pa + 0x40) → ¬(pa + 0x10 ≤ x ∧ x < pa + 0x14) →
        ¬(mx = true ∧ pa + 1024 * slot + 544 ≤ x ∧ x < pa + 1024 * slot + 1024) → Memory.byte mem x = Memory.byte s.ms.mem x) ∧
  (∀ (s : State) (st : Stream) (p : Part) (pa page : Nat), quietMemory s → p.place = .device pa → devicePlaced s true [p] →
    pa % 2 ^ 16 = 0 → (∀ l, p.leaf = some l → l.pte + 8 ≤ pa ∨ pa + 2 ^ 16 ≤ l.pte) →
    let h := memNat s.ms.mem pa 256
    let tick := s.readTick
    ∃ mem, s.kvHeaderStep st p page h = .ok (if h / 2 ^ 12 % 8 = 3
          then (withMem tick.2 mem).onDie (s.ownerOf pa) fun u => { u with aborted := u.aborted + 1 } else withMem tick.2 mem) ∧
      (∀ k < 32, memBit mem pa k = if k = 12 then true else if k = 13 ∨ k = 14 then false else memBit s.ms.mem pa k) ∧
      memNat mem (pa + 8) 8 = tick.1.toNat ∧
      ∀ x, ¬(pa ≤ x ∧ x < pa + 4) → ¬(pa + 8 ≤ x ∧ x < pa + 16) → Memory.byte mem x = Memory.byte s.ms.mem x)

namespace Sys2Proof.Say

/-- The resume address of a report: a hart whose HEXIT waits for the faulting entry resumes at that HEXIT. -/
def resumesAt (h : Hart) (resume : Word) : Word := if h.phase = .exiting then resume - 8 else resume

/-- The hart reports a fault with information `f` at address `epc` to its handler: the report in EPC, ECAUSE and EINFO, with
RET clear and INH set, the old queue as the trap image (the engine commands' fences in it set apart), the resume address in TRESUME, `start` in VSTART, and the pc at the
handler; it fetches again. -/
def inHandler (h : Hart) (f : FaultInfo) (epc resume : Word) (start : Nat) : Hart :=
  { h with
    vq := []
    trapImage := h.vq
    tresume := resumesAt h resume
    eng := h.eng.map fun q => { q with cmds := q.cmds.map fun c => { c with fences := 0, parked := c.parked + c.fences } }
    owes := false
    phase := if h.phase = .exiting then .running else h.phase
    pc := BitVec.ofNat 64 (h.trap.vec.toNat * 8)
    wait := .none
    pend := none
    ctl := { h.ctl with vstart := BitVec.ofNat 18 start }
    trap := { h.trap with
      epc := epc, trapno := f.trapno, inh := true, ret := false, qpos := 0, reason := f.reason, code := f.code, einfo := f.info } }

/-- A program fault of the hart enters its handler: it has one, and does not run it already. -/
def hasHandler (h : Hart) : Prop := h.trap.vec ≠ 0 ∧ h.trap.inh = false

/-- The handler of the hart in focus is entered: its queue stands in the hart's area as the trap image, with the entry count in
HSTAT, and TRESUME; the context takes FAULTED where an uncorrectable sector keeps a word of them. -/
def entersHandler (s : State) (f : FaultInfo) (epc resume : Word) (start : Nat) : State :=
  let h := s.hart
  let t := match s.hartArea h with
    | some a =>
      ((s.putWords a [BitVec.ofNat 64 (putBits (s.ms.creadNat a 8) 24 6 h.vq.length)]).putWords (a + 0xD8) [resumesAt h resume]).putWords
        (a + 0x1000) (h.vq.flatMap VqEntry.words)
    | none => s
  let t := { t with hart := inHandler h f epc resume start }
  if s.areaBad h [(0, 8), (0xD8, 8), (0x1000, 64 * h.vq.length)] then t.faultContext h.ctx else t

/-- The hart stands at the fault with nothing in the way of a stop, and goes on at `resume` when it runs again. The report
stands in its registers, but for a hart inside its handler. -/
def stoppedAt (h : Hart) (f : FaultInfo) (epc resume : Word) : Hart :=
  { h with
    wait := .none, pend := none, owes := false, pc := resume
    trap := if h.trap.inh then h.trap else
      { h.trap with epc := epc, trapno := f.trapno, qpos := 0, reason := f.reason, code := f.code, einfo := f.info } }

/-- `t` is what becomes of `s` when the hart in focus faults without a handler: a record is made, the hart stands at `resume`,
and its group begins to take FAULTED. -/
def groupFaults (s : State) (f : FaultInfo) (epc resume : Word) : State :=
  let x := s.hartRecord s.hart f epc false false false none
  ({ x.2 with hart := stoppedAt s.hart f epc resume }).faultGroup s.hart.grp f.code [(s.hart.f0, x.1)]

end Sys2Proof.Say

/-- A program fault enters the handler or faults the group, a replayable one always stops the group to be held, and the report is as defined. -/
def Obligations.TakingAFault : Prop :=
  (∀ (s : State) (f : FaultInfo) (epc resume : Word) (start : Nat), f.code ≠ 0x05 →
    (hasHandler s.hart → s.takeFault f epc resume start = entersHandler s f epc resume start) ∧
    (¬hasHandler s.hart → s.takeFault f epc resume start = groupFaults s f epc resume ∧
      ∀ g, s.group s.hart.grp = some g → g.st = .running → ∃ q, (groupFaults s f epc resume).group s.hart.grp = some q ∧
        q.st = .stopping ∧ q.reason = .fault ∧ q.code = f.code)) ∧
  (∀ (s : State) (f : FaultInfo) (epc resume : Word) (start : Nat), f.code = 0x05 →
    let x := s.hartRecord s.hart f epc true false false none
    let word (i : Nat) : Word := x.1.getD i 0
    s.takeFault f epc resume start =
      ({ x.2 with hart := stoppedAt s.hart f epc resume }).stopGroup s.hart.grp .replay 0x05 [(s.hart.f0, x.1)] ∧
    (word 0).toNat % 256 = 0x05 ∧ (word 0).toNat / 256 % 256 = f.reason.toNat ∧ (word 0).getLsbD 22 = true ∧
    (word 0).getLsbD 23 = false ∧ (word 0).getLsbD 24 = false ∧ word 1 = s.hart.ctl.wid ∧ word 2 = f.va ∧ word 3 = epc ∧
    word 4 = f.info ∧
    ∀ g, s.group s.hart.grp = some g → g.st = .running → ∃ q, (s.takeFault f epc resume start).group s.hart.grp = some q ∧
      q.st = .stopping ∧ q.reason = .replay ∧ q.code = 0x05 ∧ q.recs = [(s.hart.f0, x.1)]) ∧
  (∀ (s : State) (f : FaultInfo),
    let t := s.met (fun _ => .core s.hart.core) s.hart.core s.hart.ctx f
    s.frontFault f = t.frontTakes f ∧
    (f.walked = false → t = s) ∧
    (f.code = 0x05 ∨ f.code = 0x09 → s.ms.migIdle = true → t = s) ∧
    (s.hart.vq = [] → s.frontTakes f = s.takeFault f s.hart.pc s.hart.pc 0) ∧
    (s.hart.vq ≠ [] → s.frontTakes f =
      { s with hart := { s.hart with wait := .none, pend := some ⟨f, s.hart.pc, s.hart.pc⟩ } }))

/-- TRAP and BKPT wait for the queue and raise 0x12 or 0x11, or halt the hart under debugging; ERET returns to the trap image or to EPC (R437, R442, R443, R444, R446). -/
def Obligations.TrapAndReturn : Prop :=
  let traps (s : State) (i : Instr) (code : BitVec 8) (n : BitVec 16) : Prop :=
    let f : FaultInfo := ⟨code, 0, 0, 0, n⟩
    (s.hart.vq ≠ [] → exec i s = .next { s with hart := s.hart.waitFor .drain }) ∧
    (s.hart.vq = [] → hasHandler s.hart → exec i s = .next (
      let t := entersHandler s f s.hart.pc (s.hart.pc + 8) 0
      goesOn t t.hart t.hart.pc)) ∧
    (s.hart.vq = [] → ¬hasHandler s.hart → exec i s = .next (
      let t := groupFaults s f s.hart.pc (s.hart.pc + 8)
      goesOn t t.hart t.hart.pc))
  (∀ (g : Guard) (n : BitVec 16) (s : State), performs s (.trap g n) g → traps s (.trap g n) 0x12 n) ∧
  (∀ (g : Guard) (n : BitVec 16) (s : State), performs s (.bkpt g n) g → (s.ctx s.hart.ctx).dbgEn = false →
    traps s (.bkpt g n) 0x11 n) ∧
  (∀ (g : Guard) (s : State), performs s (.eret g) g →
    (s.hart.trap.inh = false → exec (.eret g) s = .next (s.frontTakes ⟨0x04, 0, 0, 0, 0⟩)) ∧
    (s.hart.trap.inh = true → s.hart.vq ≠ [] → exec (.eret g) s = .next { s with hart := s.hart.waitFor .drain }) ∧
    (s.hart.trap.inh = true → s.hart.vq = [] → exec (.eret g) s = .next (goesOn s
      { s.hart with
        vq := if s.hart.trap.ret then [] else s.hart.trapImage
        trapImage := []
        eng := s.hart.eng.map fun q => { q with cmds := q.cmds.map fun c =>
          { c with fences := if s.hart.trap.ret then c.fences else c.fences + c.parked, parked := 0 } }
        owes := !s.hart.trap.ret && !s.hart.trapImage.isEmpty
        trap := { s.hart.trap with inh := false }
        ctl := { s.hart.ctl with vstart := 0 } }
      (if s.hart.trap.ret then s.hart.trap.epc else s.hart.tresume)))) ∧
  (∀ (g : Guard) (n : BitVec 16) (s : State), performs s (.bkpt g n) g → (s.ctx s.hart.ctx).dbgEn = true →
    (s.hart.vq ≠ [] → exec (.bkpt g n) s = .next { s with hart := s.hart.waitFor .drain }) ∧
    (s.hart.vq = [] → (∀ p ∈ s.far.pieces, p.hart ≠ s.hart.no) →
      let x := s.hartRecord s.hart ⟨0x11, 0, 0, 0, 0⟩ s.hart.pc false false true none
      let h : Hart := { s.hart with
        wait := .none, pend := none, pc := s.hart.pc + 8, phase := .halted, trap := { s.hart.trap with epc := s.hart.pc, code := 0x11 } }
      let t : State := { x.2 with hart := h }
      (t.hartArea h = none → exec (.bkpt g n) s = .next (
        let u := if h.imageSpoilt then (t.record h.ctx x.1).faultContext h.ctx else t.record h.ctx x.1
        goesOn u u.hart u.hart.pc)) ∧
      (∀ a, t.hartArea h = some a → exec (.bkpt g n) s = .next (
        let y := t.putChunks a ({ h with phase := .running }.imageChunks true)
        let u := if y.2 || h.imageSpoilt then (y.1.record h.ctx x.1).faultContext h.ctx else y.1.record h.ctx x.1
        goesOn u u.hart u.hart.pc))))

/-- HYIELD, HEXIT, KLAUNCH, QSUB and HRPUT do what the Compass and the host rings give them, or report, or wait. -/
def Obligations.CompassRequestResults : Prop :=
  let on (s t : State) : Result := .next (goesOn t t.hart (s.hart.pc + 8))
  (∀ (g : Guard) (s : State), performs s (.hyield g) g →
    (∀ q, s.group s.hart.grp = some q → q.st = .running → s.yieldsTo q = true → q.key = s.hart.grp →
      exec (.hyield g) s = on s (s.stopGroup s.hart.grp .preempt 0 [])) ∧
    ((∀ q, s.group s.hart.grp = some q → q.st ≠ .running ∨ s.yieldsTo q = false) → exec (.hyield g) s = on s s)) ∧
  (∀ (g : Guard) (s : State), performs s (.hexit g) g →
    (s.hart.vq = [] → exec (.hexit g) s =
      .next (goesOn (flushed s) { s.hart with phase := .exited } (s.hart.pc + 8))) ∧
    (s.hart.vq ≠ [] → exec (.hexit g) s = .next (goesOn s { s.hart with phase := .exiting } (s.hart.pc + 8)))) ∧
  (∀ (g : Guard) (d a : XReg) (s : State), performs s (.klaunch g d a) g →
    let i := Instr.klaunch g d a
    let x := xOf s a
    accessEnds s i (s.resolve { s.agent with grp := none } { r := true, align := 256 } x.toNat 0x100) fun ps =>
      (s.partsPoisoned ps = true → exec i s = .next (s.frontFault ⟨0x10, 0, x, 0, 0⟩)) ∧
      (s.partsPoisoned ps = false → s.hart.vq ≠ [] ∨ s.hart.wait ≠ .klaunch →
        exec i s = .next { s with hart := s.hart.waitFor .klaunch }) ∧
      (s.partsPoisoned ps = false → s.hart.vq = [] → s.hart.wait = .klaunch →
        let r : LaunchReq := ⟨s.hart.ctx, x, 0, (s.kernel s.hart.kern).bind Kernel.queue, none⟩
        (∀ k t, (flushed s).launch r = .accepted k t → exec i s = on s { t with hart := t.hart.setX d 0 }) ∧
        (∀ c t, (flushed s).launch r = .refused c t →
          exec i s = on s { t with hart := t.hart.setX d (BitVec.ofNat 64 c.toNat) }) ∧
        (∀ f, (flushed s).launch r = .unread (.fault f) → exec i s = .next (s.frontFault f)) ∧
        (∀ n t, (flushed s).launch r = .full n t →
          exec i s = on s (let u := t.refuseKernel s.hart.ctx x 0x07; { u with hart := u.hart.setX d 7 })))) ∧
  (∀ (g : Guard) (a b : XReg) (s : State), performs s (.qsub g a b) g →
    let i := Instr.qsub g a b
    let q := (xOf s a).toNat
    let x := xOf s b
    let w := s.queue q
    let reports (f : FaultInfo) : Prop := exec i s = .next (s.frontTakes f)
    (1024 ≤ q → reports ⟨0x04, 0, 0, 0, 0⟩) ∧
    (q < 1024 → x.toNat % 64 ≠ 0 → reports ⟨0x08, 0, x, 0, 0⟩) ∧
    (q < 1024 → x.toNat % 64 = 0 → 2 ^ 52 ≤ x.toNat → reports ⟨0x06, 4, x, 0, 0⟩) ∧
    (q < 1024 → x.toNat % 64 = 0 → x.toNat < 2 ^ 52 →
      (w.ctx.toNat ≠ s.hart.ctx → reports ⟨0x06, 3, 0, 0, 0⟩) ∧
      (w.ctx.toNat = s.hart.ctx → w.state = .disabled ∨ w.state = .faulted → reports ⟨0x04, 0, 0, 0, 0⟩) ∧
      (w.ctx.toNat = s.hart.ctx → w.state ≠ .disabled → w.state ≠ .faulted →
        (s.hart.vq ≠ [] ∨ s.unacked s.hart.owner = true ∨ 64 ≤ w.subs.length →
          exec i s = .next { s with hart := s.hart.waitFor .qsub }) ∧
        (s.hart.vq = [] → s.unacked s.hart.owner = false → w.subs.length < 64 →
          exec i s = on s ((flushed s).submitTo q x true))))) ∧
  (∀ (g : Guard) (a b : XReg) (s : State), performs s (.hrput g a b) g →
    let i := Instr.hrput g a b
    let r := (xOf s a).toNat
    let x := (xOf s b).toNat
    let k := s.ring r
    (256 ≤ r ∨ k.en = false ∨ s.hart.wait = .hrput r true → exec i s = .next (s.frontTakes ⟨0x04, 0, 0, 0, 0⟩)) ∧
    (r < 256 → k.en = true → s.hart.wait ≠ .hrput r true → k.ctx.toNat ≠ s.hart.ctx → exec i s = .next (s.frontTakes ⟨0x06, 3, 0, 0, 0⟩)) ∧
    (r < 256 → k.en = true → s.hart.wait ≠ .hrput r true → k.ctx.toNat = s.hart.ctx →
      ∀ src slot, s.resolve s.agent { r := true, align := 64 } x 64 = .ok src →
        s.resolve { s.agent with grp := none } { w := true } k.slotVa 64 = .ok slot →
        accessEnds s i (s.readAll s.hart.core true x src) fun y =>
          let full := (k.prod - k.cons).toNat = 2 ^ k.log2n.toNat
          (y.2.hart.vq ≠ [] ∨ y.2.unacked y.2.hart.owner = true →
            exec i s = .next { s with hart := s.hart.waitFor .fenceStk }) ∧
          (y.2.hart.vq = [] → y.2.unacked y.2.hart.owner = false → full →
            exec i s = .next { s with hart := s.hart.waitFor (.hrput r false) }) ∧
          (y.2.hart.vq = [] → y.2.unacked y.2.hart.owner = false → ¬full →
            accessEnds s i ((flushed y.2).putRing r (slot.map Part.uncached) y.1) fun t => exec i s = on s t)))

namespace Sys2Proof.Say

/-- The five engine commands: what an issue puts into its queue. Operands are read, and the phase is SC + AH. -/
def commandOf (s : State) (i : Instr) : Option (Nat × EngCmd) :=
  let made (kind : EngKind) (e : EngMod) (d a b c : XReg) (copy : CopyWord) (rows : RowsWord) : Option (Nat × EngCmd) :=
    some (e.queue.toNat,
      { kind := kind, addr := s.hart.pc, xa := xOf s a, xb := xOf s b, xc := xOf s c, copy := copy, rows := rows,
        bar := if d = 0 then none else some (xOf s d), phase := s.hart.ctl.sc + BitVec.ofNat 32 e.ahead.toNat, leaves := [],
        seq := 0, fences := (s.hart.vq.filter fun x => (x.instr matches .fenceVv _) || isAcquire x.instr).length, parked := 0,
        started := false, puts := [], sectors := [], slots := [], landed := 0, left := 0, flags := 0 })
  match i with
  | .ecpy _ e d a b c w => made .ecpy e d a b c w ⟨.n16, 0, 0, 0⟩
  | .emcast _ e d a b c w => made .emcast e d a b c w ⟨.n16, 0, 0, 0⟩
  | .efill _ e d a b c w => made .efill e d a b c w ⟨.n16, 0, 0, 0⟩
  | .egath _ e d a b c w => made .egath e d a b c ⟨none, 0, 0, 0, 0, 0⟩ w
  | .escat _ e d a b c w => made .escat e d a b c ⟨none, 0, 0, 0, 0, 0⟩ w
  | _ => none

/-- Bytes a command moves: rows, times the bytes of a row, times the cores an EMCAST selects (R339). -/
def bytesMoved (c : EngCmd) : Nat :=
  let elems : Nat := match c.copy.kv with
    | none => 1
    | some .bf16 => 2
    | some .fp16 => 2
    | some .fp32 => 4
  match c.kind with
  | .ecpy | .efill => (c.copy.nrows.toNat + 1) * (c.xc.toNat * elems)
  | .emcast => (c.copy.nrows.toNat + 1) * (c.xc.toNat * elems) * ((List.range 4).filter fun k => c.copy.cmask.getLsbD k).length
  | .egath | .escat => (c.rows.nidx.toNat + 1) * (c.rows.rowbytes.toNat + 1)

/-- The machine with command `c` as the last of queue `q` of the hart in focus, next in the order of issue. -/
def queued (s : State) (q : Nat) (c : EngCmd) : State :=
  let e := s.hart.eng[q]?.getD ⟨[], .empty, 0⟩
  let e' : EngQueue :=
    { e with cmds := e.cmds ++ [{ c with seq := s.cmp.nextOrder, left := bytesMoved c }], st := if e.st = .held then .held else .running }
  { s with
    cmp := { s.cmp with nextOrder := s.cmp.nextOrder + 1 }
    hart := { s.hart with eng := s.hart.eng.setIfInBounds q e' } }

/-- The hart in focus runs, and `no` names it. -/
def inFocus (s : State) (no : Nat) : Prop := s.hart.no = no ∧ s.hart.phase ≠ .absent

/-- Queue `q` of the hart in focus. -/
def queueOf (s : State) (q : Nat) : EngQueue := s.hart.eng[q]?.getD ⟨[], .empty, 0⟩

/-- Writes of command `c` of queue `q` that have not been acknowledged. -/
def unackedOf (s : State) (q : Nat) (c : EngCmd) : Bool :=
  s.link.waiting.any fun p => p.src == { s.hart.poster with eng := some (q, c.seq) }

/-- The machine with another queue `q` at the hart in focus. -/
def withQueue (s : State) (q : Nat) (e : EngQueue) : State := { s with hart := { s.hart with eng := s.hart.eng.setIfInBounds q e } }

end Sys2Proof.Say

/-- ECPY, EMCAST, EFILL, EGATH and ESCAT check their spans and enter their queue with all they read; QFENCE waits for its queues. -/
def Obligations.EngineIssueResults : Prop :=
  (∀ (i : Instr) (g : Guard) (q : Nat) (c : EngCmd) (s : State), guardOf i = some g → performs s i g →
    commandOf s i = some (q, c) →
    (16 ≤ (queueOf s q).cmds.length → exec i s = .next { s with hart := s.hart.waitFor .room }) ∧
    ((queueOf s q).cmds.length < 16 →
      (∀ f, s.checkEngine s.hart c = .fault f → exec i s = .next (s.frontFault f)) ∧
      (∀ f, s.checkEngine s.hart c = .refuse f → exec i s = .next (s.frontTakes f)) ∧
      (∀ w, s.checkEngine s.hart c = .wait w → exec i s = .next { s with hart := s.hart.waitFor w }) ∧
      (∀ l, s.checkEngine s.hart c = .ok l → exec i s = .next (
        let t := queued s q { c with leaves := l }
        let u := if s.lag.eng then t else t.runEngines t.hart.no false
        goesOn u u.hart (s.hart.pc + 16))))) ∧
  (∀ (g : Guard) (mask : BitVec 4) (s : State), performs s (.qfence g mask) g →
    let done := ∀ q < 4, mask.getLsbD q = true → (queueOf s q).cmds = []
    (mask = 0 → exec (.qfence g mask) s = .next (goesOn s s.hart (s.hart.pc + 8))) ∧
    (mask ≠ 0 → done → exec (.qfence g mask) s = .next (goesOn s.dropClean s.hart (s.hart.pc + 8))) ∧
    (mask ≠ 0 → ¬done → exec (.qfence g mask) s = .next { s with hart := s.hart.waitFor .qfence }))

/-- A queue's head starts, is held by an earlier command's range, is released, subtracts its bytes and completes with DONE one more. -/
def Obligations.EngineQueueEvents : Prop :=
  ∀ (s : State) (no q : Nat) (c : EngCmd) (r : List EngCmd), inFocus s no → q < 4 → (queueOf s q).cmds = c :: r →
    let heldBack := ∃ p < 4, ∃ d ∈ (queueOf s p).cmds, d.seq < c.seq ∧ c.meets d = true
    let written := if unackedOf s q c then 0 else c.landed - (bytesMoved c - c.left)
    (c.started = true → exec (.engineCmdStart no q) s = .next s) ∧
    (c.started = false → heldBack → exec (.engineCmdStart no q) s = .next (withQueue s q { queueOf s q with st := .held })) ∧
    (c.started = false → ¬heldBack → c.fences ≠ 0 ∨ c.parked ≠ 0 → exec (.engineCmdStart no q) s = .next s) ∧
    (c.started = false → ¬heldBack → c.fences = 0 → c.parked = 0 →
      (∀ t d, s.engBegin s.hart c = .ok t d → inFocus t no → t.hart.eng = s.hart.eng → d.started = true ∧
        exec (.engineCmdStart no q) s = .next (withQueue t q { queueOf s q with st := .running, cmds := d :: r })) ∧
      (∀ t o f, s.engBegin s.hart c = .fault t o f → exec (.engineCmdStart no q) s =
        .next ((t.takeAnswer s.hart.core s.hart.ctx f).engFault no q
          (match o with
            | none => .copyEngine s.hart.core
            | some k => if c.kind = .egath ∨ c.kind = .escat then .chord k else .copyEngine s.hart.core) f)) ∧
      (s.engBegin s.hart c = .held → exec (.engineCmdStart no q) s = .next s)) ∧
    ((queueOf s q).st = .held → ¬heldBack →
      exec (.engineRangeRelease no q) s = .next (withQueue s q { queueOf s q with st := .running })) ∧
    ((queueOf s q).st ≠ .held ∨ heldBack → exec (.engineRangeRelease no q) s = .next s) ∧
    (c.started = true → c.puts = [] → c.bar = none → unackedOf s q c = false → (queueOf s q).st ≠ .faulted →
      s.hart.phase ≠ .halted →
      exec (.engineCmdComplete no q) s = .next (withQueue { s with hart := s.hart.orFlags ⟨c.flags, 0⟩ } q
        { queueOf s q with cmds := r, done := (queueOf s q).done + 1, st := if r = [] then .empty else .running })) ∧
    (∀ x key, c.started = true → c.puts = [] → c.bar = some x → unackedOf s q c = false → (queueOf s q).st ≠ .faulted →
      s.hart.phase ≠ .halted → s.barrierKey s.hart x = .ok key → s.ms.lsSpoilt key 64 = false →
      let done (t : State) : State := withQueue { t with hart := s.hart.orFlags ⟨c.flags, 0⟩ } q
        { queueOf s q with cmds := r, done := (queueOf s q).done + 1, st := if r = [] then .empty else .running }
      (c.left = 0 → bytesMoved c ≠ 0 → exec (.engineCmdComplete no q) s = .next (done s)) ∧
      (c.left ≠ 0 ∨ bytesMoved c = 0 →
        (∀ rec, (s.ms.barrier key).subtract (s.groupExtent s.hart.kern) c.phase c.left = .ok rec →
          exec (.engineCmdComplete no q) s = .next (done { s with ms := s.ms.lsWrite key (leBytes 64 rec.toNat) })) ∧
        (∀ code, (s.ms.barrier key).subtract (s.groupExtent s.hart.kern) c.phase c.left = .fault code →
          ∀ e, (s.engFault no q (.copyEngine s.hart.core) ⟨code, 0, x, 0, 0⟩).findHart no = some e → (e.eng[q]?.getD ⟨[], .empty, 0⟩).st = .faulted →
          exec (.engineCmdComplete no q) s = .next (s.engFault no q (.copyEngine s.hart.core) ⟨code, 0, x, 0, 0⟩)))) ∧
    (c.started = false ∨ c.puts ≠ [] ∨ unackedOf s q c = true → exec (.engineCmdComplete no q) s = .next s) ∧
    (∀ bytes x key rec, c.started = true → 0 < bytes → bytes ≤ c.left → bytes ≤ written → c.bar = some x →
      s.barrierKey s.hart x = .ok key → s.ms.lsSpoilt key 64 = false → (s.ms.barrier key).subtract (s.groupExtent s.hart.kern) c.phase bytes = .ok rec →
      exec (.barrierSubtract no q bytes) s = .next (withQueue { s with ms := s.ms.lsWrite key (leBytes 64 rec.toNat) } q
        { queueOf s q with cmds := { c with left := c.left - bytes } :: r })) ∧
    (∀ bytes x key, c.started = true → 0 < bytes → bytes ≤ c.left → bytes ≤ written → c.bar = some x →
      s.barrierKey s.hart x = .ok key → s.ms.lsSpoilt key 64 = true →
      exec (.barrierSubtract no q bytes) s = .next (s.engFault no q (.copyEngine s.hart.core) ⟨0x10, 0, x, 0, 0⟩)) ∧
    (∀ bytes x key code, c.started = true → 0 < bytes → bytes ≤ c.left → bytes ≤ written → c.bar = some x →
      s.barrierKey s.hart x = .ok key → s.ms.lsSpoilt key 64 = false → (s.ms.barrier key).subtract (s.groupExtent s.hart.kern) c.phase bytes = .fault code →
      exec (.barrierSubtract no q bytes) s = .next (s.engFault no q (.copyEngine s.hart.core) ⟨code, 0, x, 0, 0⟩)) ∧
    (∀ bytes, c.started = false ∨ bytes = 0 ∨ c.left < bytes ∨ written < bytes →
      exec (.barrierSubtract no q bytes) s = .next s)

/-- A barrier record written to the local store reads back field by field, and a subtraction of bytes faults or lowers PEND and completes what is due. -/
def Obligations.BarrierRecordLaws : Prop :=
  (∀ (ms : MemSys) (key : Nat) (r : BarRec), Memory.wf ms.ls = true → r.exp < 2 ^ 16 → r.state < 2 ^ 8 → r.reserved < 2 ^ 56 →
    (∀ k : Fin 4, -2 ^ 63 ≤ r.pend[k] ∧ r.pend[k] < 2 ^ 63) →
    let b := leNat ((ms.lsWrite key (leBytes 64 r.toNat)).lsRead key 64)
    BarRec.ofNat b = r ∧
    b % 2 ^ 16 = r.exp ∧ b / 2 ^ 16 % 2 ^ 16 = r.gone.toNat ∧ b / 2 ^ 32 % 2 ^ 32 = r.ph.toNat ∧
    b / 2 ^ 64 % 2 ^ 8 = r.state ∧ b / 2 ^ 72 % 2 ^ 56 = r.reserved ∧
    ∀ k : Fin 4, b / 2 ^ (128 + 32 * k.val) % 2 ^ 16 = r.arrived[k].toNat ∧
      b / 2 ^ (144 + 32 * k.val) % 2 ^ 16 = r.dropped[k].toNat ∧
      ((b / 2 ^ (256 + 64 * k.val) % 2 ^ 64 : Nat) : Int) = r.pend[k] % 2 ^ 64) ∧
  ∀ (r : BarRec) (n : Nat) (q : BitVec 32) (b : Nat),
    let k := slotOf r (ahead r q)
    let v := r.pend[k] - (b : Int)
    (¬recordOk n r ∨ r.state ≠ 0xB1 ∨ 4 ≤ ahead r q → r.subtract n q b = .fault 0x0B) ∧
    (recordOk n r → r.state = 0xB1 → ahead r q < 4 → v < -2 ^ 35 → r.subtract n q b = .fault 0x0C) ∧
    (recordOk n r → r.state = 0xB1 → ahead r q < 4 → -2 ^ 35 ≤ v →
      ∃ t, Completes { r with pend := r.pend.set k v } t ∧ r.subtract n q b = .ok t)

/-- EFILL to the local store writes its eight-byte pattern to every byte of its rows and no other byte of the store. -/
def Obligations.EngineFillWrites : Prop :=
  ∀ (s : State) (no q : Nat) (c : EngCmd) (r : List EngCmd), inFocus s no → q < 4 → (queueOf s q).cmds = c :: r →
    quietMemory s → s.mgmt.tables = [] → c.kind = .efill → c.copy.kv = none → c.copy.rot = 0 → c.started = false → c.fences = 0 → c.parked = 0 →
    c.leaves = [] → (∀ p < 4, ∀ d ∈ (queueOf s p).cmds, d.seq < c.seq → c.meets d = false) → c.xc.toNat ≤ c.copy.dpitch.toNat →
    let off := c.xa.toNat - 0xFFFFFFF800000
    let rows := c.copy.nrows.toNat + 1
    let size := (rows - 1) * c.copy.dpitch.toNat + c.xc.toNat
    0xFFFFFFF800000 ≤ c.xa.toNat → off % 2 ^ 21 + size ≤ s.lstoreOf s.hart.kern → off + size ≤ 2 ^ 23 → off % 2 ^ 21 + size ≤ 2 ^ 21 →
    ∃ u, exec (.engineCmdStart no q) s = .next u ∧ u.ms.mem = s.ms.mem ∧ u.ms.ls = s.ms.ls ∧
      let t := u.engLandAll no q
      t.ms.mem = s.ms.mem ∧
      (∃ d, (queueOf t q).cmds = d :: r ∧ d.started = true ∧ d.puts = [] ∧ d.landed = c.landed + rows * c.xc.toNat) ∧
      (∀ k < rows, ∀ j < c.xc.toNat, t.ms.lsByte (lsKey s.hart.grp 0 off + k * c.copy.dpitch.toNat + j) =
        BitVec.ofNat 8 (c.xb.toNat / 2 ^ (8 * (j % 8)) % 256)) ∧
      ∀ key, (∀ k < rows, ¬(lsKey s.hart.grp 0 off + k * c.copy.dpitch.toNat ≤ key ∧
          key < lsKey s.hart.grp 0 off + k * c.copy.dpitch.toNat + c.xc.toNat)) → t.ms.lsByte key = s.ms.lsByte key

namespace Sys2Proof.Say

/-- The event answers a next state of which this holds. -/
def comesTo (s : State) (i : Instr) (P : State → Prop) : Prop := ∃ t, exec i s = .next t ∧ P t

/-- Group `key` of the machine, as this says. -/
def groupIs (t : State) (key : Nat) (P : Group → Prop) : Prop := ∃ q, t.group key = some q ∧ P q

/-- Kernel `key` of the machine, as this says. -/
def kernelIs (t : State) (key : Nat) (P : Kernel → Prop) : Prop := ∃ k, t.kernel key = some k ∧ P k

/-- No placed hart belongs to the group. -/
def noHartOf (t : State) (key : Nat) : Prop := ∀ h ∈ t.placedHarts, h.grp ≠ key

/-- A hart as placement from WAITING makes it (R108, R389). -/
def freshHart (k : Kernel) (g : Group) (no f0 : Nat) (h : Hart) : Prop :=
  h.no = no ∧ h.f0 = f0 ∧ h.grp = g.key ∧ h.kern = k.key ∧ h.ctx = g.ctx ∧ h.phase = .running ∧ h.vq = [] ∧ h.pc = k.hdr.entry ∧
  h.getX 9 = k.va ∧ h.getX 10 = BitVec.ofNat 64 g.g ∧
  (∀ j < 8, h.getX (BitVec.ofNat 6 (j + 1)) = k.hdr.args.getD j 0) ∧ (∀ j, 11 ≤ j → j < 64 → h.getX (BitVec.ofNat 6 j) = 0) ∧
  h.ctl.wid = k.hdr.wid g.g f0 ∧ h.ctl.srseed = k.hdr.wid g.g f0 ∧ h.ctl.vl = 0 ∧ h.ctl.vstart = 0 ∧ h.ctl.hpc = k.hdr.hpc ∧
  h.trap.vec.toNat = k.hdr.trap.toNat / 8 % 2 ^ 49 ∧ h.trap.inh = false

end Sys2Proof.Say

/-- Placing, preempting, stopping, retiring, aging and holding a group, and dispatching and completing a kernel, do what the Compass does. -/
def Obligations.GroupAndKernelEvents : Prop :=
  (∀ (s : State) (g : Group) (k : Kernel) (quad slot : Nat), s.group g.key = some g → s.nextPlacement = some g.key →
    g.st = .waiting → s.kernel g.kern = some k → k.key = g.kern → s.quadFits k quad [] = true →
    (s.ctx g.ctx).freeSlot = some slot → comesTo s (.groupPlace g.key quad) fun t =>
      groupIs t g.key (fun q => q.st = .running ∧ q.slot = some slot ∧ q.quad = quad ∧ q.placed = true) ∧
      ∃ (nos : List Nat) (hs : List Hart), nos.length = k.hdr.extent ∧ nos.Sublist (s.freeSlots quad k.hdr.hpc []) ∧ t.harts = s.harts ++ hs ∧
        hs.length = nos.length ∧ ∀ f < nos.length, ∃ h, hs[f]? = some h ∧ freshHart k g (nos.getD f 0) f h) ∧
  (∀ (s : State) (g : Group) (k : Kernel) (quad slot : Nat), s.group g.key = some g → s.nextPlacement = some g.key →
    g.st = .preempted → g.slot = some slot → s.kernel g.kern = some k → k.key = g.kern → s.quadFits k quad [] = true →
    quietMemory s → s.ms.rel = [] → s.ms.lsBad = [] →
    let a := (s.ctx g.ctx).slotBase slot
    let area (f : Nat) : Nat := a + areaOffset k.hdr.hpc f
    let restored (no f : Nat) : Option Hart := s.hartOfImage (area f) k.hdr.hpc (placeHart no g.ctx k.key g.key f)
    (s.groupImageBad a = false → (∀ no f, f < k.hdr.extent → (restored no f).isSome = true) →
      comesTo s (.groupPlace g.key quad) fun t =>
        groupIs t g.key (fun q => q = { g with st := .running, quad := quad, hold1ms := false }) ∧
        ∃ (nos : List Nat) (hs : List Hart), nos.length = k.hdr.extent ∧ nos.Sublist (s.freeSlots quad k.hdr.hpc []) ∧
          t.harts = s.harts ++ hs ∧ hs.length = nos.length ∧
          ∀ f < nos.length, ∃ h, hs[f]? = some h ∧ restored (nos.getD f 0) f = some h ∧ h.no = nos.getD f 0 ∧
            h.pc.toNat = s.imageNat (area f + 0xA0) 8 ∧ h.ctl.vstart.toNat = s.imageNat (area f + 0xE0) 8 ∧
            ∀ j, 1 ≤ j → j < 64 → (h.getX (BitVec.ofNat 6 j)).toNat = s.imageNat (area f + 0x100 + 8 * j) 8) ∧
    (s.groupImageBad a = true → comesTo s (.groupPlace g.key quad) fun t =>
      groupIs t g.key (fun q => q.st = .faulted ∧ q.held = false ∧ q.slot = some slot) ∧
        (noHartOf s g.key → noHartOf t g.key))) ∧
  (∀ (s : State) (c : Group) (k : Kernel) (quad : Nat), s.roomFor = some c → s.kernel c.kern = some k →
    (∃ l ∈ sublistsOf ((s.victims c quad).map Group.key), l ≠ [] ∧ s.quadFits k quad l = true) →
    ∃ (l : List Nat) (n : Nat), l ≠ [] ∧ (∀ key ∈ l, ∃ g ∈ s.victims c quad, g.key = key) ∧ s.quadFits k quad l = true ∧
      exec (.groupPreempt quad) s =
        .next (l.foldl (fun t key => t.stopGroup key .preempt 0 []) { s with free := s.free + n, cmp := { s.cmp with making := addNew s.cmp.making c.key } })) ∧
  (∀ (s : State) (key : Nat) (g : Group) (k : Kernel), s.group key = some g → g.st = .stopping →
    let hs := s.groupHarts key
    let u := (s.drainHarts (hs.map Hart.no)).flushHarts hs
    (u.groupHarts key).all u.settled = true → u.group key = some g → u.kernel g.kern = some k →
      exec (.groupStopComplete key) s = .next (u.endStop k g) ∧
      (g.reason = .preempt → g.recs = [] → u.ms.poison = [] → u.ms.lsBad = [] → (u.groupHarts key).any Hart.imageSpoilt = false → g.key = key →
        groupIs (u.endStop k g) key (fun q => q.st = .preempted ∧ q.held = false) ∧ noHartOf (u.endStop k g) key)) ∧
  (∀ (s : State) (g : Group) (k : Kernel), s.group g.key = some g → s.mayRetire g = true → s.kernel g.kern = some k →
    k.key = g.kern → k.st = .dispatching ∨ k.st = .running → comesTo s (.groupRetire g.key) fun t =>
      t.group g.key = none ∧ noHartOf t g.key ∧ kernelIs t k.key (fun q => q.gretired = k.gretired + 1) ∧
      ∀ i, g.slot = some i → i ∉ (t.ctx g.ctx).slots) ∧
  (∀ (s : State) (k : Kernel), (s.cmp.kernels.filter fun k => k.st = .dispatching).length < 64 → s.nextKernel = some k →
    s.kernel k.key = some k → comesTo s .kernelDispatch fun t =>
      kernelIs t k.key (fun q => q.st = .dispatching) ∧
      ∃ gs : List Group, t.cmp.groups = s.cmp.groups ++ gs ∧ gs.length = k.hdr.groupCount ∧
        ∀ n < gs.length, ∃ g, gs[n]? = some g ∧ g.st = .waiting ∧ g.kern = k.key ∧ g.ctx = k.ctx ∧ g.g = n ∧ g.placed = false) ∧
  (∀ (s : State) (k : Kernel), s.kernel k.key = some k →
    (∀ g ∈ s.cmp.groups, g.kern = k.key → g.st ≠ .running ∧ g.st ≠ .stopping) →
    (∀ p ∈ s.link.waiting, p.src.kern = k.key → p.src.node ≠ none) →
    (k.st = .draining → comesTo s (.kernelComplete k.key) fun t => kernelIs t k.key fun q => q = { k with st := .complete }) ∧
    (k.st = .faulted → k.told = false →
      comesTo s (.kernelComplete k.key) fun t => kernelIs t k.key fun q => q = { k with told := true })) ∧
  (∀ (s : State) (g : Group) (k : Kernel), s.group g.key = some g → s.kernel g.kern = some k → g.st = .preempted → g.held = false →
    comesTo s (.priorityAging g.key) fun t => groupIs t g.key fun q => q = { g with aged := g.aged + 1, eff := min 7 (k.base + g.aged + 1) }) ∧
  (∀ (s : State) (g : Group) (r : List Group), s.candidates = g :: r → s.group g.key = some g → s.somePlace g = false →
    comesTo s .candidateHold fun t => groupIs t g.key fun q => q = { g with hold1ms := true })

/-- A wait that ends sends its hart's front end back to the instruction; a fault that waited for the queue is taken; fetch and decode faults are reported. -/
def Obligations.HartWaitsAndFrontFaults : Prop :=
  let wakes (i : Instr) (no : Nat) (w : HartWait → Prop) (s : State) : Prop :=
    (∀ h, s.findHart no = some h → h.phase = .running → w h.wait →
      exec i s = .next { s with agenda := .front no :: s.agenda }) ∧
    ((∀ h, s.findHart no = some h → h.phase ≠ .running ∨ ¬w h.wait) → exec i s = .next s)
  let reports (i : Instr) (f : FaultInfo) (s : State) : Prop :=
    (s.hart.vq ≠ [] → exec i s = .next { s with hart := { s.hart with wait := .none, pend := some ⟨f, s.hart.pc, s.hart.pc⟩ } }) ∧
    (s.hart.vq = [] → hasHandler s.hart → exec i s = .next (entersHandler s f s.hart.pc s.hart.pc 0)) ∧
    (s.hart.vq = [] → ¬hasHandler s.hart → exec i s = .next (groupFaults s f s.hart.pc s.hart.pc))
  (∀ (no : Nat) (s : State), wakes (.resyncIssue no) no (· = .resync) s ∧
    wakes (.barrierWake no) no (fun w => ∃ key cls, w = .barrier key cls) s ∧ wakes (.qsubResume no) no (· = .qsub) s ∧
    wakes (.hrputResume no) no (fun w => ∃ r off, w = .hrput r off) s ∧ wakes (.ctwResume no) no (· = .ctw) s ∧
    wakes (.klaunchAnswer no) no (· = .klaunch) s) ∧
  (∀ (no : Nat) (s : State), inFocus s no →
    (s.hart.pend = none ∨ s.hart.vq ≠ [] → exec (.trapEntry no) s = .next s) ∧
    (∀ p, s.hart.pend = some p → s.hart.vq = [] → p.fault.code ≠ 0x05 →
      let u := { s with hart := { s.hart with pend := none } }
      (hasHandler s.hart → exec (.trapEntry no) s = .next (entersHandler u p.fault p.epc p.resume 0)) ∧
      (¬hasHandler s.hart → exec (.trapEntry no) s = .next (groupFaults u p.fault p.epc p.resume)))) ∧
  (∀ s : State, reports .illegalInstruction ⟨0x01, 0, 0, 0, 0⟩ s) ∧
  ∀ (s : State) (code reason : BitVec 8) (va : Word),
    exec (.fetchFault code reason va) s = .next (s.frontFault ⟨code, reason, va, 0, 0⟩) ∧
    (code ≠ 0x05 → ¬(code = 0x06 ∧ reason = 8) → s.ms.migIdle = true → s.link.answers = [] →
      reports (.fetchFault code reason va) ⟨code, reason, va, 0, 0⟩ s)

namespace Sys2Proof.Say

/-- The far block and engine of stack `t`. -/
def dieOf (s : State) (t : Nat) : StackUnit := s.far.dies[t]?.getD .reset

/-- The machine with another far block at stack `t`. -/
def withDie (s : State) (t : Nat) (u : StackUnit) : State := { s with far := { s.far with dies := s.far.dies.setIfInBounds t u } }

/-- The machine with one more message sent. -/
def sends (s : State) (m : OutMsg) : State := { s with link := { s.link with out := s.link.out ++ [m] } }

/-- The hart's queue with its head at another start position, carrying this from its beginning. -/
def headAt (s : State) (n : Nat) (f : Option Begun → Option Begun) : State :=
  { s with hart := { s.hart with vq := match s.hart.vq with
    | [] => []
    | e :: r => { e with start := n, begun := f e.begun } :: r } }

/-- A write of the host to a register of this block has its effect: the module is READY and not locked, the table admits it, and
no earlier release or write of the host is still to come. -/
def hostReaches (s : State) (block : Nat) : Prop :=
  s.plat.stage = 4 ∧ s.mgmt.locked = false ∧ s.permits .host (.regBlock block) true = true ∧ s.ms.rel = [] ∧ s.ms.outer = []

end Sys2Proof.Say

/-- A far head is dispatched, pieces complete in order, answers reach requests, and contributions combine with memory. -/
def Obligations.FarWorkEvents : Prop :=
  (∀ (s : State) (no : Nat) (e : VqEntry) (r : List VqEntry), inFocus s no → s.hart.vq = e :: r → soundRegs s →
    (isFarWord e.instr = false → exec (.farDispatch no) s = .next s) ∧
    (isFarWord e.instr = true →
      (∀ t, s.performEntry e = .done t → exec (.farDispatch no) s = .next (finished e.instr t)) ∧
      (∀ t f n, s.performEntry e = .fault t f n →
        exec (.farDispatch no) s = .next (
          let u := t.met (t.entryMaster e) t.hart.core t.hart.ctx f
          let w := headAt u n fun _ => none
          ({ w with hart := { w.hart with owes := false } }).takeFault f e.addr u.hart.pc n)) ∧
      (∀ t, s.performEntry e = .wait t e.start → exec (.farDispatch no) s = .next (headAt t e.start fun b => some (b.getD (s.env e).begun))))) ∧
  (∀ (s : State) (no stack : Nat) (p : FarPiece) (l r : List FarPiece), inFocus s no → s.far.pieces = l ++ p :: r →
    p.hart = no → p.stack = stack → (∀ q ∈ l, q.hart = no → q.stack ≠ stack) →
    (∀ q ∈ l, q.hart = no → ¬(p.role = .top ∧ q.role = .read ∧ q.seq = p.seq)) → (∀ q ∈ l ++ r, q.same p = false) →
    (s.performPiece p = none → exec (.farPieceComplete no stack) s = .next s) ∧
    (∀ t, s.performPiece p = some t → inFocus t no → exec (.farPieceComplete no stack) s = .next (
      let u := { t with far := { t.far with pieces := t.far.pieces.filter fun q => !q.same p } }
      let counted := withDie u stack { dieOf u stack with pieces := (dieOf u stack).pieces + 1 }
      if p.pkg = t.plat.pkg.toNat then (if t.topToCome p then u else counted) else u))) ∧
  (∀ (s : State) (no : Nat) (ok : Bool) (b : BindRequest) (l r : List BindRequest), inFocus s no → s.far.binds = l ++ b :: r →
    b.ctx = s.hart.ctx → b.wid = s.hart.ctl.wid → b.answer = none →
    (∀ q ∈ l, q.ctx = s.hart.ctx → q.wid = s.hart.ctl.wid → q.answer ≠ none) → b ∉ l → b ∉ r →
    exec (.guestBindAnswer no ok) s =
      .next { s with far := { s.far with binds := l ++ { b with answer := some ok } :: r } }) ∧
  (∀ (s : State) (c : Contribution) (h : Hart), quietMemory s → s.findHart c.hart = some h → 0 < fmtWidth c.fmt / 8 →
    c.pa % (fmtWidth c.fmt / 8) = 0 → s.backed c.pa (fmtWidth c.fmt / 8) = true → s.spanFenced c.pa (fmtWidth c.fmt / 8) = false →
    let n := fmtWidth c.fmt / 8
    let old := s.ms.creadNat c.pa n
    let others (m : MemSys) : Prop := ∀ x, x < c.pa ∨ c.pa + n ≤ x → m.creadNat x 1 = s.ms.creadNat x 1
    let rest (m : MemSys) : Prop := others m ∧ m = { s.ms with mem := m.mem, reduce := m.reduce }
    (c.kind = .sum → fmtIsFloat c.fmt = true →
      let x := addF (decodeFmt c.fmt old) (decodeFmt c.fmt (c.value % 2 ^ fmtWidth c.fmt)) c.fmt .rne 0
      ∃ m, exec (.reduceContribution c) s = .next (({ s with ms := m } : State).raiseFlags h.owner x.2) ∧
        m.creadNat c.pa n = x.1 % 2 ^ (8 * n) ∧ rest m) ∧
    (c.kind ≠ .sum → fmtIsFloat c.fmt = true →
      let best (a b : Nat) : Flagged Nat := roundF (minmaxVals (decide (c.kind = .max)) (decodeFmt c.fmt a) (decodeFmt c.fmt b)) c.fmt .rne 0
      let part := best (reduceIdentity c.kind c.fmt) (c.value % 2 ^ fmtWidth c.fmt)
      ∃ m, exec (.reduceContribution c) s = .next (({ s with ms := m } : State).raiseFlags h.owner part.2) ∧
        m.creadNat c.pa n = (best old part.1).1 % 2 ^ (8 * n) ∧ rest m) ∧
    (fmtIsFloat c.fmt = false →
      let a := decodeInt c.fmt old
      let b := decodeInt c.fmt (c.value % 2 ^ fmtWidth c.fmt)
      ∃ m, exec (.reduceContribution c) s = .next { s with ms := m } ∧
        m.creadNat c.pa n = wrapInt (8 * n) (match c.kind with
          | .sum => a + b
          | .max => max a b
          | .min => min a b) ∧ rest m))

/-- A stack lends guest sets and counts their pieces, and its requantisation engine ages, converts and releases pages as its register and header say. -/
def Obligations.StackEngineAndGuestEvents : Prop :=
  (∀ (s : State) (i : Instr) (k f pkg c : Nat) (wid : Word),
    i = .rqeVisit k f ∨ i = .rqeSlotStep k f ∨ i = .guestBindingRequest k pkg c wid ∨
      (i = .guestSetRelease k pkg c wid ∧ ∀ g ∈ (dieOf s k).guests, g.isOf pkg c wid = false) →
    ∃ t, exec i s = .next t ∧ t.hart = s.hart ∧ t.harts = s.harts ∧ t.cmp = s.cmp ∧ ∀ j ≠ k, dieOf t j = dieOf s j) ∧
  (∀ (s : State) (k : Nat) (v : Word), k < 16 →
    (s.plat.stage ≠ 4 ∨ s.mgmt.locked = true → exec (.farcfgWrite k v) s = .next s) ∧
    (hostReaches s 0x300000 →
      (v.getLsbD 0 = false → (dieOf s k).sets = [] → exec (.farcfgWrite k v) s = .next (withDie s k { dieOf s k with guest := false })) ∧
      (v.getLsbD 0 = false → (dieOf s k).sets ≠ [] → exec (.farcfgWrite k v) s = .next s) ∧
      (v.getLsbD 0 = true → ∃ m, (s.ms.reduce = [] → m = s.ms) ∧
        exec (.farcfgWrite k v) s = .next (withDie { s with ms := m } k { dieOf s k with guest := true })))) ∧
  (∀ (s : State) (k pkg c : Nat) (wid : Word),
    let mine (g : GuestSet) : Prop := g.pkg = pkg ∧ g.ctx = c ∧ g.wid = wid
    let i := Instr.guestBindingRequest k pkg c wid
    let u := dieOf s k
    let works := s.stackActive k = true ∧ .stack k ∉ s.mgmt.fenced
    let lends := works ∧ u.guest = true
    (¬lends ∨ (64 ≤ u.sets.length ∧ ∀ g ∈ u.sets, ¬mine g) → exec i s = .next (sends s (.bindAnswer pkg c false))) ∧
    (lends → (∃ g ∈ u.sets, mine g) → exec i s = .next (sends s (.bindAnswer pkg c true))) ∧
    (lends → u.sets.length < 64 → (∀ g ∈ u.sets, ¬mine g) → exec i s = .next (
      let g : GuestSet := ⟨pkg, c, wid, Vector.replicate 8 .fresh⟩
      sends (withDie s k { u with sets := u.sets ++ [g] }) (.bindAnswer pkg c true))) ∧
    (∀ (word : Word) (ops : FarOperands), k < 16 →
      let r := exec (.remoteFarCommand k pkg c wid ⟨word, ops⟩) s
      let g : GuestPiece := ⟨pkg, c, wid, word, ops⟩
      let t := withDie s k { u with guests := u.guests ++ [g] }
      let regs := (u.sets.find? fun q => decide (q.pkg = pkg) && decide (q.ctx = c) && decide (q.wid = wid)).map GuestSet.regs
      (¬works → r = .next s) ∧
      (works → s.lag.far = true → r = .next t) ∧
      (works → s.lag.far = false → u.guests = [] →
        ((∀ i, decodeWords word 0 = .ok i → isFarWord i = false) → r = .next s) ∧
        (∀ i, decodeWords word 0 = .ok i → isFarWord i = true →
          (isPiecewise i = false → regs = none → r = .next s) ∧
          (isPiecewise i = true ∨ regs ≠ none →
            (t.performGuest k g i (regs.getD (Vector.replicate 8 .fresh)) = none → r = .next t) ∧
            (∀ x, t.performGuest k g i (regs.getD (Vector.replicate 8 .fresh)) = some x →
              r = .next (withDie x k { dieOf x k with guests := (dieOf x k).guests.erase g })))))) ∧
    (∀ (g : GuestSet) (l r : List GuestSet), u.sets = l ++ g :: r → mine g → (∀ q ∈ l ++ r, ¬mine q) →
      (∀ g ∈ u.guests, g.isOf pkg c wid = false) →
      exec (.guestSetRelease k pkg c wid) s = .next (withDie s k { u with sets := l ++ r }))) ∧
  (∀ (s : State) (k : Nat), k < 16 → hostReaches s 0x320000 →
    let u := dieOf s k
    let converts := ∃ p ∈ u.pools.toList, ∃ f, p.base.toNat ≤ f ∧ f < p.base.toNat + p.count.toNat ∧ f < s.localFrames ∧
      bits (s.ms.kreadNat (2 ^ 44 + k * 2 ^ 36 + f * 2 ^ 16) 4) 12 3 = 3 ∧ s.kvSkipped (2 ^ 44 + k * 2 ^ 36 + f * 2 ^ 16) = false
    (u.rqeEn = false → exec (.rqeDisable k) s = .next (withDie s k { u with offPending := false })) ∧
    (u.rqeEn = true → ¬converts → exec (.rqeDisable k) s = .next (withDie s k { u with rqeEn := false, offPending := false })) ∧
    (u.rqeEn = true → converts → exec (.rqeDisable k) s = .next (withDie s k { u with offPending := true }))) ∧
  ∀ (s0 : State) (k f : Nat),
    let pa := 2 ^ 44 + k * 2 ^ 36 + f * 2 ^ 16
    let visit := exec (.rqeVisit k f) s0
    let slot := exec (.rqeSlotStep k f) s0
    let may := s0.rqeMay k f
    let admitted := s0.permits (.chord k) (.stackMem k) false = true ∧ s0.permits (.chord k) (.stackMem k) true = true
    let passes (t : State) : State := withDie t k { dieOf t k with cursor := f + 1 }
    (may = false → visit = .next s0 ∧ slot = .next s0) ∧
    (may = true → ¬admitted → visit = .next (passes (s0.alarm ⟨.chord k, .stackMem k, pa⟩)) ∧
      slot = .next (passes (s0.alarm ⟨.chord k, .stackMem k, pa⟩))) ∧
    (may = true → admitted → (∀ ms, s0.ms.touch pa 0x100 ≠ .ok ms) → visit = .next (passes s0) ∧ slot = .next (passes s0)) ∧
    ∀ ms, may = true → admitted → s0.ms.touch pa 0x100 = .ok ms →
    let s : State := { s0 with ms := ms }
    let h := s.ms.creadNat pa 0x100
    let moves := s.ms.migrating (pa / 2 ^ 16) = true
    let busy := bits h 16 1 = 1 ∨ moves
    let e4m3 := ((List.range 63).map (· + 1)).filter fun n => bits h (8 * (0x40 + 2 * (n - 1))) 2 == 1
    let state (t : State) (x : Nat) : State := { t with ms := t.ms.cwriteNat pa 4 (putBits (bits h 0 32) 12 3 x) }
    let tick := BitVec.ofNat 64 (min (s.plat.tick.toNat + Config.elapsed s.free) (2 ^ 64 - 1))
    let read := { s with free := s.free + 1, plat := { s.plat with tick := tick, pnow := Config.power s.free } }
    let stays (t : State) : State := withDie t k { dieOf t k with cursor := f }
    let done (t : State) : State := withDie t k { dieOf t k with done := (dieOf t k).done + 1 }
    let gaveUp (t : State) : State := withDie t k { dieOf t k with aborted := (dieOf t k).aborted + 1 }
    (s.ms.poisoned pa 64 = true → visit = .next (passes s) ∧ slot = .next (passes s)) ∧
    (s.ms.poison = [] → s.ms.msc = [] → kvMalformed h = true →
      visit = .next (passes s) ∧ slot = .next (passes s)) ∧
    (s.ms.poison = [] → s.ms.msc = [] → kvMalformed h = false →
      (bits h 12 3 = 0 ∨ bits h 12 3 = 4 → visit = .next (passes s)) ∧
      (bits h 12 3 = 1 → moves → visit = .next (passes s)) ∧
      (bits h 12 3 = 1 → ¬moves →
        ((dieOf s k).agethr.toNat + bits h 64 64 ≤ tick.toNat → visit = .next (passes (state read 2))) ∧
        (tick.toNat < (dieOf s k).agethr.toNat + bits h 64 64 → visit = .next (passes read))) ∧
      (bits h 12 3 = 2 → busy → visit = .next (passes s)) ∧
      (bits h 12 3 = 2 → ¬busy → e4m3 = [] → visit = .next (passes (state s 4))) ∧
      (bits h 12 3 = 2 → ¬busy → e4m3 ≠ [] → visit = .next (stays
        { s with ms := (state s 3).ms.cwriteNat (pa + 0x18) 4 ((bits h 192 32 + 1) % 2 ^ 32) })) ∧
      (bits h 12 3 = 3 → ¬moves → e4m3 = [] → visit = .next (passes (done (state s 4)))) ∧
      (bits h 12 3 = 3 → moves ∨ e4m3 ≠ [] → visit = .next (stays s)) ∧
      (bits h 12 3 ≠ 3 → slot = .next (passes s)) ∧
      (bits h 12 3 = 3 →
        (busy → slot = .next (passes (gaveUp (state s 2)))) ∧
        (¬busy → e4m3 = [] → slot = .next (passes (done (state s 4)))) ∧
        (∀ n r, ¬busy → e4m3 = n :: r →
          let tag := pa + (0x40 + 2 * (n - 1))
          let x := kvSlotMx (bits h (8 * (0x40 + 2 * (n - 1))) 16) (s.ms.creadNat (pa + 1024 * n) 1024) (bits h 10 2)
          slot = .next (stays { s with ms := (s.ms.cwriteNat (pa + 1024 * n) 1024 x).cwriteNat tag 2 0x7F02 }))))

namespace Sys2Proof.Say

/-- A translation is affected by an invalidation command. -/
def hitBy (c : TiCmd) (e : TlbEntry) : Prop := match c with
  | .page k p => e.ctx = k ∧ e.vpn ≤ p ∧ p < e.vpn + e.pages
  | .context k => e.ctx = k
  | .all => True

/-- No record is PENDING or ARMED. -/
def noMigration (s : State) : Prop := ∀ r ∈ s.ms.mig.recs.toList, r.st = .free ∨ r.st = .done

/-- The machine with another record `i` of the migration block. -/
def withRecord (s : State) (i : Nat) (r : MigRec) : State :=
  { s with ms := { s.ms with mig := { s.ms.mig with recs := s.ms.mig.recs.setIfInBounds i r } } }

/-- Record `i` of the migration block. -/
def recordOf (s : State) (i : Nat) : MigRec := s.ms.mig.recs[i]?.getD ⟨.free, 0, 0, 0, 0, 0, 0⟩

/-- The command is turned away: the block's REFUSED bit is set, and nothing else changes. -/
def migRefused (s : State) : State := { s with ms := { s.ms with mig := { s.ms.mig with refused := true } } }

end Sys2Proof.Say

/-- Walks fill a TLB, invalidations empty it, a migration opens, arms, copies its lines and closes, and dirty sectors are written back. -/
def Obligations.TranslationEvents : Prop :=
  (∀ (s : State) (core c : Nat) (va : Word),
    (core < 96 → va.toNat < 0xFFFFFFF800000 → noMigration s → ∃ w ∈ s.walkStarts core c va.toNat, ∃ n : Nat,
      let u : State := { s with free := s.free + n }
      (∀ l, u.walkStart va.toNat w = .ok l → ∃ tlb,
        let t : State := { u with ms := { s.ms with tlb := tlb } }
        exec (.pageWalk core c va) s = .next t ∧ (∀ q ∈ s.ms.tlb, q.core ≠ core → q ∈ tlb) ∧
        (tlb.filter fun q => q.core == core).length ≤ 2048 ∧
        (s.ms.ti.cmd = none → ∃ f, t.translate core c va.toNat false = .ok f ∧ { f with path := l.path } = l)) ∧
      ((∀ l, u.walkStart va.toNat w ≠ .ok l) → exec (.pageWalk core c va) s = .next u)) ∧
    ((∀ e ∈ s.ms.tlb, e.core ≠ core) → s.walkStarts core c va.toNat = [⟨1, (s.ctx c).ptroot.toNat * 2 ^ 16, []⟩]) ∧
    (96 ≤ core ∨ 0xFFFFFFF800000 ≤ va.toNat → exec (.pageWalk core c va) s = .next s)) ∧
  (∀ (s : State) (i : Instr) (c : TiCmd),
    (∃ k p, i = .tlbInvPage k p ∧ c = .page k p) ∨ (∃ k, i = .tlbInvContext k ∧ c = .context k) ∨ (i = .tlbInvAll ∧ c = .all) →
    (∀ d, s.ms.ti.cmd = some d →
      exec i s = .next { s with ms := { s.ms with ti := { s.ms.ti with refused := true } } }) ∧
    (s.ms.ti.cmd = none →
      let t : State := { s with ms := { s.ms with ti := { s.ms.ti with cmd := some c } } }
      exec i s = .next t ∧
      (t.lag.stale = false → ∀ core < 96, ∀ k va e, t.tlbFind core k va = some e → ¬hitBy c e) ∧
      (t.lag.stale = true → ∀ core k va, t.tlbFind core k va = s.tlbFind core k va))) ∧
  (∀ (s : State),
    (s.ms.ti.cmd = none → exec .tlbInvComplete s = .next s) ∧
    (∀ c, s.ms.ti.cmd = some c → s.tiBusyWith c = true → exec .tlbInvComplete s = .next s) ∧
    (∀ c, s.ms.ti.cmd = some c → s.tiBusyWith c = false →
      let bare (e : TlbEntry) : TlbEntry := { e with leaf := { e.leaf with path := [] } }
      ∃ t, exec .tlbInvComplete s = .next t ∧ t.ms.ti.cmd = none ∧
      (∀ e ∈ t.ms.tlb, ¬hitBy c e ∧ ∃ q ∈ s.ms.tlb, e = q ∨ e = bare q) ∧
      (∀ q ∈ s.ms.tlb, ¬hitBy c q → q ∈ t.ms.tlb ∨ bare q ∈ t.ms.tlb) ∧ (s.ms.l1 = [] → t.ms.mem = s.ms.mem))) ∧
  (∀ (s : State),
    let m := s.ms.mig
    let owned (f : Nat) : Prop := ∃ r ∈ m.recs.toList, r.st ≠ .free ∧ (r.new = f ∨ r.old = f)
    (owned m.new.toNat ∨ owned m.old.toNat ∨ (∀ r ∈ m.recs.toList, r.st ≠ .free) → exec .migOpen s = .next (migRefused s)) ∧
    (¬owned m.new.toNat → ¬owned m.old.toNat → (∃ r ∈ m.recs.toList, r.st = .free) →
      ∃ (t : State) (k : Nat), exec .migOpen s = .next t ∧ k < 64 ∧ (recordOf s k).st = .free ∧
        t.ms.mig = { m with
          recs := m.recs.setIfInBounds k ⟨.pending, m.new.toNat, m.old.toNat, m.pte.toNat * 8, 0, 0, 0⟩
          slot := BitVec.ofNat 6 k } ∧
        t.ms.mem = s.ms.mem ∧ t.hart = s.hart ∧ t.harts = s.harts ∧
        (∀ q ∈ t.ms.l1, q ∈ s.ms.l1 ∧ q.sector / 2 ^ 10 ≠ m.new.toNat) ∧
        (∀ l ∈ t.ms.reduce, l ∈ s.ms.reduce ∧ l.line / 128 ≠ m.new.toNat) ∧
        ∀ w ∈ t.ms.code, w ∈ s.ms.code ∧ w.pa / 2 ^ 16 ≠ m.new.toNat)) ∧
  (∀ (s : State) (k : Nat),
    let r := recordOf s k
    (r.st ≠ .pending → exec (.migArm k) s = .next (migRefused s)) ∧
    (r.st = .pending → ∃ t : State, exec (.migArm k) s = .next (s.ms.mig.writes.foldl State.redo t) ∧ t.ms.mig.writes = [] ∧
      recordOf t k = { r with st := .armed } ∧ t.ms.mem = s.ms.mem ∧
      (∀ p ∈ t.ms.mig.held, p ∈ s.ms.mig.held ∧ p.2 / 2 ^ 16 ≠ r.new) ∧ (∀ h ∈ t.placedHarts, h.wait ≠ .held)) ∧
    (r.st ≠ .done → exec (.migRelease k) s = .next (migRefused s)) ∧
    (r.st = .done → exec (.migRelease k) s = .next (withRecord s k { r with st := .free }))) ∧
  (∀ (s : State) (no pa : Nat),
    ((∀ i < 64, (recordOf s i).st = .pending → (recordOf s i).new ≠ pa / 2 ^ 16) → exec (.migHeldAccess no pa) s = .next s) ∧
    (∀ i < 64, (recordOf s i).st = .pending → (recordOf s i).new = pa / 2 ^ 16 → s.ms.migOf pa = some i →
      ∃ l, exec (.migHeldAccess no pa) s = .next { s with ms := { s.ms with mig := { s.ms.mig with held := l } } } ∧
        (no, pa) ∈ l ∧ ∀ p, p ∈ l ↔ p ∈ s.ms.mig.held ∨ p = (no, pa))) ∧
  (∀ (s : State) (pa i : Nat), s.ms.migOf pa = some i → s.ms.reduce = [] → memoryOk s →
    let r := recordOf s i
    let l := pa / 512 % 128
    let src := r.old * 2 ^ 16 + 512 * l
    let dst := r.new * 2 ^ 16 + 512 * l
    (r.st ≠ .armed ∨ r.lines.testBit l = true → exec (.migLineFill pa) s = .next s) ∧
    (r.st = .armed → r.lines.testBit l = false → r.old ≠ r.new → (r.pte + 8 ≤ dst ∨ dst + 512 ≤ r.pte) →
      (∀ j < 64, j ≠ i → (recordOf s j).st = .pending ∨ (recordOf s j).st = .armed → (recordOf s j).new ≠ r.pte / 2 ^ 16) →
      let bad (q : Nat) : Prop := src / 64 + q ∈ s.ms.poison
      ∃ t, exec (.migLineFill pa) s = .next t ∧ (∀ j < 512, Memory.byte t.ms.mem (dst + j) = Memory.byte s.ms.mem (src + j)) ∧
        (∀ a, ¬(dst ≤ a ∧ a < dst + 512) → ¬(r.pte ≤ a ∧ a < r.pte + 8) → Memory.byte t.ms.mem a = Memory.byte s.ms.mem a) ∧
        Memory.readNat t.ms.mem r.pte 8 =
          (if r.filled = 127 then putBits (Memory.readNat s.ms.mem r.pte 8) 8 1 0 else Memory.readNat s.ms.mem r.pte 8) ∧
        recordOf t i = { r with
          lines := putBits r.lines l 1 1
          filled := r.filled + 1
          err := r.err + (if (List.range 8).any (fun q => s.ms.poison.contains (src / 64 + q)) = true then 1 else 0)
          st := if r.filled = 127 then .done else .armed } ∧
        (∀ q < 8, dst / 64 + q ∈ t.ms.poison ↔ bad q) ∧ (∀ x, x / 8 ≠ dst / 512 → (x ∈ t.ms.poison ↔ x ∈ s.ms.poison)))) ∧
  (∀ (s : State) (k : Nat),
    ((recordOf s k).st ≠ .armed → exec (.migBackgroundFill k) s = .next s) ∧
    ((recordOf s k).st = .armed → (∃ l < 128, (recordOf s k).lines.testBit l = false) →
      ∃ l n, l < 128 ∧ (recordOf s k).lines.testBit l = false ∧
        exec (.migBackgroundFill k) s = .next { s with free := s.free + n, ms := s.ms.migFill k l })) ∧
  (∀ (s : State) (core sector : Nat), s.ms.reduce = [] → s.ms.poison = [] → memoryOk s →
    (s.ms.l1Find core sector = none → exec (.l1Writeback core sector) s = .next s) ∧
    (∀ q, s.ms.l1Find core sector = some q → ∃ (m : Memory) (l1 : List L1Sector) (msc : Table Byte),
      exec (.l1Writeback core sector) s = .next { s with ms := { s.ms with mem := m, l1 := l1, msc := msc } } ∧
      (∀ j < 128, (Memory.byte m (sector * 64 + j / 2)).toNat / 16 ^ (j % 2) % 16 =
        if q.dirty / 2 ^ j % 2 = 1 then q.data / 16 ^ j % 16 else (Memory.byte s.ms.mem (sector * 64 + j / 2)).toNat / 16 ^ (j % 2) % 16) ∧
      (∀ a, a / 64 ≠ sector → Memory.byte m a = Memory.byte s.ms.mem a) ∧
      l1 = s.ms.l1.map fun p => if p.core = core ∧ p.sector = sector then { p with dirty := 0, raw := false, loose := 0 } else p))

namespace Sys2Proof.Say

/-- Work queue `q` as it stands. -/
def workOf (s : State) (q : Nat) : WorkQueue := Table.get s.cmp.queues q .reset

/-- The machine with another work queue `q`. -/
def withWork (s : State) (q : Nat) (w : WorkQueue) : State :=
  { s with cmp := { s.cmp with queues := Table.set s.cmp.queues q w } }

/-- The Compass takes the oldest entry of a queue that has none running, if it may, and its entry node becomes READY; while a
migration holds the read of the node nothing happens. -/
def takes (s : State) (q : Nat) : State :=
  let w := workOf s q
  if w.en = true ∧ w.faulted = false ∧ w.suspended = false ∧ w.resetting = false ∧ w.cur = none then
    match w.subs with
    | a :: r =>
      let t := withWork s q { w with subs := r, cur := some a }
      (({ t with cmp := { t.cmp with nextOrder := t.cmp.nextOrder + 1 } } : State).makeReady q a true t.cmp.nextOrder).getD s
    | [] => s
  else s

/-- What the read of a WAIT or COND node's word leads to. -/
def waitGives (s : State) (x : WaitRead) (yes no : State → State) (bad : FaultInfo → State) : State :=
  match x with
  | .yes t => yes t
  | .no t => no t
  | .fault f => bad f
  | .held => s

/-- The node goes DONE and sends its edges; while a migration holds a successor it is tried again. -/
def finishes (s t : State) (q : Nat) (n : RunNode) : State := (t.finishNode q n).getD s

/-- A store of the node waits for its acknowledgement. -/
def nodeWaits (t : State) (q : Nat) (a : Word) : Bool := t.link.waiting.any fun p => p.src.node == some (q, a)

/-- The machine with another node in the running submission. -/
def withNode (t : State) (q : Nat) (a : Word) (f : RunNode → RunNode) : State :=
  let w := workOf t q
  withWork t q { w with nodes := w.nodes.map fun m => if m.addr = a then f m else m }

/-- What the work of a COPY or SIGNAL node leads to: it ends once its writes are acknowledged. -/
def workGives (s : State) (x : WorkDone) (q : Nat) (n : RunNode) : State :=
  match x with
  | .done t => if nodeWaits t q n.addr then withNode t q n.addr fun m => { m with worked := true } else finishes s t q n
  | .fault t f =>
    if nodeWaits t q n.addr then withNode t q n.addr fun m => { m with worked := true, failing := some f } else t.failNode q n.addr f
  | .held => s

/-- A condition of a WAIT or COND node on a masked word (R402). -/
def nodeHolds (c v x : Nat) : Prop :=
  (c = 0 ∧ v = x) ∨ (c = 1 ∧ v ≠ x) ∨ (c = 6 ∧ v < x) ∨ (c = 7 ∧ x ≤ v) ∨ (c = 8 ∧ v ≤ x) ∨ (c = 9 ∧ x < v)

end Sys2Proof.Say

/-- Nodes are selected in turn by level and weight, started, polled, looped, completed and joined by edges as their type says. -/
def Obligations.GraphEvents : Prop :=
  (∀ s : State,
    ((∀ p ∈ s.cmp.queues, s.eligible p.2 = false) → exec .nodeSelect s = .next s) ∧
    ((∃ p ∈ s.cmp.queues, s.eligible p.2 = true) → (∀ p ∈ s.cmp.queues, workOf s p.1 = p.2) →
      s.cmp.queues.Pairwise (fun a b => a.1 < b.1) →
      ∃ (q : Nat) (n : RunNode) (credit : Nat),
        let level := (workOf s q).prio.toNat
        let now : LevelState := Table.get s.cmp.levels level .reset
        let able (r : Nat) : Prop := ∃ p ∈ s.cmp.queues, p.1 = r ∧ s.eligible p.2 = true ∧ p.2.prio.toNat = level
        able q ∧ (∀ p ∈ s.cmp.queues, s.eligible p.2 = true → p.2.prio.toNat ≤ level) ∧
        (∀ c, now.current = some c → able c → 0 < now.credit → q = c ∧ credit = now.credit - 1) ∧
        ((∀ c, now.current = some c → able c → now.credit = 0) → credit = (workOf s q).weight.toNat ∧
          (now.current = none → ∀ r, able r → q ≤ r) ∧
          ∀ c, now.current = some c → (c < q ∧ ∀ r, able r → c < r → q ≤ r) ∨ (∀ r, able r → r ≤ c ∧ q ≤ r)) ∧
        n ∈ (workOf s q).nodes ∧ n.st = .ready ∧ (∀ m ∈ (workOf s q).nodes, m.st = .ready →
          n.order < m.order ∨ (n.order = m.order ∧ n.addr.toNat ≤ m.addr.toNat)) ∧
        let u : State := { s with cmp := { s.cmp with levels := Table.set s.cmp.levels level ⟨some q, credit⟩ } }
        exec .nodeSelect s = .next ((u.startNode q n).getD s))) ∧
  (∀ (s : State) (q : Nat) (n : RunNode) (ty : Nat), (n.words.getD 0 0).toNat % 256 = ty →
    let c := (workOf s q).ctx.toNat
    let word (i : Nat) : Nat := (n.words.getD i 0).toNat
    (ty = 2 ∨ ty = 4 ∨ ty = 6 → s.startNode q n = some (
      (withNode s.settleAll q n.addr fun m => { m with st := .running, kern := none, copy := none }).compassPut
        (workOf s.settleAll q).ctx.toNat (n.addr.toNat + 1) 1 2)) ∧
    (∀ bs t, s.settleAll.readAt (compassAgent c) { r := true, align := 8 } false (word 3) 8 = .ok (bs, t) →
      (word 6 % 16 = 0 ∨ word 6 % 16 = 1 ∨ 6 ≤ word 6 % 16 ∧ word 6 % 16 ≤ 9) →
      let v := leNat bs &&& word 5
      (nodeHolds (word 6 % 16) v (word 4) → s.readWait q n = .yes t) ∧ (¬nodeHolds (word 6 % 16) v (word 4) → s.readWait q n = .no t)) ∧
    (ty = 5 → s.startNode q n = s.settleAll.runCond q n) ∧
    (∀ t, s.readWait q n = .no t → s.runCond q n = t.finishNode q n) ∧
    (∀ t l u, s.readWait q n = .yes t → t.reach c n.addr 200 [n.words.getD 7 0] [] = .ok l u →
      (l.length ≤ 64 ∧ ∀ p ∈ l, p.1 ≠ 0 ∧ p.1 ≠ n.addr ∧ (p.2.getD 0 0).toNat / 2 ^ 8 % 256 ∉ [1, 2, 3] ∧
        ∀ a ∈ [p.2.getD 1 0, p.2.getD 2 0], a = 0 ∨ a = n.addr ∨ ∃ o ∈ l, o.1 = a) ∧
      s.runCond q n = (
        let x := u.compassPut c (n.addr.toNat + 0x34) 4 (word 6 / 2 ^ 32 % 2 ^ 32 + 1)
        let waits (x : State) (a : Word) (w0 : Nat) : State := (x.compassPut c (a.toNat + 1) 1 0).compassPut c (a.toNat + 3) 1 (w0 / 2 ^ 16 % 256)
        let x := l.foldl (fun x p => waits x p.1 (p.2.getD 0 0).toNat) x
        let x := waits x n.addr (word 0)
        let w := workOf u q
        let x := withWork x q { w with nodes := w.nodes.filter fun m => decide (m.addr ≠ n.addr) }
        ({ x with cmp := { x.cmp with nextOrder := x.cmp.nextOrder + 1 } } : State).makeReady q (n.words.getD 7 0) false x.cmp.nextOrder)) ∧
    (∀ t f, s.readWait q n = .yes t → t.reach c n.addr 200 [n.words.getD 7 0] [] = .fault f →
      s.runCond q n = some ((t.compassMet (workOf t q).ctx.toNat f).failNode q n.addr f)) ∧
    (word 5 ≠ 0 → spanMeets (word 3, word 5) (word 4, word 5) = true → s.runCopy q n = .fault s ⟨0x04, 0, 0, 0, 0⟩) ∧
    (quietMemory s → spanMeets (word 3, word 5) (word 4, word 5) = false → ∀ place : Nat → Nat,
      let into (b : Nat) : Prop := ∃ j < word 5, b = place (word 4 + j)
      let lies (k : Want) (va m : Nat) : Prop := ∀ (mem : Memory) (fr : Nat), (∀ b, ¬into b → Memory.byte mem b = Memory.byte s.ms.mem b) →
        ∃ l : Leaf,
          let u : State := { s with free := fr, ms := { s.ms with mem := mem } }
          u.resolve (compassAgent c) k va m = .ok [⟨0, m, .device (place va), some l⟩] ∧ u.setAD l k.w = u ∧
          ∀ j < m, place (va + j) = place va + j
      (∀ i < word 5, ∀ j < word 5, place (word 4 + i) = place (word 4 + j) → i = j) →
      (∀ o m, o + m ≤ word 5 → 0 < m → (word 4 + o) / 64 = (word 4 + o + m - 1) / 64 →
        lies { r := true } (word 3 + o) m ∧ lies { w := true } (word 4 + o) m) →
      ∃ (mem : Memory), s.runCopy q n = .done { s with free := s.free + 1, ms := { s.ms with mem := mem } } ∧
        (∀ j < word 5, Memory.byte mem (place (word 4 + j)) = Memory.byte s.ms.mem (place (word 3 + j))) ∧
        ∀ b, ¬into b → Memory.byte mem b = Memory.byte s.ms.mem b) ∧
    (word 6 = 0 → ∀ t, s.compassWrite ⟨0x1000, 0, 0, 0, 0, none, some (q, n.addr)⟩ c { w := true, align := 8 } (word 3) (leBytes 8 (word 4)) =
      .ok (none, t) → s.runSignal q n = .done t) ∧
    (word 6 = 1 ∨ word 6 = 2 → ∀ x t,
      s.atomicAt (compassAgent c) { r := true, w := true, exotic := decide (word 6 = 2), align := 8 } (word 3) 8
        (fun m => if word 6 = 1 then (m + word 4) % 2 ^ 64 else m ||| word 4) = .ok (x, t) → s.runSignal q n = .done t) ∧
    (let x := s.compassPut c (n.addr.toNat + 1) 1 4
     let w := workOf x q
     let y := withWork { x with cmp := { x.cmp with nextOrder := x.cmp.nextOrder + 1 } } q
       { w with nodes := w.nodes.filter fun m => decide (m.addr ≠ n.addr) }
     s.finishNode q n = ((y.edge q (n.words.getD 1 0) x.cmp.nextOrder).bind fun z => z.edge q (n.words.getD 2 0) x.cmp.nextOrder).map
       fun z => (z.tryReset q).checkStall q) ∧
    (∀ (a : Word) (order : Nat), (a = 0 → s.edge q a order = some s) ∧
      ∀ ws t, a ≠ 0 → s.readNode c a = .ok (ws, t) →
        let state := (ws.getD 0 0).toNat / 2 ^ 8 % 256
        let cnt := (ws.getD 0 0).toNat / 2 ^ 24 % 256
        (state ≠ 0 ∨ cnt = 0 → s.edge q a order = some (t.nodeFault q a ⟨0x04, 0, 0, 0, 0⟩)) ∧
        (state = 0 → cnt = 1 → s.edge q a order = some (t.ready q a ws false order)) ∧
        (state = 0 → 2 ≤ cnt → s.edge q a order = some (t.compassPut c (a.toNat + 3) 1 (cnt - 1)))) ∧
    (∀ l r, (workOf s q).nodes = l ++ n :: r → (∀ m ∈ l, m.addr ≠ n.addr) →
      (n.st ≠ .running → exec (.nodeComplete q n.addr) s = .next s) ∧
      (n.st = .running → n.worked = true →
        (nodeWaits s q n.addr = true → exec (.nodeComplete q n.addr) s = .next s) ∧
        (nodeWaits s q n.addr = false → n.failing = none → exec (.nodeComplete q n.addr) s = .next (finishes s s q n)) ∧
        (∀ f, nodeWaits s q n.addr = false → n.failing = some f → exec (.nodeComplete q n.addr) s = .next (s.failNode q n.addr f))) ∧
      (n.st = .running → n.worked = false → ty = 3 → exec (.nodeComplete q n.addr) s = .next (finishes s s q n)) ∧
      (n.st = .running → n.worked = false → ty = 2 → exec (.nodeComplete q n.addr) s = .next (workGives s (s.runCopy q n) q n)) ∧
      (n.st = .running → n.worked = false → ty = 4 → exec (.nodeComplete q n.addr) s = .next (workGives s (s.runSignal q n) q n)) ∧
      (n.st = .running → n.worked = false → ty = 1 → ∀ key k, n.kern = some key → s.kernel key = some k →
        (k.st = .complete → exec (.nodeComplete q n.addr) s = .next (finishes s s q n)) ∧
        (k.st = .faulted → k.told = true →
          exec (.nodeComplete q n.addr) s = .next (s.failNode q n.addr ⟨k.fault, 0, 0, 0, 0⟩)) ∧
        (k.st ≠ .complete → ¬(k.st = .faulted ∧ k.told = true) → exec (.nodeComplete q n.addr) s = .next s)) ∧
      (n.st = .blocked → ty = 3 → exec (.waitNodePoll q n.addr) s =
        .next (waitGives s (s.readWait q n) (fun t => finishes s t q n) id fun f => (s.compassMet c f).failNode q n.addr f)) ∧
      (n.st ≠ .blocked ∨ ty ≠ 3 → exec (.waitNodePoll q n.addr) s = .next s) ∧
      (let may := n.st = .blocked ∧ ty = 1 ∧ s.slotsFull = false ∧ s.mgmt.locked = false ∧ (workOf s q).faulted = false ∧
        (workOf s q).suspended = false ∧ (workOf s q).resetting = false ∧ ((s.ctx c).st = .bound ∨ (s.ctx c).st = .active)
       (may → ∀ h, n.copy = some h → exec (.kernelSlotFree q n.addr) s = .next (s.launchCopy q n h)) ∧
       (may → n.copy = none → exec (.kernelSlotFree q n.addr) s = .next ((s.startKern q n).getD s)) ∧
       (¬may → exec (.kernelSlotFree q n.addr) s = .next s)) ∧
      (n.st = .running → ty = 6 → (∀ m ∈ l, m.st = .ready) → (∀ m ∈ r, m.st = .ready) →
        (workOf s q).subs = [] → (workOf s q).resetting = false →
        ∃ t, exec (.nodeEnd q) s = .next t ∧ workOf t q =
          { workOf (s.putNodeState c n.addr 4 0) q with qdone := (workOf s q).qdone + 1, cur := none, nodes := [] }))) ∧
  (∀ (s : State) (q : Nat), (∀ n ∈ (workOf s q).nodes, n.st = .running → (n.words.getD 0 0).toNat % 256 ≠ 6) →
    exec (.nodeEnd q) s = .next s)

/-- Queues take configuration, submissions and commands in the states that admit them; a ring is configured while disabled, consumed and timed. -/
def Obligations.QueueAndRingEvents : Prop :=
  (∀ (s : State) (q : Nat) (v : Word),
    let w := workOf s q
    exec (.qcfgWrite q v) s = .next (withWork s q { w with
      ctx := if w.en = false then v.extractLsb' 12 12 else w.ctx
      weight := v.extractLsb' 4 6
      prio := v.extractLsb' 1 3
      en := if v.getLsbD 0 then true
        else if w.faulted = false ∧ w.suspended = false ∧ w.resetting = false ∧ w.cur = none ∧ w.subs = [] then false else w.en }) ∧
    ∀ wide, exec (.qsubmit q v wide) s = .next (takes (withWork s q (
      if wide = false ∨ v.toNat % 64 ≠ 0 ∨ 2 ^ 52 ≤ v.toNat ∨ w.en = false ∨ w.faulted = true then { w with badsub := true }
      else if 64 ≤ w.subs.length then { w with ovf := true }
      else { w with subs := w.subs ++ [v] })) q)) ∧
  (∀ (s : State) (q : Nat),
    let w := workOf s q
    let stopped := w.suspended = true ∨ w.resetting = true
    exec (.submissionTake q) s = .next (takes s q) ∧
    (w.en = false → exec (.qctlSuspend q) s = .next s ∧ exec (.qctlResume q) s = .next s ∧ exec (.qctlReset q) s = .next s) ∧
    (w.en = true → exec (.qctlSuspend q) s = .next (withWork s q { w with suspended := true })) ∧
    (w.en = true → w.faulted = true ∨ ¬stopped → exec (.qctlResume q) s = .next s) ∧
    (w.en = true → w.faulted = false → stopped →
      let t := withWork s q { w with suspended := false }
      (w.cur = none ∨ w.nodes ≠ [] ∨ w.resetting = true → exec (.qctlResume q) s = .next (takes t q)) ∧
      (w.cur ≠ none → w.nodes = [] → w.resetting = false → exec (.qctlResume q) s = .next (t.queueFault q 0 ⟨0x04, 0, 0, 0, 0⟩))) ∧
    (w.en = true → w.faulted = false → ¬stopped → exec (.qctlReset q) s = .next s) ∧
    (w.en = true → w.faulted = true ∨ stopped →
      ((∀ n ∈ w.nodes, n.st ≠ .running) → ∃ t, exec (.qctlReset q) s = .next t ∧ workOf t q =
        { w with cur := none, subs := [], faulted := false, suspended := false, resetting := false, nodes := [] }) ∧
      ((∃ n ∈ w.nodes, n.st = .running) → exec (.qctlReset q) s =
        .next (withWork s q { w with resetting := true, suspended := false, nodes := w.nodes.filter fun n => n.st != .blocked })))) ∧
  ∀ (s : State) (r : Nat) (v : Word),
    let k : Ring := Table.get s.cmp.rings r .reset
    let put (k' : Ring) : State := { s with cmp := { s.cmp with rings := Table.set s.cmp.rings r k' } }
    let n := v.toNat / 2 % 32
    let fields : Ring := { k with ctx := v.extractLsb' 32 12, vec := v.extractLsb' 16 11, log2n := v.extractLsb' 1 5 }
    let due := k.en = true ∧ k.timer = true ∧ k.time ≠ 0 ∧ k.pend ≠ 0
    let told (h : Hart) : Hart := { h with wait := match h.wait with
      | .hrput q off => .hrput q (off || q == r)
      | w => w }
    (k.en = true → v.getLsbD 0 = true → exec (.rcfgWrite r v) s = .next (put k)) ∧
    (k.en = true → v.getLsbD 0 = false →
      exec (.rcfgWrite r v) s = .next ((put { k with en := false, timer := false }).mapHarts told)) ∧
    (k.en = false → v.getLsbD 0 = true → 4 ≤ n → n ≤ 16 →
      exec (.rcfgWrite r v) s = .next (put { fields with en := true, prod := 0, cons := 0, pend := 0, timer := false })) ∧
    (k.en = false → v.getLsbD 0 = false ∨ n < 4 ∨ 16 < n → exec (.rcfgWrite r v) s = .next (put fields)) ∧
    exec (.rconsWrite r v) s = .next (put (
      if 2 ^ k.log2n.toNat < (k.prod.toNat + 2 ^ 32 - v.toNat % 2 ^ 32) % 2 ^ 32 then k else { k with cons := v.setWidth 32 })) ∧
    (due →
      let t := put { k with pend := 0, timer := false, ints := k.ints + 1 }
      (s.link.waiting = [] → exec (.ringTimer r) s = .next (sends t (.msix k.vec.toNat))) ∧
      (s.link.waiting ≠ [] → exec (.ringTimer r) s =
        .next { t with link := { t.link with msis := t.link.msis ++ [⟨k.vec.toNat, t.link.waiting.length⟩] } })) ∧
    (¬due → exec (.ringTimer r) s = .next s)

/-- Context commands, replies, debug continues and the fault ring act in the states that admit them and set REFUSED in others. -/
def Obligations.ContextEvents : Prop :=
  (∀ (s : State) (c : Nat),
    let k := s.ctx c
    let refused : Result := .next (s.setCtx c { k with refused := true })
    let becomes (t : CtxState) : State := s.setCtx c { k with st := t }
    let queuesOff := ∀ p ∈ s.cmp.queues, p.2.en = true → p.2.ctx.toNat ≠ c
    let without (t : State) : State := { t with ms := { t.ms with tlb := t.ms.tlb.filter fun e => decide (e.ctx ≠ c) } }
    (k.st = .free → exec (.ctxCreate c) s = .next (s.setCtx c { Context.reset with st := .created })) ∧
    (k.st ≠ .free → exec (.ctxCreate c) s = refused) ∧
    (k.st = .created → s.bindOk k = true → exec (.ctxBind c) s = .next (becomes .bound)) ∧
    (k.st ≠ .created ∨ s.bindOk k = false → exec (.ctxBind c) s = refused) ∧
    (k.st = .bound → queuesOff → exec (.ctxUnbind c) s = .next (without (becomes .created))) ∧
    (k.st ≠ .bound ∨ ¬queuesOff → exec (.ctxUnbind c) s = refused) ∧
    (let u := s.retireDue fun g => g.ctx == c
     let j := u.ctx c
     (j.st = .bound ∨ j.st = .active → exec (.ctxSuspend c) s = .next
       (((u.cmp.groups.filter fun g => decide (g.ctx = c)).map Group.key).foldl (fun t g => t.stopGroup g .preempt 0 [])
         (u.setCtx c { j with st := .preempted }))) ∧
     (j.st = .preempted → exec (.ctxSuspend c) s = .next u) ∧
     (j.st ≠ .bound → j.st ≠ .active → j.st ≠ .preempted →
       exec (.ctxSuspend c) s = .next (u.setCtx c { j with refused := true })) ∧
     ((∀ g ∈ s.cmp.groups, g.ctx = c → s.mayRetire g = false) → u = s)) ∧
    (k.st = .preempted → exec (.ctxResume c) s = .next (becomes (if k.slots = [] then .bound else .active))) ∧
    (k.st ≠ .preempted → exec (.ctxResume c) s = refused) ∧
    (let idle := ∀ g ∈ s.cmp.groups, g.ctx = c → g.st ≠ .stopping
     (k.st = .faulted → idle → ∃ t, exec (.ctxReset c) s = .next t ∧ t.ctx c = { k with st := .bound, slots := [] } ∧
       (∀ g, g ∈ t.cmp.groups ↔ g ∈ s.cmp.groups ∧ g.ctx ≠ c) ∧ t.hart = s.hart ∧ t.ms = s.ms) ∧
     (k.st ≠ .faulted ∨ ¬idle → exec (.ctxReset c) s = refused)) ∧
    (let may := (k.st = .created ∨ k.st = .bound ∨ k.st = .faulted) ∧ queuesOff ∧ k.slots = []
     (may → exec (.ctxDestroy c) s = .next (becomes .destroying)) ∧ (¬may → exec (.ctxDestroy c) s = refused)) ∧
    (k.st = .destroying → exec (.ctxFree c) s = .next (without (becomes .free))) ∧
    (k.st ≠ .destroying → exec (.ctxFree c) s = .next s)) ∧
  (∀ (s : State) (c slot : Nat),
    let refused : Result := .next (s.setCtx c { s.ctx c with refused := true })
    ((∀ g ∈ s.cmp.groups, g.ctx = c → g.slot ≠ some slot) →
      exec (.replyResume c slot) s = refused ∧ exec (.replyAbort c slot) s = refused ∧ exec (.replyRelease c slot) s = refused) ∧
    (∀ g l r, s.cmp.groups = l ++ g :: r → g.ctx = c → g.slot = some slot → (∀ q ∈ l, q.ctx = c → q.slot ≠ some slot) →
      (∀ q ∈ l ++ r, q.key ≠ g.key) →
      (g.st = .preempted → g.held = true →
        exec (.replyResume c slot) s = .next { s with cmp := { s.cmp with groups := l ++ { g with held := false, aged := 0 } :: r } } ∧
        exec (.replyAbort c slot) s = .next (s.faultGroup g.key 0x05 [])) ∧
      (g.st ≠ .preempted ∨ g.held = false → exec (.replyResume c slot) s = refused ∧ exec (.replyAbort c slot) s = refused) ∧
      (g.st = .faulted → ∃ t, exec (.replyRelease c slot) s = .next t ∧ t.cmp.groups = l ++ r ∧ slot ∉ (t.ctx c).slots) ∧
      (g.st ≠ .faulted → exec (.replyRelease c slot) s = refused) ∧
      (∀ k f0, s.kernel g.kern = some k →
        let a := (s.ctx c).slotBase slot + areaOffset k.hdr.hpc f0
        (k.hdr.extent ≤ f0 → exec (.dbgcmdCont c slot f0) s = refused) ∧
        (noMigration s →
        (f0 < k.hdr.extent → g.st ≠ .running → s.ms.poisoned a 8 = true → exec (.dbgcmdCont c slot f0) s = .next (s.faultContext c)) ∧
        (f0 < k.hdr.extent → g.st ≠ .running → s.ms.poisoned a 8 = false → (s.imageNat a 8).testBit 10 = true → exec (.dbgcmdCont c slot f0) s =
          .next { s with ms := s.ms.cwriteNat a 8 (putBits (s.imageNat a 8) 10 1 0) }) ∧
        (f0 < k.hdr.extent → g.st ≠ .running → s.ms.poisoned a 8 = false → (s.imageNat a 8).testBit 10 = false → exec (.dbgcmdCont c slot f0) s = refused) ∧
        (∀ h x, f0 < k.hdr.extent → g.st = .running →
          ((s.groupHarts g.key).find? fun h => decide (h.f0 = f0) && h.phase == .halted) = some h →
          s.spansBad (s.imageSpans a h.ctl.hpc) = false → s.hartOfImage a h.ctl.hpc h = some x →
          exec (.dbgcmdCont c slot f0) s = .next
            ((s.takeFlagw a).onHart h.no fun _ => { x with phase := if x.phase = .halted then .running else x.phase })))))) ∧
  ∀ (s : State) (c : Nat) (v : Word),
    let k := s.ctx c
    exec (.frconsWrite c v) s = .next (s.setCtx c { k with ring :=
      if 2 ^ k.ring.log2n.toNat < (k.ring.prod.toNat + 2 ^ 32 - v.toNat % 2 ^ 32) % 2 ^ 32 then k.ring
      else { k.ring with cons := v.setWidth 32 } }) ∧
    (k.ring.held = [] ∨ 2 ^ k.ring.log2n.toNat ≤ (k.ring.prod - k.ring.cons).toNat → exec (.faultRecordDrain c) s = .next s) ∧
    (∀ ws r, k.ring.held = ws :: r → (k.ring.prod - k.ring.cons).toNat < 2 ^ k.ring.log2n.toNat →
      ∃ t, exec (.faultRecordDrain c) s = .next t ∧ t.ctx c = { k with ring := { k.ring with held := r, prod := k.ring.prod + 1 } } ∧
        (noMigration s → t.ms = s.ms.cwrite (k.ring.base.toNat * 64 + 64 * (k.ring.prod.toNat % 2 ^ k.ring.log2n.toNat))
          (ws.flatMap fun w => leBytes 8 w.toNat)) ∧
        (s.link.waiting = [] → t.link.out = s.link.out ++ [.msix k.ring.vec.toNat]))

namespace Sys2Proof.Say

/-- Port `p` of the package. -/
def portOf (s : State) (p : Nat) : Port := s.link.ports[p]?.getD .reset

/-- The machine with another port `p`. -/
def withPort (s : State) (p : Nat) (q : Port) : State := { s with link := { s.link with ports := s.link.ports.setIfInBounds p q } }

/-- A refusal of a request from outside; a write of the host to no memory is discarded without one. -/
def answered (s : State) (m : Master) (r : OuterReq) (o : OutMsg) : State :=
  if r.op = .write ∧ m = .host ∧ o = .unsupported then s else sends s o

/-- No release and no write of the host is still to come. -/
def settledOutside (s : State) : Prop := s.ms.rel = [] ∧ s.ms.outer = []

/-- The fault of a store to the host or a peer that is refused (reason 1) or fails (2): of the node that wrote it, once its other
writes are answered; of the engine queue whose command wrote it; or of the group of its hart. -/
def storeFault (t : State) (p : PostedStore) (n : BitVec 8) : State :=
  let f : FaultInfo := ⟨0x0F, n, BitVec.ofNat 64 p.va, 0, 0⟩
  match p.src.node, p.src.eng with
  | some (q, node), _ =>
    match (t.queue q).nodes.find? fun x => x.addr = node with
    | some x =>
      if t.nodeUnacked q node = true ∨ x.worked = false then t.onNode q node fun x => { x with failing := x.failing.or (some f) }
      else t.failNode q node (x.failing.getD f)
    | none => t
  | none, none => t.asyncFault p.src f none
  | none, some (q, seq) =>
    match t.hartOf p.src.owner with
    | some h =>
      match (h.queue q).cmds with
      | c :: _ => if c.seq = seq then t.engFault h.no q (c.master h none) f else t
      | [] => t
    | none => t

/-- The value an AtomicOp of `n` bytes leaves where `old` stood. -/
def outerLeaves (r : OuterReq) (n old : Nat) : Nat :=
  match r.op with
  | .fetchAdd => (old + leNat r.data) % 2 ^ (8 * n)
  | .swap => leNat r.data % 2 ^ (8 * n)
  | .cas => if old = r.expect then leNat r.data % 2 ^ (8 * n) else old
  | .amo f => peerNew f n old (leNat r.data)
  | _ => old

/-- What a request of a master for device memory at `pa` comes to, where no migration is under way. -/
def outerResult (s : State) (i : Instr) (m : Master) (r : OuterReq) (pa : Nat) : Prop :=
  let common := r.op = .fetchAdd ∨ r.op = .swap ∨ r.op = .cas
  let peers := ∃ f, r.op = .amo f
  let n := if r.op = .write then r.data.length else r.len
  let fits := s.backed pa n = true ∧ (common → (n = 4 ∨ n = 8) ∧ pa % n = 0) ∧
    (∀ f, r.op = .amo f → m ≠ .host ∧ peerOk f n = true ∧ pa % n = 0) ∧
    ∀ k, k < max 1 n → UnitId.stack (s.ownerOf (pa + k)) ∉ s.mgmt.fenced
  let open_ (a : Nat) : Prop := (r.op ≠ .write → s.permits m (.stackMem (s.ownerOf a)) false = true) ∧
    (r.op ≠ .read → s.permits m (.stackMem (s.ownerOf a)) true = true)
  let may := ∀ k, k < n → open_ (pa + k)
  (¬fits → exec i s = .next (answered s m r .unsupported)) ∧
  (fits → ∀ k, k < n → (∀ j, j < k → open_ (pa + j)) → ¬open_ (pa + k) →
    exec i s = .next (sends (s.alarm ⟨m, .stackMem (s.ownerOf (pa + k)), pa + k⟩) .abort)) ∧
  (fits → may → (∀ x ∈ s.ms.mig.recs.toList, x.st = .free ∨ x.st = .done) →
    (r.op = .write → m = .host →
      let waits (l : List OuterWrite) : State := { s with ms := { s.ms with outer := l } }
      (s.lag.release = true → exec i s = .next (waits (s.ms.outer ++ [⟨pa, r.data, false⟩]))) ∧
      (s.lag.release = false → (∀ w ∈ s.ms.outer, w.pa + w.bytes.length ≤ pa ∨ pa + n ≤ w.pa) →
        exec i s = .next ((waits (if r.relaxed then s.ms.outer else s.ms.outer.map fun w => { w with released := true })).cwrite
          pa r.data))) ∧
    (settledOutside s → r.op = .write → m ≠ .host → exec i s = .next (sends (s.cwrite pa r.data) .ack)) ∧
    (settledOutside s → r.op ≠ .write → s.ms.poisoned pa n = true → ∃ bs : List Byte, bs.length = n ∧
      exec i s = .next (sends { s with
        free := s.free + 1
        mgmt := { s.mgmt with ras := s.mgmt.ras ++ [.uncorrectable (pa / 64)] } } (.poisoned bs))) ∧
    (settledOutside s → r.op = .read → s.ms.poisoned pa n = false → s.ms.reduce = [] →
      exec i s = .next (sends s (.completion (Memory.read s.ms.mem pa n)))) ∧
    (settledOutside s → common ∨ peers → s.ms.poisoned pa n = false → s.ms.reduce = [] →
      let old := Memory.read s.ms.mem pa n
      exec i s = .next (sends (s.cwrite pa (leBytes n (outerLeaves r n (leNat old)))) (.completion old))))

end Sys2Proof.Say

/-- Requests from outside read and write device memory past every L1; ports train, degrade, fail and retire; answers reach the oldest store. -/
def Obligations.LinkAndHostEvents : Prop :=
  (∀ (s : State) (r : OuterReq),
    let i := Instr.hostMemAccess r
    let space := 0xF * 2 ^ 44
    let inBar0 := space ≤ r.addr ∧ r.addr < space + 2 ^ 33
    (s.plat.stage ≠ 4 → r.addr < 2 ^ 41 → exec i s = .next (sends s .unsupported)) ∧
    (2 ^ 41 ≤ r.addr → ¬inBar0 → exec i s = .next (answered s .host r .unsupported)) ∧
    (inBar0 →
      let off := r.addr - space
      let target := regBlockOf off
      let whole (n : Nat) : Prop := (n = 4 ∨ n = 8) ∧ off % n = 0
      let common := r.op = .fetchAdd ∨ r.op = .swap ∨ r.op = .cas
      let refused : Result := .next (sends (s.alarm ⟨.host, target, r.addr⟩) .abort)
      (r.op ≠ .write → ¬whole r.len → exec i s = .next (sends s .unsupported)) ∧
      (r.op = .read → whole r.len → s.permits .host target false = false → exec i s = refused) ∧
      (r.op = .read → whole r.len → s.permits .host target false = true → settledOutside s →
        exec i s = .next (sends (s.regRead off r.len).2 (.completion (leBytes r.len (s.regRead off r.len).1)))) ∧
      (r.op = .write → ¬whole r.data.length → exec i s = .next (sends s .unsupported)) ∧
      (r.op = .write → whole r.data.length →
        exec i s = exec (.registerWrite off (r.data.length == 8) (BitVec.ofNat 64 (leNat r.data))) s) ∧
      ((∃ f, r.op = .amo f) → exec i s = .next (sends s .unsupported)) ∧
      (common → whole r.len → s.permits .host target false = false ∨ s.permits .host target true = false → exec i s = refused) ∧
      (common → whole r.len → s.permits .host target false = true → s.permits .host target true = true → settledOutside s →
        let v := (s.regRead off r.len).1
        let t := (s.regRead off r.len).2
        let takes := (t.plat.stage = 4 ∧ t.mgmt.locked = false) ∨ (0x800 ≤ off ∧ off < 0x818)
        (takes → exec i s = .next (sends (t.regWrite off r.len (outerLeaves r r.len v)) (.completion (leBytes r.len v)))) ∧
        (¬takes → exec i s = .next (sends t (.completion (leBytes r.len v)))))) ∧
    (s.plat.stage = 4 → r.addr < 2 ^ 40 → outerResult s i .host r r.addr) ∧
    (s.plat.stage = 4 → 2 ^ 40 ≤ r.addr → r.addr < 2 ^ 41 → outerResult s i .host r (2 ^ 44 + (r.addr - 2 ^ 40)))) ∧
  (∀ (s : State) (p pkg : Nat) (r : OuterReq),
    let i := Instr.peerAccess p pkg r
    ((portOf s p).st = .up ∨ (portOf s p).st = .degraded → outerResult s i (.port p) r r.addr) ∧
    ((portOf s p).st ≠ .up → (portOf s p).st ≠ .degraded → exec i s = .next s)) ∧
  (∀ (s : State) (x : RemoteResult),
    (∀ p l, s.link.waiting = p :: l → ∃ (out : List OutMsg) (msis : List HeldMsi),
      let t₀ : State := { s with link := { s.link with waiting := l, out := s.link.out ++ out, msis := msis } }
      (∀ m ∈ s.link.msis, (m.behind ≤ 1 → .msix m.vec ∈ out) ∧ (1 < m.behind → { m with behind := m.behind - 1 } ∈ msis)) ∧
      (s.link.msis = [] → out = [] ∧ msis = []) ∧
      (x = .ack → exec (.remoteResponse x) s = .next t₀) ∧
      (x = .refused → exec (.remoteResponse x) s = .next (storeFault t₀ p 1)) ∧
      (x = .failed → exec (.remoteResponse x) s = .next (storeFault (t₀.countFailed p.port) p 2))) ∧
    (s.link.waiting = [] ∨ (∃ bs, x = .data bs) ∨ x = .poisoned →
      exec (.remoteResponse x) s = .next { s with link := { s.link with answers := s.link.answers ++ [x] } })) ∧
  (∀ (s : State) (p : Nat), p < 12 →
    let q := portOf s p
    let active := q.st = .up ∨ q.st = .degraded
    let cmds : List Instr := [.linkTrain p, .linkDown p, .linkRetire p]
    let u := s.completeOn p
    let v := portOf u p
    (s.plat.stage ≠ 4 ∨ s.mgmt.locked = true → ∀ i ∈ cmds, exec i s = .next s) ∧
    (s.plat.stage = 4 → s.mgmt.locked = false → s.permits .host (.regBlock 0x5010000) true = false →
      ∀ i ∈ cmds, exec i s =
        .next (sends (s.alarm ⟨.host, .regBlock 0x5010000, 0xF * 2 ^ 44 + 0x5010000 + 0x100 * p⟩) .abort)) ∧
    (hostReaches s 0x5010000 →
      (q.st = .down → exec (.linkTrain p) s = .next (withPort s p { q with st := .training, attempts := 0 })) ∧
      (q.st = .degraded → exec (.linkTrain p) s = .next (withPort u p { v with st := .training, attempts := 0 })) ∧
      (q.st ≠ .down → q.st ≠ .degraded → exec (.linkTrain p) s = .next s) ∧
      (active → exec (.linkDown p) s = .next (withPort u p { v with st := .down, lanes := 0 })) ∧
      (¬active → exec (.linkDown p) s = .next s) ∧
      (q.st ≠ .retired → exec (.linkRetire p) s = .next (withPort u p { v with st := .retired, lanes := 0 })) ∧
      (q.st = .retired → exec (.linkRetire p) s = .next s)) ∧
    ((∀ x ∈ s.far.pieces, x.port ≠ some p) → ∃ (out : List OutMsg) (msis : List HeldMsi),
      (s.link.msis = [] → out = [] ∧ msis = []) ∧
      u = { s with link := { s.link with
        waiting := s.link.waiting.filter fun x => x.port != some p
        out := s.link.out ++ out
        msis := msis } }) ∧
    (∀ lanes, q.st = .training → lanes = 4 → exec (.linkTrainDone p lanes) s = .next (withPort s p { q with st := .up, lanes := 4 })) ∧
    (∀ lanes, q.st = .training → lanes = 1 ∨ lanes = 2 →
      exec (.linkTrainDone p lanes) s = .next (withPort s p { q with st := .degraded, lanes := lanes })) ∧
    (q.st = .training → q.attempts < 7 →
      exec (.linkTrainAttemptFail p) s = .next (withPort s p { q with attempts := q.attempts + 1 })) ∧
    (q.st = .training → 7 ≤ q.attempts → exec (.linkTrainAttemptFail p) s = .next (withPort s p
      { q with st := .down, lanes := 0, attempts := 8, fails := BitVec.ofNat 16 (min 0xFFFF (q.fails.toNat + 1)) })) ∧
    (q.st ≠ .training → (∀ lanes, exec (.linkTrainDone p lanes) s = .next s) ∧ exec (.linkTrainAttemptFail p) s = .next s) ∧
    (∀ lanes, (q.st = .up ∧ (lanes = 1 ∨ lanes = 2)) ∨ (q.st = .degraded ∧ lanes = 1 ∧ q.lanes = 2) → ∃ n : Nat,
      exec (.linkLaneFail p lanes) s = .next (withPort { s with free := s.free + 1 } p
        { q with st := .degraded, lanes := lanes, replay := q.replay + BitVec.ofNat 64 n })) ∧
    (∀ lanes, ¬active → exec (.linkLaneFail p lanes) s = .next s) ∧
    (let lost := s.link.waiting.filter fun x => x.port == some p
     let far := s.far.pieces.filter fun x => x.port == some p
     let u := { s with link := s.link.dropStores (s.storesOn p) }
     let u₀ := withPort u p { portOf u p with failed := (portOf u p).failed + BitVec.ofNat 64 (lost.length + far.length) }
     let u₁ := lost.foldl (fun t x => storeFault t x 2) u₀
     let v := far.foldl (fun t x =>
       let t' := { t with far := { t.far with pieces := t.far.pieces.filter fun y => !y.same x } }
       match t'.findHart x.hart with
       | some h => t'.asyncFault h.poster ⟨0x0F, 2, 0, 0, 0⟩ none
       | none => t') u₁
     (active → exec (.linkFail p) s = .next (withPort v p { portOf v p with st := .down, lanes := 0 })) ∧
     (lost = [] → far = [] → s.link.msis = [] → v = s)) ∧
    (¬active → exec (.linkFail p) s = .next s)) ∧
  (∀ s : State,
    exec .hostPortReset s =
      .next { s with plat := { s.plat with width := 0, rate := 0, flit := false, cxlmem := false, cxlcache := false } } ∧
    (∀ rate width flit, 1 ≤ rate → rate ≤ 6 → width = 1 ∨ width = 2 ∨ width = 4 ∨ width = 8 ∨ width = 16 →
      exec (.hostPortTrained rate width flit) s =
        .next { s with plat := { s.plat with rate := BitVec.ofNat 3 rate, width := BitVec.ofNat 5 width, flit := flit } }) ∧
    (∀ mem cache, (s.plat.width = 0 → exec (.hostCxlEnable mem cache) s = .next s) ∧
      (s.plat.width ≠ 0 →
        exec (.hostCxlEnable mem cache) s = .next { s with plat := { s.plat with cxlmem := mem, cxlcache := cache } })) ∧
    (∀ pa data, 2 ^ 47 ≤ pa → pa + data.length ≤ 2 ^ 47 + 2 ^ 46 → 0 < data.length →
      (s.plat.cxlcache = true → exec (.cxlSnoop pa data) s = .next (s.cwrite pa data)) ∧
      (s.plat.cxlcache = false → exec (.cxlSnoop pa data) s = .next s)))

/-- A cold reset boots from the non-volatile configuration, a loss of power leaves only that, and errors are logged, contained and spared. -/
def Obligations.PlatformEvents : Prop :=
  (∀ s : State, ∃ t, exec .coldReset s = .next t ∧ t.hart = .reset ∧ t.harts = [] ∧ t.ms = .reset ∧ t.far = .reset ∧
    t.cmp = .reset ∧ t.link = .reset ∧ t.mgmt = { Management.reset with keyErased := s.mgmt.keyErased } ∧
    t.agenda = s.agenda ∧ t.plat.powered = true ∧ t.plat.tick = 0 ∧ t.plat.pnow = 0 ∧ t.plat.plimit = 2800 ∧ t.plat.width = 0 ∧
    ((t.plat.stage = 7 ∧ t.plat.err = 1 ∧ t.plat.boot = s.plat.boot) ∨
      ∃ a : BitVec 16, a &&& s.plat.boot.retired = 0 ∧ t.plat.boot = { s.plat.boot with retired := ~~~a } ∧
        t.plat.pkg = s.plat.boot.pkg ∧ t.plat.domain = s.plat.boot.domain ∧ t.plat.ratio = s.plat.boot.ratio ∧
        (a = 0 → t.plat.stage = 7 ∧ t.plat.err = 2) ∧
        (a ≠ 0 → 64 < s.plat.boot.share → t.plat.stage = 7 ∧ t.plat.err = 3) ∧
        (a ≠ 0 → s.plat.boot.share ≤ 64 → t.plat.stage = 4 ∧ t.plat.err = 0 ∧ t.plat.active = a ∧
          t.plat.share.toNat = s.plat.boot.share))) ∧
  (∀ (s : State) (i : Instr), i = .powerLoss ∨ i = .thermalTrip → exec i s = .next { State.reset with
    plat := { Platform.reset with boot := s.plat.boot, powered := false }
    mgmt := { Management.reset with keyErased := s.mgmt.keyErased }
    agenda := s.agenda
    lag := s.lag
    free := s.free }) ∧
  (∀ (s : State) (watts : Nat),
    (s.plat.plimit.toNat < watts → exec (.powerThrottle watts) s = .next { s with plat := { s.plat with lowered := true } }) ∧
    (watts ≤ s.plat.plimit.toNat → exec (.powerThrottle watts) s = .next { s with plat := { s.plat with lowered := false } })) ∧
  (∀ s : State,
    let logged (t : State) (e : RasEvent) : State := { t with mgmt := { t.mgmt with ras := t.mgmt.ras ++ [e] } }
    let u : State := { s with free := s.free + 1 }
    let corrected (row : Option (Nat × Nat)) : State := logged u.readTick.2 (.corrected row u.readTick.1)
    let spoilt (i : Instr) : Prop := ∃ (q : Nat) (l : List Nat), s.backed (64 * q) 64 = true ∧ (∀ x, x ∈ l ↔ x ∈ s.ms.poison ∨ x = q) ∧
      exec i s = .next (logged { u with ms := { s.ms with poison := l, l1 := s.ms.l1.filter fun c => c.sector != q } } (.uncorrectable q))
    (exec .sramScrub s = .next u ∨ exec .sramScrub s = .next (corrected none) ∨ spoilt .sramScrub ∨
      (∃ (q : Nat) (l : List Nat), q ∈ s.ms.lsw ∧ (∀ x, x ∈ l ↔ x ∈ s.ms.lsBad ∨ x = q) ∧
        exec .sramScrub s = .next (logged { u with ms := { s.ms with lsBad := l } } (.localStore q))) ∨
      ∃ h ∈ s.placedHarts, ∃ (file : Option RegFile) (n sector : Nat), exec .sramScrub s = .next (logged (u.onHart h.no fun k =>
        match file with
        | none => { k with xbad := k.xbad ||| (1#64 <<< n) }
        | some file => { k with vec := { k.vec with bad := ⟨file, n, sector, onesN 512⟩ :: k.vec.bad } }) (.register h.no))) ∧
    (exec .dramScrub s = .next u ∨ (∃ row, exec .dramScrub s = .next (corrected (some row))) ∨ spoilt .dramScrub)) ∧
  (∀ (s : State) (u : UnitId), (∀ g ∈ s.cmp.groups, s.mayRetire g = false) → ∃ t, exec (.controlError u) s = .next t ∧
    .control u ∈ t.mgmt.ras ∧ u ∈ t.mgmt.fenced ∧ (∀ x ∈ s.mgmt.fenced, x ∈ t.mgmt.fenced) ∧
    (∀ h ∈ s.placedHarts, s.findHart h.no = some h →
      (∃ c, u = .core c ∧ (h.core = c ∨ (h.core / 4 = c / 4 ∧ s.lstoreOf h.kern ≠ 0))) ∨ (∃ q, u = .quad q ∧ h.core / 4 = q) ∨
        (∃ k, u = .stack k ∧ ∃ p ∈ s.far.pieces, p.hart = h.no ∧ p.stack = k ∧ p.pkg = s.plat.pkg.toNat) →
      ∀ g, s.group h.grp = some g → g.st = .running →
        groupIs t h.grp fun x => x.st = .stopping ∧ x.reason = .fault ∧ x.code = 0x10) ∧
    (u = .compass ∨ u = .span ∨ u = .meridian → t.mgmt.aer = true ∧ .fatal ∈ t.link.out ∧
      ∀ c, (s.ctx c).st ≠ .free → (s.ctx c).st ≠ .destroying → (t.ctx c).st = .faulted)) ∧
  (∀ (s : State) (k r : Nat),
    let worn := 8 ≤ (s.mgmt.ras.filter fun e =>
      match e with
      | .corrected row tick => row == some (k, r) && decide (s.plat.tick.toNat - tick.toNat ≤ 24 * 3600 * 1000000)
      | _ => false).length
    let left := ((s.mgmt.sparing ++ s.mgmt.spared).filter fun p => p.1 == k && Config.rowBank p.1 p.2 == Config.rowBank k r).length <
      Config.spareRows k (Config.rowBank k r)
    let may := (k, r) ∉ s.mgmt.sparing ∧ (k, r) ∉ s.mgmt.spared ∧ worn ∧ left
    (¬may → exec (.rowSpare k r) s = .next s) ∧
    (may → ∃ l, exec (.rowSpare k r) s = .next { s with mgmt := { s.mgmt with sparing := l } } ∧
      ∀ x, x ∈ l ↔ x ∈ s.mgmt.sparing ∨ x = (k, r)) ∧
    ((k, r) ∉ s.mgmt.sparing → exec (.rowSpareCommit k r) s = .next s) ∧
    ((k, r) ∈ s.mgmt.sparing → ∃ l m, exec (.rowSpareCommit k r) s =
        .next { s with mgmt := { s.mgmt with sparing := l, spared := m } } ∧
      (∀ x, x ∈ l ↔ x ∈ s.mgmt.sparing ∧ x ≠ (k, r)) ∧ ∀ x, x ∈ m ↔ x ∈ s.mgmt.spared ∨ x = (k, r)))

/-- Mailbox commands are performed in arrival order and end with their RESULT; a host register write goes where its address says, or is refused. -/
def Obligations.MailboxAndRegisterEvents : Prop :=
  (∀ (s : State) (i : Instr) (c : MbCommand),
    (i = .mbAttest ∧ c = .attest) ∨ (i = .mbTelemetry ∧ c = .telemetry) ∨ (i = .mbRasLog ∧ c = .rasLog) ∨
      (∃ e, i = .mbWriteAccessTable e ∧ c = .accessTable e) ∨ (∃ a, i = .mbSetAlarm a ∧ c = .setAlarm a) ∨
      (∃ b, i = .mbWriteBootConfig b ∧ c = .bootConfig b) →
    (s.plat.err = 1 → exec i s = .next s) ∧
    (s.plat.err ≠ 1 → exec i s = .next { s with mgmt := { s.mgmt with queue := s.mgmt.queue ++ [⟨false, c⟩] } })) ∧
  (∀ (s : State),
    let base := s.mgmt.mbbuf.toNat * 2 ^ 12
    let buf := s.ms.creadNat base 4096
    let inside := s.backed base 4096 = true
    let ok := inside ∨ regionOf base = .host
    let done := exec .mbCommandDone s
    (s.mgmt.queue = [] → done = .next s) ∧
    (∀ e rest, s.mgmt.queue = e :: rest → noMigration s → settledOutside s →
      let c := e.cmd
      let attests := c = .attest ∨ c = .op 1
      let tells := c = .telemetry ∨ c = .rasLog ∨ c = .op 2 ∨ c = .op 3
      let changes := (∃ a, c = .accessTable a) ∨ (∃ a, c = .setAlarm a) ∨ (∃ b, c = .bootConfig b) ∨ c = .op 4 ∨ c = .op 5 ∨ c = .op 6
      let asks (x : MbCommand) : Prop := c = x ∨
        (c = .op 4 ∧ ∃ a, x = .accessTable a ∧ Config.accessArg buf = some a) ∨
        (c = .op 5 ∧ ∃ a, x = .setAlarm a ∧ Config.alarmArg buf = some a) ∨
        (c = .op 6 ∧ ∃ b, x = .bootConfig b ∧ Config.bootArg buf = some b)
      let ends (t : State) (r : BitVec 8) : State :=
        if e.written then { t with mgmt := { t.mgmt with busy := false, result := r, queue := rest } }
        else sends { t with mgmt := { t.mgmt with queue := rest } } (.mbResult r)
      let open_ (k : Nat) : Prop := s.permits .meridian (.stackMem (s.ownerOf (base + k))) false = true ∧
        (attests ∨ tells → s.permits .meridian (.stackMem (s.ownerOf (base + k))) true = true)
      let may := inside → ∀ k, k < 4096 → open_ k
      (inside → ∀ k, k < 4096 → (∀ j, j < k → open_ j) → ¬open_ k →
        done = .next (ends (s.alarm ⟨.meridian, .stackMem (s.ownerOf (base + k)), base + k⟩) 1)) ∧
      (¬ok → done = .next (ends s 3)) ∧
      (ok → may →
        (attests → s.mgmt.keyErased = true → done = .next (ends s 1)) ∧
        (attests → s.mgmt.keyErased = false → ∃ seed : Nat,
          done = .next (ends ({ s with free := s.free + 1 }.cwrite base (s.attestReport seed)) 0)) ∧
        (tells → ∃ bs : List Byte, bs.length = 4096 ∧ done = .next (ends ({ s with free := s.free + 1 }.cwrite base bs) 0)) ∧
        (∀ code, c = .op code → code = 0 ∨ 6 < code → done = .next (ends s 1)) ∧
        (s.mgmt.locked = true → changes → done = .next (ends s 2)) ∧
        (s.mgmt.locked = false →
          (∀ a, asks (.accessTable a) → ∃ t, done = .next (ends t 0) ∧ t.plat = s.plat ∧ t.ms = s.ms ∧
            t.permits a.master a.target true = a.write ∧ t.permits a.master a.target false = a.read ∧
            ∀ m x w, (m, x) ≠ (a.master, a.target) → t.permits m x w = s.permits m x w) ∧
          (asks (.setAlarm 3) → done = .next (ends s 3)) ∧
          (∀ a, asks (.setAlarm a) → a ≠ 3 → done = .next (ends { s with mgmt := { s.mgmt with alarm := a } } 0)) ∧
          (∀ b, asks (.bootConfig b) →
            (1 ≤ b.ratio ∧ b.ratio ≤ 7 → done = .next (ends { s with plat := { s.plat with boot := b } } 0)) ∧
            (b.ratio = 0 ∨ 7 < b.ratio → done = .next (ends s 3))) ∧
          ((c = .op 4 ∧ Config.accessArg buf = none) ∨ (c = .op 5 ∧ Config.alarmArg buf = none) ∨
            (c = .op 6 ∧ Config.bootArg buf = none) → done = .next (ends s 3)))))) ∧
  (∀ (s : State) (off : Nat) (wide : Bool) (v : Word),
    let n := if wide then 8 else 4
    let write := exec (.registerWrite off wide v) s
    let mailbox := 0x800 ≤ off ∧ off < 0x818
    let reaches := off < 2 ^ 33 ∧ off % n = 0 ∧ (mailbox ∨ (s.plat.stage = 4 ∧ s.mgmt.locked = false))
    let whole := off < 2 ^ 33 ∧ off % n = 0
    let may := s.permits .host (regBlockOf off) true = true
    let takes := reaches ∧ may ∧ settledOutside s
    (¬whole → write = .next (sends s .unsupported)) ∧
    (whole → ¬reaches → write = .next s) ∧
    (reaches → ¬may → write = .next (sends (s.alarm ⟨.host, regBlockOf off, 0xF * 2 ^ 44 + off⟩) .abort)) ∧
    (takes → off = 0x808 →
      (s.mgmt.busy = true ∨ s.plat.err = 1 → write = .next s) ∧
      (s.mgmt.busy = false → s.plat.err ≠ 1 → write = .next { s with mgmt := { s.mgmt with
        queue := s.mgmt.queue ++ [⟨true, .op (v.setWidth 8)⟩]
        busy := true } })) ∧
    (takes → wide = false →
      (∀ r < 256, (s.ring r).en = false →
        let k := s.ring r
        (off = 0x2000000 + 0x40 * r →
          write = .next (s.setRing r { k with base := (k.base &&& 0xFFFFFFFF00000000) ||| (v &&& 0xFFFFFFFF) })) ∧
        (off = 0x2000004 + 0x40 * r → write = .next (s.setRing r { k with base := (k.base &&& 0xFFFFFFFF) ||| (v <<< 32) }))) ∧
      (∀ c < 4096, (s.ctx c).st = .created →
        let k := s.ctx c
        (off = 0x4000010 + 0x80 * c →
          write = .next (s.setCtx c { k with ptroot := (k.ptroot &&& 0xFFFF0000) ||| (v.extractLsb' 16 16).setWidth 32 })) ∧
        (off = 0x4000014 + 0x80 * c →
          write = .next (s.setCtx c { k with ptroot := (k.ptroot &&& 0xFFFF) ||| ((v.setWidth 16).setWidth 32 <<< 16) }))) ∧
      (∀ c < 4096,
        (off = 0x4000000 + 0x80 * c → v.toNat % 8 = 1 → write = exec (.ctxCreate c) s) ∧
        (off = 0x4000004 + 0x80 * c ∨ off = 0x400005C + 0x80 * c ∨ off = 0x400006C + 0x80 * c → write = .next s)) ∧
      (off = 0x1008 → v.toNat % 2 ^ 14 / 2 ^ 12 = 2 → write = exec .tlbInvAll s) ∧
      (off = 0x100C ∨ off = 0x201C ∨ off = 0x80C → write = .next s) ∧
      (∀ q < 1024, off = 0x1000014 + 0x40 * q → write = .next s) ∧
      (∀ p < 12, off = 0x5010004 + 0x100 * p → write = .next s) ∧
      (∀ q < 1024, off = 0x1000008 + 0x40 * q ∨ off = 0x100000C + 0x40 * q → ∀ x, write = exec (.qsubmit q x false) s)) ∧
    (takes → wide = true →
      (∀ q < 1024, (off = 0x1000000 + 0x40 * q → write = exec (.qcfgWrite q v) s) ∧
        (off = 0x1000008 + 0x40 * q → write = exec (.qsubmit q v true) s)) ∧
      (∀ r < 256, (off = 0x2000008 + 0x40 * r → write = exec (.rcfgWrite r v) s) ∧
        (off = 0x2000020 + 0x40 * r → write = exec (.rconsWrite r v) s)) ∧
      (∀ c < 4096, off = 0x4000000 + 0x80 * c →
        (v.toNat % 8 = 1 → write = exec (.ctxCreate c) s) ∧ (v.toNat % 8 = 2 → write = exec (.ctxBind c) s) ∧
        (v.toNat % 8 = 3 → write = exec (.ctxUnbind c) s) ∧ (v.toNat % 8 = 4 → write = exec (.ctxSuspend c) s) ∧
        (v.toNat % 8 = 5 → write = exec (.ctxResume c) s) ∧ (v.toNat % 8 = 6 → write = exec (.ctxReset c) s) ∧
        (v.toNat % 8 = 7 → write = exec (.ctxDestroy c) s)) ∧
      (∀ c < 4096, off = 0x4000048 + 0x80 * c → write = exec (.frconsWrite c v) s) ∧
      (∀ k < 16, off = 0x300000 + 0x100 * k → write = exec (.farcfgWrite k v) s) ∧
      (∀ p < 12, off = 0x5010000 + 0x100 * p →
        (v.toNat % 4 = 1 → write = exec (.linkTrain p) s) ∧ (v.toNat % 4 = 2 → write = exec (.linkDown p) s) ∧
        (v.toNat % 4 = 3 → write = exec (.linkRetire p) s)) ∧
      (off = 0x400 →
        let w := v.toNat / 2 ^ 32 % 2 ^ 16
        write = .next { s with plat := { s.plat with
          pstate := v.setWidth 2
          plimit := if 300 ≤ w ∧ w ≤ 2800 then BitVec.ofNat 16 w else s.plat.plimit } })))

namespace Sys2Proof.Say

/-- The next step belongs to the front end of the hart in focus, which may take an instruction: power is on, no control error has
stopped the module, its turn stands first on the agenda, it runs without a fault that waits, and so does its group. `r` is the rest of the agenda. -/
def frontNext (s : State) (r : List Move) : Prop :=
  s.plat.powered = true ∧ s.mgmt.aer = false ∧ s.agenda = .front s.hart.no :: r ∧ s.hart.phase = .running ∧ s.hart.pend = none ∧
    ∃ g, s.group s.hart.grp = some g ∧ g.st = .running

/-- An aligned 8-byte fetch at `va` that meets nothing: it lies in device memory, through an executable leaf whose accessed bit
stands, and these are its bytes as a word. -/
def fetches (s : State) (va : Nat) (w : Word) : Prop :=
  ∃ ps, s.resolve s.agent { x := true, align := 8 } va 8 = .ok ps ∧ devicePlaced s false ps ∧
    w = BitVec.ofNat 64 (leValue (bytesAt s.ms.mem ps))

/-- A step whose instruction or event gave this outcome at `u`: what follows from it follows at once (flags that merges raised
reach their harts, writes of RQECFG.EN that waited take effect, instructions that wait on a changed barrier record are tested). -/
def thenFollows (u : State) (r : Host.Outcome State Fault Refusal) : Host.Outcome State Fault Refusal := match r with
  | .next t => .next (t.afterMove u.ms)
  | r => r

/-- The unguarded guard and a V modifier with nothing set. -/
def noGuard : Guard := ⟨0xFF, 0, 0, 0⟩
def plainV : VMod := ⟨false, .frm, false, .none, .none, false⟩

end Sys2Proof.Say

/-- When the words at the pc decode to an instruction, a step at the front end's turn is exec of it; else it takes fault 0x01, 0x02 or the fetch's fault. -/
def Obligations.StepRunsDecodedInstruction : Prop :=
  (∀ (s : State) (r : List Move), frontNext s r →
    let u := { s with agenda := r }
    (quietMemory s → s.lag.code = false →
      (∀ w, fetches u u.hart.pc.toNat w → lengthOf w = 8 →
        (∀ i, decodeWords w 0 = .ok i → step s = thenFollows u (exec i u)) ∧
        (decodeWords w 0 = .error .illegal → step s = thenFollows u (.next (u.frontFault ⟨0x01, 0, 0, 0, 0⟩))) ∧
        (decodeWords w 0 = .error .placement → step s = thenFollows u (.next (u.frontFault ⟨0x02, 0, 0, 0, 0⟩)))) ∧
      (∀ w w2, fetches u u.hart.pc.toNat w → lengthOf w = 16 → fetches u (u.hart.pc + 8).toNat w2 →
        (∀ i, decodeWords w w2 = .ok i → step s = thenFollows u (exec i u)) ∧
        (decodeWords w w2 = .error .illegal → step s = thenFollows u (.next (u.frontFault ⟨0x01, 0, 0, 0, 0⟩))) ∧
        (decodeWords w w2 = .error .placement → step s = thenFollows u (.next (u.frontFault ⟨0x02, 0, 0, 0, 0⟩))))) ∧
    (∀ i t, u.fetch = .instr i t → step s = thenFollows u (exec i t)) ∧
    (∀ f, u.fetch = .fault f → step s = thenFollows u (.next (u.frontFault ⟨f.code, f.reason, f.va, 0, 0⟩))) ∧
    (u.fetch = .held → step s = thenFollows u (.next { u with hart := u.hart.waitFor .held }))) ∧
  (∀ (s : State) (i : Instr) (r : List Move), s.plat.powered = true → s.mgmt.aer = false ∨ i = .coldReset ∨ i = .powerLoss ∨ i = .thermalTrip →
    isEvent i = true → s.agenda = .event i :: r →
    let u := { s with agenda := r }
    step s = thenFollows u (exec i u)) ∧
  ∀ (t : State) (m : MemSys), t.ms.owed = [] → (∀ d ∈ t.far.dies.toList, d.offPending = false) →
    (∀ h ∈ t.placedHarts, ∀ key cls, h.wait ≠ .barrier key cls) → t.afterMove m = t

/-- Every step answers a next state, except that a module without power stops until its cold reset. -/
def Obligations.StepStopsOnlyForPower : Prop :=
  (∀ s : State, stopsOnlyForPower s) ∧
  ∀ s : State, s.plat.powered = false →
    (s.agenda.head? ≠ some (.event .coldReset) → step s = .fault .unpowered) ∧
    (s.agenda.head? = some (.event .coldReset) → ∃ t, step s = .next t ∧ t.plat.powered = true)

/-- Every step keeps physical memory and the local stores in their canonical form. -/
def Obligations.MemoryStaysCanonical : Prop := ∀ s t : State, memoryOk s → step s = .next t → memoryOk t

/-- Decoding the words of every well-formed instruction gives that instruction back, and its length is that of its words. -/
def Obligations.EncodeDecodeRoundTrip : Prop :=
  ∀ i : Instr, i.wf = true → isEvent i = false →
    let w := (encode i).getD 0 0
    lengthOf w = 8 * (encode i).length ∧ decodeWords w ((encode i).getD 1 0) = .ok i

/-- The module at reset: powered, boot not begun, PWRCTL at its limit, every queue, ring, context, port and record at its reset value, nothing placed. -/
def Obligations.ResetState : Prop :=
  let s := State.reset
  memoryOk s ∧ s.ms.mem = [] ∧ s.placedHarts = [] ∧ s.plat.powered = true ∧ s.plat.stage = 0 ∧ s.plat.err = 0 ∧
    s.plat.plimit = 2800 ∧ s.plat.tick = 0 ∧
    (∀ q, workOf s q = ⟨0, 0, 0, false, [], false, false, 0, 0, none, 0, false, false, false, []⟩) ∧
    (∀ r, s.ring r = ⟨0, 0, 0, 0, false, 0, 0, 0, 0, 0, 0, false⟩) ∧
    (∀ c, (s.ctx c).st = .free ∧ (s.ctx c).ptroot = 0 ∧ (s.ctx c).saven = 0 ∧ (s.ctx c).ctgen = 0 ∧ (s.ctx c).dbgEn = false ∧
      (s.ctx c).pasidEn = false ∧ (s.ctx c).pasidId = 0 ∧ (s.ctx c).savebase = 0 ∧ (s.ctx c).refused = false ∧
      (∀ i : Nat, (s.ctx c).bank0[i]?.getD 0 = 0 ∧ (s.ctx c).bank1[i]?.getD 0 = 0) ∧
      (s.ctx c).ring = ⟨0, 0, 0, false, 0, 0, 0, []⟩ ∧ (s.ctx c).slots = []) ∧
    (∀ p < 12, portOf s p = ⟨.down, 0, 0, 0, 0, 0⟩) ∧ (∀ p, Table.get s.link.routes p 0 = 0) ∧ (∀ i < 64, (recordOf s i).st = .free) ∧ s.ms.ti.cmd = none ∧
    (∀ k < 16, (dieOf s k).guest = false ∧ (dieOf s k).sets = [] ∧ (dieOf s k).rqeEn = false ∧ (dieOf s k).offPending = false ∧
      (dieOf s k).cursor = 0) ∧
    s.mgmt.busy = false ∧ s.mgmt.result = 0 ∧ s.mgmt.locked = false ∧ s.cmp.kernels = [] ∧ s.cmp.groups = [] ∧
    (∀ off ∈ [0x1010, 0x2020, 0x810, 0x300], (s.regRead off 8).1 = 0) ∧ (s.regRead 0x400 8).1 = 2800 * 2 ^ 32

/-- The words the manual itself writes out decode to the instructions it names, and a zero word is refused. -/
def Obligations.DecodedWords : Prop :=
  (∀ p ∈ ([(0xFF00000000000000, 0, .nop),
      (0x3012020060840000, 0, .vadd ⟨0x30, 1, 2, 0⟩ plainV 3 1 2),
      (0xF4231A075D880086, 0, .vadd ⟨0xF4, 2, 3, 1⟩ ⟨true, .frm, true, .none, .s32, false⟩ 58 59 4),
      (0xFF0001C021000006, 0, .setvl noGuard 1 2 .n8 false false),
      (0xFF0001488283FFFF, 0, .cmpi noGuard .ne 4 5 0x1FFFF),
      (0xF040010000000004, 0, .br ⟨0xF0, 4, 0, 0⟩ 4),
      (0xFF0001285FFFFFF6, 0, .bstrip noGuard 2 0x1FFFFFF6),
      (0xFF0004804500000A, 0, .ld noGuard .w32 true .plain .none 2 10),
      (0xFF00048825800283, 0, .st noGuard .w64 .release .device 1 11),
      (0xFF0005C842862010, 0, .vamoadd noGuard ⟨false, .plain, .none, false⟩ true 2 5 3 4),
      (0xFF0006C000000180, 0, .fence noGuard .acquire .device),
      (0xFF0006D000000008, 0, .fenceStk noGuard 8),
      (0xFF000400420C0000, 0, .zopa noGuard false 2 4 6)] : List (Word × Word × Instr)),
    decodeWords p.1 p.2.1 = .ok p.2.2) ∧
  (∀ p ∈ ([(0xFF000E000518001F, 0, .fredadd noGuard true .fp32 10 12),
      (0xFF000E2704280000, 0, .fatt noGuard false false false 56 8 20),
      (0xF060078AA9829000, 0, .ecpy ⟨0xF0, 6, 0, 0⟩ ⟨0, 0⟩ 21 19 1 18 ⟨none, 0, 0, 0, 0, 0⟩),
      (0xFF000792A412500A, 0x403FF00020000100, .emcast noGuard ⟨2, 2⟩ 21 8 9 10 ⟨some .bf16, 0, 63, 15, 128, 256⟩),
      (0xFF0006800A880000, 0, .binit noGuard 21 4),
      (0xFF0006A86A800001, 0, .btest noGuard 3 21 1),
      (0xFF000630848C0280, 0, .kvput noGuard .release .device 4 9 6),
      (0xFF00072001880000, 0, .ctw noGuard 3 4),
      (0xFF0007486A000000, 0, .klaunch noGuard 3 20),
      (0xFF0007300A2A0000, 0, .qsub noGuard 20 21),
      (0xFF000740020A0000, 0, .hrput noGuard 4 5),
      (0xFF00070000000005, 0, .trap noGuard 5),
      (0xFF00070800000000, 0, .eret noGuard)] : List (Word × Word × Instr)),
    decodeWords p.1 p.2.1 = .ok p.2.2) ∧
  decodeWords 0 0 = .error .illegal ∧
    decodeWords 0xF000000000000000 0 = .error .illegal ∧ decodeWords 0xFF00080821060000 0 = .error .placement
end

