-- ==== Sys2Proof/Laws/Bits.lean ====
section
/-! SUPPORT. Bit strings: what a field reads after a field is replaced. -/

namespace Sys2Proof.Machine

theorem testBit_bits (x pos w i : Nat) : (bits x pos w).testBit i = (decide (i < w) && x.testBit (pos + i)) := by
  simp [bits, Nat.testBit_mod_two_pow, Nat.testBit_shiftRight]

theorem bits_lt (x pos w : Nat) : bits x pos w < 2 ^ w := Nat.mod_lt _ (Nat.two_pow_pos w)

/-- A bit of a string after bits [pos + w - 1 : pos] are replaced. -/
theorem testBit_putBits (x pos w v i : Nat) :
    (putBits x pos w v).testBit i = if pos ≤ i ∧ i < pos + w then v.testBit (i - pos) else x.testBit i := by
  simp only [putBits, Nat.testBit_xor, Nat.testBit_shiftLeft, testBit_bits, Nat.testBit_mod_two_pow]
  by_cases h : pos ≤ i
  · by_cases h2 : i < pos + w
    · have h3 : i - pos < w := by omega
      have h4 : pos + (i - pos) = i := by omega
      rw [if_pos ⟨h, h2⟩]
      simp [h, h3, h4]
    · have h3 : ¬ i - pos < w := by omega
      rw [if_neg (by omega)]
      simp [h3]
  · rw [if_neg (by omega)]
    simp [show ¬ i ≥ pos by omega]

/-- The field just written. -/
theorem bits_putBits_same (x pos w v : Nat) : bits (putBits x pos w v) pos w = v % 2 ^ w := by
  apply Nat.eq_of_testBit_eq
  intro i
  rw [testBit_bits, testBit_putBits, Nat.testBit_mod_two_pow]
  by_cases h : i < w
  · rw [if_pos (by omega)]; simp [h]
  · simp [h]

/-- A field apart from the one written. -/
theorem bits_putBits_apart {x pos w v p n : Nat} (h : p + n ≤ pos ∨ pos + w ≤ p) : bits (putBits x pos w v) p n = bits x p n := by
  apply Nat.eq_of_testBit_eq
  intro i
  rw [testBit_bits, testBit_bits, testBit_putBits]
  by_cases hi : i < n
  · rw [if_neg (by omega)]
  · simp [hi]

end Sys2Proof.Machine
end

