-- ==== Sys2Proof/Laws/Decode.lean ====
section
/-! SUPPORT. Fields and codes: cutting a word that was put together, and reading back each code, gives what was put in. -/

namespace Sys2Proof

/-- A field of the upper part of a joined string. -/
theorem extract_upper {m n : Nat} (x : BitVec m) (y : BitVec n) (k l : Nat) (h : n ≤ k) :
    (x ++ y).extractLsb' k l = x.extractLsb' (k - n) l := by
  apply BitVec.eq_of_getLsbD_eq
  intro i hi
  simp only [BitVec.getLsbD_extractLsb', BitVec.getLsbD_append]
  rw [if_neg (by omega), show k + i - n = k - n + i by omega]

/-- A field of the lower part of a joined string. -/
theorem extract_lower {m n : Nat} (x : BitVec m) (y : BitVec n) (k l : Nat) (h : k + l ≤ n) :
    (x ++ y).extractLsb' k l = y.extractLsb' k l := by
  apply BitVec.eq_of_getLsbD_eq
  intro i hi
  simp only [BitVec.getLsbD_extractLsb', BitVec.getLsbD_append]
  rw [if_pos (by omega)]

/-- The whole of a string as a field. -/
theorem extract_whole {n : Nat} (x : BitVec n) : x.extractLsb' 0 n = x := by
  apply BitVec.eq_of_getLsbD_eq
  intro i hi
  simp [hi]

/-- One bit as a field of one bit. -/
theorem bit_extract {n : Nat} (x : BitVec n) (k : Nat) : x.getLsbD k = (x.extractLsb' k 1).getLsbD 0 := by
  simp

/-- Cutting a word that was put together from fields (R68). -/
theorem Fields.ofWord_toWord (f : Fields) : Fields.ofWord f.toWord = f := by
  obtain ⟨tt, ga, gb, gc, p, opc, d, a, b, c, x⟩ := f
  simp (disch := decide) only [Fields.ofWord, Fields.toWord, bit_extract, extract_upper, extract_lower, Nat.reduceSub, extract_whole]
  cases p <;> rfl

@[simp] theorem Fmt.ofCode_code (t : Fmt) : Fmt.ofCode t.code = t := by cases t <;> rfl
@[simp] theorem Cond.ofCode_code (c : Cond) : Cond.ofCode c.code = some c := by cases c <;> rfl
@[simp] theorem Rm.ofCode_code (r : Rm) : Rm.ofCode r.code = some r := by cases r <;> rfl
@[simp] theorem Rep.ofCode_code (r : Rep) : Rep.ofCode r.code = some r := by cases r <;> rfl
@[simp] theorem Ord.ofCode_code (o : Ord) : Ord.ofCode o.code = some o := by cases o <;> rfl
@[simp] theorem Scope.ofCode_code (s : Scope) : Scope.ofCode s.code = s := by cases s <;> rfl
@[simp] theorem Width.ofCode_code (w : Width) : Width.ofCode w.code = w := by cases w <;> rfl
@[simp] theorem KTest.ofCode_code (t : KTest) : KTest.ofCode t.code = some t := by cases t <;> rfl
@[simp] theorem SReg.ofCode_code (r : SReg) : SReg.ofCode r.code = some r := by cases r <;> rfl
@[simp] theorem rneOf_rneCode (b : Bool) : rneOf (rneCode b) = some b := by cases b <;> rfl

/-- A predicate number in its field. -/
@[simp] theorem kreg_f (k : KReg) : kreg (KReg.f k) = some k := by revert k; decide
/-- A tile number in its field. -/
@[simp] theorem zreg_f (z : ZReg) : zreg (ZReg.f z) = some z := by revert z; decide

/-- The X field of format V (R78). -/
theorem Fields.vmod_of (f : Fields) (m : VMod) (hp : f.p = m.far) (hx : f.x = m.x) : f.vmod = some m := by
  obtain ⟨far, rm, zm, ra, rb, w⟩ := m
  simp only [Fields.vmod, hx, hp, VMod.x]
  cases rm <;> cases zm <;> cases ra <;> cases rb <;> cases w <;> rfl

/-- The X field of format M, its FUNC apart (R82). -/
theorem Fields.mmod_of (f : Fields) (m : MMod) (n : BitVec 5) (hp : f.p = m.far) (hx : f.x = m.x n) :
    f.mmod = some m ∧ f.func = n := by
  obtain ⟨far, o, s, ff⟩ := m
  simp (disch := decide) only [Fields.mmod, Fields.func, hx, hp, MMod.x, bit_extract, extract_upper, extract_lower, Nat.reduceSub,
    extract_whole, Ord.ofCode_code, Scope.ofCode_code, Option.map_some, and_true]
  cases ff <;> rfl

/-- The X field of a scalar access (R82). -/
theorem Fields.scalar_of (f : Fields) (o : Ord) (s : Scope) (n : BitVec 5) (hp : f.p = false) (hx : f.x = scalarX o s n) :
    f.mmod = some ⟨false, o, s, false⟩ ∧ f.func = n :=
  f.mmod_of ⟨false, o, s, false⟩ n hp hx

/-- Cutting the second word of a copy (R332). -/
theorem CopyWord.cut (t : BitVec 4) (a : BitVec 3) (b : BitVec 9) (c : BitVec 4) (d e : BitVec 22) :
    let w : BitVec (4+3+9+4+22+22) := t ++ a ++ b ++ c ++ d ++ e
    w.extractLsb' 60 4 = t ∧ w.extractLsb' 57 3 = a ∧ w.extractLsb' 48 9 = b ∧ w.extractLsb' 44 4 = c ∧
    w.extractLsb' 22 22 = d ∧ w.extractLsb' 0 22 = e := by
  simp (disch := decide) only [extract_upper, extract_lower, Nat.reduceSub, extract_whole]
  simp

/-- Cutting the second word of a gather (R336). -/
theorem RowsWord.cut (t : BitVec 2) (a : BitVec 12) (b : BitVec 16) (c : BitVec 34) :
    let w : BitVec (2+12+16+34) := t ++ a ++ b ++ c
    w.extractLsb' 62 2 = t ∧ w.extractLsb' 50 12 = a ∧ w.extractLsb' 34 16 = b ∧ w.extractLsb' 0 34 = c := by
  simp (disch := decide) only [extract_upper, extract_lower, Nat.reduceSub, extract_whole]
  simp

/-- The second word of a copy (R332). -/
theorem CopyWord.ofWord_toWord (w : CopyWord) : CopyWord.ofWord w.toWord = some w := by
  obtain ⟨kv, rot, nrows, cmask, sp, dp⟩ := w
  have j := CopyWord.cut (match kv with | none => 0#4 | some .bf16 => 4#4 | some .fp16 => 5#4 | some .fp32 => 6#4) rot nrows cmask sp dp
  obtain ⟨h1, h2, h3, h4, h5, h6⟩ := j
  rcases kv with _ | _ | _ | _ <;>
    (unfold CopyWord.ofWord CopyWord.toWord
     dsimp only at *
     simp only [h1, h2, h3, h4, h5, h6]
     rfl)

/-- The second word of a gather or scatter (R336). -/
theorem RowsWord.ofWord_toWord (w : RowsWord) : RowsWord.ofWord w.toWord = some w := by
  obtain ⟨iw, n, rb, tp⟩ := w
  obtain ⟨h1, h2, h3, h4⟩ := RowsWord.cut (match iw with | .n16 => 0#2 | .n32 => 1#2 | .n64 => 2#2) n rb tp
  cases iw <;>
    (unfold RowsWord.ofWord RowsWord.toWord
     dsimp only at *
     simp only [h1, h2, h3, h4]
     rfl)

/-- The length of a word made of fields (R67). -/
theorem lengthOf_toWord (f : Fields) : lengthOf f.toWord = if 0xF0 ≤ f.opc.toNat then 16 else 8 := by
  unfold lengthOf
  obtain ⟨tt, ga, gb, gc, p, opc, d, a, b, c, x⟩ := f
  simp (disch := decide) only [Fields.toWord, extract_upper, extract_lower, Nat.reduceSub, extract_whole]

/-- The X field of format V in its place (R78). -/
theorem Fields.vmod_x (tt ga gb gc p opc d a b c) (m : VMod) (h : p = m.far) : Fields.vmod ⟨tt, ga, gb, gc, p, opc, d, a, b, c, m.x⟩ = some m := Fields.vmod_of _ _ h rfl

/-- The X field of format M in its place (R82). -/
theorem Fields.mmod_x (tt ga gb gc p opc d a b c) (m : MMod) (n) (h : p = m.far) : Fields.mmod ⟨tt, ga, gb, gc, p, opc, d, a, b, c, m.x n⟩ = some m := (Fields.mmod_of _ _ n h rfl).1

/-- FUNC of format M (R82). -/
theorem Fields.func_x (tt ga gb gc opc p d a b c) (m : MMod) (n) : Fields.func ⟨tt, ga, gb, gc, p, opc, d, a, b, c, m.x n⟩ = n := by
  obtain ⟨far, o, s, ff⟩ := m
  simp (disch := decide) only [Fields.func, MMod.x, extract_lower, extract_whole]

/-- The X field of a scalar access in its place (R82). -/
theorem Fields.mmod_scalar (tt ga gb gc opc d a b c o s) (n) : Fields.mmod ⟨tt, ga, gb, gc, false, opc, d, a, b, c, scalarX o s n⟩ = some ⟨false, o, s, false⟩ := (Fields.scalar_of _ o s n rfl rfl).1

/-- FUNC of a scalar access (R82). -/
theorem Fields.func_scalar (tt ga gb gc opc p d a b c o s) (n) : Fields.func ⟨tt, ga, gb, gc, p, opc, d, a, b, c, scalarX o s n⟩ = n := Fields.func_x _ _ _ _ _ _ _ _ _ _ ⟨false, o, s, false⟩ n

/-- The low bits of a widened string. -/
theorem extract_setWidth_low {n m : Nat} (x : BitVec n) (k : Nat) (h : n ≤ m) (hk : k = n) : (x.setWidth m).extractLsb' 0 k = x.setWidth k := by
  subst hk
  apply BitVec.eq_of_getLsbD_eq
  intro i hi
  have : i < m := by omega
  simp [this, hi]

/-- The bits a widening adds are zero. -/
theorem extract_setWidth_high {n m : Nat} (x : BitVec n) (k l : Nat) (h : n ≤ k) : (x.setWidth m).extractLsb' k l = 0#l := by
  apply BitVec.eq_of_getLsbD_eq
  intro i hi
  have := x.getLsbD_of_ge (k + i) (by omega)
  simp [this]

/-- The two parts of imm17 joined again (R80). -/
theorem imm_join (imm : BitVec 17) : imm.extractLsb' 11 6 ++ imm.extractLsb' 0 11 = imm := by
  apply BitVec.eq_of_getLsbD_eq
  intro i hi
  simp only [BitVec.getLsbD_append, BitVec.getLsbD_extractLsb']
  split <;> (try (rw [show 11 + (i - 11) = i by omega])) <;> (try rw [show 0 + i = i by omega]) <;> simp <;> omega

/-- The four parts of a branch offset joined again (R81). -/
theorem off_join (o : BitVec 29) : o.extractLsb' 23 6 ++ o.extractLsb' 17 6 ++ o.extractLsb' 11 6 ++ o.extractLsb' 0 11 = o := by
  apply BitVec.eq_of_getLsbD_eq
  intro i hi
  simp only [BitVec.getLsbD_append, BitVec.getLsbD_extractLsb']
  split
  · simp; omega
  · split
    · rw [show 11 + (i - 11) = i by omega]; simp; omega
    · split
      · rw [show 17 + (i - 11 - 6) = i by omega]; simp; omega
      · rw [show 23 + (i - 11 - 6 - 6) = i by omega]; simp; omega

/-- Widening a 16-bit operand to 17 bits and cutting it back. -/
theorem setWidth_back (x : BitVec 16) : (x.setWidth 17).setWidth 16 = x := by
  apply BitVec.eq_of_getLsbD_eq
  intro i hi
  simp [hi]
  try omega

end Sys2Proof
end

