-- ==== Sys2Proof/Laws/Exec.lean ====
section
/-! SUPPORT. What `exec` is for each kind of instruction: every arm answers a next state; an instruction of the vector queue is
issued; another instruction with a word goes through the front end's frame. -/

namespace Sys2Proof.Machine

/-- Every arm answers a next state. -/
theorem exec_answers (i : Instr) (s : State) : ∃ t, exec i s = .next t := by
  cases i <;> exact ⟨_, rfl⟩

/-- An instruction of the vector queue is issued (R125, R126). -/
theorem exec_issues {i : Instr} (h : inVq i = true) (s : State) : exec i s = .next (s.issueVq i) := by
  cases i <;> first
    | rfl
    | exact absurd (show false = true from h) Bool.false_ne_true
    | skip
  rename_i g r a
  simp only [inVq, beq_iff_eq] at h
  subst h
  rfl

/-- An instruction of the front end: its frame, whatever the machine (R72, R130, R141). -/
theorem exec_front {i : Instr} (he : isEvent i = false) (hv : inVq i = false) :
    ∃ (g : Guard) (eff : State → FrontAct), guardOf i = some g ∧
      ∀ s, exec i s = .next (s.frontEnd i g (8 * (encode i).length) eff) := by
  cases i <;> first
    | exact ⟨_, _, rfl, fun _ => rfl⟩
    | exact absurd (show true = false from he) (by decide)
    | exact absurd (show true = false from hv) (by decide)
    | skip
  rename_i g r a
  have hr : r ≠ .plive := by rintro rfl; exact absurd (show true = false from hv) (by decide)
  exact ⟨g, _, rfl, fun s => by simp only [exec, execMts, if_neg hr]; rfl⟩

end Sys2Proof.Machine
end

