-- ==== Sys2Proof/Laws/Memory.lean ====
section
/-! SUPPORT. The operations on memory: what a read gives after a write, and that every operation keeps the canonical form. -/

namespace Sys2Proof.Machine

/-! Cells. -/

/-- A canonical list stays canonical under a weaker bound. -/
theorem Memory.wfFrom_weaken {lo : Option Nat} {m : Memory} (h : Memory.wfFrom lo m = true) : Memory.wfFrom none m = true := by
  cases m with
  | nil => rfl
  | cons c r =>
    obtain ⟨a, b⟩ := c
    simp only [Memory.wfFrom, Bool.and_eq_true] at h ⊢
    exact ⟨⟨trivial, h.1.2⟩, h.2⟩

theorem Memory.wfFrom_mono {l l' : Nat} {m : Memory} (hl : l' ≤ l) (h : Memory.wfFrom (some l) m = true) :
    Memory.wfFrom (some l') m = true := by
  cases m with
  | nil => rfl
  | cons c r =>
    obtain ⟨a, b⟩ := c
    simp only [Memory.wfFrom, Bool.and_eq_true, decide_eq_true_eq] at h ⊢
    exact ⟨⟨by omega, h.1.2⟩, h.2⟩

/-- Writing above a bound keeps the form above it. -/
theorem Memory.wfFrom_put (m : Memory) (lo : Option Nat) (a : Nat) (b : Byte) (hlo : ∀ l, lo = some l → l < a)
    (h : Memory.wfFrom lo m = true) : Memory.wfFrom lo (Memory.put m a b) = true := by
  induction m generalizing lo with
  | nil =>
    unfold Memory.put
    split
    · rfl
    · rename_i hb
      replace hb : ¬b = 0#8 := hb
      cases lo with
      | none => simp [Memory.wfFrom, hb]
      | some l => simp [Memory.wfFrom, hb, hlo l rfl]
  | cons c r ih =>
    obtain ⟨a', b'⟩ := c
    simp only [Memory.wfFrom, Bool.and_eq_true] at h
    obtain ⟨⟨h1, h2⟩, h3⟩ := h
    unfold Memory.put
    split
    · rename_i hlt
      split
      · simp [Memory.wfFrom, h1, h3]; simpa using h2
      · rename_i hb
        replace hb : ¬b = 0#8 := hb
        cases lo with
        | none => simp [Memory.wfFrom, hb, hlt, h3]; simpa using h2
        | some l => simp [Memory.wfFrom, hb, hlt, h3, hlo l rfl]; simpa using h2
    · split
      · rename_i heq
        subst heq
        split
        · cases lo with
          | none => exact Memory.wfFrom_weaken h3
          | some l => exact Memory.wfFrom_mono (by simpa using le_of_lt (hlo l rfl)) h3
        · rename_i hb
          replace hb : ¬b = 0#8 := hb
          cases lo with
          | none => simp [Memory.wfFrom, hb, h3]
          | some l => simp [Memory.wfFrom, hb, h3, hlo l rfl]
      · rename_i h4 h5
        have : Memory.wfFrom (some a') (Memory.put r a b) = true :=
          ih (some a') (by intro l hl; cases hl; omega) h3
        simp [Memory.wfFrom, h1, this]; simpa using h2

/-- One byte written keeps the canonical form. -/
theorem Memory.wf_put {m : Memory} (a : Nat) (b : Byte) (h : Memory.wf m = true) : Memory.wf (Memory.put m a b) = true :=
  Memory.wfFrom_put m none a b (by simp) h

theorem Memory.wf_write {m : Memory} (a : Nat) (bs : List Byte) (h : Memory.wf m = true) :
    Memory.wf (Memory.write m a bs) = true := by
  induction bs generalizing m a with
  | nil => exact h
  | cons b bs ih => exact ih (a + 1) (Memory.wf_put a b h)

theorem Memory.wf_writeNat {m : Memory} (a n v : Nat) (h : Memory.wf m = true) : Memory.wf (Memory.writeNat m a n v) = true :=
  Memory.wf_write a _ h

/-- An address below the bound reads 0. -/
theorem Memory.byte_below {m : Memory} {l a : Nat} (h : Memory.wfFrom (some l) m = true) (ha : a ≤ l) : Memory.byte m a = 0 := by
  induction m generalizing l with
  | nil => rfl
  | cons c r ih =>
    obtain ⟨a', b'⟩ := c
    simp only [Memory.wfFrom, Bool.and_eq_true, decide_eq_true_eq] at h
    unfold Memory.byte
    rw [if_neg (by omega)]
    exact ih h.2 (by omega)

/-- Read after write, any two addresses. -/
theorem Memory.byte_put_from {m : Memory} (lo : Option Nat) (a x : Nat) (b : Byte) (h : Memory.wfFrom lo m = true) :
    Memory.byte (Memory.put m a b) x = if x = a then b else Memory.byte m x := by
  induction m generalizing lo with
  | nil =>
    unfold Memory.put
    split
    · rename_i hb; subst hb; simp [Memory.byte]
    · simp [Memory.byte]
  | cons c r ih =>
    obtain ⟨a', b'⟩ := c
    simp only [Memory.wfFrom, Bool.and_eq_true] at h
    obtain ⟨-, h3⟩ := h
    unfold Memory.put
    split
    · rename_i hlt
      have hz : x = a → Memory.byte ((a', b') :: r) x = 0 := by
        intro hx; subst hx
        simp only [Memory.byte]
        rw [if_neg (by omega)]
        exact Memory.byte_below h3 (by omega)
      split
      · rename_i hb; subst hb
        split
        · rename_i hx; exact hz hx
        · rfl
      · simp [Memory.byte]
    · split
      · rename_i heq; subst heq
        split
        · rename_i hb; subst hb
          split
          · rename_i hx; subst hx; exact Memory.byte_below h3 (le_refl _)
          · rename_i hx; simp [Memory.byte, hx]
        · simp only [Memory.byte]
          split <;> rfl
      · rename_i h4 h5
        simp only [Memory.byte]
        split
        · rename_i hx; subst hx; rw [if_neg (by omega)]
        · exact ih _ h3

theorem Memory.byte_put {m : Memory} (a x : Nat) (b : Byte) (h : Memory.wf m = true) :
    Memory.byte (Memory.put m a b) x = if x = a then b else Memory.byte m x := Memory.byte_put_from none a x b h

/-- The byte a run of writes leaves at an address. -/
theorem Memory.byte_write {m : Memory} (a x : Nat) (bs : List Byte) (h : Memory.wf m = true) :
    Memory.byte (Memory.write m a bs) x = if a ≤ x ∧ x < a + bs.length then bs.getD (x - a) 0 else Memory.byte m x := by
  induction bs generalizing m a with
  | nil => simp only [Memory.write, List.length_nil]; rw [if_neg (by omega)]
  | cons b bs ih =>
    simp only [Memory.write, List.length_cons]
    rw [ih (a + 1) (Memory.wf_put a b h), Memory.byte_put _ _ _ h]
    by_cases h1 : x = a
    · subst h1
      rw [if_neg (by omega), if_pos rfl, if_pos (by omega)]; simp
    · by_cases h2 : a ≤ x ∧ x < a + (bs.length + 1)
      · rw [if_pos (by omega), if_pos h2, show x - a = (x - (a + 1)) + 1 by omega]; simp
      · rw [if_neg (by omega), if_neg h1, if_neg h2]

theorem Memory.read_length (m : Memory) (a n : Nat) : (Memory.read m a n).length = n := by
  induction n generalizing a with
  | zero => rfl
  | succ n ih => simp [Memory.read, ih]

/-- A run of bytes that no write touched. -/
theorem Memory.read_write_apart {m : Memory} (a p n : Nat) (bs : List Byte) (h : Memory.wf m = true)
    (hd : p + n ≤ a ∨ a + bs.length ≤ p) : Memory.read (Memory.write m a bs) p n = Memory.read m p n := by
  induction n generalizing p with
  | zero => rfl
  | succ n ih =>
    simp only [Memory.read]
    rw [Memory.byte_write a p bs h, if_neg (by omega), ih (p + 1) (by omega)]

/-- The bytes written are read back. -/
theorem Memory.read_write_same {m : Memory} (a : Nat) (bs : List Byte) (h : Memory.wf m = true) :
    Memory.read (Memory.write m a bs) a bs.length = bs := by
  induction bs generalizing m a with
  | nil => rfl
  | cons b bs ih =>
    simp only [Memory.write, List.length_cons, Memory.read]
    rw [ih (a + 1) (Memory.wf_put a b h), Memory.byte_write _ _ _ (Memory.wf_put a b h), if_neg (by omega), Memory.byte_put _ _ _ h, if_pos rfl]

/-- A filter keeps the canonical form. -/
theorem Memory.wfFrom_filter (m : Memory) (lo : Option Nat) (p : Host.Cell → Bool) (h : Memory.wfFrom lo m = true) :
    Memory.wfFrom lo (m.filter p) = true := by
  induction m generalizing lo with
  | nil => rfl
  | cons c r ih =>
    obtain ⟨a, b⟩ := c
    simp only [Memory.wfFrom, Bool.and_eq_true] at h
    obtain ⟨⟨h1, h2⟩, h3⟩ := h
    rw [List.filter_cons]
    split
    · simp only [Memory.wfFrom, Bool.and_eq_true]
      exact ⟨⟨h1, h2⟩, ih _ h3⟩
    · apply ih
      cases lo with
      | none => exact Memory.wfFrom_weaken h3
      | some l => exact Memory.wfFrom_mono (by simp at h1; omega) h3

theorem Memory.wf_filter {m : Memory} (p : Host.Cell → Bool) (h : Memory.wf m = true) : Memory.wf (m.filter p) = true :=
  Memory.wfFrom_filter m none p h

/-! Tables. -/

theorem Table.get_set_same {α : Type} (t : Table α) (k : Nat) (v d : α) : Table.get (Table.set t k v) k d = v := by
  induction t with
  | nil => simp [Table.set, Table.get]
  | cons c r ih =>
    obtain ⟨k', v'⟩ := c
    unfold Table.set
    split
    · simp [Table.get]
    · split
      · simp [Table.get]
      · rename_i h; simp only [Table.get, if_neg h]; exact ih

theorem Table.get_set_other {α : Type} (t : Table α) {k x : Nat} (v d : α) (h : x ≠ k) :
    Table.get (Table.set t k v) x d = Table.get t x d := by
  induction t with
  | nil => simp [Table.set, Table.get, h]
  | cons c r ih =>
    obtain ⟨k', v'⟩ := c
    unfold Table.set
    split
    · simp [Table.get, h]
    · split
      · rename_i hk; subst hk; simp [Table.get, h]
      · simp only [Table.get]; rw [ih]

/-! MemSys: canonical form of both cell lists. -/

/-- Physical memory and the local stores are in canonical form. -/
def MemSys.ok (ms : MemSys) : Prop := Memory.wf ms.mem = true ∧ Memory.wf ms.ls = true

theorem MemSys.ok_reset : MemSys.reset.ok := ⟨rfl, rfl⟩

/-- Nothing but the two cell lists matters. -/
theorem MemSys.ok_of_eq {a b : MemSys} (h : a.ok) (h1 : b.mem = a.mem) (h2 : b.ls = a.ls) : b.ok := by
  unfold MemSys.ok at *; rw [h1, h2]; exact h

theorem MemSys.ok_lsPut {ms : MemSys} (key : Nat) (b : Byte) (h : ms.ok) : (ms.lsPut key b).ok := by
  refine ⟨h.1, Memory.wf_put _ _ ?_⟩
  split
  · exact h.2
  · exact Memory.wf_write _ _ h.2

theorem MemSys.ok_lsPuts {ms : MemSys} (key : Nat) (bs : List Byte) (h : ms.ok) : (ms.lsPuts key bs).ok := by
  induction bs generalizing ms key with
  | nil => exact h
  | cons b bs ih => exact ih _ (MemSys.ok_lsPut key b h)

/-- Making sectors correctable again touches the list of uncorrectable ones only. -/
theorem MemSys.lsMend_cells (ms : MemSys) (key n : Nat) : ∃ l, ms.lsMend key n = { ms with lsBad := l } := by
  unfold MemSys.lsMend
  split
  · exact ⟨_, rfl⟩
  · exact ⟨_, rfl⟩

theorem MemSys.ok_lsWrite {ms : MemSys} (key : Nat) (bs : List Byte) (h : ms.ok) : (ms.lsWrite key bs).ok := by
  obtain ⟨l, hl⟩ := MemSys.lsMend_cells ms key bs.length
  unfold MemSys.lsWrite
  rw [hl]
  exact MemSys.ok_lsPuts key bs h

theorem MemSys.ok_lsClear {ms : MemSys} (g : Nat) (h : ms.ok) : (ms.lsClear g).ok := ⟨h.1, Memory.wf_filter _ h.2⟩

theorem MemSys.wf_mergeParts {m : Memory} (k : RedKind) (f : Fmt) (t : Table Nat) (h : Memory.wf m = true) :
    Memory.wf (MemSys.mergeParts m k f t) = true := by
  induction t generalizing m with
  | nil => exact h
  | cons c r ih => exact ih (Memory.wf_writeNat _ _ _ h)

/-- A fold of steps that each keep a property keeps it. -/
theorem foldl_keeps {α β : Type} (P : α → Prop) (f : α → β → α) (l : List β) (a : α) (h : P a) (hf : ∀ a b, P a → P (f a b)) :
    P (l.foldl f a) := by
  induction l generalizing a with
  | nil => exact h
  | cons b l ih => exact ih _ (hf _ _ h)

theorem MemSys.ok_merge {ms : MemSys} (pa n : Nat) (h : ms.ok) : (ms.merge pa n).ok := by
  unfold MemSys.merge
  split
  · exact h
  · exact ⟨foldl_keeps (fun m => Memory.wf m = true) _ _ _ h.1 (fun m l hm => MemSys.wf_mergeParts _ _ _ hm), h.2⟩

theorem MemSys.ok_unpoison {ms : MemSys} (pa n : Nat) (h : ms.ok) : (ms.unpoison pa n).ok := by
  unfold MemSys.unpoison
  split
  · exact h
  · exact h

theorem MemSys.ok_catchUp {ms : MemSys} (pa n : Nat) (h : ms.ok) : (ms.catchUp pa n).ok := by
  unfold MemSys.catchUp
  split
  · exact h
  · exact h

theorem MemSys.ok_cwrite {ms : MemSys} (pa : Nat) (bs : List Byte) (h : ms.ok) : (ms.cwrite pa bs).ok :=
  have h' := MemSys.ok_catchUp pa bs.length (MemSys.ok_unpoison pa bs.length (MemSys.ok_merge pa bs.length h))
  ⟨Memory.wf_write _ _ h'.1, h'.2⟩

theorem MemSys.ok_cwriteNat {ms : MemSys} (pa n v : Nat) (h : ms.ok) : (ms.cwriteNat pa n v).ok := MemSys.ok_cwrite _ _ h

theorem MemSys.ok_l2Writeback {ms : MemSys} (q : Nat) (h : ms.ok) : (ms.l2Writeback q).ok := MemSys.ok_catchUp _ _ h

theorem MemSys.ok_l2Room {ms : MemSys} (h : ms.ok) : ms.l2Room.ok := by
  unfold MemSys.l2Room
  split
  · exact MemSys.ok_l2Writeback _ h
  · exact h

theorem MemSys.ok_l2write {ms : MemSys} (pa : Nat) (bs : List Byte) (h : ms.ok) : (ms.l2write pa bs).ok :=
  MemSys.ok_l2Room (MemSys.ok_of_eq (MemSys.ok_cwrite pa bs (MemSys.ok_merge pa bs.length h)) rfl rfl)

theorem MemSys.ok_kwrite {ms : MemSys} (pa : Nat) (bs : List Byte) (h : ms.ok) : (ms.kwrite pa bs).ok := by
  unfold MemSys.kwrite
  split
  · exact MemSys.ok_cwrite _ _ h
  · exact MemSys.ok_of_eq (MemSys.ok_cwrite pa _ (MemSys.ok_merge pa bs.length h)) rfl rfl

/-- Either of two well-formed choices is well formed. -/
theorem MemSys.ok_ite {c : Prop} {_ : Decidable c} {a b : MemSys} (ha : a.ok) (hb : b.ok) : (if c then a else b).ok := by
  split
  · exact ha
  · exact hb

theorem MemSys.ok_contribute {ms : MemSys} (who : Owner) (pa : Nat) (k : RedKind) (f : Fmt) (v : Nat) (h : ms.ok) :
    (ms.contribute who pa k f v).1.ok := by
  unfold MemSys.contribute
  dsimp only
  split
  · exact ⟨Memory.wf_writeNat _ _ _ (MemSys.ok_ite h (MemSys.ok_merge _ _ h)).1, (MemSys.ok_ite h (MemSys.ok_merge _ _ h)).2⟩
  · exact MemSys.ok_of_eq (MemSys.ok_ite h (MemSys.ok_merge pa (fmtWidth f / 8) h)) rfl rfl

theorem MemSys.ok_l1Put {ms : MemSys} (core pa : Nat) (bs : List Byte) (h : ms.ok) : (ms.l1Put core pa bs).ok := by
  induction bs generalizing ms pa with
  | nil => exact h
  | cons b bs ih => exact ih _ (MemSys.ok_of_eq h rfl rfl)

theorem MemSys.ok_writeBack {ms : MemSys} (raw : Bool) (pa : Nat) (bs : List Byte) (h : ms.ok) : (ms.writeBack raw pa bs).ok :=
  MemSys.ok_ite (MemSys.ok_cwrite _ _ h) (MemSys.ok_l2write _ _ h)

theorem MemSys.ok_flushByte {ms : MemSys} (q : L1Sector) (n : Nat) (h : ms.ok) : (ms.flushByte q n).ok :=
  MemSys.ok_ite h (MemSys.ok_writeBack _ _ _ h)

theorem MemSys.ok_flushMask {ms : MemSys} (q : L1Sector) (n : Nat) (h : ms.ok) : (ms.flushMask q n).ok := by
  induction n with
  | zero => exact h
  | succ n ih => exact MemSys.ok_flushByte _ _ ih

theorem MemSys.ok_l1Flush {ms : MemSys} (core q : Nat) (h : ms.ok) : (ms.l1Flush core q).ok := by
  unfold MemSys.l1Flush
  split
  · exact MemSys.ok_of_eq (MemSys.ok_ite (MemSys.ok_writeBack _ _ _ h) (MemSys.ok_flushMask _ _ h)) rfl rfl
  · exact h

theorem MemSys.ok_l1Spill {ms : MemSys} (core pa : Nat) (h : ms.ok) : (ms.l1Spill core pa).ok := by
  unfold MemSys.l1Spill
  split
  · exact MemSys.ok_ite (MemSys.ok_of_eq (MemSys.ok_flushByte _ _ h) rfl rfl) h
  · exact h

theorem MemSys.ok_l1FlushCore {ms : MemSys} (core : Nat) (h : ms.ok) : (ms.l1FlushCore core).ok :=
  foldl_keeps MemSys.ok _ _ _ h (fun _ _ hm => MemSys.ok_l1Flush _ _ hm)

theorem MemSys.ok_l1Room {ms : MemSys} (core : Nat) (h : ms.ok) : (ms.l1Room core).ok := by
  unfold MemSys.l1Room
  dsimp only
  split
  · exact h
  · split
    · exact MemSys.ok_l1Flush _ _ h
    · exact h

theorem MemSys.ok_l1Alloc {ms : MemSys} (core q : Nat) (h : ms.ok) : (ms.l1Alloc core q).ok := by
  unfold MemSys.l1Alloc
  split
  · exact h
  · exact MemSys.ok_of_eq (MemSys.ok_merge _ _ (MemSys.ok_l1Room core h)) rfl rfl

theorem MemSys.ok_l1Store {ms : MemSys} (core pa : Nat) (raw loose : Bool) (bs : List Byte) (h : ms.ok) :
    (ms.l1Store core pa raw loose bs).ok := by
  induction bs generalizing ms pa with
  | nil => exact h
  | cons b bs ih => exact ih _ (MemSys.ok_of_eq (MemSys.ok_l1Alloc core (pa / 64) h) rfl rfl)

theorem MemSys.ok_l1PutUnit {ms : MemSys} (core pa : Nat) (raw : Bool) (j c : Nat) (h : ms.ok) : (ms.l1PutUnit core pa raw j c).ok :=
  MemSys.ok_of_eq (MemSys.ok_l1Alloc core (pa / 64) h) rfl rfl

theorem MemSys.ok_l1Refresh {ms : MemSys} (core : Nat) (hit : Nat → Bool) (h : ms.ok) : (ms.l1Refresh core hit).ok := by
  unfold MemSys.l1Refresh
  exact MemSys.ok_of_eq (foldl_keeps MemSys.ok _ _ _ h fun _ _ hm => MemSys.ok_merge _ _ hm) rfl rfl

theorem MemSys.ok_l1Invalidate {ms : MemSys} (core : Nat) (h : ms.ok) : (ms.l1Invalidate core).ok :=
  MemSys.ok_ite h (MemSys.ok_l1Refresh _ _ h)

theorem MemSys.ok_l1Catch {ms : MemSys} (core pa n : Nat) (h : ms.ok) : (ms.l1Catch core pa n).ok :=
  MemSys.ok_ite h (MemSys.ok_l1Refresh _ _ h)

theorem MemSys.ok_dropEarly {ms : MemSys} (hart pa n : Nat) (h : ms.ok) : (ms.dropEarly hart pa n).ok :=
  MemSys.ok_ite h (MemSys.ok_of_eq h rfl rfl)

theorem MemSys.ok_endEarly {ms : MemSys} (hart : Nat) (h : ms.ok) : (ms.endEarly hart).ok :=
  MemSys.ok_ite h (MemSys.ok_of_eq h rfl rfl)

theorem MemSys.ok_l1Discard {ms : MemSys} (pa n : Nat) (h : ms.ok) : (ms.l1Discard pa n).ok := h

/-! Reading what was written, at the point of coherence. -/

theorem MemSys.merge_none {ms : MemSys} (pa n : Nat) (h : ms.reduce = []) : ms.merge pa n = ms := by
  unfold MemSys.merge
  rw [if_pos (by rw [h]; rfl)]

theorem MemSys.unpoison_reduce (ms : MemSys) (pa n : Nat) : (ms.unpoison pa n).reduce = ms.reduce := by
  unfold MemSys.unpoison
  split <;> rfl

theorem MemSys.catchUp_reduce (ms : MemSys) (pa n : Nat) : (ms.catchUp pa n).reduce = ms.reduce := by
  unfold MemSys.catchUp
  split <;> rfl

/-- With no line in reduce state, bytes written at the point of coherence are read back. -/
theorem MemSys.cread_cwrite_same {ms : MemSys} (pa : Nat) (bs : List Byte) (h : ms.ok) (hr : ms.reduce = []) :
    (ms.cwrite pa bs).cread pa bs.length = bs := by
  have h2 : (ms.merge pa bs.length).unpoison pa bs.length = ms.unpoison pa bs.length := by
    rw [MemSys.merge_none _ _ hr]
  have h3 : (ms.cwrite pa bs).reduce = [] := by
    simp only [MemSys.cwrite, h2, MemSys.catchUp_reduce, MemSys.unpoison_reduce, hr]
  simp only [MemSys.cread, MemSys.merge_none _ _ h3]
  simp only [MemSys.cwrite, h2]
  exact Memory.read_write_same _ _ (MemSys.ok_catchUp _ _ (MemSys.ok_unpoison _ _ h)).1

end Sys2Proof.Machine
end

