-- ==== Sys2Proof/Laws/Quiet.lean ====
section
/-! SUPPORT. Accesses to quiet device memory: nothing cached, combined, migrating, read ahead or uncorrectable, no
store delayed. A read gives
the bytes of memory and changes nothing; a write changes the bytes of memory and nothing else. -/

namespace Sys2Proof.Machine

/-- Nothing stands between an access and memory. -/
structure State.Quiet (s : State) : Prop where
  l1 : s.ms.l1 = []
  msc : s.ms.msc = []
  reduce : s.ms.reduce = []
  poison : s.ms.poison = []
  cache : s.lag.cache = false
  clean : s.lag.clean = false
  early : s.ms.early = []
  mig : ∀ r ∈ s.ms.mig.recs.toList, r.st = .free ∨ r.st = .done

/-- The part lies in device memory, through a leaf whose bits stand. -/
def State.Plain (s : State) (store : Bool) (p : Part) : Prop :=
  ∃ (pa : Nat) (l : Leaf), p.place = .device pa ∧ p.leaf = some l ∧ s.setAD l store = s

/-- A quiet state stays one when bytes of memory are written or a counter moves on. -/
theorem State.Quiet.of_eq {s t : State} (q : s.Quiet) (hl : t.lag = s.lag) (hm : t.ms = { s.ms with mem := t.ms.mem }) : t.Quiet := by
  obtain ⟨a, b, c, d, e, f, g, h⟩ := q
  constructor <;> first | (rw [hm]; assumption) | (rw [hl]; assumption)

/-- The bytes of a part in device memory. -/
def Part.bytes (m : Memory) (p : Part) : List Byte :=
  match p.place with
  | .device pa => Memory.read m pa p.n
  | _ => []

theorem MemSys.merge_quiet {ms : MemSys} (h : ms.reduce = []) (pa n : Nat) : ms.merge pa n = ms := by
  unfold MemSys.merge
  simp [h]

theorem MemSys.cread_quiet {ms : MemSys} (h : ms.reduce = []) (pa n : Nat) : ms.cread pa n = Memory.read ms.mem pa n := by
  unfold MemSys.cread
  rw [MemSys.merge_quiet h]

theorem MemSys.creadNat_quiet {ms : MemSys} (h : ms.reduce = []) (pa n : Nat) : ms.creadNat pa n = Memory.readNat ms.mem pa n := by
  unfold MemSys.creadNat Memory.readNat
  rw [MemSys.cread_quiet h]

theorem MemSys.catchUp_quiet {ms : MemSys} (h : ms.msc = []) (pa n : Nat) : ms.catchUp pa n = ms := by
  unfold MemSys.catchUp
  simp [h]

theorem MemSys.cwrite_quiet {ms : MemSys} (h : ms.reduce = []) (hp : ms.poison = []) (hm : ms.msc = []) (pa : Nat)
    (bs : List Byte) : ms.cwrite pa bs = { ms with mem := Memory.write ms.mem pa bs } := by
  unfold MemSys.cwrite MemSys.unpoison
  rw [MemSys.merge_quiet h]
  simp [hp, MemSys.catchUp_quiet hm]

theorem MemSys.kwrite_quiet {ms : MemSys} (h : ms.reduce = []) (hp : ms.poison = []) (hm : ms.msc = []) (pa : Nat)
    (bs : List Byte) : ms.kwrite pa bs = { ms with mem := Memory.write ms.mem pa bs } := by
  unfold MemSys.kwrite
  rw [if_pos (by rw [hm]; rfl)]
  exact MemSys.cwrite_quiet h hp hm pa bs

theorem MemSys.kread_quiet {ms : MemSys} (h : ms.reduce = []) (hm : ms.msc = []) (pa n : Nat) :
    ms.kread pa n = Memory.read ms.mem pa n := by
  unfold MemSys.kread
  rw [if_pos (by rw [hm]; rfl)]
  exact MemSys.cread_quiet h pa n

theorem MemSys.kreadNat_quiet {ms : MemSys} (h : ms.reduce = []) (hm : ms.msc = []) (pa n : Nat) :
    ms.kreadNat pa n = Memory.readNat ms.mem pa n := congrArg leNat (MemSys.kread_quiet h hm pa n)

theorem MemSys.dropEarly_quiet {ms : MemSys} (h : ms.early = []) (hart pa n : Nat) : ms.dropEarly hart pa n = ms := by
  unfold MemSys.dropEarly
  simp [h]

theorem MemSys.endEarly_quiet {ms : MemSys} (h : ms.early = []) (hart : Nat) : ms.endEarly hart = ms := by
  unfold MemSys.endEarly
  simp [h]

theorem MemSys.poisoned_quiet {ms : MemSys} (h : ms.poison = []) (pa n : Nat) : ms.poisoned pa n = false := by
  unfold MemSys.poisoned
  simp [h]

theorem MemSys.migIdle_quiet {ms : MemSys} (h : ∀ r ∈ ms.mig.recs.toList, r.st = .free ∨ r.st = .done) : ms.migIdle = true :=
  List.all_eq_true.mpr fun r hr => by rcases h r hr with h | h <;> simp [h]

theorem MemSys.touch_quiet {ms : MemSys} (h : ∀ r ∈ ms.mig.recs.toList, r.st = .free ∨ r.st = .done) (pa n : Nat) :
    ms.touch pa n = .ok ms := if_pos (MemSys.migIdle_quiet h)

theorem MemSys.touchPath_quiet {ms : MemSys} (h : ∀ r ∈ ms.mig.recs.toList, r.st = .free ∨ r.st = .done) (l : List Nat) :
    ms.touchPath l = .ok ms := by
  induction l with
  | nil => rfl
  | cons a r ih => simp only [MemSys.touchPath, MemSys.touch_quiet h, Acc.bind, ih]

theorem State.touchParts_quiet {s : State} (q : s.Quiet) {store : Bool} {ps : List Part} (h : ∀ p ∈ ps, s.Plain store p) :
    s.touchParts ps = .ok s := by
  induction ps with
  | nil => rfl
  | cons p r ih =>
    obtain ⟨pa, l, hp, hl, _⟩ := h p (by simp)
    have ht : s.touchPart p = .ok s := by
      unfold State.touchPart
      simp only [hp, hl, MemSys.touchPath_quiet q.mig, MemSys.touch_quiet q.mig, Acc.bind, Acc.map]
    unfold State.touchParts
    rw [ht]
    exact ih fun x hx => h x (by simp [hx])

theorem State.partsPoisoned_quiet {s : State} (q : s.Quiet) {store : Bool} {ps : List Part} (h : ∀ p ∈ ps, s.Plain store p) :
    s.partsPoisoned ps = false := by
  unfold State.partsPoisoned
  refine List.any_eq_false.mpr fun p hp => ?_
  obtain ⟨pa, _, hd, _⟩ := h p hp
  simp [hd, MemSys.poisoned_quiet q.poison]

theorem State.markParts_plain {s : State} {store : Bool} {ps : List Part} (h : ∀ p ∈ ps, s.Plain store p) : s.markParts store ps = s := by
  induction ps with
  | nil => rfl
  | cons p r ih =>
    obtain ⟨_, l, _, hl, hs⟩ := h p (by simp)
    unfold State.markParts
    simp only [hl, hs]
    exact ih fun x hx => h x (by simp [hx])

/-- A read of a core of quiet memory gives its bytes and changes nothing. -/
theorem State.readNear_quiet {s : State} (q : s.Quiet) (core pa n : Nat) (early : Bool) :
    s.readNear core pa n false early = (Memory.read s.ms.mem pa n, s) := by
  unfold State.readNear State.readNow
  simp [MemSys.merge_quiet q.reduce, MemSys.dropEarly_quiet q.early, MemSys.cread_quiet q.reduce, q.l1, q.early]

theorem State.readMsc_quiet {s : State} (q : s.Quiet) (core pa n : Nat) : s.readMsc core pa n = (Memory.read s.ms.mem pa n, s) := by
  unfold State.readMsc MemSys.l1FlushRaw
  simp [q.l1, MemSys.merge_quiet q.reduce, MemSys.kread_quiet q.reduce q.msc]

theorem State.readPart_quiet {s : State} (q : s.Quiet) {store : Bool} {p : Part} (h : s.Plain store p) (core : Nat) (plain : Bool) (va : Nat) :
    s.readPart core plain va p = .ok (p.bytes s.ms.mem, s) := by
  obtain ⟨pa, l, hp, _, _⟩ := h
  have hc : p.coherent = some pa := by simp only [Part.coherent, hp]
  unfold State.readPart Part.bytes
  simp only [hp, hc, q.clean, Bool.and_false, Bool.false_and, State.readNear_quiet q, State.readMsc_quiet q, ite_self]

theorem State.readParts_quiet {s : State} (q : s.Quiet) {store : Bool} {ps : List Part} (h : ∀ p ∈ ps, s.Plain store p) (core : Nat)
    (plain : Bool) (va : Nat) : s.readParts core plain va ps = .ok (ps.flatMap (Part.bytes s.ms.mem), s) := by
  induction ps with
  | nil => rfl
  | cons p r ih =>
    unfold State.readParts
    rw [State.readPart_quiet q (h p (by simp))]
    simp only [Acc.bind, ih fun x hx => h x (by simp [hx]), Acc.map, List.flatMap_cons]

/-- Reading device memory that is quiet gives its bytes and changes nothing. -/
theorem State.readAll_quiet {s : State} (q : s.Quiet) {ps : List Part} (h : ∀ p ∈ ps, s.Plain false p) (core : Nat) (plain : Bool) (va : Nat) :
    s.readAll core plain va ps = .ok (ps.flatMap (Part.bytes s.ms.mem), s) := by
  unfold State.readAll
  rw [State.touchParts_quiet q h]
  simp only [Acc.bind, State.partsPoisoned_quiet q h]
  rw [State.markParts_plain h]
  exact State.readParts_quiet q h core plain va

/-- A write of a near stream to quiet memory writes its bytes there. -/
theorem State.nearPut_quiet {s : State} (q : s.Quiet) (core pa : Nat) (p : Part) (bs : List Byte) :
    s.nearPut core pa p bs = { s with ms := { s.ms with mem := Memory.write s.ms.mem pa bs } } := by
  unfold State.nearPut State.putLower MemSys.l1FlushSpan
  simp [q.cache, q.l1, MemSys.dropEarly_quiet q.early, MemSys.cwrite_quiet q.reduce q.poison q.msc]

/-- Making a store ready changes nothing. -/
theorem State.prepareWrite_quiet {s : State} (q : s.Quiet) {ps : List Part} (h : ∀ p ∈ ps, s.Plain true p) : s.prepareWrite ps = .ok s := by
  unfold State.prepareWrite
  rw [State.touchParts_quiet q h]
  simp only [Acc.map, Acc.bind, State.markParts_plain h]

/-- The one part of a store to quiet memory writes its bytes. -/
theorem State.writePart_quiet {s : State} (q : s.Quiet) {p : Part} {pa : Nat} (hp : p.place = .device pa)
    (a : Agent) (src : Poster) (va : Nat) (bs : List Byte) :
    s.writePart a src va p bs = (none, { s with ms := { s.ms with mem := Memory.write s.ms.mem pa ((bs.drop p.off).take p.n) } }) := by
  have hc : p.coherent = some pa := by simp only [Part.coherent, hp]
  unfold State.writePart
  simp only [hc]
  rw [State.nearPut_quiet q]

/-! Spans of a key-value page. -/

/-- Quiet memory with the leaf's bits set in its entry. -/
structure State.PageQuiet (s : State) (l : Leaf) (c : Nat) : Prop where
  quiet : s.Quiet
  wf : Memory.wf s.ms.mem = true
  entry : Memory.readNat s.ms.mem l.pte 8 = c
  marked : c = c ||| 32 ∧ c = c ||| 96

theorem State.PageQuiet.setAD {s : State} {l : Leaf} {c : Nat} (k : s.PageQuiet l c) (b : Bool) : s.setAD l b = s := by
  unfold State.setAD
  simp only [MemSys.creadNat_quiet k.quiet.reduce, k.entry]
  exact if_pos (.inr (by cases b; exacts [k.marked.1, k.marked.2]))

/-- A read of the page gives a value and changes nothing. -/
theorem State.kvRead_quiet {s : State} {l : Leaf} {c pa : Nat} (k : s.PageQuiet l c) {p : Part} (hp : p.place = .device pa)
    (hl : p.leaf = some l) (st : Stream) (va off n : Nat) : ∃ v, s.kvRead st p va off n = .ok (v, s) := by
  have hq : ∀ x ∈ [p.slice off n], s.Plain false x := fun x hx => by
    rw [List.mem_singleton.mp hx]
    exact ⟨pa + off, l, by simp [Part.slice, hp, Place.shift], hl, k.setAD false⟩
  refine ⟨Memory.readNat s.ms.mem (pa + off) n, ?_⟩
  unfold State.kvRead
  simp only [State.touchParts_quiet k.quiet hq, Acc.bind, State.partsPoisoned_quiet k.quiet hq, State.markParts_plain hq]
  simp [Part.slice, hp, Place.shift, State.readMsc_quiet k.quiet, Memory.readNat]

/-- A write of the page writes its bytes and keeps the page as it was otherwise. -/
theorem State.kvWrite_quiet {s : State} {l : Leaf} {c pa : Nat} (k : s.PageQuiet l c) {p : Part} (hp : p.place = .device pa)
    (hl : p.leaf = some l) (_h0 : p.off = 0) (hd : l.pte + 8 ≤ pa) (st : Stream) (va off : Nat) (bs : List Byte) :
    ∃ t : State, s.kvWrite st p va off bs = .ok t ∧ t.PageQuiet l c := by
  refine ⟨{ s with ms := { s.ms with mem := Memory.write s.ms.mem (pa + off) bs } }, ?_, ?_⟩
  · have hq : ∀ x ∈ [p.slice off bs.length], s.Plain true x := fun x hx => by
      rw [List.mem_singleton.mp hx]
      exact ⟨pa + off, l, by simp [Part.slice, hp, Place.shift], hl, k.setAD true⟩
    unfold State.kvWrite
    simp only [State.prepareWrite_quiet k.quiet hq, Acc.map, Acc.bind]
    simp [Part.slice, hp, Place.shift, MemSys.kwrite_quiet k.quiet.reduce k.quiet.poison k.quiet.msc, k.quiet.l1]
  · refine ⟨k.quiet.of_eq rfl rfl, Memory.wf_write _ _ k.wf, ?_, k.marked⟩
    rw [← k.entry]
    unfold Memory.readNat
    show leNat (Memory.read (Memory.write s.ms.mem (pa + off) bs) l.pte 8) = _
    rw [Memory.read_write_apart _ _ _ _ k.wf (by omega)]

/-- A row is put. -/
theorem State.kvPutRow_quiet {s : State} {l : Leaf} {c pa : Nat} (k : s.PageQuiet l c) {p : Part} (hp : p.place = .device pa)
    (hl : p.leaf = some l) (h0 : p.off = 0) (hd : l.pte + 8 ≤ pa) (st : Stream) (page rps dfmt j s0 : Nat) (xs : List FVal) :
    ∃ t : State, s.kvPutRow st p page rps dfmt j s0 xs = .ok t := by
  unfold State.kvPutRow
  obtain ⟨v1, r1⟩ := State.kvRead_quiet k hp hl st page (kvTagOff (kvSlot rps j)) 2
  simp only [r1, Acc.bind]
  generalize e1 : (if (bits (kvNewTag v1 dfmt rps s0) 0 2 == 2) = true then kvRowMx xs (kvE rps)
    else kvRowE4m3 xs (bits (kvNewTag v1 dfmt rps s0) 8 8)) = cf
  obtain ⟨codes, fl⟩ := cf
  simp only []
  obtain ⟨s1, w1, k1⟩ := State.kvWrite_quiet k hp hl h0 hd st page (1024 * kvSlot rps j + kvRow rps j *
    (if (bits (kvNewTag v1 dfmt rps s0) 0 2 == 2) = true then 17 * kvE rps / 32 else kvE rps))
    (leBytes (if (bits (kvNewTag v1 dfmt rps s0) 0 2 == 2) = true then 17 * kvE rps / 32 else kvE rps) codes)
  simp only [w1]
  obtain ⟨s2, w2, k2⟩ : ∃ s2, (if (bits (kvNewTag v1 dfmt rps s0) 0 2 == 2) = true then
      s1.kvWrite st p page (1024 * kvSlot rps j + 544) (List.replicate 480 0) else Acc.ok s1) = .ok s2 ∧ s2.PageQuiet l c := by
    split
    · exact State.kvWrite_quiet k1 hp hl h0 hd st page _ _
    · exact ⟨s1, rfl, k1⟩
  simp only [w2]
  obtain ⟨s3, w3, k3⟩ := State.kvWrite_quiet k2 hp hl h0 hd st page (kvTagOff (kvSlot rps j)) (leBytes 2 (kvNewTag v1 dfmt rps s0))
  simp only [w3]
  obtain ⟨v4, r4⟩ := State.kvRead_quiet k3 hp hl st page (0x20 + j / 8) 1
  simp only [r4]
  obtain ⟨s5, w5, k5⟩ := State.kvWrite_quiet k3 hp hl h0 hd st page (0x20 + j / 8) (leBytes 1 (v4 ||| 2 ^ (j % 8)))
  simp only [w5]
  obtain ⟨v6, r6⟩ := State.kvRead_quiet k5 hp hl st page 0x10 4
  simp only [r6]
  obtain ⟨s7, w7, _⟩ := State.kvWrite_quiet k5 hp hl h0 hd st page 0x10 (leBytes 4 (max v6 (j + 1)))
  rw [w7]
  exact ⟨_, rfl⟩

/-- The header step. -/
theorem State.kvHeaderStep_quiet {s : State} {l : Leaf} {c pa : Nat} (k : s.PageQuiet l c) {p : Part} (hp : p.place = .device pa)
    (hl : p.leaf = some l) (h0 : p.off = 0) (hd : l.pte + 8 ≤ pa) (st : Stream) (page h : Nat) (hv : kvState h ≠ 3) :
    ∃ t : State, s.kvHeaderStep st p page h = .ok t ∧ t.PageQuiet l c := by
  unfold State.kvHeaderStep
  have k0 : (s.readTick).2.PageQuiet l c := ⟨k.quiet.of_eq rfl rfl, k.wf, k.entry, k.marked⟩
  obtain ⟨s1, w1, k1⟩ := State.kvWrite_quiet k0 hp hl h0 hd st page 0 (leBytes 4 (putBits (bits h 0 32) 12 3 1))
  obtain ⟨s2, w2, k2⟩ := State.kvWrite_quiet k1 hp hl h0 hd st page 8 (leBytes 8 (s.readTick).1.toNat)
  refine ⟨s2, ?_, k2⟩
  simp only [w1, Acc.bind, w2, Acc.map, hp, hv, if_false]

/-! What a fault leaves beside its report. -/

/-- With no record migrating, a fault fills no line. -/
theorem State.fillMet_idle {s : State} (h : s.ms.migIdle = true) (core ctx : Nat) (f : FaultInfo) : s.fillMet core ctx f = s :=
  if_pos (by rw [h]; rfl)

/-- A fault of no translated access leaves nothing. -/
theorem State.met_other {f : FaultInfo} (h : f.walked = false) (s : State) (m : Nat → Master) (core ctx : Nat) : s.met m core ctx f = s := by
  unfold State.met
  rw [h]
  rfl

theorem State.fillMet_hart (s : State) (core ctx : Nat) (f : FaultInfo) : (s.fillMet core ctx f).hart = s.hart := by
  unfold State.fillMet
  dsimp only
  repeat' split
  all_goals rfl

theorem State.fillMet_cmp (s : State) (core ctx : Nat) (f : FaultInfo) : (s.fillMet core ctx f).cmp = s.cmp := by
  unfold State.fillMet
  dsimp only
  repeat' split
  all_goals rfl

theorem State.countFailed_eq (s : State) (p : Option Nat) : ∃ l, s.countFailed p = { s with link := l } := by
  unfold State.countFailed
  split
  · exact ⟨_, rfl⟩
  · exact ⟨_, rfl⟩

/-- What has been answered changes the links alone. -/
theorem State.takeAnswer_eq (s : State) (core ctx : Nat) (f : FaultInfo) : ∃ l, s.takeAnswer core ctx f = { s with link := l } := by
  unfold State.takeAnswer
  repeat' split
  all_goals first | exact ⟨_, rfl⟩ | exact State.countFailed_eq _ _

/-- An alarm changes the management unit alone. -/
theorem State.alarmOf_eq (s : State) (m : Nat → Master) (core ctx : Nat) (f : FaultInfo) : ∃ g, s.alarmOf m core ctx f = { s with mgmt := g } := by
  unfold State.alarmOf
  repeat' split
  all_goals exact ⟨_, rfl⟩

/-- A fault leaves, beside its report, the lines it filled, the alarm's fields and the links: nothing else changes. -/
theorem State.met_eq (s : State) (m : Nat → Master) (core ctx : Nat) (f : FaultInfo) :
    ∃ g l, s.met m core ctx f = s ∨ s.met m core ctx f = { s.fillMet core ctx f with mgmt := g, link := l } := by
  obtain ⟨g, hg⟩ := State.alarmOf_eq (s.fillMet core ctx f) m core ctx f
  obtain ⟨l, hl⟩ := State.takeAnswer_eq ((s.fillMet core ctx f).alarmOf m core ctx f) core ctx f
  refine ⟨g, l, ?_⟩
  unfold State.met
  split
  · exact .inr (by rw [hl, hg])
  · exact .inl rfl

theorem State.met_hart (s : State) (m : Nat → Master) (core ctx : Nat) (f : FaultInfo) : (s.met m core ctx f).hart = s.hart := by
  obtain ⟨g, l, h | h⟩ := State.met_eq s m core ctx f <;> rw [h]
  exact State.fillMet_hart s core ctx f

theorem State.met_cmp (s : State) (m : Nat → Master) (core ctx : Nat) (f : FaultInfo) : (s.met m core ctx f).cmp = s.cmp := by
  obtain ⟨g, l, h | h⟩ := State.met_eq s m core ctx f <;> rw [h]
  exact State.fillMet_cmp s core ctx f

theorem State.met_ms {s : State} (q : s.ms.migIdle = true) (m : Nat → Master) (core ctx : Nat) (f : FaultInfo) : (s.met m core ctx f).ms = s.ms := by
  obtain ⟨g, l, h | h⟩ := State.met_eq s m core ctx f <;> rw [h]
  rw [State.fillMet_idle q]

end Sys2Proof.Machine
end

