-- ==== Sys2Proof/Laws/State.lean ====
section
/-! SUPPORT. What an update of the state, of a hart or of its vector registers leaves as it was, one lemma per field. -/

namespace Sys2Proof.Machine

/-- A fold of steps that leave a part of the state leaves it. -/
theorem foldl_same {α β : Type} (get : State → β) (f : State → α → State) (h : ∀ s a, get (f s a) = get s) (l : List α)
    (s : State) : get (l.foldl f s) = get s := by
  induction l generalizing s with
  | nil => rfl
  | cons a r ih => exact (ih _).trans (h s a)

@[simp] theorem State.setQueue_hart (s : State) (q : Nat) (w : WorkQueue) : (s.setQueue q w).hart = s.hart := rfl
@[simp] theorem State.setQueue_harts (s : State) (q : Nat) (w : WorkQueue) : (s.setQueue q w).harts = s.harts := rfl
@[simp] theorem State.setQueue_ms (s : State) (q : Nat) (w : WorkQueue) : (s.setQueue q w).ms = s.ms := rfl
@[simp] theorem State.setQueue_far (s : State) (q : Nat) (w : WorkQueue) : (s.setQueue q w).far = s.far := rfl
@[simp] theorem State.setQueue_mgmt (s : State) (q : Nat) (w : WorkQueue) : (s.setQueue q w).mgmt = s.mgmt := rfl
@[simp] theorem State.setQueue_plat (s : State) (q : Nat) (w : WorkQueue) : (s.setQueue q w).plat = s.plat := rfl
@[simp] theorem State.setQueue_link (s : State) (q : Nat) (w : WorkQueue) : (s.setQueue q w).link = s.link := rfl
@[simp] theorem State.setQueue_agenda (s : State) (q : Nat) (w : WorkQueue) : (s.setQueue q w).agenda = s.agenda := rfl
@[simp] theorem State.setQueue_lag (s : State) (q : Nat) (w : WorkQueue) : (s.setQueue q w).lag = s.lag := rfl
@[simp] theorem State.setQueue_free (s : State) (q : Nat) (w : WorkQueue) : (s.setQueue q w).free = s.free := rfl

@[simp] theorem State.setRing_hart (s : State) (r : Nat) (w : Ring) : (s.setRing r w).hart = s.hart := rfl
@[simp] theorem State.setRing_harts (s : State) (r : Nat) (w : Ring) : (s.setRing r w).harts = s.harts := rfl
@[simp] theorem State.setRing_ms (s : State) (r : Nat) (w : Ring) : (s.setRing r w).ms = s.ms := rfl
@[simp] theorem State.setRing_far (s : State) (r : Nat) (w : Ring) : (s.setRing r w).far = s.far := rfl
@[simp] theorem State.setRing_mgmt (s : State) (r : Nat) (w : Ring) : (s.setRing r w).mgmt = s.mgmt := rfl
@[simp] theorem State.setRing_plat (s : State) (r : Nat) (w : Ring) : (s.setRing r w).plat = s.plat := rfl
@[simp] theorem State.setRing_link (s : State) (r : Nat) (w : Ring) : (s.setRing r w).link = s.link := rfl
@[simp] theorem State.setRing_agenda (s : State) (r : Nat) (w : Ring) : (s.setRing r w).agenda = s.agenda := rfl
@[simp] theorem State.setRing_lag (s : State) (r : Nat) (w : Ring) : (s.setRing r w).lag = s.lag := rfl
@[simp] theorem State.setRing_free (s : State) (r : Nat) (w : Ring) : (s.setRing r w).free = s.free := rfl

@[simp] theorem State.setCtx_hart (s : State) (c : Nat) (k : Context) : (s.setCtx c k).hart = s.hart := rfl
@[simp] theorem State.setCtx_harts (s : State) (c : Nat) (k : Context) : (s.setCtx c k).harts = s.harts := rfl
@[simp] theorem State.setCtx_ms (s : State) (c : Nat) (k : Context) : (s.setCtx c k).ms = s.ms := rfl
@[simp] theorem State.setCtx_far (s : State) (c : Nat) (k : Context) : (s.setCtx c k).far = s.far := rfl
@[simp] theorem State.setCtx_mgmt (s : State) (c : Nat) (k : Context) : (s.setCtx c k).mgmt = s.mgmt := rfl
@[simp] theorem State.setCtx_plat (s : State) (c : Nat) (k : Context) : (s.setCtx c k).plat = s.plat := rfl
@[simp] theorem State.setCtx_link (s : State) (c : Nat) (k : Context) : (s.setCtx c k).link = s.link := rfl
@[simp] theorem State.setCtx_agenda (s : State) (c : Nat) (k : Context) : (s.setCtx c k).agenda = s.agenda := rfl
@[simp] theorem State.setCtx_lag (s : State) (c : Nat) (k : Context) : (s.setCtx c k).lag = s.lag := rfl
@[simp] theorem State.setCtx_free (s : State) (c : Nat) (k : Context) : (s.setCtx c k).free = s.free := rfl

@[simp] theorem State.onGroup_hart (s : State) (g : Nat) (f : Group → Group) : (s.onGroup g f).hart = s.hart := rfl
@[simp] theorem State.onGroup_harts (s : State) (g : Nat) (f : Group → Group) : (s.onGroup g f).harts = s.harts := rfl
@[simp] theorem State.onGroup_ms (s : State) (g : Nat) (f : Group → Group) : (s.onGroup g f).ms = s.ms := rfl
@[simp] theorem State.onGroup_far (s : State) (g : Nat) (f : Group → Group) : (s.onGroup g f).far = s.far := rfl
@[simp] theorem State.onGroup_mgmt (s : State) (g : Nat) (f : Group → Group) : (s.onGroup g f).mgmt = s.mgmt := rfl
@[simp] theorem State.onGroup_plat (s : State) (g : Nat) (f : Group → Group) : (s.onGroup g f).plat = s.plat := rfl
@[simp] theorem State.onGroup_link (s : State) (g : Nat) (f : Group → Group) : (s.onGroup g f).link = s.link := rfl
@[simp] theorem State.onGroup_agenda (s : State) (g : Nat) (f : Group → Group) : (s.onGroup g f).agenda = s.agenda := rfl
@[simp] theorem State.onGroup_lag (s : State) (g : Nat) (f : Group → Group) : (s.onGroup g f).lag = s.lag := rfl
@[simp] theorem State.onGroup_free (s : State) (g : Nat) (f : Group → Group) : (s.onGroup g f).free = s.free := rfl

@[simp] theorem State.onKernel_hart (s : State) (k : Nat) (f : Kernel → Kernel) : (s.onKernel k f).hart = s.hart := rfl
@[simp] theorem State.onKernel_harts (s : State) (k : Nat) (f : Kernel → Kernel) : (s.onKernel k f).harts = s.harts := rfl
@[simp] theorem State.onKernel_ms (s : State) (k : Nat) (f : Kernel → Kernel) : (s.onKernel k f).ms = s.ms := rfl
@[simp] theorem State.onKernel_far (s : State) (k : Nat) (f : Kernel → Kernel) : (s.onKernel k f).far = s.far := rfl
@[simp] theorem State.onKernel_mgmt (s : State) (k : Nat) (f : Kernel → Kernel) : (s.onKernel k f).mgmt = s.mgmt := rfl
@[simp] theorem State.onKernel_plat (s : State) (k : Nat) (f : Kernel → Kernel) : (s.onKernel k f).plat = s.plat := rfl
@[simp] theorem State.onKernel_link (s : State) (k : Nat) (f : Kernel → Kernel) : (s.onKernel k f).link = s.link := rfl
@[simp] theorem State.onKernel_agenda (s : State) (k : Nat) (f : Kernel → Kernel) : (s.onKernel k f).agenda = s.agenda := rfl
@[simp] theorem State.onKernel_lag (s : State) (k : Nat) (f : Kernel → Kernel) : (s.onKernel k f).lag = s.lag := rfl
@[simp] theorem State.onKernel_free (s : State) (k : Nat) (f : Kernel → Kernel) : (s.onKernel k f).free = s.free := rfl

@[simp] theorem State.mapHarts_ms (s : State) (f : Hart → Hart) : (s.mapHarts f).ms = s.ms := rfl
@[simp] theorem State.mapHarts_far (s : State) (f : Hart → Hart) : (s.mapHarts f).far = s.far := rfl
@[simp] theorem State.mapHarts_cmp (s : State) (f : Hart → Hart) : (s.mapHarts f).cmp = s.cmp := rfl
@[simp] theorem State.mapHarts_mgmt (s : State) (f : Hart → Hart) : (s.mapHarts f).mgmt = s.mgmt := rfl
@[simp] theorem State.mapHarts_plat (s : State) (f : Hart → Hart) : (s.mapHarts f).plat = s.plat := rfl
@[simp] theorem State.mapHarts_link (s : State) (f : Hart → Hart) : (s.mapHarts f).link = s.link := rfl
@[simp] theorem State.mapHarts_agenda (s : State) (f : Hart → Hart) : (s.mapHarts f).agenda = s.agenda := rfl
@[simp] theorem State.mapHarts_lag (s : State) (f : Hart → Hart) : (s.mapHarts f).lag = s.lag := rfl
@[simp] theorem State.mapHarts_free (s : State) (f : Hart → Hart) : (s.mapHarts f).free = s.free := rfl

@[simp] theorem State.msix_hart (s : State) (v : Nat) : (s.msix v).hart = s.hart := by
  unfold State.msix; split <;> rfl
@[simp] theorem State.msix_harts (s : State) (v : Nat) : (s.msix v).harts = s.harts := by
  unfold State.msix; split <;> rfl
@[simp] theorem State.msix_ms (s : State) (v : Nat) : (s.msix v).ms = s.ms := by
  unfold State.msix; split <;> rfl
@[simp] theorem State.msix_far (s : State) (v : Nat) : (s.msix v).far = s.far := by
  unfold State.msix; split <;> rfl
@[simp] theorem State.msix_cmp (s : State) (v : Nat) : (s.msix v).cmp = s.cmp := by
  unfold State.msix; split <;> rfl
@[simp] theorem State.msix_mgmt (s : State) (v : Nat) : (s.msix v).mgmt = s.mgmt := by
  unfold State.msix; split <;> rfl
@[simp] theorem State.msix_plat (s : State) (v : Nat) : (s.msix v).plat = s.plat := by
  unfold State.msix; split <;> rfl
@[simp] theorem State.msix_agenda (s : State) (v : Nat) : (s.msix v).agenda = s.agenda := by
  unfold State.msix; split <;> rfl
@[simp] theorem State.msix_lag (s : State) (v : Nat) : (s.msix v).lag = s.lag := by
  unfold State.msix; split <;> rfl
@[simp] theorem State.msix_free (s : State) (v : Nat) : (s.msix v).free = s.free := by
  unfold State.msix; split <;> rfl

@[simp] theorem State.send_hart (s : State) (m : OutMsg) : (s.send m).hart = s.hart := rfl
@[simp] theorem State.send_harts (s : State) (m : OutMsg) : (s.send m).harts = s.harts := rfl
@[simp] theorem State.send_ms (s : State) (m : OutMsg) : (s.send m).ms = s.ms := rfl
@[simp] theorem State.send_far (s : State) (m : OutMsg) : (s.send m).far = s.far := rfl
@[simp] theorem State.send_cmp (s : State) (m : OutMsg) : (s.send m).cmp = s.cmp := rfl
@[simp] theorem State.send_mgmt (s : State) (m : OutMsg) : (s.send m).mgmt = s.mgmt := rfl
@[simp] theorem State.send_plat (s : State) (m : OutMsg) : (s.send m).plat = s.plat := rfl
@[simp] theorem State.send_agenda (s : State) (m : OutMsg) : (s.send m).agenda = s.agenda := rfl
@[simp] theorem State.send_lag (s : State) (m : OutMsg) : (s.send m).lag = s.lag := rfl
@[simp] theorem State.send_free (s : State) (m : OutMsg) : (s.send m).free = s.free := rfl

@[simp] theorem State.cwrite_hart (s : State) (pa : Nat) (bs : List Byte) : (s.cwrite pa bs).hart = s.hart := rfl
@[simp] theorem State.cwrite_harts (s : State) (pa : Nat) (bs : List Byte) : (s.cwrite pa bs).harts = s.harts := rfl
@[simp] theorem State.cwrite_far (s : State) (pa : Nat) (bs : List Byte) : (s.cwrite pa bs).far = s.far := rfl
@[simp] theorem State.cwrite_cmp (s : State) (pa : Nat) (bs : List Byte) : (s.cwrite pa bs).cmp = s.cmp := rfl
@[simp] theorem State.cwrite_mgmt (s : State) (pa : Nat) (bs : List Byte) : (s.cwrite pa bs).mgmt = s.mgmt := rfl
@[simp] theorem State.cwrite_plat (s : State) (pa : Nat) (bs : List Byte) : (s.cwrite pa bs).plat = s.plat := rfl
@[simp] theorem State.cwrite_link (s : State) (pa : Nat) (bs : List Byte) : (s.cwrite pa bs).link = s.link := rfl
@[simp] theorem State.cwrite_agenda (s : State) (pa : Nat) (bs : List Byte) : (s.cwrite pa bs).agenda = s.agenda := rfl
@[simp] theorem State.cwrite_lag (s : State) (pa : Nat) (bs : List Byte) : (s.cwrite pa bs).lag = s.lag := rfl
@[simp] theorem State.cwrite_free (s : State) (pa : Nat) (bs : List Byte) : (s.cwrite pa bs).free = s.free := rfl

@[simp] theorem State.useFree_hart (s : State) : s.useFree.2.hart = s.hart := rfl
@[simp] theorem State.useFree_harts (s : State) : s.useFree.2.harts = s.harts := rfl
@[simp] theorem State.useFree_ms (s : State) : s.useFree.2.ms = s.ms := rfl
@[simp] theorem State.useFree_far (s : State) : s.useFree.2.far = s.far := rfl
@[simp] theorem State.useFree_cmp (s : State) : s.useFree.2.cmp = s.cmp := rfl
@[simp] theorem State.useFree_mgmt (s : State) : s.useFree.2.mgmt = s.mgmt := rfl
@[simp] theorem State.useFree_plat (s : State) : s.useFree.2.plat = s.plat := rfl
@[simp] theorem State.useFree_link (s : State) : s.useFree.2.link = s.link := rfl
@[simp] theorem State.useFree_agenda (s : State) : s.useFree.2.agenda = s.agenda := rfl
@[simp] theorem State.useFree_lag (s : State) : s.useFree.2.lag = s.lag := rfl

@[simp] theorem State.readTick_hart (s : State) : s.readTick.2.hart = s.hart := rfl
@[simp] theorem State.readTick_harts (s : State) : s.readTick.2.harts = s.harts := rfl
@[simp] theorem State.readTick_ms (s : State) : s.readTick.2.ms = s.ms := rfl
@[simp] theorem State.readTick_far (s : State) : s.readTick.2.far = s.far := rfl
@[simp] theorem State.readTick_cmp (s : State) : s.readTick.2.cmp = s.cmp := rfl
@[simp] theorem State.readTick_mgmt (s : State) : s.readTick.2.mgmt = s.mgmt := rfl
@[simp] theorem State.readTick_link (s : State) : s.readTick.2.link = s.link := rfl
@[simp] theorem State.readTick_agenda (s : State) : s.readTick.2.agenda = s.agenda := rfl
@[simp] theorem State.readTick_lag (s : State) : s.readTick.2.lag = s.lag := rfl

@[simp] theorem State.stamp_hart (s : State) : s.stamp.2.hart = s.hart := rfl
@[simp] theorem State.stamp_harts (s : State) : s.stamp.2.harts = s.harts := rfl
@[simp] theorem State.stamp_ms (s : State) : s.stamp.2.ms = s.ms := rfl
@[simp] theorem State.stamp_far (s : State) : s.stamp.2.far = s.far := rfl
@[simp] theorem State.stamp_mgmt (s : State) : s.stamp.2.mgmt = s.mgmt := rfl
@[simp] theorem State.stamp_plat (s : State) : s.stamp.2.plat = s.plat := rfl
@[simp] theorem State.stamp_link (s : State) : s.stamp.2.link = s.link := rfl
@[simp] theorem State.stamp_agenda (s : State) : s.stamp.2.agenda = s.agenda := rfl
@[simp] theorem State.stamp_lag (s : State) : s.stamp.2.lag = s.lag := rfl
@[simp] theorem State.stamp_free (s : State) : s.stamp.2.free = s.free := rfl

@[simp] theorem State.dropTlb_hart (s : State) (c : Nat) : (s.dropTlb c).hart = s.hart := rfl
@[simp] theorem State.dropTlb_harts (s : State) (c : Nat) : (s.dropTlb c).harts = s.harts := rfl
@[simp] theorem State.dropTlb_far (s : State) (c : Nat) : (s.dropTlb c).far = s.far := rfl
@[simp] theorem State.dropTlb_cmp (s : State) (c : Nat) : (s.dropTlb c).cmp = s.cmp := rfl
@[simp] theorem State.dropTlb_mgmt (s : State) (c : Nat) : (s.dropTlb c).mgmt = s.mgmt := rfl
@[simp] theorem State.dropTlb_plat (s : State) (c : Nat) : (s.dropTlb c).plat = s.plat := rfl
@[simp] theorem State.dropTlb_link (s : State) (c : Nat) : (s.dropTlb c).link = s.link := rfl
@[simp] theorem State.dropTlb_agenda (s : State) (c : Nat) : (s.dropTlb c).agenda = s.agenda := rfl
@[simp] theorem State.dropTlb_lag (s : State) (c : Nat) : (s.dropTlb c).lag = s.lag := rfl
@[simp] theorem State.dropTlb_free (s : State) (c : Nat) : (s.dropTlb c).free = s.free := rfl

@[simp] theorem State.onMig_hart (s : State) (f : MigBlock → MigBlock) : (s.onMig f).hart = s.hart := rfl
@[simp] theorem State.onMig_harts (s : State) (f : MigBlock → MigBlock) : (s.onMig f).harts = s.harts := rfl
@[simp] theorem State.onMig_far (s : State) (f : MigBlock → MigBlock) : (s.onMig f).far = s.far := rfl
@[simp] theorem State.onMig_cmp (s : State) (f : MigBlock → MigBlock) : (s.onMig f).cmp = s.cmp := rfl
@[simp] theorem State.onMig_mgmt (s : State) (f : MigBlock → MigBlock) : (s.onMig f).mgmt = s.mgmt := rfl
@[simp] theorem State.onMig_plat (s : State) (f : MigBlock → MigBlock) : (s.onMig f).plat = s.plat := rfl
@[simp] theorem State.onMig_link (s : State) (f : MigBlock → MigBlock) : (s.onMig f).link = s.link := rfl
@[simp] theorem State.onMig_agenda (s : State) (f : MigBlock → MigBlock) : (s.onMig f).agenda = s.agenda := rfl
@[simp] theorem State.onMig_lag (s : State) (f : MigBlock → MigBlock) : (s.onMig f).lag = s.lag := rfl
@[simp] theorem State.onMig_free (s : State) (f : MigBlock → MigBlock) : (s.onMig f).free = s.free := rfl

@[simp] theorem State.onDie_hart (s : State) (t : Nat) (f : StackUnit → StackUnit) : (s.onDie t f).hart = s.hart := rfl
@[simp] theorem State.onDie_harts (s : State) (t : Nat) (f : StackUnit → StackUnit) : (s.onDie t f).harts = s.harts := rfl
@[simp] theorem State.onDie_ms (s : State) (t : Nat) (f : StackUnit → StackUnit) : (s.onDie t f).ms = s.ms := rfl
@[simp] theorem State.onDie_cmp (s : State) (t : Nat) (f : StackUnit → StackUnit) : (s.onDie t f).cmp = s.cmp := rfl
@[simp] theorem State.onDie_mgmt (s : State) (t : Nat) (f : StackUnit → StackUnit) : (s.onDie t f).mgmt = s.mgmt := rfl
@[simp] theorem State.onDie_plat (s : State) (t : Nat) (f : StackUnit → StackUnit) : (s.onDie t f).plat = s.plat := rfl
@[simp] theorem State.onDie_link (s : State) (t : Nat) (f : StackUnit → StackUnit) : (s.onDie t f).link = s.link := rfl
@[simp] theorem State.onDie_agenda (s : State) (t : Nat) (f : StackUnit → StackUnit) : (s.onDie t f).agenda = s.agenda := rfl
@[simp] theorem State.onDie_lag (s : State) (t : Nat) (f : StackUnit → StackUnit) : (s.onDie t f).lag = s.lag := rfl
@[simp] theorem State.onDie_free (s : State) (t : Nat) (f : StackUnit → StackUnit) : (s.onDie t f).free = s.free := rfl

@[simp] theorem State.setPort_hart (s : State) (p : Nat) (q : Port) : (s.setPort p q).hart = s.hart := rfl
@[simp] theorem State.setPort_harts (s : State) (p : Nat) (q : Port) : (s.setPort p q).harts = s.harts := rfl
@[simp] theorem State.setPort_ms (s : State) (p : Nat) (q : Port) : (s.setPort p q).ms = s.ms := rfl
@[simp] theorem State.setPort_far (s : State) (p : Nat) (q : Port) : (s.setPort p q).far = s.far := rfl
@[simp] theorem State.setPort_cmp (s : State) (p : Nat) (q : Port) : (s.setPort p q).cmp = s.cmp := rfl
@[simp] theorem State.setPort_mgmt (s : State) (p : Nat) (q : Port) : (s.setPort p q).mgmt = s.mgmt := rfl
@[simp] theorem State.setPort_plat (s : State) (p : Nat) (q : Port) : (s.setPort p q).plat = s.plat := rfl
@[simp] theorem State.setPort_agenda (s : State) (p : Nat) (q : Port) : (s.setPort p q).agenda = s.agenda := rfl
@[simp] theorem State.setPort_lag (s : State) (p : Nat) (q : Port) : (s.setPort p q).lag = s.lag := rfl
@[simp] theorem State.setPort_free (s : State) (p : Nat) (q : Port) : (s.setPort p q).free = s.free := rfl

@[simp] theorem State.alarm_hart (s : State) (e : AlarmEntry) : (s.alarm e).hart = s.hart := rfl
@[simp] theorem State.alarm_harts (s : State) (e : AlarmEntry) : (s.alarm e).harts = s.harts := rfl
@[simp] theorem State.alarm_ms (s : State) (e : AlarmEntry) : (s.alarm e).ms = s.ms := rfl
@[simp] theorem State.alarm_far (s : State) (e : AlarmEntry) : (s.alarm e).far = s.far := rfl
@[simp] theorem State.alarm_cmp (s : State) (e : AlarmEntry) : (s.alarm e).cmp = s.cmp := rfl
@[simp] theorem State.alarm_plat (s : State) (e : AlarmEntry) : (s.alarm e).plat = s.plat := rfl
@[simp] theorem State.alarm_link (s : State) (e : AlarmEntry) : (s.alarm e).link = s.link := rfl
@[simp] theorem State.alarm_agenda (s : State) (e : AlarmEntry) : (s.alarm e).agenda = s.agenda := rfl
@[simp] theorem State.alarm_lag (s : State) (e : AlarmEntry) : (s.alarm e).lag = s.lag := rfl
@[simp] theorem State.alarm_free (s : State) (e : AlarmEntry) : (s.alarm e).free = s.free := rfl

@[simp] theorem State.ras_hart (s : State) (e : RasEvent) : (s.ras e).hart = s.hart := rfl
@[simp] theorem State.ras_harts (s : State) (e : RasEvent) : (s.ras e).harts = s.harts := rfl
@[simp] theorem State.ras_ms (s : State) (e : RasEvent) : (s.ras e).ms = s.ms := rfl
@[simp] theorem State.ras_far (s : State) (e : RasEvent) : (s.ras e).far = s.far := rfl
@[simp] theorem State.ras_cmp (s : State) (e : RasEvent) : (s.ras e).cmp = s.cmp := rfl
@[simp] theorem State.ras_plat (s : State) (e : RasEvent) : (s.ras e).plat = s.plat := rfl
@[simp] theorem State.ras_link (s : State) (e : RasEvent) : (s.ras e).link = s.link := rfl
@[simp] theorem State.ras_agenda (s : State) (e : RasEvent) : (s.ras e).agenda = s.agenda := rfl
@[simp] theorem State.ras_lag (s : State) (e : RasEvent) : (s.ras e).lag = s.lag := rfl
@[simp] theorem State.ras_free (s : State) (e : RasEvent) : (s.ras e).free = s.free := rfl

@[simp] theorem State.fence_hart (s : State) (u : UnitId) : (s.fence u).hart = s.hart := rfl
@[simp] theorem State.fence_harts (s : State) (u : UnitId) : (s.fence u).harts = s.harts := rfl
@[simp] theorem State.fence_ms (s : State) (u : UnitId) : (s.fence u).ms = s.ms := rfl
@[simp] theorem State.fence_far (s : State) (u : UnitId) : (s.fence u).far = s.far := rfl
@[simp] theorem State.fence_cmp (s : State) (u : UnitId) : (s.fence u).cmp = s.cmp := rfl
@[simp] theorem State.fence_plat (s : State) (u : UnitId) : (s.fence u).plat = s.plat := rfl
@[simp] theorem State.fence_link (s : State) (u : UnitId) : (s.fence u).link = s.link := rfl
@[simp] theorem State.fence_agenda (s : State) (u : UnitId) : (s.fence u).agenda = s.agenda := rfl
@[simp] theorem State.fence_lag (s : State) (u : UnitId) : (s.fence u).lag = s.lag := rfl
@[simp] theorem State.fence_free (s : State) (u : UnitId) : (s.fence u).free = s.free := rfl

@[simp] theorem State.withTable_hart (s : State) (e : AccessEntry) : (s.withTable e).hart = s.hart := rfl
@[simp] theorem State.withTable_harts (s : State) (e : AccessEntry) : (s.withTable e).harts = s.harts := rfl
@[simp] theorem State.withTable_ms (s : State) (e : AccessEntry) : (s.withTable e).ms = s.ms := rfl
@[simp] theorem State.withTable_far (s : State) (e : AccessEntry) : (s.withTable e).far = s.far := rfl
@[simp] theorem State.withTable_cmp (s : State) (e : AccessEntry) : (s.withTable e).cmp = s.cmp := rfl
@[simp] theorem State.withTable_plat (s : State) (e : AccessEntry) : (s.withTable e).plat = s.plat := rfl
@[simp] theorem State.withTable_link (s : State) (e : AccessEntry) : (s.withTable e).link = s.link := rfl
@[simp] theorem State.withTable_agenda (s : State) (e : AccessEntry) : (s.withTable e).agenda = s.agenda := rfl
@[simp] theorem State.withTable_lag (s : State) (e : AccessEntry) : (s.withTable e).lag = s.lag := rfl
@[simp] theorem State.withTable_free (s : State) (e : AccessEntry) : (s.withTable e).free = s.free := rfl

@[simp] theorem State.withAlarm_hart (s : State) (a : BitVec 2) : (s.withAlarm a).hart = s.hart := rfl
@[simp] theorem State.withAlarm_harts (s : State) (a : BitVec 2) : (s.withAlarm a).harts = s.harts := rfl
@[simp] theorem State.withAlarm_ms (s : State) (a : BitVec 2) : (s.withAlarm a).ms = s.ms := rfl
@[simp] theorem State.withAlarm_far (s : State) (a : BitVec 2) : (s.withAlarm a).far = s.far := rfl
@[simp] theorem State.withAlarm_cmp (s : State) (a : BitVec 2) : (s.withAlarm a).cmp = s.cmp := rfl
@[simp] theorem State.withAlarm_plat (s : State) (a : BitVec 2) : (s.withAlarm a).plat = s.plat := rfl
@[simp] theorem State.withAlarm_link (s : State) (a : BitVec 2) : (s.withAlarm a).link = s.link := rfl
@[simp] theorem State.withAlarm_agenda (s : State) (a : BitVec 2) : (s.withAlarm a).agenda = s.agenda := rfl
@[simp] theorem State.withAlarm_lag (s : State) (a : BitVec 2) : (s.withAlarm a).lag = s.lag := rfl
@[simp] theorem State.withAlarm_free (s : State) (a : BitVec 2) : (s.withAlarm a).free = s.free := rfl

@[simp] theorem State.withBoot_hart (s : State) (c : BootConfig) : (s.withBoot c).hart = s.hart := rfl
@[simp] theorem State.withBoot_harts (s : State) (c : BootConfig) : (s.withBoot c).harts = s.harts := rfl
@[simp] theorem State.withBoot_ms (s : State) (c : BootConfig) : (s.withBoot c).ms = s.ms := rfl
@[simp] theorem State.withBoot_far (s : State) (c : BootConfig) : (s.withBoot c).far = s.far := rfl
@[simp] theorem State.withBoot_cmp (s : State) (c : BootConfig) : (s.withBoot c).cmp = s.cmp := rfl
@[simp] theorem State.withBoot_mgmt (s : State) (c : BootConfig) : (s.withBoot c).mgmt = s.mgmt := rfl
@[simp] theorem State.withBoot_link (s : State) (c : BootConfig) : (s.withBoot c).link = s.link := rfl
@[simp] theorem State.withBoot_agenda (s : State) (c : BootConfig) : (s.withBoot c).agenda = s.agenda := rfl
@[simp] theorem State.withBoot_lag (s : State) (c : BootConfig) : (s.withBoot c).lag = s.lag := rfl
@[simp] theorem State.withBoot_free (s : State) (c : BootConfig) : (s.withBoot c).free = s.free := rfl

@[simp] theorem State.keepAnswer_hart (s : State) (r : RemoteResult) : (s.keepAnswer r).hart = s.hart := rfl
@[simp] theorem State.keepAnswer_harts (s : State) (r : RemoteResult) : (s.keepAnswer r).harts = s.harts := rfl
@[simp] theorem State.keepAnswer_ms (s : State) (r : RemoteResult) : (s.keepAnswer r).ms = s.ms := rfl
@[simp] theorem State.keepAnswer_far (s : State) (r : RemoteResult) : (s.keepAnswer r).far = s.far := rfl
@[simp] theorem State.keepAnswer_cmp (s : State) (r : RemoteResult) : (s.keepAnswer r).cmp = s.cmp := rfl
@[simp] theorem State.keepAnswer_mgmt (s : State) (r : RemoteResult) : (s.keepAnswer r).mgmt = s.mgmt := rfl
@[simp] theorem State.keepAnswer_plat (s : State) (r : RemoteResult) : (s.keepAnswer r).plat = s.plat := rfl
@[simp] theorem State.keepAnswer_agenda (s : State) (r : RemoteResult) : (s.keepAnswer r).agenda = s.agenda := rfl
@[simp] theorem State.keepAnswer_lag (s : State) (r : RemoteResult) : (s.keepAnswer r).lag = s.lag := rfl
@[simp] theorem State.keepAnswer_free (s : State) (r : RemoteResult) : (s.keepAnswer r).free = s.free := rfl

@[simp] theorem State.enqueue_harts (s : State) (i : Instr) : (s.enqueue i).harts = s.harts := rfl
@[simp] theorem State.enqueue_ms (s : State) (i : Instr) : (s.enqueue i).ms = s.ms := rfl
@[simp] theorem State.enqueue_far (s : State) (i : Instr) : (s.enqueue i).far = s.far := rfl
@[simp] theorem State.enqueue_cmp (s : State) (i : Instr) : (s.enqueue i).cmp = s.cmp := rfl
@[simp] theorem State.enqueue_mgmt (s : State) (i : Instr) : (s.enqueue i).mgmt = s.mgmt := rfl
@[simp] theorem State.enqueue_plat (s : State) (i : Instr) : (s.enqueue i).plat = s.plat := rfl
@[simp] theorem State.enqueue_link (s : State) (i : Instr) : (s.enqueue i).link = s.link := rfl
@[simp] theorem State.enqueue_agenda (s : State) (i : Instr) : (s.enqueue i).agenda = s.agenda := rfl
@[simp] theorem State.enqueue_lag (s : State) (i : Instr) : (s.enqueue i).lag = s.lag := rfl
@[simp] theorem State.enqueue_free (s : State) (i : Instr) : (s.enqueue i).free = s.free := rfl

@[simp] theorem State.addFlags_harts (s : State) (f : Flags) : (s.addFlags f).harts = s.harts := rfl
@[simp] theorem State.addFlags_ms (s : State) (f : Flags) : (s.addFlags f).ms = s.ms := rfl
@[simp] theorem State.addFlags_far (s : State) (f : Flags) : (s.addFlags f).far = s.far := rfl
@[simp] theorem State.addFlags_cmp (s : State) (f : Flags) : (s.addFlags f).cmp = s.cmp := rfl
@[simp] theorem State.addFlags_mgmt (s : State) (f : Flags) : (s.addFlags f).mgmt = s.mgmt := rfl
@[simp] theorem State.addFlags_plat (s : State) (f : Flags) : (s.addFlags f).plat = s.plat := rfl
@[simp] theorem State.addFlags_link (s : State) (f : Flags) : (s.addFlags f).link = s.link := rfl
@[simp] theorem State.addFlags_agenda (s : State) (f : Flags) : (s.addFlags f).agenda = s.agenda := rfl
@[simp] theorem State.addFlags_lag (s : State) (f : Flags) : (s.addFlags f).lag = s.lag := rfl
@[simp] theorem State.addFlags_free (s : State) (f : Flags) : (s.addFlags f).free = s.free := rfl

@[simp] theorem State.putReg_harts (s : State) (f : RegRef) (pos w v : Nat) : (s.putReg f pos w v).harts = s.harts := rfl
@[simp] theorem State.putReg_ms (s : State) (f : RegRef) (pos w v : Nat) : (s.putReg f pos w v).ms = s.ms := rfl
@[simp] theorem State.putReg_far (s : State) (f : RegRef) (pos w v : Nat) : (s.putReg f pos w v).far = s.far := rfl
@[simp] theorem State.putReg_cmp (s : State) (f : RegRef) (pos w v : Nat) : (s.putReg f pos w v).cmp = s.cmp := rfl
@[simp] theorem State.putReg_mgmt (s : State) (f : RegRef) (pos w v : Nat) : (s.putReg f pos w v).mgmt = s.mgmt := rfl
@[simp] theorem State.putReg_plat (s : State) (f : RegRef) (pos w v : Nat) : (s.putReg f pos w v).plat = s.plat := rfl
@[simp] theorem State.putReg_link (s : State) (f : RegRef) (pos w v : Nat) : (s.putReg f pos w v).link = s.link := rfl
@[simp] theorem State.putReg_agenda (s : State) (f : RegRef) (pos w v : Nat) : (s.putReg f pos w v).agenda = s.agenda := rfl
@[simp] theorem State.putReg_lag (s : State) (f : RegRef) (pos w v : Nat) : (s.putReg f pos w v).lag = s.lag := rfl
@[simp] theorem State.putReg_free (s : State) (f : RegRef) (pos w v : Nat) : (s.putReg f pos w v).free = s.free := rfl

@[simp] theorem State.tagReg_harts (s : State) (f : RegRef) (t : RegTag) : (s.tagReg f t).harts = s.harts := rfl
@[simp] theorem State.tagReg_ms (s : State) (f : RegRef) (t : RegTag) : (s.tagReg f t).ms = s.ms := rfl
@[simp] theorem State.tagReg_far (s : State) (f : RegRef) (t : RegTag) : (s.tagReg f t).far = s.far := rfl
@[simp] theorem State.tagReg_cmp (s : State) (f : RegRef) (t : RegTag) : (s.tagReg f t).cmp = s.cmp := rfl
@[simp] theorem State.tagReg_mgmt (s : State) (f : RegRef) (t : RegTag) : (s.tagReg f t).mgmt = s.mgmt := rfl
@[simp] theorem State.tagReg_plat (s : State) (f : RegRef) (t : RegTag) : (s.tagReg f t).plat = s.plat := rfl
@[simp] theorem State.tagReg_link (s : State) (f : RegRef) (t : RegTag) : (s.tagReg f t).link = s.link := rfl
@[simp] theorem State.tagReg_agenda (s : State) (f : RegRef) (t : RegTag) : (s.tagReg f t).agenda = s.agenda := rfl
@[simp] theorem State.tagReg_lag (s : State) (f : RegRef) (t : RegTag) : (s.tagReg f t).lag = s.lag := rfl
@[simp] theorem State.tagReg_free (s : State) (f : RegRef) (t : RegTag) : (s.tagReg f t).free = s.free := rfl

@[simp] theorem State.takeFlagw_hart (s : State) (a : Nat) : (s.takeFlagw a).hart = s.hart := rfl
@[simp] theorem State.takeFlagw_harts (s : State) (a : Nat) : (s.takeFlagw a).harts = s.harts := rfl
@[simp] theorem State.takeFlagw_far (s : State) (a : Nat) : (s.takeFlagw a).far = s.far := rfl
@[simp] theorem State.takeFlagw_cmp (s : State) (a : Nat) : (s.takeFlagw a).cmp = s.cmp := rfl
@[simp] theorem State.takeFlagw_mgmt (s : State) (a : Nat) : (s.takeFlagw a).mgmt = s.mgmt := rfl
@[simp] theorem State.takeFlagw_plat (s : State) (a : Nat) : (s.takeFlagw a).plat = s.plat := rfl
@[simp] theorem State.takeFlagw_link (s : State) (a : Nat) : (s.takeFlagw a).link = s.link := rfl
@[simp] theorem State.takeFlagw_agenda (s : State) (a : Nat) : (s.takeFlagw a).agenda = s.agenda := rfl
@[simp] theorem State.takeFlagw_lag (s : State) (a : Nat) : (s.takeFlagw a).lag = s.lag := rfl
@[simp] theorem State.takeFlagw_free (s : State) (a : Nat) : (s.takeFlagw a).free = s.free := rfl

@[simp] theorem State.holdWrite_hart (s : State) (w : HeldWrite) : (s.holdWrite w).hart = s.hart := rfl
@[simp] theorem State.holdWrite_harts (s : State) (w : HeldWrite) : (s.holdWrite w).harts = s.harts := rfl
@[simp] theorem State.holdWrite_far (s : State) (w : HeldWrite) : (s.holdWrite w).far = s.far := rfl
@[simp] theorem State.holdWrite_cmp (s : State) (w : HeldWrite) : (s.holdWrite w).cmp = s.cmp := rfl
@[simp] theorem State.holdWrite_mgmt (s : State) (w : HeldWrite) : (s.holdWrite w).mgmt = s.mgmt := rfl
@[simp] theorem State.holdWrite_plat (s : State) (w : HeldWrite) : (s.holdWrite w).plat = s.plat := rfl
@[simp] theorem State.holdWrite_link (s : State) (w : HeldWrite) : (s.holdWrite w).link = s.link := rfl
@[simp] theorem State.holdWrite_agenda (s : State) (w : HeldWrite) : (s.holdWrite w).agenda = s.agenda := rfl
@[simp] theorem State.holdWrite_lag (s : State) (w : HeldWrite) : (s.holdWrite w).lag = s.lag := rfl
@[simp] theorem State.holdWrite_free (s : State) (w : HeldWrite) : (s.holdWrite w).free = s.free := rfl

@[simp] theorem State.setLag_hart (s : State) (l : Lag) : (s.setLag l).hart = s.hart := rfl
@[simp] theorem State.setLag_harts (s : State) (l : Lag) : (s.setLag l).harts = s.harts := rfl
@[simp] theorem State.setLag_far (s : State) (l : Lag) : (s.setLag l).far = s.far := rfl
@[simp] theorem State.setLag_cmp (s : State) (l : Lag) : (s.setLag l).cmp = s.cmp := rfl
@[simp] theorem State.setLag_mgmt (s : State) (l : Lag) : (s.setLag l).mgmt = s.mgmt := rfl
@[simp] theorem State.setLag_plat (s : State) (l : Lag) : (s.setLag l).plat = s.plat := rfl
@[simp] theorem State.setLag_link (s : State) (l : Lag) : (s.setLag l).link = s.link := rfl
@[simp] theorem State.setLag_agenda (s : State) (l : Lag) : (s.setLag l).agenda = s.agenda := rfl
@[simp] theorem State.setLag_free (s : State) (l : Lag) : (s.setLag l).free = s.free := rfl

@[simp] theorem State.answered_hart (s : State) (l : List Nat) : (s.answered l).hart = s.hart := rfl
@[simp] theorem State.answered_harts (s : State) (l : List Nat) : (s.answered l).harts = s.harts := rfl
@[simp] theorem State.answered_ms (s : State) (l : List Nat) : (s.answered l).ms = s.ms := rfl
@[simp] theorem State.answered_far (s : State) (l : List Nat) : (s.answered l).far = s.far := rfl
@[simp] theorem State.answered_cmp (s : State) (l : List Nat) : (s.answered l).cmp = s.cmp := rfl
@[simp] theorem State.answered_mgmt (s : State) (l : List Nat) : (s.answered l).mgmt = s.mgmt := rfl
@[simp] theorem State.answered_plat (s : State) (l : List Nat) : (s.answered l).plat = s.plat := rfl
@[simp] theorem State.answered_agenda (s : State) (l : List Nat) : (s.answered l).agenda = s.agenda := rfl
@[simp] theorem State.answered_lag (s : State) (l : List Nat) : (s.answered l).lag = s.lag := rfl
@[simp] theorem State.answered_free (s : State) (l : List Nat) : (s.answered l).free = s.free := rfl

@[simp] theorem State.rqePass_hart (s : State) (t f : Nat) : (s.rqePass t f).hart = s.hart := rfl
@[simp] theorem State.rqePass_harts (s : State) (t f : Nat) : (s.rqePass t f).harts = s.harts := rfl
@[simp] theorem State.rqePass_ms (s : State) (t f : Nat) : (s.rqePass t f).ms = s.ms := rfl
@[simp] theorem State.rqePass_cmp (s : State) (t f : Nat) : (s.rqePass t f).cmp = s.cmp := rfl
@[simp] theorem State.rqePass_mgmt (s : State) (t f : Nat) : (s.rqePass t f).mgmt = s.mgmt := rfl
@[simp] theorem State.rqePass_plat (s : State) (t f : Nat) : (s.rqePass t f).plat = s.plat := rfl
@[simp] theorem State.rqePass_link (s : State) (t f : Nat) : (s.rqePass t f).link = s.link := rfl
@[simp] theorem State.rqePass_agenda (s : State) (t f : Nat) : (s.rqePass t f).agenda = s.agenda := rfl
@[simp] theorem State.rqePass_lag (s : State) (t f : Nat) : (s.rqePass t f).lag = s.lag := rfl
@[simp] theorem State.rqePass_free (s : State) (t f : Nat) : (s.rqePass t f).free = s.free := rfl

@[simp] theorem State.flushCore_hart (s : State) (c : Nat) : (s.flushCore c).hart = s.hart := by
  unfold State.flushCore; split <;> rfl
@[simp] theorem State.flushCore_harts (s : State) (c : Nat) : (s.flushCore c).harts = s.harts := by
  unfold State.flushCore; split <;> rfl
@[simp] theorem State.flushCore_far (s : State) (c : Nat) : (s.flushCore c).far = s.far := by
  unfold State.flushCore; split <;> rfl
@[simp] theorem State.flushCore_cmp (s : State) (c : Nat) : (s.flushCore c).cmp = s.cmp := by
  unfold State.flushCore; split <;> rfl
@[simp] theorem State.flushCore_mgmt (s : State) (c : Nat) : (s.flushCore c).mgmt = s.mgmt := by
  unfold State.flushCore; split <;> rfl
@[simp] theorem State.flushCore_plat (s : State) (c : Nat) : (s.flushCore c).plat = s.plat := by
  unfold State.flushCore; split <;> rfl
@[simp] theorem State.flushCore_link (s : State) (c : Nat) : (s.flushCore c).link = s.link := by
  unfold State.flushCore; split <;> rfl
@[simp] theorem State.flushCore_agenda (s : State) (c : Nat) : (s.flushCore c).agenda = s.agenda := by
  unfold State.flushCore; split <;> rfl
@[simp] theorem State.flushCore_lag (s : State) (c : Nat) : (s.flushCore c).lag = s.lag := by
  unfold State.flushCore; split <;> rfl
@[simp] theorem State.flushCore_free (s : State) (c : Nat) : (s.flushCore c).free = s.free := by
  unfold State.flushCore; split <;> rfl

@[simp] theorem State.completeReleases_hart (s : State) (f : OpenRelease → Bool) : (s.completeReleases f).hart = s.hart := foldl_same (fun s => s.hart) _ (fun s c => State.flushCore_hart s c) _ s
@[simp] theorem State.completeReleases_harts (s : State) (f : OpenRelease → Bool) : (s.completeReleases f).harts = s.harts := foldl_same (fun s => s.harts) _ (fun s c => State.flushCore_harts s c) _ s
@[simp] theorem State.completeReleases_far (s : State) (f : OpenRelease → Bool) : (s.completeReleases f).far = s.far := foldl_same (fun s => s.far) _ (fun s c => State.flushCore_far s c) _ s
@[simp] theorem State.completeReleases_cmp (s : State) (f : OpenRelease → Bool) : (s.completeReleases f).cmp = s.cmp := foldl_same (fun s => s.cmp) _ (fun s c => State.flushCore_cmp s c) _ s
@[simp] theorem State.completeReleases_mgmt (s : State) (f : OpenRelease → Bool) : (s.completeReleases f).mgmt = s.mgmt := foldl_same (fun s => s.mgmt) _ (fun s c => State.flushCore_mgmt s c) _ s
@[simp] theorem State.completeReleases_plat (s : State) (f : OpenRelease → Bool) : (s.completeReleases f).plat = s.plat := foldl_same (fun s => s.plat) _ (fun s c => State.flushCore_plat s c) _ s
@[simp] theorem State.completeReleases_link (s : State) (f : OpenRelease → Bool) : (s.completeReleases f).link = s.link := foldl_same (fun s => s.link) _ (fun s c => State.flushCore_link s c) _ s
@[simp] theorem State.completeReleases_agenda (s : State) (f : OpenRelease → Bool) : (s.completeReleases f).agenda = s.agenda := foldl_same (fun s => s.agenda) _ (fun s c => State.flushCore_agenda s c) _ s
@[simp] theorem State.completeReleases_lag (s : State) (f : OpenRelease → Bool) : (s.completeReleases f).lag = s.lag := foldl_same (fun s => s.lag) _ (fun s c => State.flushCore_lag s c) _ s
@[simp] theorem State.completeReleases_free (s : State) (f : OpenRelease → Bool) : (s.completeReleases f).free = s.free := foldl_same (fun s => s.free) _ (fun s c => State.flushCore_free s c) _ s

@[simp] theorem State.dropClean_hart (s : State) : s.dropClean.hart = s.hart := rfl
@[simp] theorem State.dropClean_harts (s : State) : s.dropClean.harts = s.harts := rfl
@[simp] theorem State.dropClean_far (s : State) : s.dropClean.far = s.far := rfl
@[simp] theorem State.dropClean_cmp (s : State) : s.dropClean.cmp = s.cmp := rfl
@[simp] theorem State.dropClean_mgmt (s : State) : s.dropClean.mgmt = s.mgmt := rfl
@[simp] theorem State.dropClean_plat (s : State) : s.dropClean.plat = s.plat := rfl
@[simp] theorem State.dropClean_link (s : State) : s.dropClean.link = s.link := rfl
@[simp] theorem State.dropClean_agenda (s : State) : s.dropClean.agenda = s.agenda := rfl
@[simp] theorem State.dropClean_lag (s : State) : s.dropClean.lag = s.lag := rfl
@[simp] theorem State.dropClean_free (s : State) : s.dropClean.free = s.free := rfl

@[simp] theorem State.landOuter_hart (s : State) (n : Nat) : (s.landOuter n).hart = s.hart := by
  unfold State.landOuter
  exact foldl_same (fun s => s.hart) (fun s (w : OuterWrite) => { s with ms := s.ms.putThrough w.pa w.bytes }) (fun _ _ => rfl) _ _
@[simp] theorem State.landOuter_harts (s : State) (n : Nat) : (s.landOuter n).harts = s.harts := by
  unfold State.landOuter
  exact foldl_same (fun s => s.harts) (fun s (w : OuterWrite) => { s with ms := s.ms.putThrough w.pa w.bytes }) (fun _ _ => rfl) _ _
@[simp] theorem State.landOuter_far (s : State) (n : Nat) : (s.landOuter n).far = s.far := by
  unfold State.landOuter
  exact foldl_same (fun s => s.far) (fun s (w : OuterWrite) => { s with ms := s.ms.putThrough w.pa w.bytes }) (fun _ _ => rfl) _ _
@[simp] theorem State.landOuter_cmp (s : State) (n : Nat) : (s.landOuter n).cmp = s.cmp := by
  unfold State.landOuter
  exact foldl_same (fun s => s.cmp) (fun s (w : OuterWrite) => { s with ms := s.ms.putThrough w.pa w.bytes }) (fun _ _ => rfl) _ _
@[simp] theorem State.landOuter_mgmt (s : State) (n : Nat) : (s.landOuter n).mgmt = s.mgmt := by
  unfold State.landOuter
  exact foldl_same (fun s => s.mgmt) (fun s (w : OuterWrite) => { s with ms := s.ms.putThrough w.pa w.bytes }) (fun _ _ => rfl) _ _
@[simp] theorem State.landOuter_plat (s : State) (n : Nat) : (s.landOuter n).plat = s.plat := by
  unfold State.landOuter
  exact foldl_same (fun s => s.plat) (fun s (w : OuterWrite) => { s with ms := s.ms.putThrough w.pa w.bytes }) (fun _ _ => rfl) _ _
@[simp] theorem State.landOuter_link (s : State) (n : Nat) : (s.landOuter n).link = s.link := by
  unfold State.landOuter
  exact foldl_same (fun s => s.link) (fun s (w : OuterWrite) => { s with ms := s.ms.putThrough w.pa w.bytes }) (fun _ _ => rfl) _ _
@[simp] theorem State.landOuter_agenda (s : State) (n : Nat) : (s.landOuter n).agenda = s.agenda := by
  unfold State.landOuter
  exact foldl_same (fun s => s.agenda) (fun s (w : OuterWrite) => { s with ms := s.ms.putThrough w.pa w.bytes }) (fun _ _ => rfl) _ _
@[simp] theorem State.landOuter_lag (s : State) (n : Nat) : (s.landOuter n).lag = s.lag := by
  unfold State.landOuter
  exact foldl_same (fun s => s.lag) (fun s (w : OuterWrite) => { s with ms := s.ms.putThrough w.pa w.bytes }) (fun _ _ => rfl) _ _
@[simp] theorem State.landOuter_free (s : State) (n : Nat) : (s.landOuter n).free = s.free := by
  unfold State.landOuter
  exact foldl_same (fun s => s.free) (fun s (w : OuterWrite) => { s with ms := s.ms.putThrough w.pa w.bytes }) (fun _ _ => rfl) _ _

@[simp] theorem State.landReleased_hart (s : State) : s.landReleased.hart = s.hart := State.landOuter_hart s _
@[simp] theorem State.landReleased_harts (s : State) : s.landReleased.harts = s.harts := State.landOuter_harts s _
@[simp] theorem State.landReleased_far (s : State) : s.landReleased.far = s.far := State.landOuter_far s _
@[simp] theorem State.landReleased_cmp (s : State) : s.landReleased.cmp = s.cmp := State.landOuter_cmp s _
@[simp] theorem State.landReleased_mgmt (s : State) : s.landReleased.mgmt = s.mgmt := State.landOuter_mgmt s _
@[simp] theorem State.landReleased_plat (s : State) : s.landReleased.plat = s.plat := State.landOuter_plat s _
@[simp] theorem State.landReleased_link (s : State) : s.landReleased.link = s.link := State.landOuter_link s _
@[simp] theorem State.landReleased_agenda (s : State) : s.landReleased.agenda = s.agenda := State.landOuter_agenda s _
@[simp] theorem State.landReleased_lag (s : State) : s.landReleased.lag = s.lag := State.landOuter_lag s _
@[simp] theorem State.landReleased_free (s : State) : s.landReleased.free = s.free := State.landOuter_free s _

@[simp] theorem State.fenceNear_hart (s : State) : s.fenceNear.hart = s.hart := State.flushCore_hart s _
@[simp] theorem State.fenceNear_harts (s : State) : s.fenceNear.harts = s.harts := State.flushCore_harts s _
@[simp] theorem State.fenceNear_far (s : State) : s.fenceNear.far = s.far := State.flushCore_far s _
@[simp] theorem State.fenceNear_cmp (s : State) : s.fenceNear.cmp = s.cmp := State.flushCore_cmp s _
@[simp] theorem State.fenceNear_mgmt (s : State) : s.fenceNear.mgmt = s.mgmt := State.flushCore_mgmt s _
@[simp] theorem State.fenceNear_plat (s : State) : s.fenceNear.plat = s.plat := State.flushCore_plat s _
@[simp] theorem State.fenceNear_link (s : State) : s.fenceNear.link = s.link := State.flushCore_link s _
@[simp] theorem State.fenceNear_agenda (s : State) : s.fenceNear.agenda = s.agenda := State.flushCore_agenda s _
@[simp] theorem State.fenceNear_lag (s : State) : s.fenceNear.lag = s.lag := State.flushCore_lag s _
@[simp] theorem State.fenceNear_free (s : State) : s.fenceNear.free = s.free := State.flushCore_free s _

@[simp] theorem State.settleAll_hart (s : State) : s.settleAll.hart = s.hart := by
  simp only [State.settleAll]; split <;> split <;> simp
@[simp] theorem State.settleAll_harts (s : State) : s.settleAll.harts = s.harts := by
  simp only [State.settleAll]; split <;> split <;> simp
@[simp] theorem State.settleAll_far (s : State) : s.settleAll.far = s.far := by
  simp only [State.settleAll]; split <;> split <;> simp
@[simp] theorem State.settleAll_cmp (s : State) : s.settleAll.cmp = s.cmp := by
  simp only [State.settleAll]; split <;> split <;> simp
@[simp] theorem State.settleAll_mgmt (s : State) : s.settleAll.mgmt = s.mgmt := by
  simp only [State.settleAll]; split <;> split <;> simp
@[simp] theorem State.settleAll_plat (s : State) : s.settleAll.plat = s.plat := by
  simp only [State.settleAll]; split <;> split <;> simp
@[simp] theorem State.settleAll_link (s : State) : s.settleAll.link = s.link := by
  simp only [State.settleAll]; split <;> split <;> simp
@[simp] theorem State.settleAll_agenda (s : State) : s.settleAll.agenda = s.agenda := by
  simp only [State.settleAll]; split <;> split <;> simp
@[simp] theorem State.settleAll_lag (s : State) : s.settleAll.lag = s.lag := by
  simp only [State.settleAll]; split <;> split <;> simp
@[simp] theorem State.settleAll_free (s : State) : s.settleAll.free = s.free := by
  simp only [State.settleAll]; split <;> split <;> simp

@[simp] theorem State.acquireAt_hart (s : State) (sc : Scope) : (s.acquireAt sc).hart = s.hart := by
  simp only [State.acquireAt]; split <;> split <;> simp
@[simp] theorem State.acquireAt_harts (s : State) (sc : Scope) : (s.acquireAt sc).harts = s.harts := by
  simp only [State.acquireAt]; split <;> split <;> simp
@[simp] theorem State.acquireAt_far (s : State) (sc : Scope) : (s.acquireAt sc).far = s.far := by
  simp only [State.acquireAt]; split <;> split <;> simp
@[simp] theorem State.acquireAt_cmp (s : State) (sc : Scope) : (s.acquireAt sc).cmp = s.cmp := by
  simp only [State.acquireAt]; split <;> split <;> simp
@[simp] theorem State.acquireAt_mgmt (s : State) (sc : Scope) : (s.acquireAt sc).mgmt = s.mgmt := by
  simp only [State.acquireAt]; split <;> split <;> simp
@[simp] theorem State.acquireAt_plat (s : State) (sc : Scope) : (s.acquireAt sc).plat = s.plat := by
  simp only [State.acquireAt]; split <;> split <;> simp
@[simp] theorem State.acquireAt_link (s : State) (sc : Scope) : (s.acquireAt sc).link = s.link := by
  simp only [State.acquireAt]; split <;> split <;> simp
@[simp] theorem State.acquireAt_agenda (s : State) (sc : Scope) : (s.acquireAt sc).agenda = s.agenda := by
  simp only [State.acquireAt]; split <;> split <;> simp
@[simp] theorem State.acquireAt_lag (s : State) (sc : Scope) : (s.acquireAt sc).lag = s.lag := by
  simp only [State.acquireAt]; split <;> split <;> simp
@[simp] theorem State.acquireAt_free (s : State) (sc : Scope) : (s.acquireAt sc).free = s.free := by
  simp only [State.acquireAt]; split <;> split <;> simp

@[simp] theorem State.endFenceVv_harts (s : State) : s.endFenceVv.harts = s.harts := rfl
@[simp] theorem State.endFenceVv_ms (s : State) : s.endFenceVv.ms = s.ms := rfl
@[simp] theorem State.endFenceVv_far (s : State) : s.endFenceVv.far = s.far := rfl
@[simp] theorem State.endFenceVv_cmp (s : State) : s.endFenceVv.cmp = s.cmp := rfl
@[simp] theorem State.endFenceVv_mgmt (s : State) : s.endFenceVv.mgmt = s.mgmt := rfl
@[simp] theorem State.endFenceVv_plat (s : State) : s.endFenceVv.plat = s.plat := rfl
@[simp] theorem State.endFenceVv_link (s : State) : s.endFenceVv.link = s.link := rfl
@[simp] theorem State.endFenceVv_agenda (s : State) : s.endFenceVv.agenda = s.agenda := rfl
@[simp] theorem State.endFenceVv_lag (s : State) : s.endFenceVv.lag = s.lag := rfl
@[simp] theorem State.endFenceVv_free (s : State) : s.endFenceVv.free = s.free := rfl

@[simp] theorem Hart.issue_x (h : Hart) (p : Word) : (h.issue p).x = h.x := rfl
@[simp] theorem Hart.issue_xbad (h : Hart) (p : Word) : (h.issue p).xbad = h.xbad := rfl
@[simp] theorem Hart.issue_ctl (h : Hart) (p : Word) : (h.issue p).ctl = h.ctl := rfl
@[simp] theorem Hart.issue_trap (h : Hart) (p : Word) : (h.issue p).trap = h.trap := rfl
@[simp] theorem Hart.issue_vec (h : Hart) (p : Word) : (h.issue p).vec = h.vec := rfl
@[simp] theorem Hart.issue_vq (h : Hart) (p : Word) : (h.issue p).vq = h.vq := rfl
@[simp] theorem Hart.issue_trapImage (h : Hart) (p : Word) : (h.issue p).trapImage = h.trapImage := rfl
@[simp] theorem Hart.issue_tresume (h : Hart) (p : Word) : (h.issue p).tresume = h.tresume := rfl
@[simp] theorem Hart.issue_eng (h : Hart) (p : Word) : (h.issue p).eng = h.eng := rfl
@[simp] theorem Hart.issue_phase (h : Hart) (p : Word) : (h.issue p).phase = h.phase := rfl
@[simp] theorem Hart.issue_wait (h : Hart) (p : Word) : (h.issue p).wait = h.wait := rfl
@[simp] theorem Hart.issue_pend (h : Hart) (p : Word) : (h.issue p).pend = h.pend := rfl
@[simp] theorem Hart.issue_owes (h : Hart) (p : Word) : (h.issue p).owes = h.owes := rfl
@[simp] theorem Hart.issue_core (h : Hart) (p : Word) : (h.issue p).core = h.core := rfl
@[simp] theorem Hart.issue_slot (h : Hart) (p : Word) : (h.issue p).slot = h.slot := rfl
@[simp] theorem Hart.issue_ctx (h : Hart) (p : Word) : (h.issue p).ctx = h.ctx := rfl
@[simp] theorem Hart.issue_kern (h : Hart) (p : Word) : (h.issue p).kern = h.kern := rfl
@[simp] theorem Hart.issue_grp (h : Hart) (p : Word) : (h.issue p).grp = h.grp := rfl
@[simp] theorem Hart.issue_f0 (h : Hart) (p : Word) : (h.issue p).f0 = h.f0 := rfl

@[simp] theorem Hart.settle_x (h : Hart) : h.settle.x = h.x := rfl
@[simp] theorem Hart.settle_xbad (h : Hart) : h.settle.xbad = h.xbad := rfl
@[simp] theorem Hart.settle_pc (h : Hart) : h.settle.pc = h.pc := rfl
@[simp] theorem Hart.settle_ctl (h : Hart) : h.settle.ctl = h.ctl := rfl
@[simp] theorem Hart.settle_trap (h : Hart) : h.settle.trap = h.trap := rfl
@[simp] theorem Hart.settle_vec (h : Hart) : h.settle.vec = h.vec := rfl
@[simp] theorem Hart.settle_vq (h : Hart) : h.settle.vq = h.vq := rfl
@[simp] theorem Hart.settle_trapImage (h : Hart) : h.settle.trapImage = h.trapImage := rfl
@[simp] theorem Hart.settle_tresume (h : Hart) : h.settle.tresume = h.tresume := rfl
@[simp] theorem Hart.settle_eng (h : Hart) : h.settle.eng = h.eng := rfl
@[simp] theorem Hart.settle_counts (h : Hart) : h.settle.counts = h.counts := rfl
@[simp] theorem Hart.settle_phase (h : Hart) : h.settle.phase = h.phase := rfl
@[simp] theorem Hart.settle_owes (h : Hart) : h.settle.owes = h.owes := rfl
@[simp] theorem Hart.settle_core (h : Hart) : h.settle.core = h.core := rfl
@[simp] theorem Hart.settle_slot (h : Hart) : h.settle.slot = h.slot := rfl
@[simp] theorem Hart.settle_ctx (h : Hart) : h.settle.ctx = h.ctx := rfl
@[simp] theorem Hart.settle_kern (h : Hart) : h.settle.kern = h.kern := rfl
@[simp] theorem Hart.settle_grp (h : Hart) : h.settle.grp = h.grp := rfl
@[simp] theorem Hart.settle_f0 (h : Hart) : h.settle.f0 = h.f0 := rfl

@[simp] theorem Hart.stopAt_x (h : Hart) (f : FaultInfo) (epc resume : Word) : (h.stopAt f epc resume).x = h.x := rfl
@[simp] theorem Hart.stopAt_xbad (h : Hart) (f : FaultInfo) (epc resume : Word) : (h.stopAt f epc resume).xbad = h.xbad := rfl
@[simp] theorem Hart.stopAt_ctl (h : Hart) (f : FaultInfo) (epc resume : Word) : (h.stopAt f epc resume).ctl = h.ctl := rfl
@[simp] theorem Hart.stopAt_vec (h : Hart) (f : FaultInfo) (epc resume : Word) : (h.stopAt f epc resume).vec = h.vec := rfl
@[simp] theorem Hart.stopAt_vq (h : Hart) (f : FaultInfo) (epc resume : Word) : (h.stopAt f epc resume).vq = h.vq := rfl
@[simp] theorem Hart.stopAt_trapImage (h : Hart) (f : FaultInfo) (epc resume : Word) : (h.stopAt f epc resume).trapImage = h.trapImage := rfl
@[simp] theorem Hart.stopAt_tresume (h : Hart) (f : FaultInfo) (epc resume : Word) : (h.stopAt f epc resume).tresume = h.tresume := rfl
@[simp] theorem Hart.stopAt_eng (h : Hart) (f : FaultInfo) (epc resume : Word) : (h.stopAt f epc resume).eng = h.eng := rfl
@[simp] theorem Hart.stopAt_counts (h : Hart) (f : FaultInfo) (epc resume : Word) : (h.stopAt f epc resume).counts = h.counts := rfl
@[simp] theorem Hart.stopAt_phase (h : Hart) (f : FaultInfo) (epc resume : Word) : (h.stopAt f epc resume).phase = h.phase := rfl
@[simp] theorem Hart.stopAt_core (h : Hart) (f : FaultInfo) (epc resume : Word) : (h.stopAt f epc resume).core = h.core := rfl
@[simp] theorem Hart.stopAt_slot (h : Hart) (f : FaultInfo) (epc resume : Word) : (h.stopAt f epc resume).slot = h.slot := rfl
@[simp] theorem Hart.stopAt_ctx (h : Hart) (f : FaultInfo) (epc resume : Word) : (h.stopAt f epc resume).ctx = h.ctx := rfl
@[simp] theorem Hart.stopAt_kern (h : Hart) (f : FaultInfo) (epc resume : Word) : (h.stopAt f epc resume).kern = h.kern := rfl
@[simp] theorem Hart.stopAt_grp (h : Hart) (f : FaultInfo) (epc resume : Word) : (h.stopAt f epc resume).grp = h.grp := rfl
@[simp] theorem Hart.stopAt_f0 (h : Hart) (f : FaultInfo) (epc resume : Word) : (h.stopAt f epc resume).f0 = h.f0 := rfl

@[simp] theorem Hart.orFlags_x (h : Hart) (f : Flags) : (h.orFlags f).x = h.x := rfl
@[simp] theorem Hart.orFlags_xbad (h : Hart) (f : Flags) : (h.orFlags f).xbad = h.xbad := rfl
@[simp] theorem Hart.orFlags_pc (h : Hart) (f : Flags) : (h.orFlags f).pc = h.pc := rfl
@[simp] theorem Hart.orFlags_trap (h : Hart) (f : Flags) : (h.orFlags f).trap = h.trap := rfl
@[simp] theorem Hart.orFlags_vec (h : Hart) (f : Flags) : (h.orFlags f).vec = h.vec := rfl
@[simp] theorem Hart.orFlags_vq (h : Hart) (f : Flags) : (h.orFlags f).vq = h.vq := rfl
@[simp] theorem Hart.orFlags_trapImage (h : Hart) (f : Flags) : (h.orFlags f).trapImage = h.trapImage := rfl
@[simp] theorem Hart.orFlags_tresume (h : Hart) (f : Flags) : (h.orFlags f).tresume = h.tresume := rfl
@[simp] theorem Hart.orFlags_eng (h : Hart) (f : Flags) : (h.orFlags f).eng = h.eng := rfl
@[simp] theorem Hart.orFlags_counts (h : Hart) (f : Flags) : (h.orFlags f).counts = h.counts := rfl
@[simp] theorem Hart.orFlags_phase (h : Hart) (f : Flags) : (h.orFlags f).phase = h.phase := rfl
@[simp] theorem Hart.orFlags_wait (h : Hart) (f : Flags) : (h.orFlags f).wait = h.wait := rfl
@[simp] theorem Hart.orFlags_pend (h : Hart) (f : Flags) : (h.orFlags f).pend = h.pend := rfl
@[simp] theorem Hart.orFlags_owes (h : Hart) (f : Flags) : (h.orFlags f).owes = h.owes := rfl
@[simp] theorem Hart.orFlags_core (h : Hart) (f : Flags) : (h.orFlags f).core = h.core := rfl
@[simp] theorem Hart.orFlags_slot (h : Hart) (f : Flags) : (h.orFlags f).slot = h.slot := rfl
@[simp] theorem Hart.orFlags_ctx (h : Hart) (f : Flags) : (h.orFlags f).ctx = h.ctx := rfl
@[simp] theorem Hart.orFlags_kern (h : Hart) (f : Flags) : (h.orFlags f).kern = h.kern := rfl
@[simp] theorem Hart.orFlags_grp (h : Hart) (f : Flags) : (h.orFlags f).grp = h.grp := rfl
@[simp] theorem Hart.orFlags_f0 (h : Hart) (f : Flags) : (h.orFlags f).f0 = h.f0 := rfl

@[simp] theorem Hart.setX_pc (h : Hart) (r : XReg) (v : Word) : (h.setX r v).pc = h.pc := by
  unfold Hart.setX; split <;> rfl
@[simp] theorem Hart.setX_ctl (h : Hart) (r : XReg) (v : Word) : (h.setX r v).ctl = h.ctl := by
  unfold Hart.setX; split <;> rfl
@[simp] theorem Hart.setX_trap (h : Hart) (r : XReg) (v : Word) : (h.setX r v).trap = h.trap := by
  unfold Hart.setX; split <;> rfl
@[simp] theorem Hart.setX_vec (h : Hart) (r : XReg) (v : Word) : (h.setX r v).vec = h.vec := by
  unfold Hart.setX; split <;> rfl
@[simp] theorem Hart.setX_vq (h : Hart) (r : XReg) (v : Word) : (h.setX r v).vq = h.vq := by
  unfold Hart.setX; split <;> rfl
@[simp] theorem Hart.setX_trapImage (h : Hart) (r : XReg) (v : Word) : (h.setX r v).trapImage = h.trapImage := by
  unfold Hart.setX; split <;> rfl
@[simp] theorem Hart.setX_tresume (h : Hart) (r : XReg) (v : Word) : (h.setX r v).tresume = h.tresume := by
  unfold Hart.setX; split <;> rfl
@[simp] theorem Hart.setX_eng (h : Hart) (r : XReg) (v : Word) : (h.setX r v).eng = h.eng := by
  unfold Hart.setX; split <;> rfl
@[simp] theorem Hart.setX_counts (h : Hart) (r : XReg) (v : Word) : (h.setX r v).counts = h.counts := by
  unfold Hart.setX; split <;> rfl
@[simp] theorem Hart.setX_phase (h : Hart) (r : XReg) (v : Word) : (h.setX r v).phase = h.phase := by
  unfold Hart.setX; split <;> rfl
@[simp] theorem Hart.setX_wait (h : Hart) (r : XReg) (v : Word) : (h.setX r v).wait = h.wait := by
  unfold Hart.setX; split <;> rfl
@[simp] theorem Hart.setX_pend (h : Hart) (r : XReg) (v : Word) : (h.setX r v).pend = h.pend := by
  unfold Hart.setX; split <;> rfl
@[simp] theorem Hart.setX_owes (h : Hart) (r : XReg) (v : Word) : (h.setX r v).owes = h.owes := by
  unfold Hart.setX; split <;> rfl
@[simp] theorem Hart.setX_core (h : Hart) (r : XReg) (v : Word) : (h.setX r v).core = h.core := by
  unfold Hart.setX; split <;> rfl
@[simp] theorem Hart.setX_slot (h : Hart) (r : XReg) (v : Word) : (h.setX r v).slot = h.slot := by
  unfold Hart.setX; split <;> rfl
@[simp] theorem Hart.setX_ctx (h : Hart) (r : XReg) (v : Word) : (h.setX r v).ctx = h.ctx := by
  unfold Hart.setX; split <;> rfl
@[simp] theorem Hart.setX_kern (h : Hart) (r : XReg) (v : Word) : (h.setX r v).kern = h.kern := by
  unfold Hart.setX; split <;> rfl
@[simp] theorem Hart.setX_grp (h : Hart) (r : XReg) (v : Word) : (h.setX r v).grp = h.grp := by
  unfold Hart.setX; split <;> rfl
@[simp] theorem Hart.setX_f0 (h : Hart) (r : XReg) (v : Word) : (h.setX r v).f0 = h.f0 := by
  unfold Hart.setX; split <;> rfl

@[simp] theorem Hart.waitFor_x (h : Hart) (w : HartWait) : (h.waitFor w).x = h.x := by
  unfold Hart.waitFor; split <;> rfl
@[simp] theorem Hart.waitFor_xbad (h : Hart) (w : HartWait) : (h.waitFor w).xbad = h.xbad := by
  unfold Hart.waitFor; split <;> rfl
@[simp] theorem Hart.waitFor_pc (h : Hart) (w : HartWait) : (h.waitFor w).pc = h.pc := by
  unfold Hart.waitFor; split <;> rfl
@[simp] theorem Hart.waitFor_ctl (h : Hart) (w : HartWait) : (h.waitFor w).ctl = h.ctl := by
  unfold Hart.waitFor; split <;> rfl
@[simp] theorem Hart.waitFor_trap (h : Hart) (w : HartWait) : (h.waitFor w).trap = h.trap := by
  unfold Hart.waitFor; split <;> rfl
@[simp] theorem Hart.waitFor_vec (h : Hart) (w : HartWait) : (h.waitFor w).vec = h.vec := by
  unfold Hart.waitFor; split <;> rfl
@[simp] theorem Hart.waitFor_vq (h : Hart) (w : HartWait) : (h.waitFor w).vq = h.vq := by
  unfold Hart.waitFor; split <;> rfl
@[simp] theorem Hart.waitFor_trapImage (h : Hart) (w : HartWait) : (h.waitFor w).trapImage = h.trapImage := by
  unfold Hart.waitFor; split <;> rfl
@[simp] theorem Hart.waitFor_tresume (h : Hart) (w : HartWait) : (h.waitFor w).tresume = h.tresume := by
  unfold Hart.waitFor; split <;> rfl
@[simp] theorem Hart.waitFor_eng (h : Hart) (w : HartWait) : (h.waitFor w).eng = h.eng := by
  unfold Hart.waitFor; split <;> rfl
@[simp] theorem Hart.waitFor_phase (h : Hart) (w : HartWait) : (h.waitFor w).phase = h.phase := by
  unfold Hart.waitFor; split <;> rfl
@[simp] theorem Hart.waitFor_pend (h : Hart) (w : HartWait) : (h.waitFor w).pend = h.pend := by
  unfold Hart.waitFor; split <;> rfl
@[simp] theorem Hart.waitFor_owes (h : Hart) (w : HartWait) : (h.waitFor w).owes = h.owes := by
  unfold Hart.waitFor; split <;> rfl
@[simp] theorem Hart.waitFor_core (h : Hart) (w : HartWait) : (h.waitFor w).core = h.core := by
  unfold Hart.waitFor; split <;> rfl
@[simp] theorem Hart.waitFor_slot (h : Hart) (w : HartWait) : (h.waitFor w).slot = h.slot := by
  unfold Hart.waitFor; split <;> rfl
@[simp] theorem Hart.waitFor_ctx (h : Hart) (w : HartWait) : (h.waitFor w).ctx = h.ctx := by
  unfold Hart.waitFor; split <;> rfl
@[simp] theorem Hart.waitFor_kern (h : Hart) (w : HartWait) : (h.waitFor w).kern = h.kern := by
  unfold Hart.waitFor; split <;> rfl
@[simp] theorem Hart.waitFor_grp (h : Hart) (w : HartWait) : (h.waitFor w).grp = h.grp := by
  unfold Hart.waitFor; split <;> rfl
@[simp] theorem Hart.waitFor_f0 (h : Hart) (w : HartWait) : (h.waitFor w).f0 = h.f0 := by
  unfold Hart.waitFor; split <;> rfl

@[simp] theorem Hart.enterHandler_x (h : Hart) (f : FaultInfo) (epc resume : Word) (start : Nat) : (h.enterHandler f epc resume start).x = h.x := rfl
@[simp] theorem Hart.enterHandler_xbad (h : Hart) (f : FaultInfo) (epc resume : Word) (start : Nat) : (h.enterHandler f epc resume start).xbad = h.xbad := rfl
@[simp] theorem Hart.enterHandler_vec (h : Hart) (f : FaultInfo) (epc resume : Word) (start : Nat) : (h.enterHandler f epc resume start).vec = h.vec := rfl
@[simp] theorem Hart.enterHandler_counts (h : Hart) (f : FaultInfo) (epc resume : Word) (start : Nat) : (h.enterHandler f epc resume start).counts = h.counts := rfl
@[simp] theorem Hart.enterHandler_core (h : Hart) (f : FaultInfo) (epc resume : Word) (start : Nat) : (h.enterHandler f epc resume start).core = h.core := rfl
@[simp] theorem Hart.enterHandler_slot (h : Hart) (f : FaultInfo) (epc resume : Word) (start : Nat) : (h.enterHandler f epc resume start).slot = h.slot := rfl
@[simp] theorem Hart.enterHandler_ctx (h : Hart) (f : FaultInfo) (epc resume : Word) (start : Nat) : (h.enterHandler f epc resume start).ctx = h.ctx := rfl
@[simp] theorem Hart.enterHandler_kern (h : Hart) (f : FaultInfo) (epc resume : Word) (start : Nat) : (h.enterHandler f epc resume start).kern = h.kern := rfl
@[simp] theorem Hart.enterHandler_grp (h : Hart) (f : FaultInfo) (epc resume : Word) (start : Nat) : (h.enterHandler f epc resume start).grp = h.grp := rfl
@[simp] theorem Hart.enterHandler_f0 (h : Hart) (f : FaultInfo) (epc resume : Word) (start : Nat) : (h.enterHandler f epc resume start).f0 = h.f0 := rfl

@[simp] theorem Hart.leaveHandler_x (h : Hart) : h.leaveHandler.x = h.x := rfl
@[simp] theorem Hart.leaveHandler_xbad (h : Hart) : h.leaveHandler.xbad = h.xbad := rfl
@[simp] theorem Hart.leaveHandler_vec (h : Hart) : h.leaveHandler.vec = h.vec := rfl
@[simp] theorem Hart.leaveHandler_tresume (h : Hart) : h.leaveHandler.tresume = h.tresume := rfl
@[simp] theorem Hart.leaveHandler_counts (h : Hart) : h.leaveHandler.counts = h.counts := rfl
@[simp] theorem Hart.leaveHandler_phase (h : Hart) : h.leaveHandler.phase = h.phase := rfl
@[simp] theorem Hart.leaveHandler_wait (h : Hart) : h.leaveHandler.wait = h.wait := rfl
@[simp] theorem Hart.leaveHandler_pend (h : Hart) : h.leaveHandler.pend = h.pend := rfl
@[simp] theorem Hart.leaveHandler_core (h : Hart) : h.leaveHandler.core = h.core := rfl
@[simp] theorem Hart.leaveHandler_slot (h : Hart) : h.leaveHandler.slot = h.slot := rfl
@[simp] theorem Hart.leaveHandler_ctx (h : Hart) : h.leaveHandler.ctx = h.ctx := rfl
@[simp] theorem Hart.leaveHandler_kern (h : Hart) : h.leaveHandler.kern = h.kern := rfl
@[simp] theorem Hart.leaveHandler_grp (h : Hart) : h.leaveHandler.grp = h.grp := rfl
@[simp] theorem Hart.leaveHandler_f0 (h : Hart) : h.leaveHandler.f0 = h.f0 := rfl

@[simp] theorem Hart.setQueue_x (h : Hart) (q : Nat) (e : EngQueue) : (h.setQueue q e).x = h.x := rfl
@[simp] theorem Hart.setQueue_xbad (h : Hart) (q : Nat) (e : EngQueue) : (h.setQueue q e).xbad = h.xbad := rfl
@[simp] theorem Hart.setQueue_pc (h : Hart) (q : Nat) (e : EngQueue) : (h.setQueue q e).pc = h.pc := rfl
@[simp] theorem Hart.setQueue_ctl (h : Hart) (q : Nat) (e : EngQueue) : (h.setQueue q e).ctl = h.ctl := rfl
@[simp] theorem Hart.setQueue_trap (h : Hart) (q : Nat) (e : EngQueue) : (h.setQueue q e).trap = h.trap := rfl
@[simp] theorem Hart.setQueue_vec (h : Hart) (q : Nat) (e : EngQueue) : (h.setQueue q e).vec = h.vec := rfl
@[simp] theorem Hart.setQueue_vq (h : Hart) (q : Nat) (e : EngQueue) : (h.setQueue q e).vq = h.vq := rfl
@[simp] theorem Hart.setQueue_trapImage (h : Hart) (q : Nat) (e : EngQueue) : (h.setQueue q e).trapImage = h.trapImage := rfl
@[simp] theorem Hart.setQueue_tresume (h : Hart) (q : Nat) (e : EngQueue) : (h.setQueue q e).tresume = h.tresume := rfl
@[simp] theorem Hart.setQueue_counts (h : Hart) (q : Nat) (e : EngQueue) : (h.setQueue q e).counts = h.counts := rfl
@[simp] theorem Hart.setQueue_phase (h : Hart) (q : Nat) (e : EngQueue) : (h.setQueue q e).phase = h.phase := rfl
@[simp] theorem Hart.setQueue_wait (h : Hart) (q : Nat) (e : EngQueue) : (h.setQueue q e).wait = h.wait := rfl
@[simp] theorem Hart.setQueue_pend (h : Hart) (q : Nat) (e : EngQueue) : (h.setQueue q e).pend = h.pend := rfl
@[simp] theorem Hart.setQueue_owes (h : Hart) (q : Nat) (e : EngQueue) : (h.setQueue q e).owes = h.owes := rfl
@[simp] theorem Hart.setQueue_core (h : Hart) (q : Nat) (e : EngQueue) : (h.setQueue q e).core = h.core := rfl
@[simp] theorem Hart.setQueue_slot (h : Hart) (q : Nat) (e : EngQueue) : (h.setQueue q e).slot = h.slot := rfl
@[simp] theorem Hart.setQueue_ctx (h : Hart) (q : Nat) (e : EngQueue) : (h.setQueue q e).ctx = h.ctx := rfl
@[simp] theorem Hart.setQueue_kern (h : Hart) (q : Nat) (e : EngQueue) : (h.setQueue q e).kern = h.kern := rfl
@[simp] theorem Hart.setQueue_grp (h : Hart) (q : Nat) (e : EngQueue) : (h.setQueue q e).grp = h.grp := rfl
@[simp] theorem Hart.setQueue_f0 (h : Hart) (q : Nat) (e : EngQueue) : (h.setQueue q e).f0 = h.f0 := rfl

@[simp] theorem Hart.restart_x (h : Hart) (n : Nat) : (h.restart n).x = h.x := rfl
@[simp] theorem Hart.restart_xbad (h : Hart) (n : Nat) : (h.restart n).xbad = h.xbad := rfl
@[simp] theorem Hart.restart_pc (h : Hart) (n : Nat) : (h.restart n).pc = h.pc := rfl
@[simp] theorem Hart.restart_ctl (h : Hart) (n : Nat) : (h.restart n).ctl = h.ctl := rfl
@[simp] theorem Hart.restart_trap (h : Hart) (n : Nat) : (h.restart n).trap = h.trap := rfl
@[simp] theorem Hart.restart_vec (h : Hart) (n : Nat) : (h.restart n).vec = h.vec := rfl
@[simp] theorem Hart.restart_trapImage (h : Hart) (n : Nat) : (h.restart n).trapImage = h.trapImage := rfl
@[simp] theorem Hart.restart_tresume (h : Hart) (n : Nat) : (h.restart n).tresume = h.tresume := rfl
@[simp] theorem Hart.restart_eng (h : Hart) (n : Nat) : (h.restart n).eng = h.eng := rfl
@[simp] theorem Hart.restart_counts (h : Hart) (n : Nat) : (h.restart n).counts = h.counts := rfl
@[simp] theorem Hart.restart_phase (h : Hart) (n : Nat) : (h.restart n).phase = h.phase := rfl
@[simp] theorem Hart.restart_wait (h : Hart) (n : Nat) : (h.restart n).wait = h.wait := rfl
@[simp] theorem Hart.restart_pend (h : Hart) (n : Nat) : (h.restart n).pend = h.pend := rfl
@[simp] theorem Hart.restart_owes (h : Hart) (n : Nat) : (h.restart n).owes = h.owes := rfl
@[simp] theorem Hart.restart_core (h : Hart) (n : Nat) : (h.restart n).core = h.core := rfl
@[simp] theorem Hart.restart_slot (h : Hart) (n : Nat) : (h.restart n).slot = h.slot := rfl
@[simp] theorem Hart.restart_ctx (h : Hart) (n : Nat) : (h.restart n).ctx = h.ctx := rfl
@[simp] theorem Hart.restart_kern (h : Hart) (n : Nat) : (h.restart n).kern = h.kern := rfl
@[simp] theorem Hart.restart_grp (h : Hart) (n : Nat) : (h.restart n).grp = h.grp := rfl
@[simp] theorem Hart.restart_f0 (h : Hart) (n : Nat) : (h.restart n).f0 = h.f0 := rfl

@[simp] theorem Hart.placed_x (h : Hart) : h.placed.x = h.x := rfl
@[simp] theorem Hart.placed_xbad (h : Hart) : h.placed.xbad = h.xbad := rfl
@[simp] theorem Hart.placed_ctl (h : Hart) : h.placed.ctl = h.ctl := rfl
@[simp] theorem Hart.placed_trap (h : Hart) : h.placed.trap = h.trap := rfl
@[simp] theorem Hart.placed_vec (h : Hart) : h.placed.vec = h.vec := rfl
@[simp] theorem Hart.placed_vq (h : Hart) : h.placed.vq = h.vq := rfl
@[simp] theorem Hart.placed_trapImage (h : Hart) : h.placed.trapImage = h.trapImage := rfl
@[simp] theorem Hart.placed_tresume (h : Hart) : h.placed.tresume = h.tresume := rfl
@[simp] theorem Hart.placed_eng (h : Hart) : h.placed.eng = h.eng := rfl
@[simp] theorem Hart.placed_counts (h : Hart) : h.placed.counts = h.counts := rfl
@[simp] theorem Hart.placed_owes (h : Hart) : h.placed.owes = h.owes := rfl
@[simp] theorem Hart.placed_core (h : Hart) : h.placed.core = h.core := rfl
@[simp] theorem Hart.placed_slot (h : Hart) : h.placed.slot = h.slot := rfl
@[simp] theorem Hart.placed_ctx (h : Hart) : h.placed.ctx = h.ctx := rfl
@[simp] theorem Hart.placed_kern (h : Hart) : h.placed.kern = h.kern := rfl
@[simp] theorem Hart.placed_grp (h : Hart) : h.placed.grp = h.grp := rfl
@[simp] theorem Hart.placed_f0 (h : Hart) : h.placed.f0 = h.f0 := rfl

@[simp] theorem Hart.spoil_x (h : Hart) (f : Option RegFile) (n k : Nat) : (h.spoil f n k).x = h.x := by
  unfold Hart.spoil; split <;> rfl
@[simp] theorem Hart.spoil_pc (h : Hart) (f : Option RegFile) (n k : Nat) : (h.spoil f n k).pc = h.pc := by
  unfold Hart.spoil; split <;> rfl
@[simp] theorem Hart.spoil_ctl (h : Hart) (f : Option RegFile) (n k : Nat) : (h.spoil f n k).ctl = h.ctl := by
  unfold Hart.spoil; split <;> rfl
@[simp] theorem Hart.spoil_trap (h : Hart) (f : Option RegFile) (n k : Nat) : (h.spoil f n k).trap = h.trap := by
  unfold Hart.spoil; split <;> rfl
@[simp] theorem Hart.spoil_vq (h : Hart) (f : Option RegFile) (n k : Nat) : (h.spoil f n k).vq = h.vq := by
  unfold Hart.spoil; split <;> rfl
@[simp] theorem Hart.spoil_trapImage (h : Hart) (f : Option RegFile) (n k : Nat) : (h.spoil f n k).trapImage = h.trapImage := by
  unfold Hart.spoil; split <;> rfl
@[simp] theorem Hart.spoil_tresume (h : Hart) (f : Option RegFile) (n k : Nat) : (h.spoil f n k).tresume = h.tresume := by
  unfold Hart.spoil; split <;> rfl
@[simp] theorem Hart.spoil_eng (h : Hart) (f : Option RegFile) (n k : Nat) : (h.spoil f n k).eng = h.eng := by
  unfold Hart.spoil; split <;> rfl
@[simp] theorem Hart.spoil_counts (h : Hart) (f : Option RegFile) (n k : Nat) : (h.spoil f n k).counts = h.counts := by
  unfold Hart.spoil; split <;> rfl
@[simp] theorem Hart.spoil_phase (h : Hart) (f : Option RegFile) (n k : Nat) : (h.spoil f n k).phase = h.phase := by
  unfold Hart.spoil; split <;> rfl
@[simp] theorem Hart.spoil_wait (h : Hart) (f : Option RegFile) (n k : Nat) : (h.spoil f n k).wait = h.wait := by
  unfold Hart.spoil; split <;> rfl
@[simp] theorem Hart.spoil_pend (h : Hart) (f : Option RegFile) (n k : Nat) : (h.spoil f n k).pend = h.pend := by
  unfold Hart.spoil; split <;> rfl
@[simp] theorem Hart.spoil_owes (h : Hart) (f : Option RegFile) (n k : Nat) : (h.spoil f n k).owes = h.owes := by
  unfold Hart.spoil; split <;> rfl
@[simp] theorem Hart.spoil_core (h : Hart) (f : Option RegFile) (n k : Nat) : (h.spoil f n k).core = h.core := by
  unfold Hart.spoil; split <;> rfl
@[simp] theorem Hart.spoil_slot (h : Hart) (f : Option RegFile) (n k : Nat) : (h.spoil f n k).slot = h.slot := by
  unfold Hart.spoil; split <;> rfl
@[simp] theorem Hart.spoil_ctx (h : Hart) (f : Option RegFile) (n k : Nat) : (h.spoil f n k).ctx = h.ctx := by
  unfold Hart.spoil; split <;> rfl
@[simp] theorem Hart.spoil_kern (h : Hart) (f : Option RegFile) (n k : Nat) : (h.spoil f n k).kern = h.kern := by
  unfold Hart.spoil; split <;> rfl
@[simp] theorem Hart.spoil_grp (h : Hart) (f : Option RegFile) (n k : Nat) : (h.spoil f n k).grp = h.grp := by
  unfold Hart.spoil; split <;> rfl
@[simp] theorem Hart.spoil_f0 (h : Hart) (f : Option RegFile) (n k : Nat) : (h.spoil f n k).f0 = h.f0 := by
  unfold Hart.spoil; split <;> rfl

@[simp] theorem Hart.writeSr_x (h : Hart) (r : SReg) (v : Word) : (h.writeSr r v).x = h.x := by
  cases r <;> rfl
@[simp] theorem Hart.writeSr_xbad (h : Hart) (r : SReg) (v : Word) : (h.writeSr r v).xbad = h.xbad := by
  cases r <;> rfl
@[simp] theorem Hart.writeSr_pc (h : Hart) (r : SReg) (v : Word) : (h.writeSr r v).pc = h.pc := by
  cases r <;> rfl
@[simp] theorem Hart.writeSr_vec (h : Hart) (r : SReg) (v : Word) : (h.writeSr r v).vec = h.vec := by
  cases r <;> rfl
@[simp] theorem Hart.writeSr_vq (h : Hart) (r : SReg) (v : Word) : (h.writeSr r v).vq = h.vq := by
  cases r <;> rfl
@[simp] theorem Hart.writeSr_trapImage (h : Hart) (r : SReg) (v : Word) : (h.writeSr r v).trapImage = h.trapImage := by
  cases r <;> rfl
@[simp] theorem Hart.writeSr_tresume (h : Hart) (r : SReg) (v : Word) : (h.writeSr r v).tresume = h.tresume := by
  cases r <;> rfl
@[simp] theorem Hart.writeSr_eng (h : Hart) (r : SReg) (v : Word) : (h.writeSr r v).eng = h.eng := by
  cases r <;> rfl
@[simp] theorem Hart.writeSr_counts (h : Hart) (r : SReg) (v : Word) : (h.writeSr r v).counts = h.counts := by
  cases r <;> rfl
@[simp] theorem Hart.writeSr_phase (h : Hart) (r : SReg) (v : Word) : (h.writeSr r v).phase = h.phase := by
  cases r <;> rfl
@[simp] theorem Hart.writeSr_wait (h : Hart) (r : SReg) (v : Word) : (h.writeSr r v).wait = h.wait := by
  cases r <;> rfl
@[simp] theorem Hart.writeSr_pend (h : Hart) (r : SReg) (v : Word) : (h.writeSr r v).pend = h.pend := by
  cases r <;> rfl
@[simp] theorem Hart.writeSr_owes (h : Hart) (r : SReg) (v : Word) : (h.writeSr r v).owes = h.owes := by
  cases r <;> rfl
@[simp] theorem Hart.writeSr_core (h : Hart) (r : SReg) (v : Word) : (h.writeSr r v).core = h.core := by
  cases r <;> rfl
@[simp] theorem Hart.writeSr_slot (h : Hart) (r : SReg) (v : Word) : (h.writeSr r v).slot = h.slot := by
  cases r <;> rfl
@[simp] theorem Hart.writeSr_ctx (h : Hart) (r : SReg) (v : Word) : (h.writeSr r v).ctx = h.ctx := by
  cases r <;> rfl
@[simp] theorem Hart.writeSr_kern (h : Hart) (r : SReg) (v : Word) : (h.writeSr r v).kern = h.kern := by
  cases r <;> rfl
@[simp] theorem Hart.writeSr_grp (h : Hart) (r : SReg) (v : Word) : (h.writeSr r v).grp = h.grp := by
  cases r <;> rfl
@[simp] theorem Hart.writeSr_f0 (h : Hart) (r : SReg) (v : Word) : (h.writeSr r v).f0 = h.f0 := by
  cases r <;> rfl

@[simp] theorem VecRegs.setK_v (r : VecRegs) (p : KReg) (b : Nat) : (r.setK p b).v = r.v := by
  unfold VecRegs.setK; split <;> rfl
@[simp] theorem VecRegs.setK_vtags (r : VecRegs) (p : KReg) (b : Nat) : (r.setK p b).vtags = r.vtags := by
  unfold VecRegs.setK; split <;> rfl
@[simp] theorem VecRegs.setK_vdirty (r : VecRegs) (p : KReg) (b : Nat) : (r.setK p b).vdirty = r.vdirty := by
  unfold VecRegs.setK; split <;> rfl
@[simp] theorem VecRegs.setK_vhwe (r : VecRegs) (p : KReg) (b : Nat) : (r.setK p b).vhwe = r.vhwe := by
  unfold VecRegs.setK; split <;> rfl
@[simp] theorem VecRegs.setK_far (r : VecRegs) (p : KReg) (b : Nat) : (r.setK p b).far = r.far := by
  unfold VecRegs.setK; split <;> rfl
@[simp] theorem VecRegs.setK_gsite (r : VecRegs) (p : KReg) (b : Nat) : (r.setK p b).gsite = r.gsite := by
  unfold VecRegs.setK; split <;> rfl
@[simp] theorem VecRegs.setK_z (r : VecRegs) (p : KReg) (b : Nat) : (r.setK p b).z = r.z := by
  unfold VecRegs.setK; split <;> rfl
@[simp] theorem VecRegs.setK_zdirty (r : VecRegs) (p : KReg) (b : Nat) : (r.setK p b).zdirty = r.zdirty := by
  unfold VecRegs.setK; split <;> rfl

@[simp] theorem VecRegs.killK_v (r : VecRegs) (m : BitVec 16) : (r.killK m).v = r.v := rfl
@[simp] theorem VecRegs.killK_vtags (r : VecRegs) (m : BitVec 16) : (r.killK m).vtags = r.vtags := rfl
@[simp] theorem VecRegs.killK_vdirty (r : VecRegs) (m : BitVec 16) : (r.killK m).vdirty = r.vdirty := rfl
@[simp] theorem VecRegs.killK_vhwe (r : VecRegs) (m : BitVec 16) : (r.killK m).vhwe = r.vhwe := rfl
@[simp] theorem VecRegs.killK_far (r : VecRegs) (m : BitVec 16) : (r.killK m).far = r.far := rfl
@[simp] theorem VecRegs.killK_gsite (r : VecRegs) (m : BitVec 16) : (r.killK m).gsite = r.gsite := rfl
@[simp] theorem VecRegs.killK_z (r : VecRegs) (m : BitVec 16) : (r.killK m).z = r.z := rfl
@[simp] theorem VecRegs.killK_zdirty (r : VecRegs) (m : BitVec 16) : (r.killK m).zdirty = r.zdirty := rfl

@[simp] theorem VecRegs.setPlive_v (r : VecRegs) (b : BitVec 16) : (r.setPlive b).v = r.v := rfl
@[simp] theorem VecRegs.setPlive_vtags (r : VecRegs) (b : BitVec 16) : (r.setPlive b).vtags = r.vtags := rfl
@[simp] theorem VecRegs.setPlive_vdirty (r : VecRegs) (b : BitVec 16) : (r.setPlive b).vdirty = r.vdirty := rfl
@[simp] theorem VecRegs.setPlive_vhwe (r : VecRegs) (b : BitVec 16) : (r.setPlive b).vhwe = r.vhwe := rfl
@[simp] theorem VecRegs.setPlive_far (r : VecRegs) (b : BitVec 16) : (r.setPlive b).far = r.far := rfl
@[simp] theorem VecRegs.setPlive_gsite (r : VecRegs) (b : BitVec 16) : (r.setPlive b).gsite = r.gsite := rfl
@[simp] theorem VecRegs.setPlive_z (r : VecRegs) (b : BitVec 16) : (r.setPlive b).z = r.z := rfl
@[simp] theorem VecRegs.setPlive_zdirty (r : VecRegs) (b : BitVec 16) : (r.setPlive b).zdirty = r.zdirty := rfl

@[simp] theorem VecRegs.setTagV_k (r : VecRegs) (n : Nat) (t : RegTag) : (r.setTagV n t).k = r.k := rfl
@[simp] theorem VecRegs.setTagV_plive (r : VecRegs) (n : Nat) (t : RegTag) : (r.setTagV n t).plive = r.plive := rfl
@[simp] theorem VecRegs.setTagV_v (r : VecRegs) (n : Nat) (t : RegTag) : (r.setTagV n t).v = r.v := rfl
@[simp] theorem VecRegs.setTagV_vdirty (r : VecRegs) (n : Nat) (t : RegTag) : (r.setTagV n t).vdirty = r.vdirty := rfl
@[simp] theorem VecRegs.setTagV_vhwe (r : VecRegs) (n : Nat) (t : RegTag) : (r.setTagV n t).vhwe = r.vhwe := rfl
@[simp] theorem VecRegs.setTagV_far (r : VecRegs) (n : Nat) (t : RegTag) : (r.setTagV n t).far = r.far := rfl
@[simp] theorem VecRegs.setTagV_gsite (r : VecRegs) (n : Nat) (t : RegTag) : (r.setTagV n t).gsite = r.gsite := rfl
@[simp] theorem VecRegs.setTagV_z (r : VecRegs) (n : Nat) (t : RegTag) : (r.setTagV n t).z = r.z := rfl
@[simp] theorem VecRegs.setTagV_zdirty (r : VecRegs) (n : Nat) (t : RegTag) : (r.setTagV n t).zdirty = r.zdirty := rfl
@[simp] theorem VecRegs.setTagV_bad (r : VecRegs) (n : Nat) (t : RegTag) : (r.setTagV n t).bad = r.bad := rfl

@[simp] theorem VecRegs.putV_k (r : VecRegs) (n pos w b : Nat) : (r.putV n pos w b).k = r.k := rfl
@[simp] theorem VecRegs.putV_plive (r : VecRegs) (n pos w b : Nat) : (r.putV n pos w b).plive = r.plive := rfl
@[simp] theorem VecRegs.putV_vtags (r : VecRegs) (n pos w b : Nat) : (r.putV n pos w b).vtags = r.vtags := rfl
@[simp] theorem VecRegs.putV_far (r : VecRegs) (n pos w b : Nat) : (r.putV n pos w b).far = r.far := rfl
@[simp] theorem VecRegs.putV_gsite (r : VecRegs) (n pos w b : Nat) : (r.putV n pos w b).gsite = r.gsite := rfl
@[simp] theorem VecRegs.putV_z (r : VecRegs) (n pos w b : Nat) : (r.putV n pos w b).z = r.z := rfl
@[simp] theorem VecRegs.putV_zdirty (r : VecRegs) (n pos w b : Nat) : (r.putV n pos w b).zdirty = r.zdirty := rfl

@[simp] theorem VecRegs.setTagF_k (r : VecRegs) (i : Nat) (t : RegTag) : (r.setTagF i t).k = r.k := rfl
@[simp] theorem VecRegs.setTagF_plive (r : VecRegs) (i : Nat) (t : RegTag) : (r.setTagF i t).plive = r.plive := rfl
@[simp] theorem VecRegs.setTagF_v (r : VecRegs) (i : Nat) (t : RegTag) : (r.setTagF i t).v = r.v := rfl
@[simp] theorem VecRegs.setTagF_vtags (r : VecRegs) (i : Nat) (t : RegTag) : (r.setTagF i t).vtags = r.vtags := rfl
@[simp] theorem VecRegs.setTagF_vdirty (r : VecRegs) (i : Nat) (t : RegTag) : (r.setTagF i t).vdirty = r.vdirty := rfl
@[simp] theorem VecRegs.setTagF_vhwe (r : VecRegs) (i : Nat) (t : RegTag) : (r.setTagF i t).vhwe = r.vhwe := rfl
@[simp] theorem VecRegs.setTagF_gsite (r : VecRegs) (i : Nat) (t : RegTag) : (r.setTagF i t).gsite = r.gsite := rfl
@[simp] theorem VecRegs.setTagF_z (r : VecRegs) (i : Nat) (t : RegTag) : (r.setTagF i t).z = r.z := rfl
@[simp] theorem VecRegs.setTagF_zdirty (r : VecRegs) (i : Nat) (t : RegTag) : (r.setTagF i t).zdirty = r.zdirty := rfl
@[simp] theorem VecRegs.setTagF_bad (r : VecRegs) (i : Nat) (t : RegTag) : (r.setTagF i t).bad = r.bad := rfl

@[simp] theorem VecRegs.putF_k (r : VecRegs) (i pos w b : Nat) : (r.putF i pos w b).k = r.k := rfl
@[simp] theorem VecRegs.putF_plive (r : VecRegs) (i pos w b : Nat) : (r.putF i pos w b).plive = r.plive := rfl
@[simp] theorem VecRegs.putF_v (r : VecRegs) (i pos w b : Nat) : (r.putF i pos w b).v = r.v := rfl
@[simp] theorem VecRegs.putF_vtags (r : VecRegs) (i pos w b : Nat) : (r.putF i pos w b).vtags = r.vtags := rfl
@[simp] theorem VecRegs.putF_vdirty (r : VecRegs) (i pos w b : Nat) : (r.putF i pos w b).vdirty = r.vdirty := rfl
@[simp] theorem VecRegs.putF_vhwe (r : VecRegs) (i pos w b : Nat) : (r.putF i pos w b).vhwe = r.vhwe := rfl
@[simp] theorem VecRegs.putF_gsite (r : VecRegs) (i pos w b : Nat) : (r.putF i pos w b).gsite = r.gsite := rfl
@[simp] theorem VecRegs.putF_z (r : VecRegs) (i pos w b : Nat) : (r.putF i pos w b).z = r.z := rfl
@[simp] theorem VecRegs.putF_zdirty (r : VecRegs) (i pos w b : Nat) : (r.putF i pos w b).zdirty = r.zdirty := rfl

@[simp] theorem VecRegs.putZ_k (r : VecRegs) (q : ZReg) (m n b : Nat) : (r.putZ q m n b).k = r.k := rfl
@[simp] theorem VecRegs.putZ_plive (r : VecRegs) (q : ZReg) (m n b : Nat) : (r.putZ q m n b).plive = r.plive := rfl
@[simp] theorem VecRegs.putZ_v (r : VecRegs) (q : ZReg) (m n b : Nat) : (r.putZ q m n b).v = r.v := rfl
@[simp] theorem VecRegs.putZ_vtags (r : VecRegs) (q : ZReg) (m n b : Nat) : (r.putZ q m n b).vtags = r.vtags := rfl
@[simp] theorem VecRegs.putZ_vdirty (r : VecRegs) (q : ZReg) (m n b : Nat) : (r.putZ q m n b).vdirty = r.vdirty := rfl
@[simp] theorem VecRegs.putZ_vhwe (r : VecRegs) (q : ZReg) (m n b : Nat) : (r.putZ q m n b).vhwe = r.vhwe := rfl
@[simp] theorem VecRegs.putZ_far (r : VecRegs) (q : ZReg) (m n b : Nat) : (r.putZ q m n b).far = r.far := rfl
@[simp] theorem VecRegs.putZ_gsite (r : VecRegs) (q : ZReg) (m n b : Nat) : (r.putZ q m n b).gsite = r.gsite := rfl

@[simp] theorem VecRegs.zeroZ_k (r : VecRegs) (q : ZReg) : (r.zeroZ q).k = r.k := rfl
@[simp] theorem VecRegs.zeroZ_plive (r : VecRegs) (q : ZReg) : (r.zeroZ q).plive = r.plive := rfl
@[simp] theorem VecRegs.zeroZ_v (r : VecRegs) (q : ZReg) : (r.zeroZ q).v = r.v := rfl
@[simp] theorem VecRegs.zeroZ_vtags (r : VecRegs) (q : ZReg) : (r.zeroZ q).vtags = r.vtags := rfl
@[simp] theorem VecRegs.zeroZ_vdirty (r : VecRegs) (q : ZReg) : (r.zeroZ q).vdirty = r.vdirty := rfl
@[simp] theorem VecRegs.zeroZ_vhwe (r : VecRegs) (q : ZReg) : (r.zeroZ q).vhwe = r.vhwe := rfl
@[simp] theorem VecRegs.zeroZ_far (r : VecRegs) (q : ZReg) : (r.zeroZ q).far = r.far := rfl
@[simp] theorem VecRegs.zeroZ_gsite (r : VecRegs) (q : ZReg) : (r.zeroZ q).gsite = r.gsite := rfl

@[simp] theorem VecRegs.commit_k (r : VecRegs) (f : RegRef) (w : Wr) : (r.commit f w).k = r.k := by
  unfold VecRegs.commit; split
  · rfl
  · split <;> rfl
@[simp] theorem VecRegs.commit_plive (r : VecRegs) (f : RegRef) (w : Wr) : (r.commit f w).plive = r.plive := by
  unfold VecRegs.commit; split
  · rfl
  · split <;> rfl
@[simp] theorem VecRegs.commit_vtags (r : VecRegs) (f : RegRef) (w : Wr) : (r.commit f w).vtags = r.vtags := by
  unfold VecRegs.commit; split
  · rfl
  · split <;> rfl
@[simp] theorem VecRegs.commit_gsite (r : VecRegs) (f : RegRef) (w : Wr) : (r.commit f w).gsite = r.gsite := by
  unfold VecRegs.commit; split
  · rfl
  · split <;> rfl
@[simp] theorem VecRegs.commit_z (r : VecRegs) (f : RegRef) (w : Wr) : (r.commit f w).z = r.z := by
  unfold VecRegs.commit; split
  · rfl
  · split <;> rfl
@[simp] theorem VecRegs.commit_zdirty (r : VecRegs) (f : RegRef) (w : Wr) : (r.commit f w).zdirty = r.zdirty := by
  unfold VecRegs.commit; split
  · rfl
  · split <;> rfl

@[simp] theorem VecRegs.setTagRef_k (r : VecRegs) (f : RegRef) (t : RegTag) : (r.setTagRef f t).k = r.k := by
  cases f <;> simp only [VecRegs.setTagRef] <;> split <;> rfl
@[simp] theorem VecRegs.setTagRef_plive (r : VecRegs) (f : RegRef) (t : RegTag) : (r.setTagRef f t).plive = r.plive := by
  cases f <;> simp only [VecRegs.setTagRef] <;> split <;> rfl
@[simp] theorem VecRegs.setTagRef_v (r : VecRegs) (f : RegRef) (t : RegTag) : (r.setTagRef f t).v = r.v := by
  cases f <;> simp only [VecRegs.setTagRef] <;> split <;> rfl
@[simp] theorem VecRegs.setTagRef_vdirty (r : VecRegs) (f : RegRef) (t : RegTag) : (r.setTagRef f t).vdirty = r.vdirty := by
  cases f <;> simp only [VecRegs.setTagRef] <;> split <;> rfl
@[simp] theorem VecRegs.setTagRef_vhwe (r : VecRegs) (f : RegRef) (t : RegTag) : (r.setTagRef f t).vhwe = r.vhwe := by
  cases f <;> simp only [VecRegs.setTagRef] <;> split <;> rfl
@[simp] theorem VecRegs.setTagRef_gsite (r : VecRegs) (f : RegRef) (t : RegTag) : (r.setTagRef f t).gsite = r.gsite := by
  cases f <;> simp only [VecRegs.setTagRef] <;> split <;> rfl
@[simp] theorem VecRegs.setTagRef_z (r : VecRegs) (f : RegRef) (t : RegTag) : (r.setTagRef f t).z = r.z := by
  cases f <;> simp only [VecRegs.setTagRef] <;> split <;> rfl
@[simp] theorem VecRegs.setTagRef_zdirty (r : VecRegs) (f : RegRef) (t : RegTag) : (r.setTagRef f t).zdirty = r.zdirty := by
  cases f <;> simp only [VecRegs.setTagRef] <;> split <;> rfl
@[simp] theorem VecRegs.setTagRef_bad (r : VecRegs) (f : RegRef) (t : RegTag) : (r.setTagRef f t).bad = r.bad := by
  cases f <;> simp only [VecRegs.setTagRef] <;> split <;> rfl

@[simp] theorem VecRegs.setPair_v (r : VecRegs) (n : Nat) (d : KReg) (c : Bool) : (r.setPair n d c).v = r.v := by
  simp [VecRegs.setPair]
@[simp] theorem VecRegs.setPair_vtags (r : VecRegs) (n : Nat) (d : KReg) (c : Bool) : (r.setPair n d c).vtags = r.vtags := by
  simp [VecRegs.setPair]
@[simp] theorem VecRegs.setPair_vdirty (r : VecRegs) (n : Nat) (d : KReg) (c : Bool) : (r.setPair n d c).vdirty = r.vdirty := by
  simp [VecRegs.setPair]
@[simp] theorem VecRegs.setPair_vhwe (r : VecRegs) (n : Nat) (d : KReg) (c : Bool) : (r.setPair n d c).vhwe = r.vhwe := by
  simp [VecRegs.setPair]
@[simp] theorem VecRegs.setPair_far (r : VecRegs) (n : Nat) (d : KReg) (c : Bool) : (r.setPair n d c).far = r.far := by
  simp [VecRegs.setPair]
@[simp] theorem VecRegs.setPair_gsite (r : VecRegs) (n : Nat) (d : KReg) (c : Bool) : (r.setPair n d c).gsite = r.gsite := by
  simp [VecRegs.setPair]
@[simp] theorem VecRegs.setPair_z (r : VecRegs) (n : Nat) (d : KReg) (c : Bool) : (r.setPair n d c).z = r.z := by
  simp [VecRegs.setPair]
@[simp] theorem VecRegs.setPair_zdirty (r : VecRegs) (n : Nat) (d : KReg) (c : Bool) : (r.setPair n d c).zdirty = r.zdirty := by
  simp [VecRegs.setPair]

end Sys2Proof.Machine
end

