-- ==== Sys2Proof/Laws/Sweep.lean ====
section
/-! SUPPORT. The sweep of an element-wise instruction: the value of each element after it, position by position. -/

namespace Sys2Proof.Machine

/-- Two places of elements of width `w`, in rows of `rb` bits that hold `vl` of them, do not meet. -/
theorem places_apart {rb w vl r i r' i' : Nat} (hrow : vl * w ≤ rb) (hi : i < vl) (hi' : i' < vl) (h : ¬(r = r' ∧ i = i')) :
    r * rb + i * w + w ≤ r' * rb + i' * w ∨ r' * rb + i' * w + w ≤ r * rb + i * w := by
  have e1 : i * w + w ≤ rb := le_trans (by nlinarith) hrow
  have e2 : i' * w + w ≤ rb := le_trans (by nlinarith) hrow
  rcases Nat.lt_trichotomy r r' with hr | hr | hr
  · left; nlinarith
  · subst hr
    rcases Nat.lt_trichotomy i i' with hj | hj | hj
    · left; nlinarith
    · exact absurd ⟨rfl, hj⟩ h
    · right; nlinarith
  · right; nlinarith

/-- The place of element (r, i) of a destination. -/
def elemPos (rb w r i : Nat) : Nat := r * rb + i * w

/-- What one sweep position leaves at its element (R168). -/
def Env.elemAfter (v : Env) (zm : Bool) (w old : Nat) (op : Nat → Nat → Flagged Nat) (r i : Nat) : Nat :=
  if v.tail i then 0 else if v.guard r i then (op r i).1 % 2 ^ w else if zm then 0 else old

/-- One position changes its own element only. -/
theorem Env.element_bits (v : Env) (zm : Bool) (rb w : Nat) (op : Nat → Nat → Flagged Nat) (acc : Wr) (r i : Nat) :
    bits (v.element zm rb w op acc r i).bits (elemPos rb w r i) w =
      v.elemAfter zm w (bits acc.bits (elemPos rb w r i) w) op r i := by
  unfold Env.element Env.elemAfter elemPos
  dsimp only
  split
  · simp [Wr.put, bits_putBits_same]
  · split
    · simp [Wr.put, Wr.flag, bits_putBits_same]
    · split
      · simp [Wr.put, bits_putBits_same]
      · rfl

theorem Env.element_bits_apart (v : Env) (zm : Bool) (rb w : Nat) (op : Nat → Nat → Flagged Nat) (acc : Wr) (r i p : Nat)
    (h : p + w ≤ elemPos rb w r i ∨ elemPos rb w r i + w ≤ p) :
    bits (v.element zm rb w op acc r i).bits p w = bits acc.bits p w := by
  unfold Env.element elemPos at *
  dsimp only at *
  split
  · simp [Wr.put, bits_putBits_apart h]
  · split
    · simp [Wr.put, Wr.flag, bits_putBits_apart h]
    · split
      · simp [Wr.put, bits_putBits_apart h]
      · rfl

/-- Every element after a sweep, when a row holds its elements: positions from the start on are new, the others as before. -/
theorem Env.sweep_bits (v : Env) (zm : Bool) (rb w : Nat) (op : Nat → Nat → Flagged Nat) (acc : Wr) (hrow : v.e.vl * w ≤ rb)
    {r i : Nat} (hi : i < v.e.vl) :
    bits (v.sweep acc (fun a r i => v.element zm rb w op a r i)).bits (elemPos rb w r i) w =
      if v.e.start ≤ r * v.e.vl + i ∧ r * v.e.vl + i < v.last then
        v.elemAfter zm w (bits acc.bits (elemPos rb w r i) w) op r i
      else bits acc.bits (elemPos rb w r i) w := by
  unfold Env.sweep
  dsimp only
  have key : ∀ k, bits ((List.range k).foldl (fun a k =>
      v.element zm rb w op a ((v.e.start + k) / v.e.vl) ((v.e.start + k) % v.e.vl)) acc).bits (elemPos rb w r i) w =
      if v.e.start ≤ r * v.e.vl + i ∧ r * v.e.vl + i < v.e.start + k then
        v.elemAfter zm w (bits acc.bits (elemPos rb w r i) w) op r i
      else bits acc.bits (elemPos rb w r i) w := by
    intro k
    induction k with
    | zero => rw [if_neg (by omega)]; rfl
    | succ k ih =>
      rw [List.range_succ, List.foldl_append, List.foldl_cons, List.foldl_nil]
      by_cases hn : v.e.start + k = r * v.e.vl + i
      · have h1 : (v.e.start + k) / v.e.vl = r := by
          rw [hn, Nat.mul_comm, Nat.mul_add_div (by omega), Nat.div_eq_of_lt hi, Nat.add_zero]
        have h2 : (v.e.start + k) % v.e.vl = i := by
          rw [hn, Nat.mul_comm, Nat.mul_add_mod, Nat.mod_eq_of_lt hi]
        rw [h1, h2, Env.element_bits, ih, if_neg (by omega), if_pos (by omega)]
      · have hne : ¬((v.e.start + k) / v.e.vl = r ∧ (v.e.start + k) % v.e.vl = i) := by
          rintro ⟨rfl, rfl⟩
          exact hn (by rw [Nat.mul_comm]; exact (Nat.div_add_mod _ _).symm)
        rw [Env.element_bits_apart, ih]
        · by_cases hc : v.e.start ≤ r * v.e.vl + i ∧ r * v.e.vl + i < v.e.start + k
          · rw [if_pos hc, if_pos (by omega)]
          · rw [if_neg hc, if_neg (by omega)]
        · unfold elemPos
          have := places_apart (w := w) hrow (r := r) (i := i) (r' := (v.e.start + k) / v.e.vl)
            (i' := (v.e.start + k) % v.e.vl) hi (Nat.mod_lt _ (by omega)) (fun h => hne ⟨h.1.symm, h.2.symm⟩)
          exact this
  rw [key]
  by_cases hc : v.e.start ≤ r * v.e.vl + i ∧ r * v.e.vl + i < v.last
  · rw [if_pos hc, if_pos (by omega)]
  · rw [if_neg hc, if_neg (by omega)]

/-- The flags of a sweep: those of its eligible positions, ORed. -/
theorem Env.sweep_flags (v : Env) (zm : Bool) (rb w : Nat) (op : Nat → Nat → Flagged Nat) (acc : Wr) :
    (v.sweep acc (fun a r i => v.element zm rb w op a r i)).fl =
      v.sweep acc.fl (fun f r i => if v.tail i = false ∧ v.guard r i = true then f.or (op r i).2 else f) := by
  unfold Env.sweep
  generalize List.range (v.last - v.e.start) = l
  induction l generalizing acc with
  | nil => rfl
  | cons k l ih =>
    rw [List.foldl_cons, List.foldl_cons, ih]
    congr 1
    unfold Env.element
    dsimp only
    cases v.tail ((v.e.start + k) % v.e.vl) <;> cases v.guard ((v.e.start + k) / v.e.vl) ((v.e.start + k) % v.e.vl) <;>
      cases zm <;> rfl

/-- A sweep that writes nothing leaves the string as it was. -/
theorem Env.sweep_top_zero (v : Env) (zm : Bool) (rb w : Nat) (op : Nat → Nat → Flagged Nat) (acc : Wr) (hw : 0 < w)
    (h : (v.sweep acc (fun a r i => v.element zm rb w op a r i)).top = 0) :
    (v.sweep acc (fun a r i => v.element zm rb w op a r i)).bits = acc.bits := by
  unfold Env.sweep at *
  generalize List.range (v.last - v.e.start) = l at *
  suffices hs : ∀ (l : List Nat) (acc : Wr), (l.foldl (fun a k => v.element zm rb w op a ((v.e.start + k) / v.e.vl)
      ((v.e.start + k) % v.e.vl)) acc).top = 0 → acc.top = 0 ∧ (l.foldl (fun a k => v.element zm rb w op a
        ((v.e.start + k) / v.e.vl) ((v.e.start + k) % v.e.vl)) acc).bits = acc.bits from (hs l acc h).2
  intro l
  induction l with
  | nil => intro acc h; exact ⟨h, rfl⟩
  | cons k l ih =>
    intro acc h
    rw [List.foldl_cons] at h ⊢
    obtain ⟨h1, h2⟩ := ih _ h
    rw [h2]
    revert h1
    unfold Env.element
    dsimp only
    split
    · intro h; simp [Wr.put] at h; omega
    · split
      · intro h; simp [Wr.put, Wr.flag] at h; omega
      · split
        · intro h; simp [Wr.put] at h; omega
        · intro h; exact ⟨h, rfl⟩

end Sys2Proof.Machine
end

