-- ==== Sys2Proof/Tests/Slice0.lean ====
section
/-! SUPPORT. Tests of the model: ill-formed instructions, decoding of words written out from the manual, single steps; and for each
statement a state and operands that meet its hypotheses. -/

namespace Sys2Proof.Tests

open Machine Say
set_option Elab.async false

/-! Ill-formed instructions: each check refuses one. -/

/-- V modifiers and M modifiers with nothing set. -/
def vm : VMod := ⟨false, .frm, false, .none, .none, false⟩
def mm : MMod := ⟨false, .plain, .none, false⟩
def g1 : Guard := ⟨0xFF, 0, 0, 0⟩

theorem test_wf_refuses_field_past_the_word : (Instr.ext g1 1 2 60 4 true).wf = false ∧ (Instr.ins g1 1 2 63 1).wf = false := by decide
theorem test_wf_accepts_field_at_the_end : (Instr.ext g1 1 2 60 3 true).wf = true := by decide
theorem test_wf_refuses_odd_predicate_pair : (Instr.cmp g1 .eq 3 1 2).wf = false ∧ (Instr.vcmp g1 vm .eq 5 1 2).wf = false := by decide
theorem test_wf_refuses_condition : (Instr.cmp g1 .un 2 1 2).wf = false ∧ (Instr.vcmp g1 vm .gtu 2 1 2).wf = false := by decide
theorem test_wf_refuses_read_only_register : (Instr.mts g1 .vl 1).wf = false ∧ (Instr.mts g1 .tick 1).wf = false := by decide
theorem test_wf_refuses_far_where_near_only : (Instr.vtopk g1 ⟨true, .frm, false, .none, .none, false⟩ 2 4 1).wf = false := by decide
theorem test_wf_refuses_rounding_mode : (Instr.vredsum g1 ⟨false, .ru, false, .none, .none, false⟩ 1 2 false).wf = false ∧
    (Instr.vand g1 ⟨false, .rne, false, .none, .none, false⟩ 1 2 3).wf = false := by decide
theorem test_wf_refuses_zeroing : (Instr.vcmp g1 ⟨false, .frm, true, .none, .none, false⟩ .eq 2 1 3).wf = false := by decide
theorem test_wf_refuses_replicate : (Instr.vins g1 ⟨false, .frm, false, .e, .none, false⟩ 1 2 3).wf = false ∧
    (Instr.vsqrt g1 ⟨false, .frm, false, .none, .e, false⟩ 1 2).wf = false := by decide
theorem test_wf_refuses_widening : (Instr.vdiv g1 ⟨false, .frm, false, .none, .none, true⟩ 1 2 3).wf = false := by decide
theorem test_wf_refuses_odd_vector_pair : (Instr.vtopk g1 vm 3 4 1).wf = false ∧ (Instr.vqmx g1 vm 5 4 .e4m3).wf = false := by decide
theorem test_wf_refuses_block_format : (Instr.vqmx g1 vm 4 2 .bf16).wf = false := by decide
theorem test_wf_refuses_saturation : (Instr.vcvt g1 vm 1 2 .fp16 false true).wf = false := by decide
theorem test_wf_refuses_scope_without_order : (Instr.ld g1 .w32 false .plain .device 1 2).wf = false ∧
    (Instr.ld g1 .w32 false .acquire .none 1 2).wf = false := by decide
theorem test_wf_refuses_order : (Instr.ld g1 .w32 false .release .device 1 2).wf = false ∧
    (Instr.st g1 .w32 .acquire .device 1 2).wf = false ∧ (Instr.vst g1 ⟨false, .acquire, .device, false⟩ 1 2).wf = false ∧
    (Instr.amoadd g1 true .ordered .none 1 2 3).wf = false ∧ (Instr.fence g1 .plain .none).wf = false := by decide
theorem test_wf_refuses_wide_sign_extension : (Instr.ld g1 .w64 true .plain .none 1 2).wf = false := by decide
theorem test_wf_refuses_first_fault_bit : (Instr.vld g1 ⟨false, .plain, .none, true⟩ 1 2).wf = false ∧
    (Instr.vldff g1 mm 1 2).wf = false := by decide
theorem test_wf_refuses_unreturned_destination : (Instr.vamoadd g1 mm false 1 2 3 4).wf = false := by decide
theorem test_wf_refuses_near_register_of_far_word : (Instr.fembag g1 false false 4 1 2 0).wf = false ∧
    (Instr.fatt g1 false false false 57 1 2).wf = false ∧ (Instr.fmerge g1 false false false 56 3).wf = false := by decide
theorem test_wf_refuses_unused_weight : (Instr.fembag g1 false false 56 1 2 3).wf = false := by decide
theorem test_wf_refuses_ahead_without_barrier : (Instr.ecpy g1 ⟨1, 0⟩ 0 1 2 3 ⟨none, 0, 0, 0, 0, 0⟩).wf = false := by decide
theorem test_wf_refuses_copy_fields : (Instr.ecpy g1 ⟨0, 0⟩ 0 1 2 3 ⟨none, 0, 0, 1, 0, 0⟩).wf = false ∧
    (Instr.efill g1 ⟨0, 0⟩ 0 1 2 3 ⟨none, 0, 0, 0, 1, 0⟩).wf = false ∧
    (Instr.ecpy g1 ⟨0, 0⟩ 0 1 2 3 ⟨some .bf16, 0, 0, 0, 0x10000, 0⟩).wf = false := by decide
theorem test_wf_refuses_objects_out_of_range : ∀ i ∈ [Instr.resyncIssue 384, .farPieceComplete 0 16, .engineCmdStart 0 4,
    .groupPlace 1 24, .pageWalk 96 0 0, .tlbInvPage 4096 0, .migArm 64, .rqeVisit 16 0, .qcfgWrite 1024 0, .rcfgWrite 256 0,
    .ctxCreate 4096, .replyResume 0 65536, .dbgcmdCont 0 0 16, .linkTrain 12, .linkTrainDone 0 3, .registerWrite (2 ^ 33) true 0,
    .l1Writeback 96 0, .hostPortTrained 7 16 true, .guestBindingRequest 0 1024 0 0], i.wf = false := by decide

/-! Words written out from the encodings of the manual, and the instructions they stand for. -/

/-- A first word from its fields, as the manual lays them out: TT [63:56], GA [55:52], GB [51:48], GC [47:44], P [43], OPC [42:35],
D [34:29], A [28:23], B [22:17], C [16:11], X [10:0]. -/
def word (tt ga gb gc p opc d a b c x : Nat) : Word :=
  BitVec.ofNat 64 (tt * 2 ^ 56 + ga * 2 ^ 52 + gb * 2 ^ 48 + gc * 2 ^ 44 + p * 2 ^ 43 + opc * 2 ^ 35 + d * 2 ^ 29 + a * 2 ^ 23 +
    b * 2 ^ 17 + c * 2 ^ 11 + x)

/-- An unguarded near word. -/
def near (opc d a b c x : Nat) : Word := word 0xFF 0 0 0 0 opc d a b c x

def decodesTo (w : Word) (i : Instr) : Bool := decodeWords w 0 == .ok i

theorem test_decode_scalar : decodesTo (near 0x02 1 2 3 0 0) (.sub g1 1 2 3) ∧ decodesTo (near 0x0C 63 0 5 0 0) (.div g1 63 0 5) ∧
    decodesTo (near 0x17 1 2 8 15 1) (.ext g1 1 2 8 15 true) ∧ decodesTo (near 0x19 1 2 3 0 6) (.addsh g1 1 2 3 6) ∧
    decodesTo (near 0x1E 1 2 2 0 63) (.srai g1 1 2 63) ∧ decodesTo (near 0x1A 1 2 0 63 2047) (.addi g1 1 2 0x1FFFF) := by
  decide +kernel
theorem test_decode_long_immediate :
    decodeWords (near 0xF0 7 0 0 0 0) 0x0123456789ABCDEF = .ok (.li64 g1 7 0x0123456789ABCDEF) := by decide +kernel
theorem test_decode_control : decodesTo (near 0x20 0 63 63 63 2047) (.br g1 0x1FFFFFFF) ∧ decodesTo (near 0x21 5 0 0 1 0) (.call g1 5 2048) ∧
    decodesTo (near 0x22 1 2 0 0 0) (.jr g1 1 2) := by decide +kernel
theorem test_decode_predicates : decodesTo (near 0x28 4 1 2 5 0) (.cmp g1 .gt 4 1 2) ∧ decodesTo (near 0x2B 1 2 3 4 0x96) (.klog g1 1 2 3 4 0x96) ∧
    decodesTo (near 0x2D 9 3 0 0 2) (.ktest g1 .none 9 3) ∧ decodesTo (near 0x2F 0 0 0 1 3) (.kdead g1 0x803) ∧
    decodesTo (near 0x30 1 2 3 0 0) (.ktox g1 1 2 3) ∧ decodesTo (near 0x31 1 2 3 0 0) (.kfromx g1 1 2 3) := by decide +kernel
theorem test_decode_state : decodesTo 0xFF0001D080000006 (.vtag g1 4 .n8 false) ∧ decodesTo (near 0x39 0 0 0 0 5) (.setrc g1 5) ∧
    decodesTo (near 0x3B 1 0 0 0 16) (.mfs g1 1 .tick) ∧ decodesTo (near 0x3C 0 2 0 0 17) (.mts g1 .trapvec 2) := by decide +kernel
theorem test_decode_vector : decodesTo (word 0xFF 0 0 0 0 0x43 1 2 3 0 0x500) (.vmulh g1 ⟨false, .sr, false, .none, .none, false⟩ 1 2 3) ∧
    decodesTo (near 0x48 1 2 0 0 0x080) (.vsqrt g1 ⟨false, .frm, true, .none, .none, false⟩ 1 2) ∧
    decodesTo (near 0x60 1 2 0 1 1) (.vredsum g1 ⟨false, .frm, false, .none, .none, true⟩ 1 2 true) ∧
    decodesTo 0xFF00033185100009 (.vdot g1 ⟨false, .frm, false, .none, .row, true⟩ 12 10 8 false) ∧
    decodesTo 0xFF00034081A80000 (.vtopk g1 vm 4 3 20) := by decide +kernel
theorem test_decode_fused : decodesTo 0xFF000220C18A2858 (.vfma g1 ⟨false, .frm, false, .re, .row, false⟩ 6 3 5 5) := by decide +kernel
theorem test_decode_movement : decodesTo 0xFF0003A0A4080000 (.vgathr g1 vm 5 8 4) ∧ decodesTo (near 0x70 4 2 26 0 0) (.vcvt g1 vm 4 2 .e4m3 true false) ∧
    decodesTo (near 0x73 1 2 1 0 0) (.vunpk g1 vm 1 2 true) ∧ decodesTo (near 0x77 1 2 3 0 0) (.vcompress g1 vm 1 2 3) := by decide +kernel
theorem test_decode_tiles : decodesTo (near 0x81 7 1 2 0 0x100) (.zopaL g1 true 7 1 2) ∧ decodesTo (near 0x83 1 2 3 0 0x280) (.zdrain g1 .rz true 1 2 3) ∧
    decodesTo (near 0x85 1 2 3 0 0) (.zld g1 1 2 3) := by decide +kernel
theorem test_decode_memory : decodesTo (near 0x90 1 2 0 0 0x148) (.ld g1 .w8 true .acquire .group 1 2) ∧
    decodesTo (near 0x98 1 2 3 0 0x400) (.vstx g1 ⟨false, .ordered, .none, false⟩ 1 2 3) ∧
    decodesTo 0xFF0004C8A0800001 (.vldtCt g1 mm 5 1) ∧ decodesTo 0xC046059008BA0382 (.amoor ⟨0xC0, 4, 6, 0⟩ false .acqRel .device 0 17 29) ∧
    decodesTo (near 0xB7 1 2 3 4 3) (.amocas g1 true .plain .none 1 2 3 4) := by decide +kernel
theorem test_decode_fences : decodesTo (near 0xD9 0 0 0 0 2) (.fenceVv g1) ∧ decodesTo 0xFF0006D800000002 (.qfence g1 2) := by decide +kernel
theorem test_decode_far : decodesTo (word 0xFF 0 0 0 1 0xC2 0 1 2 3 0x100) (.fscadd g1 true 1 2 3) ∧
    decodesTo (word 0xFF 0 0 0 1 0xC3 56 2 3 4 1) (.fembag g1 false true 56 2 3 4) ∧
    decodesTo 0xFF000E2F1D000001 (.fmerge g1 false false true 56 58) := by decide +kernel
theorem test_decode_barriers : decodesTo (near 0xD1 0 1 2 0 3) (.bexp g1 1 2 3) ∧ decodesTo (near 0xD3 0 1 0 0 0) (.barrd g1 1) ∧
    decodesTo (near 0xD4 0 1 0 0 2) (.bwait g1 1 2) := by decide +kernel
theorem test_decode_engines :
    decodeWords (near 0xF3 1 2 3 4 0xA) (BitVec.ofNat 64 (1 * 2 ^ 62 + 7 * 2 ^ 50 + 127 * 2 ^ 34 + 4096)) =
      .ok (.egath g1 ⟨2, 2⟩ 1 2 3 4 ⟨.n32, 7, 127, 4096⟩) ∧
    decodeWords (near 0xF5 0 2 3 4 1) (BitVec.ofNat 64 (3 * 2 ^ 48 + 64)) = .ok (.efill g1 ⟨0, 1⟩ 0 2 3 4 ⟨none, 0, 3, 0, 0, 64⟩) := by
  decide +kernel
theorem test_decode_system : decodesTo 0xFF00072800000000 (.ctswap g1) ∧ decodesTo 0xFF0007100000002A (.bkpt g1 42) ∧
    decodesTo 0xFF000638048E0000 (.kvinv g1 .plain .none 9 7) ∧ decodesTo (near 0xEA 0 0 0 0 0) (.hyield g1) := by decide +kernel
theorem test_decode_refuses : decodeWords (near 0x01 1 2 3 0 1) 0 = .error .illegal ∧ decodeWords (near 0x23 0 0 0 0 0) 0 = .error .illegal ∧
    decodeWords (near 0x2C 16 0 0 0 0) 0 = .error .illegal ∧ decodeWords (near 0xC0 0 1 2 0 0x1F) 0 = .error .placement ∧
    decodeWords (word 0xFF 0 0 0 1 0x01 1 2 3 0 0) 0 = .error .placement := by decide +kernel
theorem test_encode_is_the_word : encode (.vadd ⟨0x30, 1, 2, 0⟩ vm 3 1 2) = [0x3012020060840000] ∧
    encode (.emcast g1 ⟨2, 2⟩ 21 8 9 10 ⟨some .bf16, 0, 63, 15, 128, 256⟩) = [0xFF000792A412500A, 0x403FF00020000100] := by
  decide +kernel

/-! States. -/

/-- The module with a program placed, nothing running behind. -/
def base : State := { State.reset.withFetchWord 64 0 with lag := .none, agenda := [] }

/-- The same with x registers set. -/
def regs (l : List (XReg × Word)) : State := { base with hart := l.foldl (fun h p => h.setX p.1 p.2) base.hart }

/-- Vector length 4 (or `n`), one row, every register of this tag. -/
def vecs (n : Nat) (t : Fmt) (blk : Bool) : State :=
  { base with hart := { base.hart with
      ctl := { base.hart.ctl with vl := BitVec.ofNat 18 n, vtag := t, vblk := blk }
      vec := { base.hart.vec with vtags := Vector.replicate 64 ⟨t, blk⟩ } } }

/-- With one register's bits and tag. -/
def holding (s : State) (n : Nat) (t : Fmt) (v : Nat) : State :=
  { s with hart := { s.hart with vec := { s.hart.vec with
      v := s.hart.vec.v.setIfInBounds n v, vtags := s.hart.vec.vtags.setIfInBounds n ⟨t, false⟩ } } }

def withX (s : State) (r : XReg) (v : Word) : State := { s with hart := s.hart.setX r v }
def withStart (s : State) (n : Nat) : State := { s with hart := { s.hart with ctl := { s.hart.ctl with vstart := BitVec.ofNat 18 n } } }
def withTail (s : State) (n : Nat) : State := { s with hart := { s.hart with ctl := { s.hart.ctl with vtail := BitVec.ofNat 5 n } } }
/-- With an entry in the queue that nothing has performed. -/
def withEntry (s : State) (i : Instr) : State := { s with hart := { s.hart with vq := [s.makeEntry i] } }

/-- What is asked of the next state. -/
def next (r : Result) (p : State → Bool) : Bool := match r with
  | .next t => p t
  | _ => false

/-! Single steps. Expected values worked out by hand from the entries of the manual. -/

def runs (s : State) (i : Instr) (p : State → Bool) : Bool := next (exec i s) p
/-- x[r] afterwards, pc 8 further. -/
def gives (s : State) (i : Instr) (r : XReg) (v : Word) : Bool := runs s i fun t => t.hart.getX r == v && t.hart.pc == 8

theorem test_add_wraps : gives (regs [(1, 0xFFFFFFFFFFFFFFFF), (2, 2)]) (.add g1 3 1 2) 3 1 = true := by decide +kernel
theorem test_sub_into_its_source : gives (regs [(1, 1), (2, 2)]) (.sub g1 1 1 2) 1 0xFFFFFFFFFFFFFFFF = true := by decide +kernel
theorem test_x0_discards : gives (regs [(1, 1)]) (.add g1 0 1 1) 0 0 = true := by decide +kernel
theorem test_shl_amount_modulo_64 : gives (regs [(1, 3), (2, 65)]) (.shl g1 3 1 2) 3 6 = true := by decide +kernel
theorem test_sra_keeps_sign : gives (regs [(1, 0x8000000000000000), (2, 4)]) (.sra g1 3 1 2) 3 0xF800000000000000 = true := by decide +kernel
theorem test_mulh_signed : gives (regs [(1, 0xFFFFFFFFFFFFFFFF), (2, 2)]) (.mulh g1 3 1 2) 3 0xFFFFFFFFFFFFFFFF = true := by decide +kernel
theorem test_mulhu_unsigned : gives (regs [(1, 0xFFFFFFFFFFFFFFFF), (2, 2)]) (.mulhu g1 3 1 2) 3 1 = true := by decide +kernel
theorem test_div_rounds_to_zero : gives (regs [(1, 0xFFFFFFFFFFFFFFF9), (2, 2)]) (.div g1 3 1 2) 3 0xFFFFFFFFFFFFFFFD = true := by decide +kernel
theorem test_div_by_zero_sets_dz :
    runs (regs [(1, 5)]) (.div g1 3 1 2) (fun t => t.hart.getX 3 == 0 && t.hart.ctl.iflags == 1) = true := by decide +kernel
theorem test_rem_sign_of_dividend : gives (regs [(1, 0xFFFFFFFFFFFFFFF9), (2, 2)]) (.rem g1 3 1 2) 3 0xFFFFFFFFFFFFFFFF = true := by
  decide +kernel
theorem test_clz_of_zero : gives base (.clz g1 3 1) 3 64 = true := by decide +kernel
theorem test_ext_sign_extends : gives (regs [(1, 0xFF00)]) (.ext g1 3 1 8 7 true) 3 0xFFFFFFFFFFFFFFFF = true := by decide +kernel
theorem test_ins_keeps_other_bits : gives (regs [(1, 0xFF), (3, 0xAAAAAAAA)]) (.ins g1 3 1 4 3) 3 0xAAAAAAFA = true := by decide +kernel
theorem test_addi_sign_extends : gives (regs [(1, 5)]) (.addi g1 3 1 0x1FFFF) 3 4 = true := by decide +kernel
theorem test_call_links : runs base (.call g1 5 4) (fun t => t.hart.getX 5 == 8 && t.hart.pc == 32) = true := by decide +kernel
theorem test_jr_misaligned_faults : runs (regs [(1, 4)]) (.jr g1 2 1) (fun t => t.hart.getX 2 == 0 && t.hart.pc == 0) = true := by
  decide +kernel
theorem test_setvl_tail : runs (regs [(1, 20)]) (.setvl g1 2 1 .e4m3 true true)
    (fun t => t.hart.ctl.vl == 32 && t.hart.ctl.vtail == 12 && t.hart.getX 2 == 20 && t.hart.ctl.sc == 1) = true := by decide +kernel
theorem test_false_guard_skips : gives (regs [(1, 1), (3, 9)]) (.add ⟨0, 0, 0, 0⟩ 3 1 1) 3 9 = true := by decide +kernel
theorem test_trap_enters_handler :
    runs { base with hart := { base.hart with trap := { base.hart.trap with vec := 0x20 } } } (.trap g1 7)
      (fun t => t.hart.pc == 0x100 && t.hart.trap.epc == 0 && t.hart.trap.code == 0x12 && t.hart.trap.trapno == 7 &&
        t.hart.trap.inh && t.hart.tresume == 8) = true := by decide +kernel

/-- Bits of v3 afterwards, as 4 elements of 8 bits. -/
def v3 (t : State) : List Nat := (List.range 4).map fun k => bits (t.hart.vec.getV 3) (8 * k) 8

theorem test_vadd_wraps_per_element : runs (holding (holding (vecs 4 .n8 false) 1 .n8 0x04FF0102) 2 .n8 0x0102FF03) (.vadd g1 vm 3 1 2)
    (fun t => v3 t == [5, 0, 1, 5]) = true := by decide +kernel
theorem test_vadds_saturates : runs (holding (holding (vecs 4 .s8 false) 1 .s8 0x7F80FF01) 2 .s8 0x01FF0101) (.vadds g1 vm 3 1 2)
    (fun t => v3 t == [2, 0, 0x80, 0x7F] && t.hart.ctl.iflags == 2) = true := by decide +kernel
theorem test_vadd_tag_mismatch_faults : runs (holding (holding (vecs 4 .n8 false) 1 .n8 1) 2 .s8 1) (.vadd g1 vm 3 1 2)
    (fun t => v3 t == [0, 0, 0, 0] && !t.hart.vq.isEmpty) = true := by decide +kernel
theorem test_vadd_tail_is_zero : runs (withTail (holding (holding (vecs 4 .n8 false) 1 .n8 0x04040404) 3 .n8 0xFFFFFFFF) 1) (.vadd g1 vm 3 1 1)
    (fun t => v3 t == [8, 8, 8, 0]) = true := by decide +kernel
theorem test_vredsum_to_scalar : runs (holding (vecs 4 .n8 false) 1 .n8 0x04030201) (.vredsum g1 vm 5 1 true)
    (fun t => t.hart.getX 5 == 10) = true := by decide +kernel
theorem test_vslideup : runs (withX (holding (vecs 4 .n8 false) 1 .n8 0x04030201) 2 1) (.vslideup g1 vm 3 1 2)
    (fun t => v3 t == [0, 1, 2, 3]) = true := by decide +kernel
theorem test_vextr_sign_extends : runs (withX (holding (vecs 4 .s8 false) 1 .s8 0x0000FF00) 2 1) (.vextr g1 vm 5 1 2)
    (fun t => t.hart.getX 5 == 0xFFFFFFFFFFFFFFFF) = true := by decide +kernel
theorem test_float_add_ties_to_even : runs (holding (holding (vecs 1 .fp32 false) 1 .fp32 0x4B800000) 2 .fp32 0x3F800000) (.vadd g1 vm 3 1 2)
    (fun t => t.hart.vec.getV 3 == 0x4B800000 && t.hart.ctl.fflags != 0) = true := by decide +kernel
theorem test_st_then_ld_little_endian :
    runs (regs [(1, 0x8004), (2, 0x1122334455667788)]) (.st g1 .w32 .plain .none 2 1)
      (fun t => gives { t with hart := { t.hart with pc := 0 } } (.ld g1 .w16 false .plain .none 3 1) 3 0x7788) = true := by decide +kernel
theorem test_amoadd_returns_old : runs (regs [(1, 0x8000), (2, 3)]) (.amoadd g1 false .plain .none 4 1 2)
    (fun t => t.hart.getX 4 == 0 && leValue ((List.range 4).map fun j => Memory.byte t.ms.mem (0x8000 + j)) == 3) = true := by decide +kernel
theorem test_amo_misaligned_faults : runs (regs [(1, 0x8002), (2, 3)]) (.amoadd g1 false .plain .none 4 1 2)
    (fun t => t.hart.pc == 0 && t.ms.mem == base.ms.mem) = true := by decide +kernel
theorem test_cmp_writes_pair : runs (regs [(1, 1), (2, 2)]) (.cmp g1 .ltu 2 1 2)
    (fun t => t.hart.vec.getK 8 2 % 256 == 255 && t.hart.vec.getK 8 3 == 0) = true := by decide +kernel
theorem test_step_runs_placed_instruction :
    next (step (State.reset.withFetchWord 64 0xFF0000F820000005)) (fun t => t.hart.getX 1 == 5 && t.hart.pc == 8) = true := by
  decide +kernel

/-! For each statement, states and operands that meet its hypotheses, one for each clause. -/

theorem witness_ScalarRegisterFormsResults : (∀ p ∈ twoSource, performs base (p.1 g1 1 2 3) g1) ∧ (∀ p ∈ oneSource, performs base (p.1 g1 1 2) g1) := by
  unfold performs; decide +kernel
theorem witness_BitFieldAndImmediateFormsResults :
    performs base (.ext g1 1 2 60 3 true) g1 ∧ performs base (.ins g1 1 2 0 63) g1 ∧ performs base (.addsh g1 1 2 3 63) g1 ∧
    (∀ p ∈ withImmediate, performs base (p.1 g1 1 2 0x10000) g1) ∧ (∀ p ∈ shiftImmediate, performs base (p.1 g1 1 2 63) g1) ∧
    performs base (.li g1 1 0x1FFFF) g1 ∧ performs base (.li64 g1 1 5) g1 ∧ base.gate .nop = .go ∧
    64 < (60 : BitVec 6).toNat + ((4 : BitVec 6).toNat + 1) ∧
    (let s := withEntry base (.vextr g1 vm 2 1 3)
     heldByNone s ∧ guardPasses s (.ins g1 2 1 0 7) ∧ (2 : XReg) ∈ s.hart.pendingX) := by
  unfold performs heldByNone guardPasses; decide +kernel
theorem witness_ControlAndLengthResults :
    performs base (.br g1 0x10000000) g1 ∧ performs base (.call g1 1 1) g1 ∧
    (performs (regs [(2, 8)]) (.jr g1 1 2) g1 ∧ (xOf (regs [(2, 8)]) 2).toNat % 8 = 0) ∧
    (performs (regs [(2, 4)]) (.jr g1 1 2) g1 ∧ (xOf (regs [(2, 4)]) 2).toNat % 8 ≠ 0) ∧
    performs base (.addpc g1 1 1) g1 ∧
    (performs (regs [(2, 1)]) (.bstrip g1 2 1) g1 ∧ (regs [(2, 1)]).hart.ctl.vl.toNat < (xOf (regs [(2, 1)]) 2).toNat) ∧
    (performs base (.bstrip g1 2 1) g1 ∧ (xOf base 2).toNat ≤ base.hart.ctl.vl.toNat) ∧
    performs base (.bstrip g1 0 1) g1 ∧
    (let s := withEntry base (.vcmp g1 vm .eq 2 1 3)
     heldByNone s ∧ ∃ k ∈ guardK ⟨0xF0, 2, 0, 0⟩, k ∈ s.hart.pendingK) ∧
    (heldByNone base ∧ (∀ k ∈ guardK ⟨0xF0, 2, 0, 0⟩, k ∉ base.hart.pendingK) ∧
      (∀ i ∈ [Instr.br ⟨0xF0, 2, 0, 0⟩ 1, .call ⟨0xF0, 2, 0, 0⟩ 1 1, .jr ⟨0xF0, 2, 0, 0⟩ 1 2, .addpc ⟨0xF0, 2, 0, 0⟩ 1 1,
        .bstrip ⟨0xF0, 2, 0, 0⟩ 1 1], base.hart.guardSpoilt i = false) ∧ base.hart.frontGuard ⟨0xF0, 2, 0, 0⟩ = false) ∧
    (let s := withEntry base (.vextr g1 vm 2 1 3)
     heldByNone s ∧ guardPasses s (.bstrip g1 2 1) ∧ (2 : XReg) ∈ s.hart.pendingX) ∧
    (performs base (.setvl g1 1 2 .bf16 true false) g1 ∧ Fmt.bf16.blockOk = false) ∧
    (performs base (.setvl g1 1 2 .e2m1 true true) g1 ∧ Fmt.e2m1.blockOk = true) ∧ performs base (.setrc g1 5) g1 := by
  unfold performs heldByNone guardPasses; decide +kernel
theorem witness_StateRegisterForms :
    (∀ r ∈ [SReg.vl, .rc, .vstart, .vtail, .vcfg, .sc, .fflags, .iflags, .frm, .srseed, .srctr, .fsite, .wid, .hartno, .ctgen, .plive,
      .trapvec, .epc, .ecause, .einfo, .tick], performs base (.mfs g1 1 r) g1) ∧
    (∀ r ∈ [SReg.vstart, .sc, .fflags, .iflags, .frm, .srseed, .srctr, .fsite, .trapvec, .epc, .einfo, .ecause],
      performs base (.mts g1 r 1) g1) ∧
    (performs (regs [(1, 1)]) (.mts g1 .frm 1) g1 ∧ performs (regs [(1, 5)]) (.mts g1 .frm 1) g1 ∧
      performs (regs [(1, 8)]) (.mts g1 .frm 1) g1) := by
  unfold performs; decide +kernel
theorem witness_SkipsAndWaits :
    (isEvent (.add ⟨0, 0, 0, 0⟩ 1 2 3) = false ∧ base.gate (.add ⟨0, 0, 0, 0⟩ 1 2 3) = .skip) ∧
    (withEntry base (.vextr g1 vm 2 1 3)).gate (.add g1 1 2 3) = .hold .resync ∧ nothingBehind base ∧
    (∃ e ∈ (withEntry base (.fenceVs g1)).hart.vq, isFirstFault e.instr = true ∨ isFenceVs e.instr = true) ∧
    (let s := withEntry base (.vcmp g1 vm .eq 2 1 3)
     let g : Guard := ⟨0xF0, 2, 0, 0⟩
     (∀ e ∈ s.hart.vq, isFirstFault e.instr = false ∧ isFenceVs e.instr = false) ∧ guardedWhole (.add g 1 2 3) = true ∧
       guardOf (.add g 1 2 3) = some g ∧ ∃ k ∈ guardK g, k ∈ s.hart.pendingK) := by
  unfold nothingBehind; decide +kernel
theorem witness_HardwiredRegisters : (5 : XReg) ≠ 0 ∧ (15 : KReg) ≠ 0 ∧ base.hart.vec.plive.getLsbD 15 = false := by decide +kernel

/-- A queue with `n` entries, the vector side lagging. -/
def full (n : Nat) : State :=
  { base with hart := { base.hart with vq := List.replicate n (base.makeEntry (.vadd g1 vm 1 2 3)) }, lag := .behind }

theorem witness_QueueIssueCapturesValues : inVq (.vadd g1 vm 1 2 3) = true ∧
    ((full 31).gate (.vadd g1 vm 1 2 3) = .go ∧ (full 31).hart.vq.length < 32 ∧ (full 31).lag.vq = true) ∧
    ((full 32).gate (.vadd g1 vm 1 2 3) = .go ∧ ¬(full 32).hart.vq.length < 32) ∧
    usesSr (.vadd g1 ⟨false, .sr, false, .none, .none, false⟩ 1 2 3) base.hart.ctl.frm = true ∧
    (entryX (.vld g1 mm 1 2)).1 = some 2 ∧ (entryX (.vlds g1 mm 1 2 3)).2 = some 3 := by decide +kernel

/-- Tags that do not go together. -/
def mixed : State := holding (vecs 4 .n8 false) 3 .fp32 0

theorem witness_VectorArithmeticResults :
    (∀ p ∈ twoSourceForms, ∀ n ∈ [0, 4], takenAtOnce (vecs n .n8 false) (p.instr g1 vm 1 2 3) ∧
      (envOf (vecs n .n8 false) (p.instr g1 vm 1 2 3)).resultFmt false [2, 3] = some .n8 ∧
      p.admits.ok ((envOf (vecs n .n8 false) (p.instr g1 vm 1 2 3)).tag 2).fmt = true ∧
      sweepFits (envOf (vecs n .n8 false) (p.instr g1 vm 1 2 3)) [1, 2, 3]
        [(envOf (vecs n .n8 false) (p.instr g1 vm 1 2 3)).use 2 .none, (envOf (vecs n .n8 false) (p.instr g1 vm 1 2 3)).use 3 .none] 1 8) ∧
    (∀ p ∈ twoSourceForms, takenAtOnce mixed (p.instr g1 vm 1 2 3) ∧ (envOf mixed (p.instr g1 vm 1 2 3)).resultFmt false [2, 3] = none) ∧
    (takenAtOnce (vecs 4 .fp32 false) (.vmulh g1 vm 1 2 3) ∧
      Admits.ints.ok ((envOf (vecs 4 .fp32 false) (.vmulh g1 vm 1 2 3)).tag 2).fmt = false) := by
  unfold takenAtOnce soundRegs sweepFits; decide +kernel
theorem witness_FusedArithmeticResults :
    (∀ p ∈ fusedForms, takenAtOnce (vecs 4 .fp32 false) (p.1 g1 vm 1 2 3 4) ∧
      (envOf (vecs 4 .fp32 false) (p.1 g1 vm 1 2 3 4)).resultFmt false [2, 3] = some .fp32 ∧
      (envOf (vecs 4 .fp32 false) (p.1 g1 vm 1 2 3 4)).tag 4 = ⟨.fp32, false⟩ ∧
      (let v := envOf (vecs 4 .fp32 false) (p.1 g1 vm 1 2 3 4)
       sweepFits v [1, 2, 3, 4] [v.use 2 .none, v.use 3 .none, v.use 4 .none] 1 32)) ∧
    (∀ p ∈ fusedForms, takenAtOnce mixed (p.1 g1 vm 1 2 3 4) ∧ (envOf mixed (p.1 g1 vm 1 2 3 4)).resultFmt false [2, 3] = none) ∧
    (∀ p ∈ fusedForms, takenAtOnce mixed (p.1 g1 vm 1 2 4 3) ∧ (envOf mixed (p.1 g1 vm 1 2 4 3)).resultFmt false [2, 4] = some .n8 ∧
      (envOf mixed (p.1 g1 vm 1 2 4 3)).tag 3 ≠ ⟨.n8, false⟩) := by
  unfold takenAtOnce soundRegs sweepFits; decide +kernel
theorem witness_BitwiseAndShiftResults :
    (∀ p ∈ bitwiseForms, takenAtOnce (vecs 4 .n8 false) (p.1 g1 vm 1 2 3) ∧
      (let v := envOf (vecs 4 .n8 false) (p.1 g1 vm 1 2 3)
       v.tag 2 = ⟨.n8, false⟩ ∧ v.tag 3 = ⟨.n8, false⟩ ∧ p.2.1.ok .n8 = true ∧ sweepFits v [1, 2, 3] [v.use 2 .none, v.use 3 .none] 1 8)) ∧
    (∀ p ∈ bitwiseForms, takenAtOnce mixed (p.1 g1 vm 1 2 3) ∧ (envOf mixed (p.1 g1 vm 1 2 3)).tag 3 ≠ ⟨.n8, false⟩) := by
  unfold takenAtOnce soundRegs sweepFits; decide +kernel
theorem witness_UnaryAndScaleResults :
    (∀ p ∈ oneSourceForms, takenAtOnce (vecs 4 .fp32 false) (p.instr g1 vm 1 2) ∧
      (let v := envOf (vecs 4 .fp32 false) (p.instr g1 vm 1 2)
       v.resultFmt false [2] = some .fp32 ∧ p.admits.ok (v.tag 2).fmt = true ∧ sweepFits v [1, 2] [v.use 2 .none] 1 32)) ∧
    (takenAtOnce (vecs 4 .n8 false) (.vsqrt g1 vm 1 2) ∧
      Admits.floats.ok ((envOf (vecs 4 .n8 false) (.vsqrt g1 vm 1 2)).tag 2).fmt = false) ∧
    (∀ t ∈ [Fmt.s8, .s16, .s32, .n8], let s := holding (vecs 4 .fp32 false) 3 t 0
      let v := envOf s (.vscale g1 vm 1 2 3)
      takenAtOnce s (.vscale g1 vm 1 2 3) ∧ v.pairOk 2 = true ∧ fmtIsFloat (v.tag 2).fmt = true ∧ (v.tag 3).blk = false ∧ (v.tag 3).fmt = t ∧
        sweepFits v [1, 2, 3] [v.use 2 .none, v.use 3 .none] 1 32) ∧
    (takenAtOnce (vecs 4 .n8 false) (.vscale g1 vm 1 2 3) ∧
      fmtIsFloat ((envOf (vecs 4 .n8 false) (.vscale g1 vm 1 2 3)).tag 2).fmt = false) := by
  unfold takenAtOnce soundRegs sweepFits; decide +kernel
theorem witness_VectorCompareResults :
    (let s := vecs 4 .fp32 false
     let v := envOf s (.vcmp g1 vm .un 0 1 2)
     takenAtOnce s (.vcmp g1 vm .un 0 1 2) ∧ v.pairOk 1 = true ∧ v.pairOk 2 = true ∧ (v.tag 2).fmt = (v.tag 1).fmt ∧
       fmtIsFloat (v.tag 1).fmt = true ∧ v.tooLong [1, 2] 32 = false) ∧
    (takenAtOnce (vecs 4 .n8 false) (.vcmp g1 vm .ord 2 1 2) ∧
      fmtIsFloat ((envOf (vecs 4 .n8 false) (.vcmp g1 vm .ord 2 1 2)).tag 1).fmt = false) := by
  unfold takenAtOnce soundRegs; decide +kernel

theorem witness_ConversionResults_vcvt :
    (let s := vecs 4 .fp32 false
     let i := Instr.vcvt g1 vm 1 2 .e4m3 false true
     let v := envOf s i
     takenAtOnce s i ∧ v.pairOk 2 = true ∧ v.tooLong [1, 2] 32 = false ∧ overlapBad [v.use 2 .none] [.near 1] 8 = false) ∧
    (let s := vecs 32 .fp32 false
     let i := Instr.vcvt g1 vm 4 2 .e2m1 true false
     let v := envOf s i
     takenAtOnce s i ∧ v.pairOk 2 = true ∧ Fmt.e2m1.blockOk = true ∧ v.tooLong [4, 2] 32 = false ∧
       overlapBad [v.use 2 .none] [.near 4, .near 5] 4 = false) ∧
    (takenAtOnce (vecs 32 .fp32 false) (.vcvt g1 vm 5 2 .e2m1 true false)) ∧
    takenAtOnce (vecs 32 .fp32 false) (.vcvt g1 vm 4 2 .fp16 true false) := by
  unfold takenAtOnce soundRegs; decide +kernel
theorem witness_ConversionResults_vqmx :
    (let s := vecs 32 .fp32 false
     let i := Instr.vqmx g1 vm 4 2 .e4m3
     let v := envOf s i
     takenAtOnce s i ∧ fmtIsFloat (v.tag 2).fmt = true ∧ (v.tag 2).blk = false ∧ v.e.vl % 32 = 0 ∧ v.tooLong [4, 2] 32 = false ∧
       overlapBad [v.use 2 .none] [.near 4, .near 5] 8 = false) ∧
    (takenAtOnce (vecs 32 .n8 false) (.vqmx g1 vm 4 2 .e4m3) ∧
      fmtIsFloat ((envOf (vecs 32 .n8 false) (.vqmx g1 vm 4 2 .e4m3)).tag 2).fmt = false) := by
  unfold takenAtOnce soundRegs; decide +kernel
theorem witness_ConversionResults_halves :
    (let s := vecs 4 .fp32 false
     let v := envOf s (.vpack g1 vm 1 2 3)
     takenAtOnce s (.vpack g1 vm 1 2 3) ∧ v.tag 3 = v.tag 2 ∧ halfFmt (v.tag 2).fmt = some .bf16 ∧ v.tooLong [1, 2, 3] 32 = false ∧
       overlapBad [v.use 2 .none, v.use 3 .none] [.near 1] 16 = false) ∧
    (let s := vecs 4 .n4 false
     takenAtOnce s (.vpack g1 vm 1 2 3) ∧ halfFmt ((envOf s (.vpack g1 vm 1 2 3)).tag 2).fmt = none) ∧
    (takenAtOnce mixed (.vpack g1 vm 1 2 3) ∧ (envOf mixed (.vpack g1 vm 1 2 3)).tag 3 ≠ (envOf mixed (.vpack g1 vm 1 2 3)).tag 2) ∧
    (let s := vecs 4 .n8 false
     let v := envOf s (.vunpk g1 vm 1 2 true)
     takenAtOnce s (.vunpk g1 vm 1 2 true) ∧ (v.tag 2).blk = false ∧ wideFmt (v.tag 2).fmt = some .n16 ∧
       sweepFits v [1, 2] [v.use 2 .none] 1 16) ∧
    (let s := vecs 4 .fp32 false
     takenAtOnce s (.vunpk g1 vm 1 2 true) ∧ wideFmt ((envOf s (.vunpk g1 vm 1 2 true)).tag 2).fmt = none) := by
  unfold takenAtOnce soundRegs sweepFits; decide +kernel
theorem witness_MoveAndInsertResults :
    (let s := vecs 4 .n8 false
     let v := envOf s (.vmov g1 vm 1 2)
     takenAtOnce s (.vmov g1 vm 1 2) ∧ v.pairOk 2 = true ∧ (v.tag 2).blk = false ∧ v.tooLong [1, 2] 8 = false ∧
       overlapBad [v.use 2 .none] [.near 1] 8 = false) ∧
    (let s := holding (holding (vecs 32 .e4m3 true) 3 .n8 0) 5 .n8 0
     let v := envOf s (.vmov g1 vm 4 2)
     takenAtOnce s (.vmov g1 vm 4 2) ∧ v.pairOk 2 = true ∧ (v.tag 2).blk = true ∧ (v.tag 2).fmt.blockOk = true ∧
       v.tooLong [4, 2] 8 = false ∧ overlapBad [v.use 2 .none] [.near 4, .near 5] 8 = false) := by
  unfold takenAtOnce soundRegs; decide +kernel
theorem witness_MoveAndInsertResults_elements :
    (let s := withX (vecs 4 .n8 false) 3 3
     let v := envOf s (.vins g1 vm 1 2 3)
     takenAtOnce s (.vins g1 vm 1 2 3) ∧ (xOf s 3).toNat < v.positions ∧ v.tooLong [1] 8 = false) ∧
    (let s := withX (vecs 4 .n8 false) 3 4
     takenAtOnce s (.vins g1 vm 1 2 3) ∧ (envOf s (.vins g1 vm 1 2 3)).positions ≤ (xOf s 3).toNat ∧
     takenAtOnce s (.vextr g1 vm 1 2 3) ∧ (envOf s (.vextr g1 vm 1 2 3)).vec.guard00 (envOf s (.vextr g1 vm 1 2 3)).klen g1 = true ∧
     (envOf s (.vextr g1 vm 1 2 3)).positions ≤ (xOf s 3).toNat) ∧
    (let s := withX (vecs 4 .s8 false) 3 3
     takenAtOnce s (.vextr g1 vm 1 2 3) ∧ (envOf s (.vextr g1 vm 1 2 3)).vec.guard00 (envOf s (.vextr g1 vm 1 2 3)).klen g1 = true ∧
     (xOf s 3).toNat < (envOf s (.vextr g1 vm 1 2 3)).positions) ∧
    (let s := vecs 4 .s8 false
     takenAtOnce s (.vextr ⟨0, 0, 0, 0⟩ vm 1 2 3) ∧
     (envOf s (.vextr ⟨0, 0, 0, 0⟩ vm 1 2 3)).vec.guard00 (envOf s (.vextr ⟨0, 0, 0, 0⟩ vm 1 2 3)).klen ⟨0, 0, 0, 0⟩ = false) := by
  unfold takenAtOnce soundRegs; decide +kernel
theorem witness_ReductionResults :
    ∀ p ∈ reductions, ∀ sc ∈ [true, false],
      takenAtOnce (vecs 4 .s8 false) (p.1 g1 vm 1 2 sc) ∧ (envOf (vecs 4 .s8 false) (p.1 g1 vm 1 2 sc)).pairOk 2 = true ∧
      accFmt p.2 false false ((envOf (vecs 4 .s8 false) (p.1 g1 vm 1 2 sc)).tag 2).fmt = some .s8 ∧
      (envOf (vecs 4 .s8 false) (p.1 g1 vm 1 2 sc)).e.rc = 0 ∧
      wholeFits (envOf (vecs 4 .s8 false) (p.1 g1 vm 1 2 sc)) (if sc then [2] else [1, 2]) 8 := by
  unfold takenAtOnce soundRegs wholeFits; decide +kernel
theorem witness_ReductionResults_fault :
    takenAtOnce (vecs 4 .fp32 false) (.vredand g1 vm 1 2 false) ∧
      accFmt .and false false ((envOf (vecs 4 .fp32 false) (.vredand g1 vm 1 2 false)).tag 2).fmt = none := by
  unfold takenAtOnce soundRegs; decide +kernel
theorem witness_ReductionResults_best :
    ∀ sc ∈ [true, false], takenAtOnce (vecs 4 .fp32 false) (.vargmax g1 vm 1 2 sc) ∧
      (envOf (vecs 4 .fp32 false) (.vargmax g1 vm 1 2 sc)).pairOk 2 = true ∧ (envOf (vecs 4 .fp32 false) (.vargmax g1 vm 1 2 sc)).e.rc = 0 ∧
      wholeFits (envOf (vecs 4 .fp32 false) (.vargmax g1 vm 1 2 sc)) (if sc then [2] else [1, 2]) 32 := by
  unfold takenAtOnce soundRegs wholeFits; decide +kernel
theorem witness_ReductionResults_dot :
    ∀ sc ∈ [true, false], takenAtOnce (vecs 4 .fp32 false) (.vdot g1 vm 1 2 3 sc) ∧
      (envOf (vecs 4 .fp32 false) (.vdot g1 vm 1 2 3 sc)).pairOk 2 = true ∧ (envOf (vecs 4 .fp32 false) (.vdot g1 vm 1 2 3 sc)).pairOk 3 = true ∧
      accFmt .sum false false ((envOf (vecs 4 .fp32 false) (.vdot g1 vm 1 2 3 sc)).tag 2).fmt = some .fp32 ∧
      ((envOf (vecs 4 .fp32 false) (.vdot g1 vm 1 2 3 sc)).tag 3).fmt = ((envOf (vecs 4 .fp32 false) (.vdot g1 vm 1 2 3 sc)).tag 2).fmt ∧
      wholeFits (envOf (vecs 4 .fp32 false) (.vdot g1 vm 1 2 3 sc)) (if sc then [2, 3] else [1, 2, 3]) 32 := by
  unfold takenAtOnce soundRegs wholeFits; decide +kernel
theorem witness_PermutationResults : ∀ p ∈ ([(.vgathr g1 vm 1 2 3, [1, 2, 3]), (.vslideup g1 vm 1 2 3, [1, 2]), (.vslidedn g1 vm 1 2 3, [1, 2]),
      (.vcompress g1 vm 1 2 3, [1, 2]), (.vexpand g1 vm 1 2 3, [1, 2]), (.viota g1 vm 1 2, [1]), (.vtransp g1 vm 1 2, [1, 2])] :
      List (Instr × List VReg)),
    takenAtOnce (vecs 4 .n8 false) p.1 ∧ ((envOf (vecs 4 .n8 false) p.1).tag 2).blk = false ∧ wholeFits (envOf (vecs 4 .n8 false) p.1) p.2 8 := by
  unfold takenAtOnce soundRegs wholeFits; decide +kernel
theorem witness_PermutationResults_operands :
    (fmtKind ((envOf (vecs 4 .n8 false) (.vgathr g1 vm 1 2 3)).tag 3).fmt = .unsigned ∧
      ((envOf (vecs 4 .n8 false) (.vgathr g1 vm 1 2 3)).tag 3).blk = false) ∧
    (fmtIsFloat (envOf (vecs 4 .n8 false) (.viota g1 vm 1 2)).e.vtag = false ∧ (envOf (vecs 4 .n8 false) (.viota g1 vm 1 2)).e.vblk = false) ∧
    (envOf (vecs 4 .n8 false) (.vtransp g1 vm 1 2)).e.vl % (envOf (vecs 4 .n8 false) (.vtransp g1 vm 1 2)).rows = 0 := by decide +kernel
theorem witness_SoftmaxAndTopKResults :
    (let s := vecs 4 .fp32 false
     let v := envOf s (.vsmax g1 vm 1 2)
     takenAtOnce s (.vsmax g1 vm 1 2) ∧ v.pairOk 2 = true ∧ fmtIsFloat (v.tag 2).fmt = true ∧ v.tag 1 = ⟨.fp32, false⟩ ∧
       wholeFits v [1, 2] 32 ∧ 128 ≤ v.rowBits (.near 1)) ∧
    (takenAtOnce (vecs 4 .n8 false) (.vsmax g1 vm 1 2) ∧ fmtIsFloat ((envOf (vecs 4 .n8 false) (.vsmax g1 vm 1 2)).tag 2).fmt = false) := by
  unfold takenAtOnce soundRegs wholeFits; decide +kernel
theorem witness_SoftmaxAndTopKResults_best :
    (let s := withX (vecs 4 .n8 false) 3 4
     let v := envOf s (.vtopk g1 vm 4 2 3)
     takenAtOnce s (.vtopk g1 vm 4 2 3) ∧ (v.tag 2).blk = false ∧ (xOf s 3).toNat = min v.e.vl 1024 ∧ wholeFits v [4, 2] 32) ∧
    (let s := withX (vecs 4 .n8 false) 3 5
     takenAtOnce s (.vtopk g1 vm 4 2 3) ∧ ((envOf s (.vtopk g1 vm 4 2 3)).tag 2).blk = false ∧
       min (envOf s (.vtopk g1 vm 4 2 3)).e.vl 1024 < (xOf s 3).toNat) ∧
    (takenAtOnce (vecs 4 .n8 false) (.vtopk g1 vm 4 2 3) ∧ (xOf (vecs 4 .n8 false) 3).toNat = 0) ∧
    (takenAtOnce (vecs 32 .e4m3 true) (.vtopk g1 vm 4 2 3) ∧ ((envOf (vecs 32 .e4m3 true) (.vtopk g1 vm 4 2 3)).tag 2).blk = true) := by
  unfold takenAtOnce soundRegs wholeFits; decide +kernel
theorem witness_PredicateWriterResults :
    (∀ i ∈ [Instr.cmp g1 .ltu 0 1 2, .cmpi g1 .eq 14 1 0x10000, .klog g1 15 1 2 3 0x96, .kset g1 1 2, .kfromx g1 1 2 3, .kdead g1 0xFFFF,
      .mts g1 .plive 1], takenAtOnce (vecs 4 .n8 false) i ∧ wholeGuard (vecs 4 .n8 false) i g1 = true) ∧
    (takenAtOnce base (.cmp ⟨0, 0, 0, 0⟩ .eq 2 1 2) ∧ wholeGuard base (.cmp ⟨0, 0, 0, 0⟩ .eq 2 1 2) ⟨0, 0, 0, 0⟩ = false) ∧
    (let v := envOf (vecs 4 .n8 false) (.kset g1 1 2)
     v.e.vl * v.rows ≤ v.klen) ∧
    (let v := envOf base (.kfromx g1 1 2 3)
     (xOf base 3).toNat < v.vlenb / 32) ∧
    (let s := regs [(3, BitVec.ofNat 64 ((envOf base (.kfromx g1 1 2 3)).vlenb / 32))]
     takenAtOnce s (.kfromx g1 1 2 3) ∧ (envOf s (.kfromx g1 1 2 3)).vlenb / 32 ≤ (xOf s 3).toNat ∧
       wholeGuard s (.kfromx g1 1 2 3) g1 = true ∧ takenAtOnce s (.kfromx ⟨0, 0, 0, 0⟩ 1 2 3) ∧
       wholeGuard s (.kfromx ⟨0, 0, 0, 0⟩ 1 2 3) ⟨0, 0, 0, 0⟩ = false) := by
  unfold takenAtOnce soundRegs; decide +kernel
theorem witness_PredicateReaderResults :
    (∀ i ∈ [Instr.ktest g1 .all 1 2, .kfirst g1 1 2, .ktox g1 1 2 3, .vtag g1 4 .e4m3 true, .fenceVs g1, .fenceVv g1],
      takenAtOnce (vecs 4 .n8 false) i ∧ wholeGuard (vecs 4 .n8 false) i g1 = true) ∧
    (∀ i ∈ [Instr.ktest ⟨0, 0, 0, 0⟩ .all 1 2, .kfirst ⟨0, 0, 0, 0⟩ 1 2, .ktox ⟨0, 0, 0, 0⟩ 1 2 3, .vtag ⟨0, 0, 0, 0⟩ 4 .n8 false],
      takenAtOnce base i ∧ wholeGuard base i ⟨0, 0, 0, 0⟩ = false) ∧
    (takenAtOnce base (.vtag g1 5 .e4m3 true) ∧ Fmt.bf16.blockOk = false) ∧
    (let s := regs [(3, BitVec.ofNat 64 ((envOf base (.ktox g1 1 2 3)).vlenb / 32))]
     (xOf base 3).toNat < (envOf base (.ktox g1 1 2 3)).vlenb / 32 ∧ takenAtOnce s (.ktox g1 1 2 3) ∧
       (envOf s (.ktox g1 1 2 3)).vlenb / 32 ≤ (xOf s 3).toNat ∧ wholeGuard s (.ktox g1 1 2 3) g1 = true) := by
  unfold takenAtOnce soundRegs; decide +kernel

/-- Panel descriptors: of which the outer product from the local store takes one step of one FP32 element. -/
def panels (s : State) (w : Word) : State := withX (withX s 2 w) 3 w

theorem witness_OuterProductResults :
    (let s := vecs 512 .e4m3 false
     let v := envOf s (.zopa g1 false 0 1 2)
     takenAtOnce s (.zopa g1 false 0 1 2) ∧ v.pairOk 1 = true ∧ v.pairOk 2 = true ∧ zopaDepth (v.tag 1) (v.tag 2) = some 2 ∧
       v.e.vl % 2 = 0 ∧ v.e.vl / 2 % 2 = 0 ∧ v.e.vl / 2 = 128 * 2 ∧ v.e.vtail = 0 ∧ v.e.start % v.e.vl = 0 ∧ v.tooLong [1, 2] 8 = false) ∧
    (let s := vecs 4 .n8 false
     takenAtOnce s (.zopa g1 false 0 1 2) ∧
       zopaDepth ((envOf s (.zopa g1 false 0 1 2)).tag 1) ((envOf s (.zopa g1 false 0 1 2)).tag 2) = none) ∧
    (takenAtOnce base (.zopaL ⟨0, 0, 0, 0⟩ false 0 2 3) ∧ wholeGuard base (.zopaL ⟨0, 0, 0, 0⟩ false 0 2 3) ⟨0, 0, 0, 0⟩ = false) := by
  unfold takenAtOnce soundRegs; decide +kernel
theorem witness_TileFillDrainResults :
    (takenAtOnce base (.zzero g1 7) ∧ wholeGuard base (.zzero g1 7) g1 = true ∧ takenAtOnce base (.zzero ⟨0, 0, 0, 0⟩ 7) ∧
      wholeGuard base (.zzero ⟨0, 0, 0, 0⟩ 7) ⟨0, 0, 0, 0⟩ = false) ∧
    (let s := withX (vecs 128 .fp32 false) 3 127
     let v := envOf s (.zfill g1 true 1 2 3)
     takenAtOnce s (.zfill g1 true 1 2 3) ∧ v.pairOk 2 = true ∧ v.e.vl ≤ 128 ∧ (xOf s 3).toNat + v.rows ≤ 128 ∧ v.tooLong [2] 32 = false) ∧
    (let s := withX (vecs 4 .fp32 false) 3 128
     let v := envOf s (.zfill g1 true 1 2 3)
     takenAtOnce s (.zfill g1 true 1 2 3) ∧ v.pairOk 2 = true ∧ 128 < (xOf s 3).toNat + v.rows) ∧
    (let s := withX (vecs 128 .fp16 false) 3 127
     let v := envOf s (.zdrain g1 .rz true 1 2 3)
     takenAtOnce s (.zdrain g1 .rz true 1 2 3) ∧ v.e.vblk = false ∧ v.e.vtag ∈ [Fmt.fp32, .fp16, .bf16, .e5m2, .e4m3] ∧ v.e.vl ≤ 128 ∧
       (xOf s 3).toNat + v.rows ≤ 128 ∧ v.tooLong [1] 32 = false) ∧
    (takenAtOnce (vecs 4 .n8 false) (.zdrain g1 .rz true 1 2 3)) ∧
    (let s := withX (vecs 129 .fp16 false) 3 0
     takenAtOnce s (.zdrain g1 .rz true 1 2 3) ∧ 128 < (envOf s (.zdrain g1 .rz true 1 2 3)).e.vl) := by
  unfold takenAtOnce soundRegs; decide +kernel

/-- A kernel whose groups have 4 harts, 2 barrier records and 4 KiB of local store; base runs it. -/
def kernel4 : Kernel :=
  ⟨0, 0, 0x20000, ⟨0, 0, [4], [4], 0, 2, 0, 4096, 0, 0, []⟩, .running, 0, none, 0, 0, none, none, true⟩
def kerned : State := { base with cmp := { base.cmp with kernels := [kernel4] } }

/-- A panel of one step of one BF16 element at offset 0. -/
def panelWord : Word := BitVec.ofNat 64 (13 * 2 ^ 60 + 2 ^ 33)

theorem witness_OuterProductResults_store :
    (let s := withX kerned 2 panelWord
     let i := Instr.zopaL g1 false 0 2 2
     let p := panelOf (xOf s 2)
     takenAtOnce s i ∧ wholeGuard s i g1 = true ∧ zopaDepth p.tag p.tag = some 1 ∧ p.blockOk 1 = true ∧ p.bytes 1 ≤ 64 * p.rpitch ∧
       p.inside 1 (s.lstoreOf s.hart.kern) = true) ∧
    (takenAtOnce kerned (.zopaL g1 false 0 2 3) ∧ wholeGuard kerned (.zopaL g1 false 0 2 3) g1 = true ∧
      zopaDepth (panelOf (xOf kerned 2)).tag (panelOf (xOf kerned 3)).tag = none) := by
  unfold takenAtOnce soundRegs; decide +kernel

theorem setAD_of {s : State} {l : Leaf} {b : Bool} (h : s.ms.creadNat l.pte 8 = s.ms.creadNat l.pte 8 ||| needAD b) : s.setAD l b = s := by
  unfold State.setAD
  simp only
  rw [if_pos (.inr h)]

/-- Parts in device memory through leaves whose bits stand. -/
def placed (s : State) (store : Bool) (ps : List Part) : Bool :=
  ps.all fun p => match p.place, p.leaf with
    | .device _, some l => s.ms.creadNat l.pte 8 == (s.ms.creadNat l.pte 8 ||| needAD store)
    | _, _ => false

theorem devicePlaced_of {s : State} {b : Bool} {ps : List Part} (h : placed s b ps = true) : devicePlaced s b ps := by
  intro p hp
  have h := List.all_eq_true.mp h p hp
  obtain ⟨off, n, pl, lf⟩ := p
  cases pl with
  | device pa =>
    cases lf with
    | some l => exact ⟨pa, l, rfl, rfl, setAD_of (eq_of_beq h)⟩
    | none => cases h
  | _ => cases h

/-- The access resolves to device memory, `n` parts. -/
def lands (s : State) (k : Want) (va n : Nat) (store : Bool) (parts : Nat) : Bool :=
  match s.resolve s.agent k va n with
  | .ok ps => placed s store ps && ps.length == parts
  | _ => false

theorem devicePlaced_of_lands {s : State} {k : Want} {va n parts : Nat} {b : Bool} (h : lands s k va n b parts = true) :
    ∃ ps, s.resolve s.agent k va n = .ok ps ∧ devicePlaced s b ps := by
  unfold lands at h
  split at h
  · exact ⟨_, ‹_›, devicePlaced_of (Bool.and_eq_true_iff.mp h).1⟩
  · contradiction

theorem base_is_quiet : quietMemory base := by unfold quietMemory memoryOk; decide +kernel

theorem witness_ScalarLoadResults : (∀ w ∈ [Width.w8, .w16, .w32, .w64], performs base (.ld g1 w false .plain .none 1 2) g1) ∧
    performs base (.ld g1 .w64 false .acquire .system 1 2) g1 ∧ quietMemory base ∧
    (∃ ps, base.resolve base.agent (ldNeeds .acquire 8) 0x8000 8 = .ok ps ∧ devicePlaced base false ps) ∧
    ∃ ps, base.resolve base.agent (ldNeeds .plain 8) 0xFFFC 8 = .ok ps ∧ devicePlaced base false ps :=
  ⟨by unfold performs; decide +kernel, by unfold performs; decide +kernel, base_is_quiet,
    devicePlaced_of_lands (parts := 1) (by decide +kernel), devicePlaced_of_lands (parts := 2) (by decide +kernel)⟩

theorem witness_ScalarStoreResults : performs base (.st g1 .w64 .plain .none 1 2) g1 ∧ performs base (.st g1 .w64 .release .system 1 2) g1 ∧
    performs base (.qsig g1 1 2) g1 ∧ quietMemory base ∧
    (∃ ps, base.resolve base.agent (stNeeds .release 8) 0x8000 8 = .ok ps ∧ devicePlaced base true ps) ∧
    (∃ ps, base.resolve base.agent (stNeeds .plain 8) 0xFFFC 8 = .ok ps ∧ devicePlaced base true ps) ∧
    releaseReady base .release .system :=
  ⟨by unfold performs; decide +kernel, by unfold performs; decide +kernel, by unfold performs; decide +kernel, base_is_quiet,
    devicePlaced_of_lands (parts := 1) (by decide +kernel), devicePlaced_of_lands (parts := 2) (by decide +kernel),
    by unfold releaseReady; decide +kernel⟩

theorem witness_StoredBytesReadBack : memoryOk base ∧ base.ms.reduce = [] := by unfold memoryOk; decide +kernel

theorem witness_ScalarAtomicResults :
    (∀ p ∈ atomicForms, ∀ w ∈ [true, false], performs base (p.1 g1 w .acqRel .device 1 2 3) g1) ∧
    (∀ w ∈ [true, false], performs base (.amocas g1 w .plain .none 1 2 3 4) g1) ∧ performs base (.amofadd g1 .plain .none 1 2 3) g1 ∧
    quietMemory base ∧ releaseReady base .acqRel .device ∧
    ∃ ps, base.resolve base.agent (atomicNeeds true 8) 0x8000 8 = .ok ps ∧ devicePlaced base true ps :=
  ⟨by unfold performs; decide +kernel, by unfold performs; decide +kernel, by unfold performs; decide +kernel, base_is_quiet,
    by unfold releaseReady; decide +kernel, devicePlaced_of_lands (parts := 1) (by decide +kernel)⟩

/-- A store of the hart in focus to the host that has not been acknowledged. -/
def waitingStore (s : State) : State := { s with link := { s.link with waiting := [⟨s.hart.poster, s.hart.ctx, 0x8000, 8, none, none⟩] } }

/-- The pieces a FENCE.STK of a mask covers. -/
def coveredBy (mask : BitVec 16) (h : Hart) (p : FarPiece) : Bool := p.hart == h.no && mask.getLsbD p.stack

theorem witness_FenceResults :
    (performs base (.fence g1 .acqRel .system) g1 ∧ base.hart.vq = [] ∧ base.unacked base.hart.owner = false) ∧
    (let s := waitingStore base
     performs s (.fence g1 .release .system) g1 ∧ s.unacked s.hart.owner = true ∧ performs s (.fenceSv g1) g1 ∧
       performs s (.fenceStk g1 1) g1 ∧ (s.completeWanted (coveredBy 1 s.hart)).unacked s.hart.owner = true) ∧
    (performs (withEntry base (.vadd g1 vm 1 2 3)) (.fence g1 .acquire .group) g1 ∧ (withEntry base (.vadd g1 vm 1 2 3)).hart.vq ≠ []) ∧
    performs base (.fenceSv g1) g1 ∧
    (let c := base.completeWanted (coveredBy 0 base.hart)
     performs base (.fenceStk g1 0) g1 ∧ c.far.pieces.any (coveredBy 0 c.hart) = false ∧ c.unacked c.hart.owner = false) ∧
    (∀ p ∈ base.far.pieces, p.hart = base.hart.no → (0xFFFF : BitVec 16).getLsbD p.stack = false) := by
  unfold performs; decide +kernel

/-- x1 at 0x8000, x2 = 8, v2 offsets. -/
def loads (n : Nat) (t : Fmt) (blk : Bool) : State := withX (withX (vecs n t blk) 1 0x8000) 2 8

/-- Every performed element of the load reads zeros and changes nothing. -/
def reads (s : State) (i : Instr) (form : Form) (w n : Nat) (k : Want) (plain : Bool) : Bool :=
  (performedPositions (envOf s i)).all fun p =>
    (issued s i).readOn (issued s i).nearStream k plain (elementAt (envOf s i) form w (p / (envOf s i).e.vl) (p % (envOf s i).e.vl)).1 n ==
      .ok (List.replicate n 0, issued s i)

theorem witness_VectorLoadResults :
    (takenAtOnce (loads 4 .n8 false) (.vld g1 mm 4 1) ∧ loadTagsOk (envOf (loads 4 .n8 false) (.vld g1 mm 4 1)) .contig 4 false ∧
      (envOf (loads 4 .n8 false) (.vld g1 mm 4 1)).tooLong [4] 8 = false ∧
      reads (loads 4 .n8 false) (.vld g1 mm 4 1) .contig 8 1 { r := true } true = true) ∧
    (takenAtOnce (loads 4 .n32 false) (.vlds g1 mm 4 1 2) ∧ loadTagsOk (envOf (loads 4 .n32 false) (.vlds g1 mm 4 1 2)) .strided 4 false ∧
      reads (loads 4 .n32 false) (.vlds g1 mm 4 1 2) .strided 32 4 { r := true } true = true) := by
  unfold takenAtOnce soundRegs loadTagsOk; decide +kernel
theorem witness_VectorLoadResults_first :
    takenAtOnce (loads 4 .n16 false) (.vldff g1 mm 4 1) ∧ loadTagsOk (envOf (loads 4 .n16 false) (.vldff g1 mm 4 1)) .contig 4 true ∧
      (envOf (loads 4 .n16 false) (.vldff g1 mm 4 1)).e.rc = 0 ∧
      reads (loads 4 .n16 false) (.vldff g1 mm 4 1) .contig 16 2 { r := true } true = true := by
  unfold takenAtOnce soundRegs loadTagsOk; decide +kernel
theorem witness_VectorLoadResults_indexed :
    takenAtOnce (loads 4 .n16 false) (.vldx g1 mm 4 1 2) ∧ loadTagsOk (envOf (loads 4 .n16 false) (.vldx g1 mm 4 1 2)) (.indexed 2) 4 false ∧
      (let v := envOf (loads 4 .n16 false) (.vldx g1 mm 4 1 2)
       v.tooLong [4, 2] 16 = false ∧ overlapBad [v.use 2 .none] [v.ref 4] 16 = false) ∧
      reads (loads 4 .n16 false) (.vldx g1 mm 4 1 2) (.indexed 2) 16 2 { r := true } true = true := by
  unfold takenAtOnce soundRegs loadTagsOk; decide +kernel
theorem witness_VectorLoadResults_blocks :
    (takenAtOnce (loads 32 .e4m3 true) (.vld g1 mm 4 1) ∧ loadTagsOk (envOf (loads 32 .e4m3 true) (.vld g1 mm 4 1)) .contig 4 false ∧
      reads (loads 32 .e4m3 true) (.vld g1 mm 4 1) .contig 8 1 { r := true } true = true ∧
      (let u := issued (loads 32 .e4m3 true) (.vld g1 mm 4 1)
       u.readOn u.nearStream { r := true } true (blockScaleAt (envOf (loads 32 .e4m3 true) (.vld g1 mm 4 1)) 8 0 0) 1 = .ok ([0], u))) ∧
    (takenAtOnce (loads 32 .e4m3 true) (.vlds g1 mm 4 1 2) ∧ (envOf (loads 32 .e4m3 true) (.vlds g1 mm 4 1 2)).e.vblk = true) := by
  unfold takenAtOnce soundRegs loadTagsOk; decide +kernel
theorem witness_VectorLoadResults_table :
    (takenAtOnce (loads 4 .fp32 false) (.vldtCt g1 mm 4 1) ∧ (envOf (loads 4 .fp32 false) (.vldtCt g1 mm 4 1)).e.vblk = false ∧
      (envOf (loads 4 .fp32 false) (.vldtCt g1 mm 4 1)).tooLong [4] 32 = false ∧
      reads (loads 4 .fp32 false) (.vldtCt g1 mm 4 1) .contig 4 1 { r := true } true = true) ∧
    (takenAtOnce (loads 4 .n8 false) (.vldtCt g1 mm 4 1) ∧ (envOf (loads 4 .n8 false) (.vldtCt g1 mm 4 1)).e.vtag ∉ [Fmt.bf16, .fp16, .fp32]) := by
  unfold takenAtOnce soundRegs; decide +kernel

/-- The stores of the performed positions all succeed. -/
def storesDone (s : State) (i : Instr) (form : Form) (a : VReg) (k : Want) : Bool :=
  let v := envOf s i
  (performedPositions v).all (fun n => (issued s i).checkSpans (issued s i).nearStream k
    [((elementAt v form (fmtWidth (v.tag a).fmt) (n / v.e.vl) (n % v.e.vl)).1, bytesOf (fmtWidth (v.tag a).fmt))] == .ok ()) &&
  match storeEach v form (v.source a) k (issued s i).nearStream (performedPositions v) (issued s i) with
  | .ok _ => true
  | _ => false

theorem witness_VectorStoreResults :
    takenAtOnce (loads 4 .n8 false) (.vst g1 mm 4 1) ∧ storeTagsOk (envOf (loads 4 .n8 false) (.vst g1 mm 4 1)) .contig 4 ∧
      (envOf (loads 4 .n8 false) (.vst g1 mm 4 1)).tooLong [4] 8 = false ∧
      storesDone (loads 4 .n8 false) (.vst g1 mm 4 1) .contig 4 { w := true } = true := by
  unfold takenAtOnce soundRegs storeTagsOk; decide +kernel
theorem witness_VectorStoreResults_strided :
    takenAtOnce (loads 4 .n32 false) (.vsts g1 ⟨false, .ordered, .none, false⟩ 4 1 2) ∧
      storeTagsOk (envOf (loads 4 .n32 false) (.vsts g1 mm 4 1 2)) .strided 4 ∧
      storesDone (loads 4 .n32 false) (.vsts g1 mm 4 1 2) .strided 4 { w := true } = true := by
  unfold takenAtOnce soundRegs storeTagsOk; decide +kernel
theorem witness_VectorStoreResults_indexed :
    takenAtOnce (loads 4 .n16 false) (.vstx g1 ⟨false, .ordered, .none, false⟩ 4 1 2) ∧
      storeTagsOk (envOf (loads 4 .n16 false) (.vstx g1 mm 4 1 2)) (.indexed 2) 4 ∧
      storesDone (loads 4 .n16 false) (.vstx g1 mm 4 1 2) (.indexed 2) 4 { w := true } = true := by
  unfold takenAtOnce soundRegs storeTagsOk; decide +kernel
/-- A TLB entry for the whole of the program's block. -/
def blockEntry : TlbEntry := ⟨0, 0, 0, 2 ^ 24, ⟨0, 2 ^ 40, none, 0, false, false, true, true, true, 0x10000, 125, []⟩⟩

/-- One element to be stored at 0x8000, its translation in the TLB. -/
def oneStore : State := { loads 1 .n8 false with ms := { (loads 1 .n8 false).ms with tlb := [blockEntry] } }

theorem resolve_other_memory (t : State) (m : Memory) (a : Agent) (k : Want) (va : Nat) (e : TlbEntry)
    (h : t.tlbFind a.core a.ctx va = some e) (hd : ∀ w, e.leaf.entry &&& needAD w = needAD w) :
    ({ t with ms := { t.ms with mem := m } } : State).resolve a k va 1 = t.resolve a k va 1 := by
  have tr : ∀ w, ({ t with ms := { t.ms with mem := m } } : State).translate a.core a.ctx va w = t.translate a.core a.ctx va w := by
    intro w
    unfold State.translate
    rw [h, show ({ t with ms := { t.ms with mem := m } } : State).tlbFind a.core a.ctx va = t.tlbFind a.core a.ctx va from rfl, h]
    simp [hd]
  have pg : ({ t with ms := { t.ms with mem := m } } : State).resolvePages a k va 1 1 0 2 = t.resolvePages a k va 1 1 0 2 := by
    have : 1 ≤ 2 ^ 16 - va % 2 ^ 16 := by omega
    simp only [State.resolvePages, if_pos this, State.resolvePage, tr]
    rfl
  unfold State.resolve
  rw [show 1 / 2 ^ 16 + 2 = 2 from rfl, pg]

theorem issued_ms (s : State) (i : Instr) : (issued s i).ms = s.ms := by
  have e : ∀ t : State, t.endWait.ms = t.ms := fun t => by
    unfold State.endWait
    split
    · rfl
    · split <;> rfl
  unfold issued goesOn
  split <;> exact e _

theorem readNat_congr (m m' : Memory) (a n : Nat) (h : ∀ b, a ≤ b → b < a + n → Memory.byte m b = Memory.byte m' b) :
    Memory.readNat m a n = Memory.readNat m' a n := by
  unfold Memory.readNat
  congr 1
  induction n generalizing a with
  | zero => rfl
  | succ n ih =>
    rw [Memory.read, Memory.read, h a (by omega) (by omega), ih (a + 1) fun b h1 h2 => h b (by omega) (by omega)]

theorem witness_VectorStoreResults_memory :
    let i := Instr.vst g1 mm 4 1
    let v := envOf oneStore i
    takenAtOnce oneStore i ∧ quietMemory oneStore ∧ performedPositions v = [0] ∧ storeTagsOk v .contig 4 ∧
    ∀ m : Memory, (∀ b, ¬(0x8000 ≤ b ∧ b < 0x8001) → Memory.byte m b = Memory.byte oneStore.ms.mem b) → ∃ l : Leaf,
      let u := { issued oneStore i with ms := { oneStore.ms with mem := m } }
      u.resolve u.agent { w := true } (elementAt v .contig 8 0 0).1 1 = .ok [⟨0, 1, .device 0x8000, some l⟩] ∧ u.setAD l true = u := by
  refine ⟨by unfold takenAtOnce soundRegs; decide +kernel, by unfold quietMemory memoryOk; decide +kernel, by decide +kernel,
    by unfold storeTagsOk; decide +kernel, fun m h => ⟨blockEntry.leaf, ?_, setAD_of ?_⟩⟩
  · rw [← issued_ms oneStore (.vst g1 mm 4 1)]
    exact (resolve_other_memory (issued oneStore (.vst g1 mm 4 1)) m (issued oneStore (.vst g1 mm 4 1)).agent { w := true } _ blockEntry
      (by decide +kernel) (by decide)).trans (by decide +kernel)
  · have e : MemSys.creadNat { oneStore.ms with mem := m } 0x10000 8 = 125 := by
      have q : oneStore.ms.reduce = [] := by decide +kernel
      exact (MemSys.creadNat_quiet (ms := { oneStore.ms with mem := m }) q _ _).trans
        ((readNat_congr m oneStore.ms.mem _ _ fun b h1 h2 => h b (by omega)).trans (by decide +kernel))
    show MemSys.creadNat { oneStore.ms with mem := m } 0x10000 8 = MemSys.creadNat { oneStore.ms with mem := m } 0x10000 8 ||| 96
    rw [e]
    decide

theorem witness_VectorStoreResults_fault : takenAtOnce (loads 4 .n4 false) (.vsts g1 mm 4 1 2) ∧
    fmtWidth ((envOf (loads 4 .n4 false) (.vsts g1 mm 4 1 2)).tag 4).fmt = 4 := by
  unfold takenAtOnce soundRegs; decide +kernel

/-- The atomics of the positions all succeed. -/
def atomicsDone (s : State) (i : Instr) (k : VAmo) (ret : Bool) (d b c : VReg) : Bool :=
  let v := envOf s i
  let w := fmtWidth (v.tag c).fmt
  let want : Want := { r := true, w := true, atomic := true, exotic := true, align := w / 8 }
  let u := if ret then (issued s i).tagReg (v.ref d) ⟨(v.tag c).fmt, false⟩ else issued s i
  (performedPositions v).all (fun n => u.checkSpans u.nearStream want
    [((elementAt v (.indexed b) w (n / v.e.vl) (n % v.e.vl)).1, w / 8)] == .ok ()) &&
  match atomicEach v k want ret d b c u.nearStream ((List.range v.positions).filter fun n => decide (v.e.start ≤ n)) u with
  | .ok _ => true
  | _ => false

theorem witness_VectorAtomicResults :
    (takenAtOnce (loads 2 .n32 false) (.vamoadd g1 mm true 4 1 2 3) ∧
      atomicsDone (loads 2 .n32 false) (.vamoadd g1 mm true 4 1 2 3) .add true 4 2 3 = true) ∧
    (takenAtOnce (loads 2 .n32 false) (.vamomin g1 mm false 0 1 2 3) ∧
      atomicsDone (loads 2 .n32 false) (.vamomin g1 mm false 0 1 2 3) .min false 0 2 3 = true) ∧
    (takenAtOnce (loads 2 .n32 false) (.vamomax g1 mm true 4 1 2 3) ∧
      atomicsDone (loads 2 .n32 false) (.vamomax g1 mm true 4 1 2 3) .max true 4 2 3 = true) ∧
    (takenAtOnce (holding (loads 2 .n32 false) 3 .fp32 0) (.vamofadd g1 mm true 4 1 2 3) ∧
      atomicsDone (holding (loads 2 .n32 false) 3 .fp32 0) (.vamofadd g1 mm true 4 1 2 3) .fadd true 4 2 3 = true) ∧
    (takenAtOnce (loads 2 .n8 false) (.vamoadd g1 mm true 4 1 2 3) ∧
      ((envOf (loads 2 .n8 false) (.vamoadd g1 mm true 4 1 2 3)).tag 3).fmt ∉ vectorAtomicFmts .add) := by
  unfold takenAtOnce soundRegs; decide +kernel

/-- x1 at 0x8000, x2 = 512; the start at row 128, past every row. -/
def tiles : State := withStart (withX (withX base 1 0x8000) 2 512) 16384

theorem witness_TileMemoryResults :
    (∀ i ∈ [Instr.zld g1 1 1 2, .zst g1 1 1 2], takenAtOnce tiles i ∧ wholeGuard tiles i g1 = true ∧ (envOf tiles i).e.start = 16384) ∧
    ((xOf tiles 1).toNat % 64 = 0 ∧ (xOf tiles 2).toNat % 64 = 0 ∧ 512 ≤ (xOf tiles 2).toInt.natAbs) ∧
    (let s := withStart tiles 16256
     let i := Instr.zld g1 1 1 2
     (envOf s i).e.start = 128 * 127 ∧ (issued s i).readOn (issued s i).nearStream { r := true } true (tileWordAt (xOf s 1) (xOf s 2) 127 0) 4 =
       .ok ([0, 0, 0, 0], issued s i)) ∧
    (takenAtOnce (withStart tiles 1) (.zld g1 1 1 2) ∧ (envOf (withStart tiles 1) (.zld g1 1 1 2)).e.start % 128 ≠ 0) ∧
    (takenAtOnce (withX tiles 1 0x8020) (.zst g1 1 1 2) ∧ (xOf (withX tiles 1 0x8020) 1).toNat % 64 ≠ 0) ∧
    (takenAtOnce (withX tiles 2 448) (.zst g1 1 1 2) ∧ (xOf (withX tiles 2 448) 2).toInt.natAbs < 512) ∧
    (takenAtOnce base (.zld ⟨0, 0, 0, 0⟩ 1 1 2) ∧ wholeGuard base (.zld ⟨0, 0, 0, 0⟩ 1 1 2) ⟨0, 0, 0, 0⟩ = false) := by
  unfold takenAtOnce soundRegs; decide +kernel

/-- The record `r` at the start of the local store, x1 at it, x2 = `v`, SC = `sc`. -/
def barrier (r : BarRec) (v : Word) (sc : BitVec 32) : State :=
  withX (withX { kerned with
    ms := kerned.ms.lsWrite 0 (leBytes 64 r.toNat)
    hart := { kerned.hart with ctl := { kerned.hart.ctl with sc := sc } } } 1 0xFFFFFFF800000) 2 v

/-- A record with these base phase, expected count and state, `arrived` in slot 0. -/
def record (ph : BitVec 32) (exp state : Nat) (arrived : BitVec 16) : BarRec :=
  ⟨ph, 0, exp, state, 0, #v[arrived, 0, 0, 0], Vector.replicate 4 0, Vector.replicate 4 0⟩

theorem record_ok (ph : BitVec 32) (exp state : Nat) (h : state = 0 ∨ state = 0xB2 ∨ (state = 0xB1 ∧ 1 ≤ exp ∧ exp ≤ 4)) :
    recordOk 4 (record ph exp state 0) := by
  refine ⟨by rcases h with h | h | h <;> simp [record, h], rfl, fun h1 => ?_, fun k _ => ?_, fun k => ?_⟩
  · have : state = 0xB1 := h1
    rcases h with h | h | h <;> [omega; omega; simpa [record] using h.2]
  · exact ⟨by simp [record], fun q => by match q with | 0 => simp [record] | 1 => simp [record] | 2 => simp [record] | 3 => simp [record]⟩
  · match k with | 0 => simp [record] | 1 => simp [record] | 2 => simp [record] | 3 => simp [record]

/-- The machine finds the record, and the instruction is performed. -/
def finds (s : State) (i : Instr) (r : BarRec) : Prop :=
  performs s i g1 ∧ s.barrierKey s.hart (xOf s 1) = .ok 0 ∧ s.groupExtent s.hart.kern = 4 ∧ BarRec.ofNat (leNat (s.ms.lsRead 0 64)) = r ∧
    s.ms.lsSpoilt 0 64 = false

theorem witness_BarrierRecordResults :
    (performs (barrier (record 0 0 0 0) 4 5) (.binit g1 1 2) g1 ∧ (barrier (record 0 0 0 0) 4 5).barrierKey base.hart 0xFFFFFFF800000 = .ok 0) ∧
    finds (barrier (record 0 0 0 0) 1 0) (.bexp g1 1 2 0) (record 0 0 0 0) ∧
    finds (barrier (record 3 2 0xB1 0) 1 2) (.bexp g1 1 2 0) (record 3 2 0xB1 0) ∧
    finds (barrier (record 3 2 0xB1 0) 1 4) (.bexp g1 1 2 3) (record 3 2 0xB1 0) ∧
    finds (barrier (record 3 2 0xB1 0) 0x800000000 3) (.bexp g1 1 2 3) (record 3 2 0xB1 0) ∧
    finds (barrier (record 3 2 0xB1 0) 0x7FFFFFFFF 3) (.bexp g1 1 2 3) (record 3 2 0xB1 0) ∧
    finds (barrier (record 3 2 0xB1 0) 1 3) (.bwait g1 1 1) (record 3 2 0xB1 0) ∧
    finds (barrier (record 3 2 0xB1 0) 1 3) (.btest g1 2 1 0) (record 3 2 0xB1 0) := by
  unfold finds performs; decide +kernel
theorem witness_BarrierRecordResults_spoilt :
    let s := barrier (record 3 2 0xB1 0) 1 3
    let s := { s with ms := { s.ms with lsBad := [0] } }
    (∀ i ∈ [Instr.bexp g1 1 2 0, .bwait g1 1 1, .btest g1 2 1 0, .barr g1 1], performs s i g1) ∧ s.barrierKey s.hart (xOf s 1) = .ok 0 ∧
      s.ms.lsSpoilt 0 64 = true ∧ s.hart.vq = [] := by
  unfold performs; decide +kernel
theorem witness_BarrierRecordResults_clauses :
    recordOk 4 (record 3 2 0xB1 0) ∧ recordOk 4 (record 0 0 0 0) ∧ 2 ^ 31 ≤ ahead (record 3 2 0xB1 0) 2 ∧ ahead (record 3 2 0xB1 0) 7 = 4 ∧
      ahead (record 3 2 0xB1 0) 6 = 3 ∧ ¬recordOk 4 { record 3 2 0xB1 0 with reserved := 1 } :=
  ⟨record_ok _ _ _ (by decide), record_ok _ _ _ (by decide), by decide, by decide, by decide, fun h => absurd h.2.1 (by decide)⟩
theorem witness_BarrierArrivalResults :
    (∀ p ∈ [(Instr.barr, false), (Instr.barrd, true)],
      finds (barrier (record 0 0 0 0) 0 0) (p.1 g1 1) (record 0 0 0 0) ∧ (barrier (record 0 0 0 0) 0 0).hart.vq = []) ∧
    finds (barrier (record 3 0 0xB2 0) 0 3) (.barr g1 1) (record 3 0 0xB2 0) ∧
    finds (barrier (record 3 2 0xB1 0) 0 2) (.barr g1 1) (record 3 2 0xB1 0) ∧
    finds (barrier (record 3 2 0xB1 0) 0 7) (.barr g1 1) (record 3 2 0xB1 0) ∧
    finds (barrier (record 4 2 0xB1 1) 0 4) (.barr g1 1) (record 4 2 0xB1 1) ∧
    finds (barrier (record 4 2 0xB1 0) 0 4) (.barrd g1 1) (record 4 2 0xB1 0) ∧
    (performs (withEntry base (.vadd g1 vm 1 2 3)) (.barr g1 1) g1 ∧ (withEntry base (.vadd g1 vm 1 2 3)).hart.vq ≠ []) := by
  unfold finds performs; decide +kernel
theorem witness_BarrierArrivalResults_legal :
    ¬mayArrive (record 4 2 0xB1 1) 4 0 false ∧ mayArrive (record 4 2 0xB1 0) 4 0 true := by
  refine ⟨fun h => absurd h.2.1 (by decide), by decide, by decide, by decide, by decide, fun _ j h1 h2 => ?_⟩
  have h1 : 0 < j := h1
  interval_cases j <;> decide

/-- Package 0's stack 0 active, as `base` has it; vector length 4, x1 at 0x8000, x2 at 0x9000, FP32 throughout. -/
def fars (n : Nat) (t : Fmt) : State := withX (withX (vecs n t false) 1 0x8000) 2 0x9000

/-- Every performed element's checks pass. -/
def redChecks (s : State) (i : Instr) (t : Fmt) (elem : Bool) : Bool :=
  let v := envOf s i
  (performedPositions v).all fun n =>
    (match (issued s i).checkSpans (farStreamOf s i) (redNeeds t) [(redTarget v t (if elem then n else n / v.e.vl), fmtWidth t / 8)] with
      | .ok _ => true
      | _ => false) &&
    match (issued s i).checkSpans (farStreamOf s i) { r := true } [(redSource v n, fmtWidth v.e.vtag / 8)] with
      | .ok _ => true
      | _ => false

/-- Reading element n's source and contributing to its target, one element after the other. -/
def redRun (s : State) (i : Instr) (kind : RedKind) (t : Fmt) : List Nat → State → Bool
  | [], _ => true
  | n :: l, u =>
    match u.readOn (farStreamOf s i) { r := true } false (redSource (envOf s i) n) (fmtWidth (envOf s i).e.vtag / 8) with
    | .ok (bs, m) =>
      match (m.addFlags (redCode (envOf s i) t bs).2).contributeOn (farStreamOf s i) (redNeeds t) (redTarget (envOf s i) t n) kind t
          (redCode (envOf s i) t bs).1 with
      | .ok x => redRun s i kind t l x
      | _ => false
    | _ => false

theorem witness_FarReductionResults :
    (∀ p ∈ farReductions, farAtOnce (fars 2 .n32) (p.1 g1 true .n32 1 2) ∧ (envOf (fars 2 .n32) (p.1 g1 true .n32 1 2)).fredBad true .n32 = none ∧
      redChecks (fars 2 .n32) (p.1 g1 true .n32 1 2) .n32 true = true ∧
      (envOf (fars 2 .n32) (p.1 g1 true .n32 1 2)).e.start ≤ (envOf (fars 2 .n32) (p.1 g1 true .n32 1 2)).positions) ∧
    redRun (fars 2 .n32) (.fredadd g1 true .n32 1 2) .sum .n32 [0, 1] (issued (fars 2 .n32) (.fredadd g1 true .n32 1 2)) = true := by
  unfold farAtOnce soundRegs; decide +kernel
theorem witness_FarReductionResults_rows :
    (∀ p ∈ farReductions, farAtOnce (fars 2 .n32) (p.1 g1 false .n32 1 2) ∧
      (envOf (fars 2 .n32) (p.1 g1 false .n32 1 2)).fredBad false .n32 = none ∧
      redChecks (fars 2 .n32) (p.1 g1 false .n32 1 2) .n32 false = true) ∧
    redRun (fars 1 .n32) (.fredmax g1 false .n32 1 2) .max .n32 [0] (issued (fars 1 .n32) (.fredmax g1 false .n32 1 2)) = true ∧
    (farAtOnce (fars 2 .n8) (.fredadd g1 true .e4m3 1 2) ∧ ((envOf (fars 2 .n8) (.fredadd g1 true .e4m3 1 2)).fredBad true .e4m3).isSome = true) := by
  unfold farAtOnce soundRegs; decide +kernel
theorem witness_FarReductionResults_scatter :
    (let s := holding (fars 2 .n32) 3 .fp32 0
     let i := Instr.fscadd g1 true 1 2 3
     let v := envOf s i
     farAtOnce s i ∧ (v.tag 2).blk = false ∧ fmtIsFloat (v.tag 2).fmt = false ∧ (v.tag 3).fmt = .fp32 ∧ v.tooLong [2, 3] 32 = false ∧
       (performedPositions v).all (fun n => match (issued s i).checkSpans (farStreamOf s i) (redNeeds .fp32)
         [(wrap64 (v.e.xa.toNat + (v.source 2).int (n / v.e.vl) (n % v.e.vl)), 4)] with | .ok _ => true | _ => false) = true ∧
       (match (issued s i).contributeOn (farStreamOf s i) (redNeeds .fp32) 0x8000 .sum .fp32 0 with | .ok _ => true | _ => false) = true) ∧
    (farAtOnce (fars 2 .fp32) (.fscadd g1 true 1 2 3) ∧ fmtIsFloat ((envOf (fars 2 .fp32) (.fscadd g1 true 1 2 3)).tag 2).fmt = true) := by
  unfold farAtOnce soundRegs; decide +kernel

/-- A key-value page at 0x40000, reached through a TLB entry that marks it so, with this header. -/
def paged (s : State) (h : Nat) : State :=
  { s with ms := { s.ms with
      mem := Memory.writeNat s.ms.mem 0x40000 32 h
      tlb := [⟨0, 0, 4, 1, ⟨0x40000, 2 ^ 16, none, 0, false, true, true, true, false, 0x10000, 125, []⟩⟩, blockEntry] } }

/-- Version 1, E4M3 rows, four to a slot, 256 elements a row, `refs` references. -/
def pageHeader (refs : Nat) : Nat := 1 + 2 ^ 8 + 2 * 2 ^ 10 + refs * 2 ^ 32 + 256 * 2 ^ 160

/-- x1 at token 3 of the page. -/
def onPage (t : Fmt) (refs : Nat) : State := withX (paged (vecs 4 t false) (pageHeader refs)) 1 0x40003

def pagePart : Part := ⟨0, 0x100, .device 0x40000, some ⟨0x40000, 2 ^ 16, none, 0, false, true, true, true, false, 0x10000, 125, []⟩⟩

theorem quiet_of {s : State} (h : quietMemory s) : s.Quiet := ⟨h.2.1, h.2.2.1, h.2.2.2.2.2.1, h.2.2.2.2.2.2.1, h.2.2.2.2.2.2.2.1,
    h.2.2.2.2.2.2.2.2.1, h.2.2.2.1, h.2.2.2.2.2.2.2.2.2⟩

theorem witness_KvPageResults_vldt :
    let s := onPage .bf16 1
    let i := Instr.vldt g1 mm 2 1
    let v := envOf s i
    let u := (issued s i).tagReg (.near 2) ⟨v.e.vtag, false⟩
    takenAtOnce s i ∧ v.e.vblk = false ∧ v.e.vtag = .bf16 ∧ v.tooLong [2] 16 = false ∧
      u.kvPage u.nearStream { r := true } v.e.xa = .ok pagePart ∧
      u.kvRead u.nearStream pagePart (pageOf v.e.xa) 0 0x100 = .ok (pageHeader 1, u) ∧ kvVersion (pageHeader 1) = 1 ∧
      kvRps (pageHeader 1) ≠ 3 ∧ v.e.vl ≤ kvRowElems (pageHeader 1) ∧ tokenOf v.e.xa + v.rows ≤ kvTpp (kvRps (pageHeader 1)) := by
  unfold takenAtOnce soundRegs; decide +kernel

def pageLeaf : Leaf := ⟨0x40000, 2 ^ 16, none, 0, false, true, true, true, false, 0x10000, 125, []⟩
def rowsOf : State := (issued (onPage .bf16 1) (.vldt g1 mm 2 1)).tagReg (.near 2) ⟨.bf16, false⟩

theorem pageQuiet_rows : rowsOf.PageQuiet pageLeaf (Memory.readNat rowsOf.ms.mem 0x10000 8) :=
  ⟨⟨by decide +kernel, by decide +kernel, by decide +kernel, by decide +kernel, by decide +kernel, by decide +kernel, by decide +kernel, by decide +kernel⟩, by decide +kernel,
    rfl, by decide +kernel⟩

theorem witness_KvPageResults_rows : ∀ (off n : Nat) (vec : VecRegs) (ctl : CtlRegs), ∃ v,
    let x : State := { rowsOf with hart := { rowsOf.hart with vec := vec, ctl := ctl } }
    x.kvRead rowsOf.nearStream pagePart 0x40000 off n = .ok (v, x) := by
  intro off n vec ctl
  have k := pageQuiet_rows
  exact State.kvRead_quiet (s := { rowsOf with hart := { rowsOf.hart with vec := vec, ctl := ctl } })
    ⟨⟨k.quiet.1, k.quiet.2, k.quiet.3, k.quiet.4, k.quiet.5, k.quiet.6, k.quiet.7, k.quiet.8⟩, k.wf, k.entry, k.marked⟩ (pa := 0x40000) rfl rfl _ _ _ _

def puts : State := withX (onPage .fp32 1) 2 127
def putI : Instr := .kvput g1 .plain .none 4 1 2
def putsOn : State := issued puts putI

theorem witness_KvPageResults_kvput :
    let v := envOf puts putI
    takenAtOnce puts putI ∧ v.pairOk 4 = true ∧ fmtIsFloat (v.tag 4).fmt = true ∧ v.tooLong [4] 32 = false ∧ kvMalformed (pageHeader 1) = false ∧
      v.e.vl ≤ kvRowElems (pageHeader 1) ∧ v.rows = 1 ∧ v.guard 0 0 = true ∧ v.e.start = 0 ∧ kvRefcnt (pageHeader 1) = 1 ∧
      kvShared (pageHeader 1) = false ∧ putsOn.kvOpen putsOn.nearStream v.e.xa = .ok (pagePart, pageHeader 1, putsOn) := by
  unfold takenAtOnce soundRegs; decide +kernel
theorem witness_KvPageResults_kvput_rows : ∀ xs, ∃ (y : State) (f : Nat → State),
    putsOn.kvHeaderStep putsOn.nearStream pagePart 0x40000 (pageHeader 1) = .ok y ∧
      f 0 = y.carry { (envOf puts putI).begun with header := some (pageHeader 1) } ∧
      (f 0).kvPutRow putsOn.nearStream pagePart 0x40000 2 1 3 127 xs = .ok (f 1) := by
  intro xs
  have k : putsOn.PageQuiet pageLeaf (Memory.readNat putsOn.ms.mem 0x10000 8) :=
    ⟨⟨by decide +kernel, by decide +kernel, by decide +kernel, by decide +kernel, by decide +kernel, by decide +kernel, by decide +kernel, by decide +kernel⟩, by decide +kernel,
      rfl, by decide +kernel⟩
  obtain ⟨t, h, kt⟩ := State.kvHeaderStep_quiet k (p := pagePart) (pa := 0x40000) rfl rfl rfl (by decide) putsOn.nearStream 0x40000
    (pageHeader 1) (by decide +kernel)
  have kc : (t.carry { (envOf puts putI).begun with header := some (pageHeader 1) }).PageQuiet pageLeaf
      (Memory.readNat putsOn.ms.mem 0x10000 8) := ⟨kt.quiet.of_eq rfl rfl, kt.wf, kt.entry, kt.marked⟩
  obtain ⟨u, r⟩ := State.kvPutRow_quiet kc (p := pagePart) (pa := 0x40000) rfl rfl rfl (by decide) putsOn.nearStream 0x40000 2 1 3 127 xs
  exact ⟨t, fun n => if n = 0 then t.carry { (envOf puts putI).begun with header := some (pageHeader 1) } else u, h, rfl, r⟩
theorem witness_KvPageResults_refused :
    (let s := onPage .fp32 2
     let i := Instr.kvput g1 .plain .none 4 1 2
     let u := issued s i
     takenAtOnce s i ∧ u.kvOpen u.nearStream (envOf s i).e.xa = .ok (pagePart, pageHeader 2, u) ∧ kvMalformed (pageHeader 2) = false ∧
       1 < kvRefcnt (pageHeader 2)) ∧
    (takenAtOnce (vecs 4 .n8 false) (.kvput g1 .plain .none 4 1 2) ∧ takenAtOnce (vecs 4 .n8 false) (.vldt g1 mm 2 1)) := by
  unfold takenAtOnce soundRegs; decide +kernel
theorem witness_KvPageResults_kvinv :
    let s := withX (onPage .fp32 1) 2 1
    let i := Instr.kvinv g1 .plain .none 1 2
    let u := issued s i
    takenAtOnce s i ∧ wholeGuard s i g1 = true ∧ u.kvOpen u.nearStream (envOf s i).e.xa = .ok (pagePart, pageHeader 1, u) ∧
      (∀ k < 64, (xOf s 2).getLsbD k = true → 3 + k < kvTpp (kvRps (pageHeader 1))) ∧ quietMemory s ∧ devicePlaced s true [pagePart] ∧
      pageHeader 1 = memNat s.ms.mem 0x40000 256 :=
  ⟨by unfold takenAtOnce soundRegs; decide +kernel, by decide +kernel, by decide +kernel, by decide +kernel,
    by unfold quietMemory memoryOk; decide +kernel, devicePlaced_of (by decide +kernel), by decide +kernel⟩
theorem witness_KvPageResults_banks :
    performs (regs [(1, 15)]) (.ctw g1 1 2) g1 ∧ (regs [(1, 15)]).bankHeld 0 true = false ∧ performs (regs [(1, 16)]) (.ctw g1 1 2) g1 ∧
    (let s : State := { base with hart := { base.hart with vq := [{ base.makeEntry (.vldtCt g1 mm 2 1) with bank := true }] } }
     performs s (.ctw g1 1 2) g1 ∧ s.bankHeld s.hart.ctx true = true) ∧ performs base (.ctswap g1) g1 := by
  unfold performs; decide +kernel
theorem witness_KvRowWritten : quietMemory (onPage .fp32 1) ∧ devicePlaced (onPage .fp32 1) true [pagePart] ∧
    devicePlaced (onPage .fp32 1) false [pagePart] ∧ (List.replicate 256 (FVal.zero false)).length = kvE 2 ∧ 251 < kvTpp 2 ∧
    ∀ l, pagePart.leaf = some l → l.pte + 8 ≤ 0x40000 :=
  ⟨by unfold quietMemory memoryOk; decide +kernel, devicePlaced_of (by decide +kernel), devicePlaced_of (by decide +kernel),
    by decide +kernel, by decide, fun l h => by cases h; decide⟩

/-- A hart with a handler, its group running. -/
def handled : State := { base with hart := { base.hart with trap := { base.hart.trap with vec := 0x20 } } }

theorem witness_TakingAFault : hasHandler handled.hart ∧ ¬hasHandler base.hart ∧
    (∃ g, base.group base.hart.grp = some g ∧ g.st = .running) ∧ base.hart.vq = [] ∧ (withEntry base (.vadd g1 vm 1 2 3)).hart.vq ≠ [] := by
  unfold hasHandler
  refine ⟨by decide +kernel, by decide +kernel, ⟨placedGroup base.hart, by decide +kernel, by decide +kernel⟩, by decide +kernel, by decide +kernel⟩
theorem witness_TrapAndReturn :
    (performs base (.trap g1 0xFFFF) g1 ∧ performs handled (.trap g1 0) g1 ∧ performs base (.bkpt g1 1) g1 ∧ (base.ctx 0).dbgEn = false) ∧
    performs (withEntry base (.vadd g1 vm 1 2 3)) (.trap g1 1) g1 ∧
    (performs base (.eret g1) g1 ∧ base.hart.trap.inh = false) ∧
    (let s : State := { base with hart := { base.hart with trap := { base.hart.trap with inh := true } } }
     performs s (.eret g1) g1 ∧ s.hart.trap.inh = true ∧ s.hart.vq = []) ∧
    (let s := base.setCtx 0 { base.ctx 0 with dbgEn := true }
     performs s (.bkpt g1 1) g1 ∧ (s.ctx s.hart.ctx).dbgEn = true ∧ (∀ p ∈ s.far.pieces, p.hart ≠ s.hart.no) ∧ s.hartArea s.hart = none) := by
  unfold performs; decide +kernel

/-! Far gathers, attention, merging. -/

theorem resolvePage_other_regs (u : State) (a : Agent) (k : Want) (va n off : Nat) (vec : VecRegs) (ctl : CtlRegs) :
    ({ u with hart := { u.hart with vec := vec, ctl := ctl } } : State).resolvePage a k va n off = u.resolvePage a k va n off := rfl

theorem resolvePages_other_regs (u : State) (a : Agent) (k : Want) (vec : VecRegs) (ctl : CtlRegs) (f : Nat) : ∀ va n m off,
    ({ u with hart := { u.hart with vec := vec, ctl := ctl } } : State).resolvePages a k va n m off f = u.resolvePages a k va n m off f := by
  induction f with
  | zero => intro va n m off; rfl
  | succ f ih => intro va n m off; simp only [State.resolvePages, resolvePage_other_regs, ih]

theorem resolveOn_other_regs (u : State) (st : Stream) (k : Want) (va n : Nat) (vec : VecRegs) (ctl : CtlRegs) :
    ({ u with hart := { u.hart with vec := vec, ctl := ctl } } : State).resolveOn st k va n = u.resolveOn st k va n := by
  unfold State.resolveOn State.resolve
  simp only [resolvePages_other_regs]

theorem readOn_other_regs {u : State} {st : Stream} {va n pa : Nat} {l : Leaf} (vec : VecRegs) (ctl : CtlRegs) {c : Nat}
    (k : u.PageQuiet l c) (r : u.resolveOn st { r := true } va n = .ok [⟨0, n, .device pa, some l⟩]) :
    ({ u with hart := { u.hart with vec := vec, ctl := ctl } } : State).readOn st { r := true } false va n =
      .ok (Memory.read u.ms.mem pa n, { u with hart := { u.hart with vec := vec, ctl := ctl } }) := by
  have kx : ({ u with hart := { u.hart with vec := vec, ctl := ctl } } : State).PageQuiet l c :=
    ⟨⟨k.quiet.1, k.quiet.2, k.quiet.3, k.quiet.4, k.quiet.5, k.quiet.6, k.quiet.7, k.quiet.8⟩, k.wf, k.entry, k.marked⟩
  unfold State.readOn
  rw [resolveOn_other_regs, r]
  show State.readAll _ _ _ _ _ = _
  rw [State.readAll_quiet kx.quiet fun p hp => ?_]
  · simp [Part.bytes]
  · rw [List.mem_singleton.mp hp]
    exact ⟨pa, l, rfl, rfl, kx.setAD false⟩

/-- Four rows of E4M3 elements with a scale, 8 bytes apart, at 0x8000, the description at 0x9000; v2 the indices, v6 FP32 weights. -/
def bagState (n : Nat) : State :=
  let s := holding (holding (fars n .fp32) 2 .n32 (3 * 2 ^ 32)) 6 .fp32 0
  { s with ms := { s.ms with
      mem := Memory.writeNat s.ms.mem 0x9000 32 (0x8000 + 8 * 2 ^ 64 + 4 * 2 ^ 96 + 0x0A * 2 ^ 112 + 4 * 2 ^ 128)
      tlb := [blockEntry] } }

def bagI (wgt : Bool) : Instr := .fembag g1 true wgt 60 2 2 (if wgt then 6 else 0)
def bagTable : TableDesc := tableDesc (0x8000 + 8 * 2 ^ 64 + 4 * 2 ^ 96 + 0x0A * 2 ^ 112 + 4 * 2 ^ 128)

theorem witness_FarGatherResults_bag : ∀ wgt : Bool,
    let s := bagState 2
    let i := bagI wgt
    let v := envOf s i
    let u := issued s i
    farAtOnce s i ∧ i.wf = true ∧ (v.tag 2) = ⟨.n32, false⟩ ∧ (wgt = true → v.tag 6 = ⟨.fp32, false⟩) ∧
    wholeFits v (if wgt then [60, 2, 6] else [60, 2]) 32 ∧
    u.readOn u.nearStream { r := true, align := 32 } false v.e.xb.toNat 32 = .ok (Memory.read s.ms.mem 0x9000 32, u) ∧
    tableDesc (leNat (Memory.read s.ms.mem 0x9000 32)) = bagTable ∧ bagTable.bad v.rows = false ∧ bagTable.rowBytes = some 5 ∧
    performedPositions v = [0, 1] ∧ (v.source 2).code 0 0 = 0 ∧ (v.source 2).code 0 1 = 3 := by
  unfold farAtOnce soundRegs wholeFits; decide +kernel
theorem witness_FarGatherResults_bag_rows : ∀ wgt : Bool,
    let u := issued (bagState 2) (bagI wgt)
    let st := farStreamOf (bagState 2) (bagI wgt)
    (∀ x ∈ [0x8000, 0x8018], u.checkSpans st { r := true } [(x, 5)] = .ok ()) ∧
    ∀ vec ctl, ∀ a ∈ [0x8000, 0x8018],
      let x : State := { u with hart := { u.hart with vec := vec, ctl := ctl } }
      x.readOn st { r := true } false a 5 = .ok ([0, 0, 0, 0, 0], x) := by
  intro wgt u st
  have q : u.PageQuiet { blockEntry.leaf with cp := 6 } 125 := by
    cases wgt <;> exact ⟨⟨by decide +kernel, by decide +kernel, by decide +kernel, by decide +kernel, by decide +kernel, by decide +kernel,
      by decide +kernel, by decide +kernel⟩,
      by decide +kernel, by decide +kernel, by decide⟩
  refine ⟨by cases wgt <;> decide +kernel, fun vec ctl a ha => ?_⟩
  rcases List.mem_cons.mp ha with rfl | ha
  · have h := readOn_other_regs (u := u) (st := st) (va := 0x8000) (n := 5) (pa := 0x8000) (l := { blockEntry.leaf with cp := 6 }) vec ctl q
      (by cases wgt <;> decide +kernel)
    rw [show Memory.read u.ms.mem 0x8000 5 = [0, 0, 0, 0, 0] from by cases wgt <;> decide +kernel] at h
    exact h
  · rw [List.mem_singleton.mp ha]
    have h := readOn_other_regs (u := u) (st := st) (va := 0x8018) (n := 5) (pa := 0x8018) (l := { blockEntry.leaf with cp := 6 }) vec ctl q
      (by cases wgt <;> decide +kernel)
    rw [show Memory.read u.ms.mem 0x8018 5 = [0, 0, 0, 0, 0] from by cases wgt <;> decide +kernel] at h
    exact h

theorem witness_FarGatherResults_bag_faults : farAtOnce (fars 2 .fp32) (bagI false) ∧ (bagI false).wf = true ∧
    (envOf (fars 2 .fp32) (bagI false)).tag 2 = ⟨.fp32, false⟩ := by
  unfold farAtOnce soundRegs; decide +kernel

/-- A stretch of no tokens: the sequence word at 0x8000 is 0, the tables at 0xA000, E0 = 0, one token a slot. -/
def attnState : State :=
  let s := fars 4 .fp32
  { s with ms := { s.ms with
      mem := Memory.writeNat s.ms.mem 0x9000 64 (0xA000 + 0xA000 * 2 ^ 64 + 0x8000 * 2 ^ 128 + 16 * 2 ^ 288 + 0x3F800000 * 2 ^ 384) } }
def attnI (acc : Bool) : Instr := .fatt g1 true false acc 60 2 2

/-- The steps of FATT succeed. -/
def attnRuns (s : State) (i : Instr) : Bool :=
  let v := envOf s i
  let st := farStreamOf s i
  match (issued s i).attnPrepass st v with
  | .ok (desc, fin, blocks, u1) =>
    let dsc := attnDesc desc
    (match u1.attnHeaders st dsc.rps blocks with
    | .ok (hd, u2) =>
      (match u2.attnPages st ((blocks.zip hd).map fun b => (b.1.b, b.1.kva, b.1.vva, b.2.1, b.2.2)) with
      | .ok pages =>
        (match u2.readOn st { r := true } false (dsc.maskSpan fin).1 (dsc.maskSpan fin).2 with
        | .ok (mask, u3) =>
          (match u3.attnData st dsc fin v.e.vl (leNat mask) pages with
          | .ok _ => true
          | _ => false)
        | _ => false)
      | _ => false)
    | _ => false)
  | _ => false

def fpFar (s : State) : State :=
  { s with hart := { s.hart with vec := { s.hart.vec with far := s.hart.vec.far.map fun r => { r with tag := ⟨.fp32, false⟩ } } } }

theorem witness_FarGatherResults_attention : ∀ acc : Bool,
    let s := fpFar attnState
    let i := attnI acc
    let v := envOf s i
    farAtOnce s i ∧ i.wf = true ∧ v.tag 2 = ⟨.fp32, false⟩ ∧ v.vec.tagRef (v.ref 60) = ⟨.fp32, false⟩ ∧
      v.vec.tagRef (v.ref 60).odd = ⟨.fp32, false⟩ ∧ v.softBad = false ∧ attnRuns s i = true ∧ v.rows = 1 ∧ v.guard 0 0 = true := by
  unfold farAtOnce soundRegs; decide +kernel
theorem witness_FarGatherResults_attention_faults : farAtOnce (fars 4 .n8) (attnI false) ∧ (attnI false).wf = true ∧
    (envOf (fars 4 .n8) (attnI false)).tag 2 = ⟨.n8, false⟩ := by
  unfold farAtOnce soundRegs; decide +kernel

def mergeI (norm : Bool) : Instr := .fmerge g1 true false norm 60 58
theorem witness_FarGatherResults_merge : ∀ norm : Bool,
    let s := fpFar attnState
    let i := mergeI norm
    let v := envOf s i
    farAtOnce s i ∧ i.wf = true ∧ v.vec.tagRef (v.ref 60) = ⟨.fp32, false⟩ ∧ v.vec.tagRef (v.ref 60).odd = ⟨.fp32, false⟩ ∧
      v.vec.tagRef (v.ref 58) = ⟨.fp32, false⟩ ∧ v.vec.tagRef (v.ref 58).odd = ⟨.fp32, false⟩ ∧ v.softBad = false ∧ v.rows = 1 ∧
      v.guard 0 0 = true ∧ (let u := attnState; farAtOnce u i ∧ (envOf u i).vec.tagRef ((envOf u i).ref 60) ≠ ⟨.fp32, false⟩) := by
  unfold farAtOnce soundRegs; decide +kernel

/-! The Compass's instructions and the engines. -/

/-- Another kernel with a waiting group. -/
def twoKernels : State :=
  let c := { kerned.ctx 0 with saven := 4 }
  let s := kerned.setCtx 0 c
  { s with cmp := { s.cmp with
      kernels := [kernel4, { kernel4 with key := 1, st := .dispatching }]
      groups := s.cmp.groups ++ [{ placedGroup s.hart with key := 1, kern := 1, st := .waiting }] } }

theorem witness_CompassRequestResults_yield :
    (performs twoKernels (.hyield g1) g1 ∧ (∃ q, twoKernels.group twoKernels.hart.grp = some q ∧ q.st = .running ∧
      twoKernels.yieldsTo q = true ∧ q.key = twoKernels.hart.grp)) ∧
    (performs kerned (.hyield g1) g1 ∧ ∀ q, kerned.group kerned.hart.grp = some q → q.st ≠ .running ∨ kerned.yieldsTo q = false) ∧
    (performs base (.hexit g1) g1 ∧ base.hart.vq = []) ∧
    (performs (withEntry base (.vadd g1 vm 1 2 3)) (.hexit g1) g1 ∧ (withEntry base (.vadd g1 vm 1 2 3)).hart.vq ≠ []) := by
  unfold performs
  refine ⟨⟨by decide +kernel, placedGroup base.hart, by decide +kernel, by decide +kernel, by decide +kernel, by decide +kernel⟩,
    ⟨by decide +kernel, fun q h => .inr ?_⟩, by decide +kernel, by decide +kernel⟩
  have e : kerned.group kerned.hart.grp = some (placedGroup base.hart) := by decide +kernel
  rw [e] at h
  cases h
  decide +kernel

/-- A launch header of 4 harts in one field, entry 0x100. -/
def header : Nat := 1 + 0x100 * 2 ^ 64 + 2 * 2 ^ 192 + 2 ^ 240 + 4 * 2 ^ 256
def launching (h : Nat) : State :=
  let s := withX base 1 0x8000
  { s with hart := { s.hart with wait := .klaunch }, ms := { s.ms with mem := Memory.writeNat s.ms.mem 0x8000 256 h } }
def launchOf (s : State) : Launched := (flushed s).launch ⟨s.hart.ctx, 0x8000, 0, (s.kernel s.hart.kern).bind Kernel.queue, none⟩
def landsOn (s : State) : Bool :=
  match s.resolve { s.agent with grp := none } { r := true, align := 256 } 0x8000 0x100 with
  | .ok ps => !s.partsPoisoned ps
  | _ => false

theorem witness_CompassRequestResults_klaunch :
    (let s := launching header
     performs s (.klaunch g1 2 1) g1 ∧ landsOn s = true ∧ s.hart.vq = [] ∧ s.hart.wait = .klaunch ∧
       (match launchOf s with | .accepted 1 _ => true | _ => false) = true) ∧
    (let s := launching (header + 1)
     performs s (.klaunch g1 2 1) g1 ∧ landsOn s = true ∧ (match launchOf s with | .refused 1 _ => true | _ => false) = true) ∧
    (let s := { launching header with mgmt := { base.mgmt with locked := true } }
     performs s (.klaunch g1 2 1) g1 ∧ landsOn s = true ∧ (match launchOf s with | .full _ _ => true | _ => false) = true) ∧
    (let s := { launching header with hart := { (launching header).hart with wait := .none } }
     performs s (.klaunch g1 2 1) g1 ∧ landsOn s = true ∧ s.hart.wait ≠ .klaunch) ∧
    (let s := { launching header with ms := { (launching header).ms with poison := [0x8000 / 64] } }
     performs s (.klaunch g1 2 1) g1 ∧ (match s.resolve { s.agent with grp := none } { r := true, align := 256 } 0x8000 0x100 with
       | .ok ps => s.partsPoisoned ps | _ => false) = true) := by
  unfold performs; decide +kernel

def workQueue : WorkQueue := ⟨0, 0, 0, true, [], false, false, 0, 0, none, 0, false, false, false, []⟩
def submits (x : Word) (w : WorkQueue) : State := withX (withX { base with cmp := { base.cmp with queues := [(1023, w)] } } 1 1023) 2 x

theorem witness_CompassRequestResults_qsub :
    (performs (regs [(1, 1024)]) (.qsub g1 1 2) g1 ∧ performs (submits 1 workQueue) (.qsub g1 1 2) g1 ∧
      performs (submits 0x10000000000000 workQueue) (.qsub g1 1 2) g1) ∧
    (performs (submits 0x8000 { workQueue with ctx := 1 }) (.qsub g1 1 2) g1 ∧ ({ workQueue with ctx := 1 }).ctx.toNat ≠ base.hart.ctx) ∧
    (performs (submits 0x8000 { workQueue with faulted := true }) (.qsub g1 1 2) g1 ∧ ({ workQueue with faulted := true }).state = .faulted) ∧
    (performs (submits 0x8000 { workQueue with subs := List.replicate 64 0 }) (.qsub g1 1 2) g1 ∧
      ({ workQueue with subs := List.replicate 64 0 }).state = .running) ∧
    (let s := submits 0xFFFFFFFFFFFC0 workQueue
     performs s (.qsub g1 1 2) g1 ∧ (s.queue 1023).ctx.toNat = s.hart.ctx ∧ (s.queue 1023).state = .idle ∧ s.hart.vq = [] ∧
       s.unacked s.hart.owner = false ∧ (s.queue 1023).subs.length < 64) := by
  unfold performs; decide +kernel

def ring (k : Ring) : State := withX (withX { base with cmp := { base.cmp with rings := [(255, k)] } } 1 255) 2 0x8000
def oneRing : Ring := { Ring.reset with base := 0xC000, log2n := 4, en := true }
def ringPuts (s : State) : Bool :=
  match s.resolve s.agent { r := true, align := 64 } 0x8000 64, s.resolve { s.agent with grp := none } { w := true } (s.ring 255).slotVa 64 with
  | .ok src, .ok slot =>
    (match s.readAll s.hart.core true 0x8000 src with
    | .ok y => (match (flushed y.2).putRing 255 (slot.map Part.uncached) y.1 with | .ok _ => true | _ => false)
    | _ => false)
  | _, _ => false

theorem witness_CompassRequestResults_hrput :
    (performs (regs [(1, 256)]) (.hrput g1 1 2) g1 ∧ performs (ring Ring.reset) (.hrput g1 1 2) g1 ∧
      performs (ring { oneRing with ctx := 1 }) (.hrput g1 1 2) g1) ∧
    (let s := ring { oneRing with prod := 16 }
     performs s (.hrput g1 1 2) g1 ∧ ((s.ring 255).prod - (s.ring 255).cons).toNat = 2 ^ (s.ring 255).log2n.toNat) ∧
    (let s := ring { oneRing with prod := 15 }
     performs s (.hrput g1 1 2) g1 ∧ (s.ring 255).en = true ∧ (s.ring 255).ctx.toNat = s.hart.ctx ∧ ringPuts s = true ∧ s.hart.vq = [] ∧
       s.unacked s.hart.owner = false ∧ ((s.ring 255).prod - (s.ring 255).cons).toNat ≠ 16) := by
  unfold performs; decide +kernel

/-! Engine commands. -/

/-- A fill of two rows of 8 bytes, 16 bytes apart, at offset 0x100 of the window; `bar` names the record it subtracts from. -/
def fill (seq : Nat) (bar : Option Word) (started : Bool) : EngCmd :=
  ⟨.efill, 0, 0xFFFFFFF800100, 0x1122334455667788, 8, ⟨none, 0, 1, 0, 0, 16⟩, ⟨.n16, 0, 0, 0⟩, bar, 3, [], seq, 0, 0, started, [],
   [], [], if started then 16 else 0, 16, 0⟩

/-- Queue 3 of the hart holds these commands. -/
def engines (s : State) (l : List EngCmd) (st : EqState) : State :=
  { s with hart := { s.hart with eng := s.hart.eng.setIfInBounds 3 ⟨l, st, 0⟩ } }

def copyW : CopyWord := ⟨none, 0, 1, 1, 16, 16⟩
def engineForms : List Instr :=
  let e : EngMod := ⟨0, 3⟩
  [.ecpy g1 e 0 1 2 3 copyW, .emcast g1 e 0 1 2 3 copyW, .efill g1 e 0 1 2 3 copyW, .egath g1 e 0 1 2 4 ⟨.n64, 1, 7, 8⟩, .escat g1 e 0 2 1 4 ⟨.n64, 1, 7, 8⟩]
/-- x1 at the window, x2 at 0x8000, x3 = 8, x4 at 0x9000. -/
def engineRegs (s : State) : State := withX (withX (withX (withX s 1 0xFFFFFFF800100) 2 0x8000) 3 8) 4 0x9000

theorem witness_EngineIssueResults :
    (∀ i ∈ engineForms, performs (engineRegs kerned) i g1) ∧
    (engineForms.all fun i => match commandOf (engineRegs kerned) i with
      | some (3, c) => (match (engineRegs kerned).checkEngine base.hart c with | .ok _ => true | _ => false)
      | _ => false) = true := by
  unfold performs; decide +kernel
theorem witness_EngineIssueResults_guards : engineForms.map guardOf = List.replicate 5 (some g1) := by decide +kernel
theorem witness_EngineIssueResults_ends :
    (let s := engineRegs (engines kerned (List.replicate 16 (fill 0 none false)) .running)
     performs s (.efill g1 ⟨0, 3⟩ 0 1 2 3 copyW) g1 ∧ 16 ≤ (queueOf s 3).cmds.length) ∧
    (let s := withX (engineRegs (engines kerned (List.replicate 15 (fill 0 none false)) .running)) 3 0x100000000
     let i := Instr.efill g1 ⟨0, 3⟩ 0 1 2 3 copyW
     performs s i g1 ∧ (queueOf s 3).cmds.length < 16 ∧ ((commandOf s i).map fun p => s.checkEngine s.hart p.2) = some (.refuse ⟨0x04, 0, 0, 0, 0⟩)) ∧
    (let s := withX (engineRegs kerned) 2 (2 ^ 40)
     let i := Instr.ecpy g1 ⟨0, 3⟩ 0 1 2 3 copyW
     performs s i g1 ∧ (queueOf s 3).cmds.length < 16 ∧
       ((commandOf s i).map fun p => s.checkEngine s.hart p.2) = some (.fault ⟨0x05, 0, 0x10000000000, 0, 0⟩)) ∧
    (let s := barrier (record 3 2 0xB1 0) 0 0
     let i := Instr.efill g1 ⟨0, 3⟩ 1 1 2 3 copyW
     performs s i g1 ∧ (queueOf s 3).cmds.length < 16 ∧
       ((commandOf s i).map fun p => s.checkEngine s.hart { p.2 with phase := 7 }) = some (.wait (.barrier 0 6))) := by
  unfold performs; decide +kernel
theorem witness_EngineIssueResults_qfence :
    performs base (.qfence g1 0) g1 ∧ (performs base (.qfence g1 15) g1 ∧ ∀ q < 4, (15 : BitVec 4).getLsbD q = true → (queueOf base q).cmds = []) ∧
    (let s := engines kerned [fill 0 none false] .running
     performs s (.qfence g1 8) g1 ∧ ¬∀ q < 4, (8 : BitVec 4).getLsbD q = true → (queueOf s q).cmds = []) := by
  unfold performs; decide +kernel

def heldBack (s : State) (c : EngCmd) : Bool :=
  (List.range 4).any fun p => (queueOf s p).cmds.any fun d => decide (d.seq < c.seq) && c.meets d

theorem witness_EngineQueueEvents :
    (let s := engines kerned [fill 1 none true] .running
     inFocus s 0 ∧ (queueOf s 3).cmds = [fill 1 none true] ∧ unackedOf s 3 (fill 1 none true) = false ∧ (queueOf s 3).st ≠ .faulted ∧ s.hart.phase ≠ .halted) ∧
    (let s := engines { kerned with hart := { kerned.hart with eng := kerned.hart.eng.setIfInBounds 0 ⟨[fill 0 none true], .running, 0⟩ } }
       [fill 1 none false] .held
     inFocus s 0 ∧ heldBack s (fill 1 none false) = true) ∧
    (let s := engines kerned [fill 1 none false] .held
     inFocus s 0 ∧ heldBack s (fill 1 none false) = false ∧ (queueOf s 3).st = .held) ∧
    (let s := engines kerned [{ fill 1 none false with fences := 1 }] .running
     inFocus s 0 ∧ heldBack s { fill 1 none false with fences := 1 } = false) := by
  unfold inFocus; decide +kernel
/-- What the head's beginning leads to. -/
def begins (s : State) (c : EngCmd) : Nat :=
  match s.engBegin s.hart c with
  | .ok t _ => if t.hart.no = 0 ∧ t.hart.phase ≠ .absent ∧ t.hart.eng = s.hart.eng then 1 else 2
  | .fault .. => 3
  | .held => 4
/-- A gather whose index list has an uncorrectable line, or lies in a frame under migration. -/
def gather : EngCmd := { fill 1 none false with kind := .egath, xc := 0x8000, rows := ⟨.n64, 0, 7, 8⟩ }

theorem witness_EngineQueueEvents_starts :
    (let s := engines kerned [fill 1 none false] .running
     inFocus s 0 ∧ heldBack s (fill 1 none false) = false ∧ begins s (fill 1 none false) = 1) ∧
    (let s := engines { kerned with ms := { kerned.ms with poison := [0x8000 / 64] } } [gather] .running
     inFocus s 0 ∧ heldBack s gather = false ∧ begins s gather = 3) ∧
    (let m := { kerned.ms with mig := { kerned.ms.mig with recs := kerned.ms.mig.recs.setIfInBounds 0 ⟨.pending, 0, 7, 0x10000, 0, 0, 0⟩ } }
     let s := engines { kerned with ms := m } [gather] .running
     inFocus s 0 ∧ heldBack s gather = false ∧ begins s gather = 4) := by
  unfold inFocus; decide +kernel
theorem witness_EngineQueueEvents_subtracts :
    (let s := engines (barrier (record 3 2 0xB1 0) 0 0) [fill 1 (some 0xFFFFFFF800000) true] .running
     inFocus s 0 ∧ s.barrierKey s.hart 0xFFFFFFF800000 = .ok 0 ∧ s.ms.lsSpoilt 0 64 = false ∧ unackedOf s 3 (fill 1 (some 0xFFFFFFF800000) true) = false ∧
       (match (s.ms.barrier 0).subtract (s.groupExtent s.hart.kern) 3 16 with | .ok _ => true | _ => false) = true ∧
       (match (s.ms.barrier 0).subtract (s.groupExtent s.hart.kern) 3 1 with | .ok _ => true | _ => false) = true) ∧
    (let s := engines (barrier (record 3 2 0xB2 0) 0 0) [fill 1 (some 0xFFFFFFF800000) true] .running
     inFocus s 0 ∧ s.barrierKey s.hart 0xFFFFFFF800000 = .ok 0 ∧ s.ms.lsSpoilt 0 64 = false ∧
       (match (s.ms.barrier 0).subtract (s.groupExtent s.hart.kern) 3 1 with | .fault _ => true | _ => false) = true) ∧
    (let b := barrier (record 3 2 0xB1 0) 0 0
     let s := engines { b with ms := { b.ms with lsBad := [0] } } [fill 1 (some 0xFFFFFFF800000) true] .running
     inFocus s 0 ∧ s.barrierKey s.hart 0xFFFFFFF800000 = .ok 0 ∧ s.ms.lsSpoilt 0 64 = true) := by
  unfold inFocus; decide +kernel
theorem witness_BarrierRecordLaws :
    (Memory.wf base.ms.ls = true ∧ (record 3 2 0xB1 0).exp < 2 ^ 16 ∧ (record 3 2 0xB1 0).state < 2 ^ 8 ∧ (record 3 2 0xB1 0).reserved < 2 ^ 56 ∧
      ∀ k : Fin 4, -2 ^ 63 ≤ (record 3 2 0xB1 0).pend[k] ∧ (record 3 2 0xB1 0).pend[k] < 2 ^ 63) ∧
    ((record 3 2 0xB2 0).state ≠ 0xB1 ∧ 4 ≤ ahead (record 3 2 0xB1 0) 7 ∧ ahead (record 3 2 0xB1 0) 6 < 4) ∧
    (record 3 2 0xB1 0).pend[slotOf (record 3 2 0xB1 0) (ahead (record 3 2 0xB1 0) 3)] - (2 ^ 35 + 1 : Int) < -2 ^ 35 ∧
    -2 ^ 35 ≤ (record 3 2 0xB1 0).pend[slotOf (record 3 2 0xB1 0) (ahead (record 3 2 0xB1 0) 3)] - (2 ^ 35 : Int) ∧
    recordOk 4 (record 3 2 0xB1 0) :=
  ⟨⟨by decide +kernel, by decide, by decide, by decide, by decide⟩, by decide, by decide, by decide, record_ok _ _ _ (by decide)⟩
theorem witness_EngineFillWrites :
    let c := fill 1 none false
    let s := engines kerned [c] .running
    inFocus s 0 ∧ (queueOf s 3).cmds = [c] ∧ quietMemory s ∧ s.mgmt.tables = [] ∧ c.xc.toNat ≤ c.copy.dpitch.toNat ∧
      (∀ p < 4, ∀ d ∈ (queueOf s p).cmds, d.seq < c.seq → c.meets d = false) ∧
      0xFFFFFFF800000 ≤ c.xa.toNat ∧ (c.xa.toNat - 0xFFFFFFF800000) % 2 ^ 21 + 24 ≤ s.lstoreOf s.hart.kern := by
  unfold inFocus quietMemory memoryOk; decide +kernel

/-! Groups, harts, far work, stack engines. -/

/-- The second kernel's group, waiting. -/
def waiting : Group := { placedGroup base.hart with key := 1, kern := 1, st := .waiting }
def waits (w : HartWait) : State := { base with hart := { base.hart with wait := w } }
def withGroups (s : State) (l : List Group) : State := { s with cmp := { s.cmp with groups := l } }
def withKernels (s : State) (l : List Kernel) : State := { s with cmp := { s.cmp with kernels := l } }

/-- The second kernel needs a whole core's store, only quad 0 is not fenced, and its group outranks the group there. -/
def crowded : State :=
  let k : Kernel := { kernel4 with key := 1, st := .dispatching, hdr := { kernel4.hdr with lstore := 2 ^ 21 } }
  let s := withGroups (withKernels twoKernels [kernel4, k]) [placedGroup base.hart, { waiting with eff := 1 }]
  { s with mgmt := { s.mgmt with fenced := (List.range 23).map fun q => .quad (q + 1) } }

theorem witness_GroupAndKernelEvents_place :
    let s := twoKernels
    s.group 1 = some waiting ∧ s.nextPlacement = some 1 ∧ s.kernel 1 = some { kernel4 with key := 1, st := .dispatching } ∧
      s.quadFits { kernel4 with key := 1, st := .dispatching } 23 [] = true ∧
      s.quadFits { kernel4 with key := 1, st := .dispatching } 1 [] = true ∧ (s.ctx 0).freeSlot = some 0 := by
  decide +kernel
theorem witness_GroupAndKernelEvents_preempt :
    let s := crowded
    let c := { waiting with eff := 1 }
    s.roomFor = some c ∧ (s.kernel 1).isSome = true ∧ (s.victims c 0).map Group.key = [0] ∧
      (∀ k, s.kernel 1 = some k → [0] ∈ sublistsOf [0] ∧ s.quadFits k 0 [0] = true) ∧
      s.candidates = [c] ∧ s.group 1 = some c ∧ s.somePlace c = false := by
  refine ⟨by decide +kernel, by decide +kernel, by decide +kernel, fun k h => ⟨by decide, ?_⟩, by decide +kernel, by decide +kernel,
    by decide +kernel⟩
  have e : crowded.kernel 1 = some { kernel4 with key := 1, st := .dispatching, hdr := { kernel4.hdr with lstore := 2 ^ 21 } } := by
    decide +kernel
  rw [e] at h
  cases h
  decide +kernel
theorem witness_GroupAndKernelEvents_stop :
    let g : Group := { placedGroup base.hart with st := .stopping, slot := some 0 }
    let s := withGroups kerned [g]
    let hs := s.groupHarts 0
    let u := (s.drainHarts (hs.map Hart.no)).flushHarts hs
    s.group 0 = some g ∧ hs.length = 1 ∧ (u.groupHarts 0).all u.settled = true ∧ u.group 0 = some g ∧ u.kernel 0 = some kernel4 ∧
      g.reason = .preempt ∧ g.recs = [] ∧ u.ms.poison = [] ∧ u.ms.lsBad = [] := by
  decide +kernel
theorem witness_GroupAndKernelEvents_retire :
    let g : Group := { placedGroup base.hart with slot := some 0 }
    let s := { withGroups kerned [g] with hart := { kerned.hart with phase := .exited } }
    s.group 0 = some g ∧ s.mayRetire g = true ∧ s.kernel 0 = some kernel4 ∧ kernel4.st = .running := by
  decide +kernel
theorem witness_GroupAndKernelEvents_kernels :
    (let k := { kernel4 with st := .pending }
     let s := withKernels base [k]
     (s.cmp.kernels.filter fun k => k.st = .dispatching).length < 64 ∧ s.nextKernel = some k ∧ s.kernel 0 = some k) ∧
    (let k := { kernel4 with st := .draining }
     (withGroups (withKernels base [k]) []).kernel 0 = some k ∧ base.link.waiting = []) ∧
    (let k := { kernel4 with st := .faulted, told := false }
     (withGroups (withKernels base [k]) []).kernel 0 = some k ∧ base.link.waiting = []) ∧
    (let g : Group := { waiting with st := .preempted, kern := 0 }
     (withGroups kerned [g]).group 1 = some g ∧ (withGroups kerned [g]).kernel 0 = some kernel4 ∧ g.held = false) := by
  decide +kernel

def pends (s : State) (f : FaultInfo) : State := { s with hart := { s.hart with pend := some ⟨f, 0, 8⟩ } }

theorem witness_HartWaitsAndFrontFaults :
    (∀ w ∈ [HartWait.resync, .barrier 5 3, .qsub, .hrput 255 false, .hrput 255 true, .ctw, .klaunch], (waits w).findHart 0 = some (waits w).hart ∧
      (waits w).hart.phase = .running ∧ (waits w).hart.wait = w) ∧
    (base.findHart 0 = some base.hart ∧ base.hart.wait ≠ .resync) ∧
    (inFocus base 0 ∧ base.hart.pend = none) ∧
    (inFocus (pends (withEntry base (.vadd g1 vm 1 2 3)) ⟨1, 0, 0, 0, 0⟩) 0 ∧ (withEntry base (.vadd g1 vm 1 2 3)).hart.vq ≠ []) ∧
    (inFocus (pends handled ⟨1, 0, 0, 0, 0⟩) 0 ∧ (pends handled ⟨1, 0, 0, 0, 0⟩).hart.vq = [] ∧ hasHandler (pends handled ⟨1, 0, 0, 0, 0⟩).hart) ∧
    (inFocus (pends base ⟨6, 7, 0, 0, 0⟩) 0 ∧ (pends base ⟨6, 7, 0, 0, 0⟩).hart.vq = [] ∧ ¬hasHandler (pends base ⟨6, 7, 0, 0, 0⟩).hart) := by
  unfold inFocus hasHandler; decide +kernel

/-- The hart's queue holds this. -/
def queues (s : State) (i : Instr) : State := withEntry s i
def performEnds (s : State) (i : Instr) : Nat :=
  match s.hart.vq with
  | e :: _ => (match s.performEntry e with
    | .done t => if t.hart.phase = .running then 1 else 2
    | .fault .. => 3
    | .wait .. => 4)
  | [] => if isFarWord i then 5 else 6

theorem witness_FarWorkEvents_dispatch :
    (let s := withEntry base (.vadd g1 vm 1 2 3)
     inFocus s 0 ∧ s.hart.phase = .running ∧ isFarWord (.vadd g1 vm 1 2 3) = false) ∧
    (inFocus (withEntry (fars 2 .n32) (.fredadd g1 true .n32 1 2)) 0 ∧ isFarWord (.fredadd g1 true .n32 1 2) = true ∧
      performEnds (withEntry (fars 2 .n32) (.fredadd g1 true .n32 1 2)) (.fredadd g1 true .n32 1 2) = 1) ∧
    performEnds (withEntry (fars 2 .n8) (.fredadd g1 true .e4m3 1 2)) (.fredadd g1 true .e4m3 1 2) = 3 := by
  unfold inFocus; decide +kernel

/-- A piece of the far instruction at stack 3. -/
def piece (s : State) (i : Instr) (sel : List Nat) : FarPiece := ⟨0, s.plat.pkg.toNat, 3, .whole, 0, s.makeEntry i, .none, [], [], 1, sel, [], [], none⟩
def withPieces (s : State) (l : List FarPiece) : State := { s with far := { s.far with pieces := l } }

theorem witness_FarWorkEvents_pieces :
    let s := fars 2 .n32
    let p := piece s (.fredadd g1 true .n32 1 2) []
    let s := withPieces s [p]
    inFocus s 0 ∧ s.far.pieces = [] ++ p :: [] ∧ p.hart = 0 ∧ p.stack = 3 ∧ s.topToCome p = false ∧
      (match s.performPiece p with | some t => decide (t.hart.no = 0 ∧ t.hart.phase ≠ .absent) | none => false) = true := by
  unfold inFocus; decide +kernel
theorem witness_FarWorkEvents_answers :
    let b : BindRequest := ⟨0, base.hart.ctl.wid, 1, 2, none⟩
    let s := { base with far := { base.far with binds := [b] } }
    inFocus s 0 ∧ s.far.binds = [] ++ b :: [] ∧ b.ctx = s.hart.ctx ∧ b.wid = s.hart.ctl.wid ∧ b.answer = none ∧ b ∉ ([] : List BindRequest) := by
  unfold inFocus; decide +kernel
theorem witness_FarWorkEvents_contributions :
    quietMemory base ∧ (∀ f ∈ [Fmt.fp32, .n32, .s32, .n64], 0 < fmtWidth f / 8 ∧ 0x8000 % (fmtWidth f / 8) = 0 ∧
      base.backed 0x8000 (fmtWidth f / 8) = true) ∧ fmtIsFloat .fp32 = true ∧ fmtIsFloat .n32 = false := by
  unfold quietMemory memoryOk; decide +kernel

/-- Stack 15's block as this. -/
def lending : StackUnit := { StackUnit.reset with guest := true }
def setOf (c : Nat) : GuestSet := ⟨1, c, 5, Vector.replicate 8 .fresh⟩

/-- The operands of a contribution of one element, from another package. -/
def remoteAdd : FarOperands :=
  ⟨0, 1, 0, 0, 0, .n32, false, 0, [], 0, 0, 0x8000, 0x9000, [], [], 1, [⟨0, 0, true, false, 0⟩], 0, 0, []⟩

theorem witness_StackEngineAndGuestEvents_guests :
    ((0 : Word).getLsbD 0 = false ∧ (dieOf base 15).sets = []) ∧
    (dieOf (withDie base 15 { lending with sets := [setOf 2] }) 15).sets ≠ [] ∧
    ((1 : Word).getLsbD 0 = true ∧ base.ms.reduce = []) ∧
    ¬(dieOf base 0).guest = true ∧
    (let s := withDie base 0 { lending with sets := (List.range 64).map setOf }
     64 ≤ (dieOf s 0).sets.length ∧ ∀ g ∈ (dieOf s 0).sets, ¬(g.pkg = 1 ∧ g.ctx = 64 ∧ g.wid = 5)) ∧
    (let s := withDie base 0 { lending with sets := (List.range 63).map setOf }
     s.stackActive 0 = true ∧ .stack 0 ∉ s.mgmt.fenced ∧ (dieOf s 0).guest = true ∧ (dieOf s 0).sets.length < 64 ∧
       ∀ g ∈ (dieOf s 0).sets, ¬(g.pkg = 1 ∧ g.ctx = 64 ∧ g.wid = 5)) ∧
    ((dieOf (withDie base 0 { lending with sets := [setOf 1, setOf 2] }) 0).sets = [setOf 1] ++ setOf 2 :: [] ∧
      (setOf 2).pkg = 1 ∧ (setOf 2).ctx = 2 ∧ (setOf 2).wid = 5) ∧
    (∀ off ∈ [0x300000, 0x320000], hostReaches base off) ∧ ¬base.stackActive 15 = true ∧
    (∀ g ∈ (dieOf (withDie base 0 { lending with guests := [⟨1, 1, 5, 0, remoteAdd⟩] }) 0).guests, g.isOf 1 2 5 = false) := by
  unfold hostReaches; decide +kernel
theorem witness_StackEngineAndGuestEvents_commands :
    let g : GuestPiece := ⟨1, 2, 5, 0, remoteAdd⟩
    let fresh := (Vector.replicate 8 .fresh : Vector FarReg 8)
    base.stackActive 0 = true ∧ .stack 0 ∉ base.mgmt.fenced ∧ base.lag.far = false ∧ (dieOf base 0).guests = [] ∧
    ({ base with lag := .behind }).lag.far = true ∧
    (base.performGuest 0 g (.fredadd g1 true .n32 1 2) fresh).isSome = true ∧
    (base.performGuest 0 g (.fmerge g1 true false false 56 57) fresh).isSome = true ∧
    (withRecord base 63 ⟨.pending, 0, 7, 0x10000, 0, 0, 0⟩).performGuest 0 g (.fredadd g1 true .n32 1 2) fresh = none ∧
    (match decodeWords (0xFF000E2704280000 : Word) 0 with | .ok i => isFarWord i | .error _ => false) = true ∧
    (match decodeWords ((encode (.fredadd g1 true .n32 1 2)).headD 0) 0 with | .ok i => isFarWord i | .error _ => false) = true ∧
    (match decodeWords (0xFF000E2704280000 : Word) 0 with | .ok i => isPiecewise i | .error _ => true) = false ∧
    (match decodeWords ((encode .nop).headD 0) 0 with | .ok i => isFarWord i | .error _ => true) = false := by
  decide +kernel

/-- The pools of stack 0 hold frame 1, whose page header is `h`; AGETHR 0. -/
def converts (h : Nat) : State :=
  let u : StackUnit := { StackUnit.reset with rqeEn := true, pools := Vector.replicate 4 ⟨1, 1⟩ }
  withDie { base with ms := { base.ms with mem := Memory.writeNat base.ms.mem (2 ^ 44 + 2 ^ 16) 256 h } } 0 u

/-- A header of one-token slots in this state; `tag` is the first slot's. -/
def rqeHeader (st tag age : Nat) : Nat := 1 + 2 ^ 8 + st * 2 ^ 12 + age * 2 ^ 64 + 1024 * 2 ^ 160 + tag * 2 ^ 512

/-- The same with the page under migration. -/
def moving (h : Nat) : State :=
  let s := converts h
  { s with ms := { s.ms with mig := { s.ms.mig with recs := s.ms.mig.recs.setIfInBounds 0 ⟨.armed, 2 ^ 28 + 2, 2 ^ 28 + 1, 0, 0, 0, 0⟩ } } }

theorem witness_StackEngineAndGuestEvents_disable :
    let pa := 2 ^ 44 + 2 ^ 16
    let st (s : State) : Nat := bits (s.ms.kreadNat pa 4) 12 3
    (dieOf base 0).rqeEn = false ∧ ((dieOf (converts (rqeHeader 2 1 0)) 0).rqeEn = true ∧ st (converts (rqeHeader 2 1 0)) = 2) ∧
    (let s := converts (rqeHeader 3 1 0)
     (dieOf s 0).rqeEn = true ∧ st s = 3 ∧ s.kvSkipped pa = false ∧ 1 < s.localFrames) := by
  decide +kernel

/-- What a visit depends on: the header of frame 1 of stack 0. -/
def rqeSees (s : State) : Bool × Nat × Nat × Bool × Nat :=
  let pa := 2 ^ 44 + 2 ^ 16
  let h := s.ms.creadNat pa 0x100
  (s.rqeMay 0 1 && s.permits (.chord 0) (.stackMem 0) true && !kvMalformed h && s.ms.poison.isEmpty && s.ms.msc.isEmpty, bits h 12 3, bits h 16 1, s.ms.migrating (pa / 2 ^ 16),
    (((List.range 63).map (· + 1)).filter fun n => bits h (8 * (0x40 + 2 * (n - 1))) 2 == 1).length)

theorem witness_StackEngineAndGuestEvents_visits :
    base.rqeMay 0 1 = false ∧ ((converts 0).rqeMay 0 1 = true ∧ kvMalformed ((converts 0).ms.creadNat (2 ^ 44 + 2 ^ 16) 0x100) = true) ∧
    (let s := { converts 0 with ms := { (converts 0).ms with poison := [2 ^ 38 + 2 ^ 10] } }
     s.rqeMay 0 1 = true ∧ s.permits (.chord 0) (.stackMem 0) true = true ∧ s.ms.poisoned (2 ^ 44 + 2 ^ 16) 64 = true) ∧
    (let s := { converts 0 with mgmt := { (converts 0).mgmt with tables := [⟨.stackMem 0, .chord 0, true, false⟩] } }
     s.rqeMay 0 1 = true ∧ s.permits (.chord 0) (.stackMem 0) true = false) ∧
    rqeSees (converts (rqeHeader 0 0 0)) = (true, 0, 0, false, 0) ∧ rqeSees (converts (rqeHeader 1 0 0)) = (true, 1, 0, false, 0) ∧
    rqeSees (moving (rqeHeader 1 0 0)) = (true, 1, 0, true, 0) ∧
    (dieOf (converts (rqeHeader 1 0 0)) 0).agethr.toNat + 0 ≤ 0 := by
  decide +kernel
theorem witness_StackEngineAndGuestEvents_aged :
    rqeSees (converts (rqeHeader 2 0 0 + 2 ^ 16)) = (true, 2, 1, false, 0) ∧ rqeSees (converts (rqeHeader 2 0 0)) = (true, 2, 0, false, 0) ∧
    rqeSees (converts (rqeHeader 2 1 0)) = (true, 2, 0, false, 1) ∧ rqeSees (converts (rqeHeader 4 1 0)) = (true, 4, 0, false, 1) := by
  decide +kernel
theorem witness_StackEngineAndGuestEvents_slots :
    rqeSees (converts (rqeHeader 3 0 0)) = (true, 3, 0, false, 0) ∧
    rqeSees (converts (rqeHeader 3 0 0 + 2 ^ 16)) = (true, 3, 1, false, 0) ∧
    rqeSees (converts (rqeHeader 3 1 0)) = (true, 3, 0, false, 1) ∧ rqeSees (moving (rqeHeader 3 0 0)) = (true, 3, 0, true, 0) ∧
    ∀ x ∈ (moving (rqeHeader 3 0 0)).ms.mig.recs.toList, x.new = 2 ^ 28 + 1 → x.st = .free ∨ x.st = .done := by
  decide +kernel

theorem witness_StackEngineAndGuestEvents_young : (rqeSees (converts (rqeHeader 1 0 (2 ^ 64 - 1)))).1 = true ∧
    ∀ t : Word, t.toNat < 1 + (2 ^ 64 - 1) :=
  ⟨by decide +kernel, fun t => by have := t.isLt; omega⟩

/-! Translation and migration. -/

def block (c : Option TiCmd) (tlb : List TlbEntry) : State :=
  { base with ms := { base.ms with ti := { base.ms.ti with cmd := c }, tlb := tlb } }

def Acc.isOk {α : Type} (x : Acc α) : Bool := match x with
  | .ok _ => true
  | _ => false

theorem accOk {α : Type} {x : Acc α} (h : Acc.isOk x = true) : ∃ l, x = .ok l := by
  cases x with
  | ok l => exact ⟨l, rfl⟩
  | fault f => contradiction
  | held p => contradiction

theorem accNotOk {α : Type} {x : Acc α} (h : Acc.isOk x = false) (l : α) : x ≠ .ok l := by
  intro e
  rw [e] at h
  contradiction

/-- The walk of context 0 from its root. -/
def wholeWalk : WalkStart := ⟨1, (base.ctx 0).ptroot.toNat * 2 ^ 16, []⟩

theorem witness_TranslationEvents_walk :
    noMigration base ∧ base.walkStarts 0 0 0x8000 = [wholeWalk] ∧ (∃ l, base.walkStart 0x8000 wholeWalk = .ok l) ∧
      (95 < 96 ∧ (0xFFFFFFF7FFFFF : Word).toNat < 0xFFFFFFF800000) ∧ 96 ≤ 96 ∧
      0xFFFFFFF800000 ≤ (0xFFFFFFF800000 : Word).toNat ∧ (∀ l, base.walkStart 0x10000000000 wholeWalk ≠ .ok l) ∧
      (∀ e ∈ base.ms.tlb, e.core ≠ 0) ∧ base.ms.ti.cmd = none :=
  ⟨by unfold noMigration; decide +kernel, by decide +kernel, accOk (by decide +kernel), by decide, by decide, by decide,
    accNotOk (by decide +kernel), by decide +kernel, by decide +kernel⟩
theorem witness_TranslationEvents_invalidate :
    (base.ms.ti.cmd = none ∧ base.lag.stale = false ∧ ({ base with lag := { base.lag with stale := true } } : State).ms.ti.cmd = none) ∧
    (block (some .all) []).ms.ti.cmd = some .all ∧ (block (some .all) [blockEntry]).tiBusyWith .all = false ∧
    (let s := { block (some (.context 0)) [blockEntry] with link := { base.link with waiting := [⟨base.hart.poster, 0, 0x8000, 8, none, none⟩] } }
     s.ms.ti.cmd = some (.context 0) ∧ s.tiBusyWith (.context 0) = true) ∧
    (¬(blockEntry.ctx = 1) ∧ blockEntry.vpn ≤ 0xFFFF ∧ 0xFFFF < blockEntry.vpn + blockEntry.pages ∧
      ¬0x1000000 < blockEntry.vpn + blockEntry.pages) := by
  decide +kernel

/-- Record 63 of the migration block, frame 7 to frame 9, its leaf entry in the root table. -/
def migrates (r : MigRec) : State :=
  { base with ms := { base.ms with mig := { base.ms.mig with recs := base.ms.mig.recs.setIfInBounds 63 r } } }
def aRecord (st : MigState) (lines filled : Nat) : MigRec := ⟨st, 9, 7, 0x10000, filled, 0, lines⟩

theorem witness_TranslationEvents_open :
    (∃ r ∈ base.ms.mig.recs.toList, r.st = .free) ∧ (¬∃ r ∈ base.ms.mig.recs.toList, r.st ≠ .free) ∧
    (let s := migrates (aRecord .armed 0 0)
     let s := { s with ms := { s.ms with mig := { s.ms.mig with new := 9 } } }
     ∃ r ∈ s.ms.mig.recs.toList, r.st ≠ .free ∧ (r.new = s.ms.mig.new.toNat ∨ r.old = s.ms.mig.new.toNat)) ∧
    (let s := { base with ms := { base.ms with mig := { base.ms.mig with recs := Vector.replicate 64 (aRecord .done 0 0) } } }
     ∀ r ∈ s.ms.mig.recs.toList, r.st ≠ .free) := by
  decide +kernel
theorem witness_TranslationEvents_records :
    (recordOf base 63).st ≠ .pending ∧ (recordOf (migrates (aRecord .pending 0 0)) 63).st = .pending ∧
    (recordOf (migrates (aRecord .done 0 128)) 63).st = .done ∧
    (∀ i < 64, (recordOf base i).st = .pending → (recordOf base i).new ≠ 0x90000 / 2 ^ 16) ∧
    (let s := migrates (aRecord .pending 0 0)
     (recordOf s 63).new = 0x90000 / 2 ^ 16 ∧ s.ms.migOf 0x90000 = some 63) ∧
    (let s := migrates (aRecord .armed 0 127)
     (recordOf s 63).st = .armed ∧ (∃ l < 128, (recordOf s 63).lines.testBit l = false) ∧ s.ms.migOf 0x9FFFF = some 63 ∧ s.ms.reduce = [] ∧
       s.ms.poison = [] ∧ memoryOk s ∧ (recordOf s 63).old ≠ (recordOf s 63).new ∧ (recordOf s 63).pte + 8 ≤ 0x90000) ∧
    (let s := migrates (aRecord .armed 1 1)
     s.ms.migOf 0x90000 = some 63 ∧ (recordOf s 63).lines.testBit 0 = true) := by
  unfold memoryOk; decide +kernel
theorem witness_TranslationEvents_writeback :
    (base.ms.l1Find 0 0x200 = none ∧ memoryOk base ∧ base.ms.reduce = [] ∧ base.ms.poison = []) ∧
    (let s := { base with ms := { base.ms with l1 := [⟨0, 0x200, 0x1122, 2, false, 0⟩] } }
     s.ms.l1Find 0 0x200 = some ⟨0, 0x200, 0x1122, 2, false, 0⟩ ∧ memoryOk s) := by
  unfold memoryOk; decide +kernel

/-! Queues, rings, contexts. -/

/-- Queue 1023 as this. -/
def works (w : WorkQueue) : State := { base with cmp := { base.cmp with queues := [(1023, w)] } }
def node (st : NodeSt) (ty : Nat) : RunNode := ⟨0x8000, st, BitVec.ofNat 64 ty :: List.replicate 7 0, 0, none, none, false, none⟩
def having (l : List RunNode) : State := works { workQueue with cur := some 0x8000, nodes := l }

theorem witness_QueueAndRingEvents_submits :
    (workOf base 0).en = false ∧ (workOf (works workQueue) 1023).en = true ∧
    (workOf (works { workQueue with subs := List.replicate 64 0 }) 1023).subs.length = 64 ∧
    (workOf (works { workQueue with subs := List.replicate 63 0 }) 1023).subs.length = 63 ∧
    (let w := workOf (works workQueue) 1023
     w.en = true ∧ w.faulted = false ∧ w.suspended = false ∧ w.cur = none ∧ w.subs = []) ∧
    (workOf (works { workQueue with suspended := true }) 1023).suspended = true ∧
    (workOf (works { workQueue with faulted := true }) 1023).faulted = true ∧
    (∃ n ∈ (workOf (having [node .running 2]) 1023).nodes, n.st = .running) := by
  decide +kernel
theorem witness_GraphEvents_select :
    (∀ p ∈ base.cmp.queues, base.eligible p.2 = false) ∧
    (let s := having [node .ready 2]
     (∃ p ∈ s.cmp.queues, s.eligible p.2 = true) ∧ ∀ p ∈ s.cmp.queues, workOf s p.1 = p.2) := by
  decide +kernel

/-- What the work of the queue's first node comes to. -/
def workEnds (s : State) (n : RunNode) : Nat × Nat :=
  ((match s.runCopy 1023 n with | .done _ => 1 | .fault .. => 2 | .held => 3), match s.runSignal 1023 n with | .done _ => 1 | .fault .. => 2 | .held => 3)
/-- A COPY of 64 bytes from 0x9000 to 0xA000. -/
def copyNode : RunNode := ⟨0x8000, .running, [2, 0, 0, 0x9000, 0xA000, 64, 0, 0], 0, none, none, false, none⟩
/-- A write of the queue's first node has not been acknowledged. -/
def postedBy (s : State) (n : RunNode) : State :=
  { s with link := { s.link with waiting := [⟨{ base.hart.poster with node := some (1023, n.addr) }, 0, 0x8000, 8, none, none⟩] } }

theorem witness_GraphEvents_nodes :
    (∀ ty ∈ [1, 2, 3, 4, 6], ∀ st ∈ [NodeSt.ready, .running, .blocked],
      (workOf (having [node st ty]) 1023).nodes = [] ++ node st ty :: [] ∧ ((node st ty).words.getD 0 0).toNat % 256 = ty ∧ (node st ty).st = st) ∧
    workEnds (having [copyNode]) copyNode = (1, 1) ∧ workEnds (having [node .running 2]) { copyNode with words := [2, 0, 0, 0x9000, 0x9020, 64, 0, 0] } = (2, 1) ∧
    workEnds (having [node .running 4]) { copyNode with words := [4, 0, 0, 0x9001, 0, 64, 0, 0] } = (1, 2) ∧
    (let n := { copyNode with worked := true }
     n.st = .running ∧ n.worked = true ∧ (∃ p ∈ (postedBy (having [n]) n).link.waiting, p.src.node = some (1023, n.addr)) ∧
       ∀ p ∈ (having [n]).link.waiting, p.src.node ≠ some (1023, n.addr)) := by
  decide +kernel
theorem witness_GraphEvents_kernels :
    (∀ st ∈ [KernState.complete, .faulted, .running], ∀ told ∈ [true, false],
      (withKernels base [{ kernel4 with st := st, told := told }]).kernel 0 = some { kernel4 with st := st, told := told }) ∧
    (let n : RunNode := { node .running 1 with kern := some 0 }
     n.st = .running ∧ (n.words.getD 0 0).toNat % 256 = 1 ∧ n.kern = some 0) ∧
    (let s := having [node .blocked 1]
     ({ node .blocked 1 with copy := some 0 }).copy = some 0 ∧ (node .blocked 1).copy = none ∧ s.slotsFull = false ∧ s.mgmt.locked = false ∧ (workOf s 1023).faulted = false ∧ (workOf s 1023).suspended = false ∧ (s.ctx 0).st = .active) ∧
    (let s := having [node .running 6, { node .ready 2 with addr := 0x9000 }]
     (workOf s 1023).nodes = [] ++ node .running 6 :: [{ node .ready 2 with addr := 0x9000 }] ∧ (workOf s 1023).subs = [] ∧
       (workOf s 1023).resetting = false) ∧
    (∀ n ∈ (workOf (having [node .running 2]) 1023).nodes, n.st = .running → (n.words.getD 0 0).toNat % 256 ≠ 6) := by
  decide +kernel
theorem witness_GraphEvents_waits :
    (match (having [node .blocked 3]).readWait 1023 ⟨0x8000, .blocked, [3, 0, 0, 0x9000, 0, 0, 0, 0], 0, none, none, false, none⟩ with
      | .yes _ => 1 | .no _ => 2 | .fault _ => 3 | .held => 4) = 1 ∧
    (match (having [node .blocked 3]).readWait 1023 ⟨0x8000, .blocked, [3, 0, 0, 0x9000, 1, 0, 0, 0], 0, none, none, false, none⟩ with
      | .yes _ => 1 | .no _ => 2 | .fault _ => 3 | .held => 4) = 2 ∧
    (match (having [node .blocked 3]).readWait 1023 ⟨0x8000, .blocked, [3, 0, 0, 0x9001, 1, 0, 0, 0], 0, none, none, false, none⟩ with
      | .yes _ => 1 | .no _ => 2 | .fault _ => 3 | .held => 4) = 3 := by
  decide +kernel
theorem witness_QueueAndRingEvents_rings :
    (ring oneRing).ring 255 = oneRing ∧ oneRing.en = true ∧ Ring.reset.en = false ∧
    (∀ n ∈ [4, 16], 4 ≤ (BitVec.ofNat 64 (2 * n + 1)).toNat / 2 % 32 ∧ (BitVec.ofNat 64 (2 * n + 1)).toNat / 2 % 32 ≤ 16 ∧
      (BitVec.ofNat 64 (2 * n + 1)).getLsbD 0 = true) ∧
    (∀ n ∈ [3, 17], (BitVec.ofNat 64 (2 * n + 1)).toNat / 2 % 32 < 4 ∨ 16 < (BitVec.ofNat 64 (2 * n + 1)).toNat / 2 % 32) ∧
    (let k := { oneRing with timer := true, time := 1, pend := 1 }
     k.en = true ∧ k.timer = true ∧ k.time ≠ 0 ∧ k.pend ≠ 0) ∧
    base.link.waiting = [] ∧ (postedBy base copyNode).link.waiting ≠ [] := by
  decide +kernel

/-- Context 5 in this state. -/
def context (c : Context) : State := base.setCtx 5 c
def bindable : Context :=
  { Context.reset with st := .created, ptroot := 1, savebase := 0x1000, saven := 1, ring := { Context.reset.ring with base := 0x40, log2n := 4, en := true } }

theorem witness_ContextEvents_states :
    (∀ st ∈ [CtxState.free, .created, .bound, .active, .preempted, .faulted, .destroying], ((context { bindable with st := st }).ctx 5).st = st) ∧
    (context bindable).bindOk bindable = true ∧ base.bindOk Context.reset = false ∧
    (∀ p ∈ base.cmp.queues, p.2.en = true → p.2.ctx.toNat ≠ 5) ∧
    (¬∀ p ∈ (works { workQueue with ctx := 5 }).cmp.queues, p.2.en = true → p.2.ctx.toNat ≠ 5) ∧
    bindable.slots = [] ∧ ({ bindable with slots := [0] }).slots ≠ [] ∧ (∀ g ∈ base.cmp.groups, g.ctx = 5 → g.st ≠ .stopping) := by
  decide +kernel
theorem witness_ContextEvents_replies :
    (∀ g ∈ base.cmp.groups, g.ctx = 5 → g.slot ≠ some 0) ∧
    (∀ g ∈ [{ waiting with ctx := 5, slot := some 0, st := .preempted, held := true }, { waiting with ctx := 5, slot := some 0, st := .faulted },
        { waiting with ctx := 5, slot := some 0, st := .running }],
      (withGroups base (base.cmp.groups ++ [g])).cmp.groups = base.cmp.groups ++ g :: [] ∧ g.ctx = 5 ∧ g.slot = some 0 ∧
        (∀ q ∈ base.cmp.groups, q.ctx = 5 → q.slot ≠ some 0) ∧ ∀ q ∈ base.cmp.groups ++ [], q.key ≠ g.key) := by
  decide +kernel

/-- A saved hart at the first area of slot 0 of context 0, halted. -/
def savedHalt (halt : Nat) : State :=
  let s := kerned.setCtx 0 { kerned.ctx 0 with savebase := 0x100, saven := 1, slots := [0] }
  let a := (s.ctx 0).slotBase 0 + areaOffset 0 0
  { withGroups s [{ placedGroup base.hart with st := .preempted, slot := some 0 }] with
    ms := { s.ms with mem := Memory.writeNat s.ms.mem a 8 (halt * 2 ^ 10) } }

/-- The hart of group 0 halted, its image as the halt wrote it. -/
def haltedNow : State :=
  let s := kerned.setCtx 0 { kerned.ctx 0 with savebase := 0x100, saven := 1, slots := [0] }
  let s := { withGroups s [{ placedGroup base.hart with slot := some 0 }] with hart := { s.hart with phase := .halted } }
  (s.putChunks ((s.ctx 0).slotBase 0 + areaOffset 0 0) ({ s.hart with phase := .running }.imageChunks true)).1

theorem witness_ContextEvents_debug :
    (∀ n ∈ [0, 1], let s := savedHalt n
      s.kernel 0 = some kernel4 ∧ kernel4.hdr.extent = 4 ∧
        (s.imageNat ((s.ctx 0).slotBase 0 + areaOffset kernel4.hdr.hpc 0) 8).testBit 10 = decide (n = 1)) ∧
    (let s := haltedNow
     s.spansBad (s.imageSpans ((s.ctx 0).slotBase 0 + areaOffset kernel4.hdr.hpc 0) s.hart.ctl.hpc) = false ∧ noMigration s ∧
     ((s.groupHarts 0).find? fun h => decide (h.f0 = 0) && h.phase == .halted) = some s.hart ∧
       (s.hartOfImage ((s.ctx 0).slotBase 0 + areaOffset kernel4.hdr.hpc 0) s.hart.ctl.hpc s.hart).isSome = true) := by
  unfold noMigration; decide +kernel
theorem witness_ContextEvents_rings :
    (let k : FaultRing := { bindable.ring with held := [List.replicate 8 0], prod := 15 }
     k.held = List.replicate 8 0 :: [] ∧ (k.prod - k.cons).toNat < 2 ^ k.log2n.toNat) ∧
    (let k : FaultRing := { bindable.ring with held := [List.replicate 8 0], prod := 16 }
     2 ^ k.log2n.toNat ≤ (k.prod - k.cons).toNat) ∧ bindable.ring.held = [] := by
  decide +kernel

/-! Links, platform, management, steps. -/

/-- What a request for device memory depends on. -/
def outerSees (s : State) (m : Master) (op : OuterOp) (pa n : Nat) : Bool × Bool × Bool :=
  (s.backed pa n && atomicOk m ⟨op, pa, n, [], 0, false⟩ n pa, (s.refusedByte (fun _ => m) pa n (decide (op ≠ .write)) (decide (op ≠ .read))).isNone, s.ms.poisoned pa n)
def tabled (m : Master) : State := { base with mgmt := { base.mgmt with tables := [⟨.stackMem (base.ownerOf 0x8000), m, true, false⟩] } }
def poisoned : State := { base with ms := { base.ms with poison := [0x8000 / 64] } }
def atPort (st : PortState) (attempts lanes : Nat) : State :=
  { base with link := { base.link with ports := base.link.ports.setIfInBounds 11 { Port.reset with st := st, attempts := attempts, lanes := lanes } } }

theorem witness_LinkAndHostEvents_memory :
    base.plat.stage = 4 ∧ State.reset.plat.stage ≠ 4 ∧ (∀ x ∈ base.ms.mig.recs.toList, x.st = .free ∨ x.st = .done) ∧
    outerSees base .host .read 0x8000 8 = (true, true, false) ∧ outerSees base .host .fetchAdd (2 ^ 44) 4 = (true, true, false) ∧
    outerSees base (.port 11) .write 0x8000 64 = (true, true, false) ∧ (outerSees base .host .read (2 ^ 40 - 8) 64).1 = false ∧
    outerSees (tabled .host) .host .write 0x8000 8 = (true, false, false) ∧ outerSees (tabled .host) .host .read 0x8000 8 = (true, true, false) ∧
    outerSees poisoned .host .cas 0x8000 8 = (true, true, true) ∧ base.ms.reduce = [] ∧
    outerSees base (.port 11) (.amo (.min .s32)) 0x8000 4 = (true, true, false) ∧ (outerSees base .host (.amo .and) 0x8000 4).1 = false ∧
    (outerSees base (.port 11) (.amo .fadd) 0x8000 8).1 = false ∧
    (portOf (atPort .up 0 4) 11).st = .up ∧ (portOf (atPort .degraded 0 1) 11).st = .degraded ∧ (portOf base 11).st = .down := by
  decide +kernel
/-- R286, R457: a peer's signed minimum of 5 and -1 leaves -1, and answers 5. -/
theorem test_peer_min :
    (let s := atPort .up 0 4
     let s := { s with ms := { s.ms with mem := Memory.writeNat s.ms.mem 0x8000 4 5 } }
     match exec (.peerAccess 11 1 ⟨.amo (.min .s32), 0x8000, 4, [0xFF, 0xFF, 0xFF, 0xFF], 0, false⟩) s with
     | .next t => (leNat (Memory.read t.ms.mem 0x8000 4), t.link.out.getLast?)
     | _ => (0, none)) = (0xFFFFFFFF, some (.completion [5, 0, 0, 0])) := by
  decide +kernel
theorem witness_LinkAndHostEvents_registers :
    (∀ r ∈ [(⟨.read, 0xF * 2 ^ 44 + 0x300, 8, [], 0, false⟩ : OuterReq), ⟨.write, 0xF * 2 ^ 44 + 2 ^ 33 - 4, 0, [1, 2, 3, 4], 0, false⟩,
        ⟨.cas, 0xF * 2 ^ 44, 8, [], 0, false⟩],
      0xF * 2 ^ 44 ≤ r.addr ∧ r.addr < 0xF * 2 ^ 44 + 2 ^ 33) ∧
    base.permits .host (.regBlock 0) false = true ∧
    ({ base with mgmt := { base.mgmt with tables := [⟨.regBlock 0, .host, false, true⟩] } }).permits .host (.regBlock 0) false = false := by
  decide +kernel
/-- R449, R451: HPSTAT of a port trained at 64 GT/s x16 in FLIT mode, its low half. -/
theorem test_host_reads_hpstat :
    (let s := { base with plat := { base.plat with rate := 6, width := 16, flit := true } }
     match exec (.hostMemAccess ⟨.read, 0xF * 2 ^ 44 + 0x200, 4, [], 0, false⟩) s with
     | .next t => t.link.out.getLast?
     | _ => none) = some (.completion [0x06, 0x01, 0x04, 0x00]) := by
  decide +kernel
theorem witness_LinkAndHostEvents_ports :
    (∀ st ∈ [PortState.down, .training, .up, .degraded, .retired], (portOf (atPort st 0 2) 11).st = st) ∧
    (portOf (atPort .training 7 0) 11).attempts = 7 ∧ (portOf (atPort .training 6 0) 11).attempts < 7 ∧
    (portOf (atPort .degraded 0 2) 11).lanes = 2 ∧
    (let s := { base with link := { base.link with waiting := [⟨base.hart.poster, 0, 0, 8, none, none⟩] } }
     s.link.waiting = ⟨base.hart.poster, 0, 0, 8, none, none⟩ :: []) ∧ base.link.waiting = [] ∧ base.plat.width = 0 ∧
    ({ base with plat := { base.plat with width := 16, cxlcache := true } }).plat.width ≠ 0 := by
  decide +kernel
theorem witness_PlatformEvents :
    (base.plat.plimit.toNat < 2801 ∧ 2800 ≤ base.plat.plimit.toNat) ∧
    (base.findHart base.hart.no = some base.hart ∧ base.hart ∈ base.placedHarts ∧ base.hart.core = 0 ∧
      base.group base.hart.grp = some (placedGroup base.hart) ∧ (placedGroup base.hart).st = .running) ∧
    (base.ctx 0).st = .active ∧ (0, 5) ∉ base.mgmt.spared ∧ (0, 5) ∉ base.mgmt.sparing ∧
    (let s := { base with mgmt := { base.mgmt with sparing := [(0, 5)] } }
     (0, 5) ∈ s.mgmt.sparing) ∧
    (let s := { base with mgmt := { base.mgmt with spared := [(0, 5)] } }
     (0, 5) ∈ s.mgmt.spared) := by
  decide +kernel

def asks (c : MbCommand) (locked : Bool) : State :=
  { base with mgmt := { base.mgmt with mbbuf := 8, busy := true, queue := [⟨true, c⟩], locked := locked, keyErased := locked } }

theorem witness_MailboxAndRegisterEvents_commands :
    base.mgmt.busy = false ∧ base.mgmt.queue = [] ∧ noMigration base ∧ base.plat.err ≠ 1 ∧
    ({ base with plat := base.plat.haltBoot 1 }).plat.err = 1 ∧
    (∀ c ∈ [MbCommand.attest, .telemetry, .rasLog, .accessTable ⟨.keyStore, .host, false, false⟩, .setAlarm 3, .setAlarm 2,
        .bootConfig base.plat.boot, .bootConfig { base.plat.boot with ratio := 1 }, .bootConfig { base.plat.boot with ratio := 7 },
        .bootConfig { base.plat.boot with ratio := 0 }, .bootConfig { base.plat.boot with ratio := 8 }],
      ∀ l ∈ [true, false], (asks c l).mgmt.busy = true ∧ (asks c l).mgmt.queue = ⟨true, c⟩ :: [] ∧ settledOutside (asks c l) ∧ (asks c l).mgmt.locked = l ∧
        (asks c l).mgmt.keyErased = l ∧ (asks c l).backed ((asks c l).mgmt.mbbuf.toNat * 2 ^ 12) 4096 = true) ∧
    (let s := { asks .attest false with mgmt := { (asks .attest false).mgmt with mbbuf := 0x800000000 } }
     regionOf (s.mgmt.mbbuf.toNat * 2 ^ 12) = .host ∧
       (let t := { s with mgmt := { s.mgmt with mbbuf := 0xFFFFFFFFF } }
        ¬(t.backed (t.mgmt.mbbuf.toNat * 2 ^ 12) 4096 = true ∨ regionOf (t.mgmt.mbbuf.toNat * 2 ^ 12) = .host))) := by
  unfold noMigration settledOutside; decide +kernel

/-- The write reaches its register, and the table allows it. -/
def registerReached (s : State) (off n : Nat) : Bool × Bool :=
  (decide (off < 2 ^ 33 ∧ off % n = 0 ∧ ((0x800 ≤ off ∧ off < 0x818) ∨ (s.plat.stage = 4 ∧ s.mgmt.locked = false))),
    s.permits .host (regBlockOf off) true)

theorem witness_MailboxAndRegisterEvents_registers :
    (∀ off ∈ [0x1000000 + 0x40 * 1023, 0x1000008 + 0x40 * 1023, 0x2000008 + 0x40 * 255, 0x2000020 + 0x40 * 255, 0x4000000 + 0x80 * 4095,
        0x4000048 + 0x80 * 4095, 0x300000 + 0x100 * 15, 0x5010000 + 0x100 * 11, 0x400],
      registerReached base off 8 = (true, true)) ∧
    registerReached State.reset 0x810 8 = (true, true) ∧ (registerReached State.reset 0x400 8).1 = false ∧
    (registerReached base 0x404 8).1 = false ∧ (registerReached base (2 ^ 33) 8).1 = false ∧
    registerReached { base with mgmt := { base.mgmt with tables := [⟨.regBlock 0x400, .host, true, false⟩] } } 0x400 8 = (true, false) := by
  decide +kernel

/-- The machine about to fetch this word and the next one. -/
def fetching (w w2 : Nat) : State := { State.reset.withFetchWord 128 (w + w2 * 2 ^ 64) with lag := .none }

theorem fetches_of {s : State} {va : Nat} {w : Word} (h : lands s { x := true, align := 8 } va 8 false 1 = true)
    (hw : (match s.resolve s.agent { x := true, align := 8 } va 8 with
      | .ok ps => BitVec.ofNat 64 (leValue (bytesAt s.ms.mem ps))
      | _ => 0) = w) : fetches s va w := by
  obtain ⟨ps, e, d⟩ := devicePlaced_of_lands h
  exact ⟨ps, e, d, by rw [e] at hw; exact hw.symm⟩

def frontReady (s : State) : Bool :=
  match s.agenda, s.group s.hart.grp with
  | m :: _, some g => m == .front s.hart.no && s.plat.powered && !s.mgmt.aer && s.hart.phase == .running && s.hart.pend.isNone && g.st == .running
  | _, _ => false

theorem frontNext_of {s : State} (h : frontReady s = true) : ∃ r, frontNext s r := by
  unfold frontReady at h
  split at h
  · rename_i m r g ha hg
    simp only [Bool.and_eq_true, beq_iff_eq, Option.isNone_iff_eq_none] at h
    exact ⟨r, h.1.1.1.1.2, by simpa using h.1.1.1.2, by rw [ha, h.1.1.1.1.1], h.1.1.2, h.1.2, g, hg, h.2⟩
  · contradiction

theorem witness_StepRunsDecodedInstruction :
    (let s := fetching 0xFF00000000000000 0
     (∃ r, frontNext s r) ∧ quietMemory s ∧ s.lag.code = false ∧ fetches s 0 0xFF00000000000000 ∧ lengthOf 0xFF00000000000000 = 8) ∧
    (let s := fetching 0xFF000792A412500A 0x403FF00020000100
     fetches s 0 0xFF000792A412500A ∧ lengthOf 0xFF000792A412500A = 16 ∧ fetches s 8 0x403FF00020000100) ∧
    (let s := fetching 0 0
     fetches s 0 0 ∧ lengthOf 0 = 8 ∧ decodeWords 0 0 = .error .illegal) := by
  refine ⟨⟨frontNext_of (by decide +kernel), by unfold quietMemory memoryOk; decide +kernel, by decide, fetches_of (by decide +kernel) (by decide +kernel),
    by decide +kernel⟩, ⟨fetches_of (by decide +kernel) (by decide +kernel), by decide +kernel, fetches_of (by decide +kernel) (by decide +kernel)⟩,
    fetches_of (by decide +kernel) (by decide +kernel), by decide +kernel, by decide +kernel⟩
theorem witness_StepRunsDecodedInstruction_faults :
    (let s := { fetching 0 0 with hart := { (fetching 0 0).hart with pc := 4 } }
     (∃ r, frontNext s r) ∧ (match s.fetch with | .fault f => f.code == 0x08 | _ => false) = true) ∧
    (∃ w, lengthOf w = 8 ∧ decodeWords w 0 = .error .placement) ∧
    ({ base with agenda := [.event .coldReset] }).plat.powered = true ∧ isEvent .coldReset = true ∧
    (base.ms.owed = [] ∧ (∀ d ∈ base.far.dies.toList, d.offPending = false) ∧ ∀ h ∈ base.placedHarts, ∀ key cls, h.wait ≠ .barrier key cls) := by
  refine ⟨⟨frontNext_of (by decide +kernel), by decide +kernel⟩, ⟨0xFF0001C021000006 + 2 ^ 43, ?_⟩, by decide +kernel, by decide +kernel,
    by decide +kernel, by decide +kernel, ?_⟩
  rotate_left
  · have e : base.placedHarts.all (fun h => h.wait == .none) = true := by decide +kernel
    intro h hm key cls
    rw [beq_iff_eq.mp (List.all_eq_true.mp e h hm)]
    exact fun x => by cases x
  decide +kernel
theorem witness_MemoryStaysCanonical : memoryOk base ∧ ∃ t, step base = .next t := by
  refine ⟨by unfold memoryOk; decide +kernel, ?_⟩
  have h : next (step base) (fun _ => true) = true := by decide +kernel
  cases e : step base with
  | next t => exact ⟨t, rfl⟩
  | fault f => rw [e] at h; contradiction
  | refused r => rw [e] at h; contradiction
theorem witness_EncodeDecodeRoundTrip : (Instr.add g1 3 1 2).wf = true ∧ isEvent (.add g1 3 1 2) = false ∧
    (Instr.emcast g1 ⟨2, 2⟩ 21 8 9 10 ⟨some .bf16, 0, 63, 15, 128, 256⟩).wf = true ∧ (encode (.add g1 3 1 2)).length = 1 := by
  decide +kernel

/-! Where accesses end: waits of the front end, element faults, trimmed loads, rows across the window. -/

def Acc.isFault {α : Type} (x : Acc α) : Bool := match x with
  | .fault _ => true
  | _ => false

/-- x1 of the hart holds an error. -/
def sick : State := { base with hart := { base.hart with xbad := 2 } }
def adding : State := withEntry base (.vadd g1 vm 1 2 3)

theorem witness_SkipsAndWaits_waits :
    (isEvent (.add g1 3 1 2) = false ∧ sick.gate (.add g1 3 1 2) = .bad) ∧ soundRegs base ∧
    (let s := withEntry base (.vextr g1 vm 2 1 3)
     (∀ e ∈ s.hart.vq, isFirstFault e.instr = false ∧ isFenceVs e.instr = false) ∧ guardPasses s (.add g1 1 2 3) ∧
       ∃ x ∈ frontX (.add g1 1 2 3), x ∈ s.hart.pendingX) ∧
    (let s := withEntry base (.vcmp g1 vm .eq 2 1 3)
     (∀ e ∈ s.hart.vq, isFirstFault e.instr = false ∧ isFenceVs e.instr = false) ∧ guardPasses s (.kfromx g1 2 1 3) ∧
       ∃ k ∈ frontK (.kfromx g1 2 1 3), k ∈ s.hart.pendingK) := by
  unfold soundRegs guardPasses; decide +kernel
theorem witness_SkipsAndWaits_flags :
    (∀ e ∈ adding.hart.vq, isFirstFault e.instr = false ∧ isFenceVs e.instr = false) ∧ (∃ e ∈ adding.hart.vq, setsFlags e.instr = true) ∧
    (∀ q ∈ [SReg.fflags, .iflags], guardPasses adding (.mfs g1 1 q) ∧ guardPasses adding (.mts g1 q 1)) ∧
    guardPasses adding (.fenceVs g1) ∧ adding.hart.vq ≠ [] ∧
    (let s := withPieces base [piece base (.fredadd g1 true .fp32 1 2) []]
     (∃ p ∈ s.far.pieces, p.hart = s.hart.no ∧ setsFlags p.entry.instr = true) ∧ guardPasses s (.mfs g1 1 .fflags) ∧
       ∀ e ∈ s.hart.vq, isFirstFault e.instr = false ∧ isFenceVs e.instr = false) := by
  unfold guardPasses; decide +kernel

/-- x1 two bytes below the end of the striped pool, x2 = 2. -/
def edge (t : Fmt) : State := withX (withX (vecs 4 t false) 1 (2 ^ 35 - 2)) 2 2
/-- The element at the pool's end faults, the one before it is read. -/
def trimsAt (s : State) (i : Instr) (form : Form) (w : Nat) : Bool :=
  let v := envOf s i
  let u := issued s i
  decide (performedPositions v = [0, 1, 2, 3]) && decide ((elementAt v form w 0 0).1 = 2 ^ 35 - 2) &&
    (u.readOn u.nearStream { r := true } true (2 ^ 35 - 2) (w / 8) == .ok (List.replicate (w / 8) 0, u)) &&
    Acc.isFault (u.checkSpans u.nearStream { r := true } [((elementAt v form w 0 1).1, w / 8)])

theorem witness_VectorLoadResults_faults :
    (let i := Instr.vldff g1 mm 4 1
     let s := edge .n16
     takenAtOnce s i ∧ loadTagsOk (envOf s i) .contig 4 true ∧ (envOf s i).e.rc = 0 ∧ trimsAt s i .contig 16 = true) ∧
    (let i := Instr.vlds g1 mm 4 1 2
     let s := edge .n16
     takenAtOnce s i ∧ loadTagsOk (envOf s i) .strided 4 false ∧ trimsAt s i .strided 16 = true) := by
  unfold takenAtOnce soundRegs loadTagsOk; decide +kernel
theorem witness_VectorLoadResults_fault_codes :
    (let u := issued (edge .n16) (.vldff g1 mm 4 1)
     match u.checkSpans u.nearStream { r := true } [(2 ^ 35, 2)] with
     | .fault f => f.code
     | _ => 0) = 0x06 ∧
    (let i := Instr.vldtCt g1 ⟨false, .plain, .none, true⟩ 4 1
     let s := withX (vecs 4 .bf16 false) 1 (2 ^ 35 - 1)
     takenAtOnce s i ∧ (envOf s i).e.vblk = false ∧ (envOf s i).e.rc = 0 ∧ performedPositions (envOf s i) = [0, 1, 2, 3] ∧
       (∀ e ∈ [0, 1], (issued s i).readOn (issued s i).nearStream { r := true } true (elementAt (envOf s i) .contig 4 0 e).1 1 =
         .ok ([0], issued s i)) ∧
       Acc.isFault ((issued s i).checkSpans (issued s i).nearStream { r := true } [((elementAt (envOf s i) .contig 4 0 2).1, 1)]) = true) := by
  unfold takenAtOnce soundRegs; decide +kernel
theorem witness_VectorStoreResults_faults :
    let i := Instr.vst g1 mm 4 1
    let s := edge .n16
    let v := envOf s i
    let u := issued s i
    takenAtOnce s i ∧ storeTagsOk v .contig 4 ∧ performedPositions v = [0, 1, 2, 3] ∧
      (u.checkSpans u.nearStream { w := true } [((elementAt v .contig 16 0 0).1, 2)] == .ok ()) = true ∧
      Acc.isFault (u.checkSpans u.nearStream { w := true } [((elementAt v .contig 16 0 1).1, 2)]) = true ∧
      Acc.isOk (storeEach v .contig (v.source 4) { w := true } u.nearStream [0] u) = true := by
  unfold takenAtOnce soundRegs storeTagsOk; decide +kernel
theorem witness_VectorAtomicResults_faults :
    let i := Instr.vamoadd g1 mm true 4 1 2 3
    let s := withX (holding (vecs 2 .n32 false) 2 .n32 (4 * 2 ^ 32)) 1 (2 ^ 35 - 4)
    let v := envOf s i
    let want : Want := { r := true, w := true, atomic := true, exotic := true, align := 4 }
    let u := (issued s i).tagReg (v.ref 4) ⟨.n32, false⟩
    takenAtOnce s i ∧ performedPositions v = [0, 1] ∧
      (u.checkSpans u.nearStream want [((elementAt v (.indexed 2) 32 0 0).1, 4)] == .ok ()) = true ∧
      Acc.isFault (u.checkSpans u.nearStream want [((elementAt v (.indexed 2) 32 0 1).1, 4)]) = true ∧
      Acc.isOk (atomicEach v .add want true 4 2 3 u.nearStream [0] u) = true := by
  unfold takenAtOnce soundRegs; decide +kernel
theorem witness_TileMemoryResults_across :
    ∀ i ∈ [Instr.zld g1 1 1 2, .zst g1 1 1 2],
      let s := withStart (withX tiles 1 0xFFFFFFF7FFFC0) 0
      takenAtOnce s i ∧ wholeGuard s i g1 = true ∧ (envOf s i).e.start < 16384 ∧ (xOf s 1).toNat % 64 = 0 ∧
        ¬rowTogether (tileWordAt (xOf s 1) (xOf s 2) ((envOf s i).e.start / 128) 0) := by
  unfold takenAtOnce soundRegs rowTogether; decide +kernel
theorem witness_TileMemoryResults_together : rowTogether (tileWordAt 0x8000 512 127 0) := by unfold rowTogether; decide +kernel

/-- The group of hart 0 holds slot 0 of its context, under debugging. -/
def slotted : State :=
  withGroups (kerned.setCtx 0 { kerned.ctx 0 with savebase := 0x100, saven := 1, slots := [0], dbgEn := true })
    [{ placedGroup base.hart with slot := some 0 }]

theorem witness_TakingAFault_met :
    (⟨0x04, 0, 0, 0, 0⟩ : FaultInfo).walked = false ∧ base.ms.migIdle = true ∧ base.hart.vq = [] ∧
    base.group base.hart.grp = some (placedGroup base.hart) ∧ (placedGroup base.hart).st = .running := by
  decide +kernel
theorem witness_TrapAndReturn_halts :
    (let s := { slotted with hart := { slotted.hart with vq := [] } }
     let x := s.hartRecord s.hart ⟨0x11, 0, 0, 0, 0⟩ s.hart.pc false false true none
     let h : Hart := { s.hart with
       wait := .none, pend := none, pc := s.hart.pc + 8, phase := .halted, trap := { s.hart.trap with epc := s.hart.pc, code := 0x11 } }
     let t : State := { x.2 with hart := h }
     performs s (.bkpt g1 1) g1 ∧ (s.ctx s.hart.ctx).dbgEn = true ∧ s.hart.vq = [] ∧ s.far.pieces = [] ∧ t.hartArea h = some 0x1010000) ∧
    (let s := withEntry slotted (.vadd g1 vm 1 2 3)
     performs s (.bkpt g1 1) g1 ∧ (s.ctx s.hart.ctx).dbgEn = true ∧ s.hart.vq ≠ []) ∧
    (let v := withEntry base (.vadd g1 vm 1 2 3)
     let s : State := { v with hart := { v.hart with trap := { v.hart.trap with inh := true } } }
     performs s (.eret g1) g1 ∧ s.hart.trap.inh = true ∧ s.hart.vq ≠ []) := by
  unfold performs; decide +kernel
/-- The core's TLB still holds the page as readable; its entry no longer is. -/
theorem witness_CompassRequestResults_unread :
    let s := launching header
    let s := { s with ms := { s.ms with tlb := [blockEntry], mem := Memory.writeNat s.ms.mem 0x10000 8 121 } }
    performs s (.klaunch g1 2 1) g1 ∧ landsOn s = true ∧ s.hart.vq = [] ∧ s.hart.wait = .klaunch ∧
      (match launchOf s with | .unread (.fault _) => true | _ => false) = true := by
  unfold performs; decide +kernel

def subtracts (s : State) (c : EngCmd) (n : Nat) : Option (BitVec 8) :=
  match (s.ms.barrier 0).subtract (s.groupExtent s.hart.kern) c.phase n with
  | .ok _ => some 0
  | .fault f => some f
  | _ => none
theorem witness_EngineQueueEvents_completes :
    let on (st left : Nat) : EngCmd × State :=
      let c := { fill 1 (some 0xFFFFFFF800000) true with left := left }
      (c, engines (barrier (record 3 2 st 0) 0 0) [c] .running)
    let ready (p : EngCmd × State) : Prop := inFocus p.2 0 ∧ p.1.started = true ∧ p.1.puts = [] ∧ p.1.bar = some 0xFFFFFFF800000 ∧
      unackedOf p.2 3 p.1 = false ∧ (queueOf p.2 3).st ≠ .faulted ∧ p.2.hart.phase ≠ .halted ∧
      p.2.barrierKey p.2.hart 0xFFFFFFF800000 = .ok 0 ∧ p.2.ms.lsSpoilt 0 64 = false
    (ready (on 0xB1 0) ∧ bytesMoved (on 0xB1 0).1 ≠ 0) ∧ (ready (on 0xB1 16) ∧ subtracts (on 0xB1 16).2 (on 0xB1 16).1 16 = some 0) ∧
    (ready (on 0xB2 16) ∧ (subtracts (on 0xB2 16).2 (on 0xB2 16).1 16).any (· ≠ 0) = true ∧
      ((((on 0xB2 16).2.engFault 0 3 (.copyEngine 0) ⟨0x0B, 0, 0xFFFFFFF800000, 0, 0⟩).findHart 0).map
        fun (e : Hart) => ((e.eng[3]?.getD ⟨[], .empty, 0⟩ : EngQueue)).st) = some .faulted) := by
  unfold inFocus; decide +kernel
theorem witness_EngineQueueEvents_fences :
    ∀ c ∈ [({ fill 1 none false with fences := 1 } : EngCmd), { fill 1 none false with parked := 1 }],
      let s := engines kerned [c] .running
      inFocus s 0 ∧ c.started = false ∧ heldBack s c = false ∧ (c.fences ≠ 0 ∨ c.parked ≠ 0) := by
  unfold inFocus; decide +kernel

def oneHart : Kernel := { kernel4 with hdr := { kernel4.hdr with exts := [1], widths := [1] } }
/-- A preempted group of one hart, its image in slot 0. -/
def imaged : State :=
  let g : Group := { placedGroup base.hart with slot := some 0, st := .preempted }
  let s := withGroups (withKernels (base.setCtx 0 { base.ctx 0 with savebase := 0x100, saven := 1, slots := [0] }) [oneHart]) [g]
  { s with
    harts := []
    hart := { s.hart with phase := .absent }
    ms := ((((s.ms.cwriteNat 0x1000000 8 1).cwriteNat 0x1010000 8 1).cwriteNat 0x1010038 8 1).cwriteNat 0x1010018 8 1).cwriteNat 0x10100A0 8 0x40 }
/-- With a group image of another version. -/
def spoilt : State := { imaged with ms := imaged.ms.cwriteNat 0x1000000 8 2 }

theorem hartOfImage_isSome (s : State) (a : Nat) (hpc : Fin 3) (b c : Hart) (h : b.ctx = c.ctx) :
    (s.hartOfImage a hpc b).isSome = (s.hartOfImage a hpc c).isSome := by
  unfold State.hartOfImage
  simp only [h]
  split
  · rfl
  · split <;> rfl
theorem witness_GroupAndKernelEvents_restore :
    (∀ s ∈ [imaged, spoilt],
      s.group 0 = some { placedGroup base.hart with slot := some 0, st := .preempted } ∧ s.nextPlacement = some 0 ∧
      s.kernel 0 = some oneHart ∧ s.quadFits oneHart 1 [] = true ∧ quietMemory s ∧ s.ms.rel = [] ∧ s.ms.lsBad = [] ∧
      (s.ctx 0).slotBase 0 = 0x1000000) ∧
    imaged.groupImageBad 0x1000000 = false ∧ spoilt.groupImageBad 0x1000000 = true ∧ noHartOf spoilt 0 := by
  unfold quietMemory memoryOk noHartOf; decide +kernel
theorem witness_GroupAndKernelEvents_images :
    ∀ no f, f < oneHart.hdr.extent → (imaged.hartOfImage (0x1000000 + areaOffset 0 f) 0 (placeHart no 0 0 0 f)).isSome = true := by
  intro no f h
  have e : f = 0 := Nat.lt_one_iff.mp h
  have k : (imaged.hartOfImage (0x1000000 + areaOffset 0 0) 0 (placeHart 3 0 0 0 0)).isSome = true := by decide +kernel
  rw [e, hartOfImage_isSome imaged (0x1000000 + areaOffset 0 0) 0 (placeHart no 0 0 0 0) (placeHart 3 0 0 0 0) rfl]
  exact k
theorem witness_GroupAndKernelEvents_stop_sound :
    let g : Group := { placedGroup base.hart with st := .stopping, slot := some 0 }
    let s := withGroups kerned [g]
    let hs := s.groupHarts 0
    let u := (s.drainHarts (hs.map Hart.no)).flushHarts hs
    (u.groupHarts 0).any Hart.imageSpoilt = false ∧ g.key = 0 := by
  decide +kernel
theorem witness_HartWaitsAndFrontFaults_fetch :
    base.ms.migIdle = true ∧ base.link.answers = [] ∧ (hasHandler handled.hart ∧ handled.hart.vq = []) ∧ ¬hasHandler base.hart ∧ base.hart.vq = [] ∧
    (withEntry base (.vadd g1 vm 1 2 3)).hart.vq ≠ [] := by
  unfold hasHandler; decide +kernel
theorem witness_FarWorkEvents_sound :
    (∀ s ∈ [withEntry base (.vadd g1 vm 1 2 3), withEntry (fars 2 .n32) (.fredadd g1 true .n32 1 2), withEntry (fars 2 .n8) (.fredadd g1 true .e4m3 1 2)],
      soundRegs s) ∧
    (base.findHart 0 = some base.hart ∧ ∀ n ∈ [1, 4, 8], base.spanFenced 0x8000 n = false) := by
  unfold soundRegs; decide +kernel


theorem witness_TranslationEvents_fill :
    let s := migrates (aRecord .armed 0 127)
    let s := { s with ms := { s.ms with poison := [7 * 2 ^ 10 + 7] } }
    s.ms.migOf 0x90000 = some 63 ∧ s.ms.reduce = [] ∧ memoryOk s ∧ (recordOf s 63).st = .armed ∧ (recordOf s 63).lines.testBit 0 = false ∧
      (recordOf s 63).old ≠ (recordOf s 63).new ∧ (recordOf s 63).pte + 8 ≤ 0x90000 ∧
      (∀ j < 64, j ≠ 63 → (recordOf s j).st = .pending ∨ (recordOf s j).st = .armed → (recordOf s j).new ≠ (recordOf s 63).pte / 2 ^ 16) ∧
      7 * 2 ^ 16 / 64 + 7 ∈ s.ms.poison := by
  unfold memoryOk; decide +kernel

/-- Two queues of one level with a ready node each; the level's last choice and its credit. -/
def twoQueues (now : LevelState) : State :=
  let w : WorkQueue := { workQueue with cur := some 0x8000, weight := 3, nodes := [node .ready 2] }
  { base with cmp := { base.cmp with queues := [(5, w), (1023, w)], levels := Table.set base.cmp.levels 0 now } }
theorem witness_GraphEvents_rounds :
    ∀ now ∈ [(⟨none, 0⟩ : LevelState), ⟨some 5, 1⟩, ⟨some 5, 0⟩, ⟨some 1023, 0⟩],
      let s := twoQueues now
      (∀ p ∈ s.cmp.queues, s.eligible p.2 = true) ∧ (∀ p ∈ s.cmp.queues, workOf s p.1 = p.2) ∧
        (s.cmp.queues.map Prod.fst).Pairwise (· < ·) ∧ (Table.get s.cmp.levels 0 .reset).current = now.current ∧
        (Table.get s.cmp.levels 0 .reset).credit = now.credit := by
  decide +kernel

/-- A node of type `ty` at 0x8000 with these words 3 to 7. -/
def graphNode (ty : Nat) (l : List Word) : RunNode :=
  ⟨0x8000, .running, [BitVec.ofNat 64 ty, 0, 0] ++ l, 0, none, none, false, none⟩
def waitEnd (s : State) (n : RunNode) : Nat :=
  match s.readWait 1023 n with
  | .yes _ => 1
  | .no _ => 2
  | .fault _ => 3
  | .held => 4
theorem witness_GraphEvents_conditions :
    (∀ p ∈ [(0, 0, 1), (1, 0, 2), (6, 0, 2), (7, 0, 1), (8, 0, 1), (9, 0, 2), (6, 1, 1), (9, 1, 2)],
      waitEnd (having [node .running 5]) (graphNode 5 [0x9000, p.2.1, 0xFF, p.1, 0]) = p.2.2) ∧
    Acc.isOk ((having [node .running 5]).settleAll.readAt (compassAgent 0) { r := true, align := 8 } false 0x9000 8) = true := by
  decide +kernel
def reaches (s : State) (n : RunNode) : Nat :=
  match s.readWait 1023 n with
  | .yes t =>
    match t.reach 0 n.addr 200 [n.words.getD 7 0] [] with
    | .ok l _ => 100 + l.length
    | .fault _ => 3
    | .held => 4
  | _ => 0
theorem witness_GraphEvents_loops :
    (∀ ty ∈ [2, 4, 5, 6], ((graphNode ty []).words.getD 0 0).toNat % 256 = ty) ∧
    reaches (having [node .running 5]) (graphNode 5 [0x9000, 0, 0xFF, 0, 0xA000]) = 101 ∧
    reaches (having [node .running 5]) (graphNode 5 [0x9000, 0, 0xFF, 0, 0x8000]) = 100 ∧
    reaches (having [node .running 5]) (graphNode 5 [0x9000, 0, 0xFF, 0, 2 ^ 40]) = 3 ∧
    spanMeets (0x9000, 64) (0x903F, 64) = true ∧ spanMeets (0x9000, 64) (0x9040, 64) = false := by
  decide +kernel

/-- The Compass's translation of the block is held. -/
def compassKnows : State := { having [copyNode] with ms := { base.ms with tlb := [{ blockEntry with core := 96 }] } }
theorem resolvePage_other_free (u : State) (a : Agent) (k : Want) (va n off fr : Nat) :
    ({ u with free := fr } : State).resolvePage a k va n off = u.resolvePage a k va n off := rfl
theorem resolve_other_free (u : State) (a : Agent) (k : Want) (va n fr : Nat) :
    ({ u with free := fr } : State).resolve a k va n = u.resolve a k va n := by
  have r (f : Nat) : ∀ va n m off, ({ u with free := fr } : State).resolvePages a k va n m off f = u.resolvePages a k va n m off f := by
    induction f with
    | zero => intro va n m off; rfl
    | succ f ih => intro va n m off; simp only [State.resolvePages, resolvePage_other_free, ih]
  unfold State.resolve
  simp only [r]
/-- One byte is copied from 0x9000 to 0xA000. -/
theorem witness_GraphEvents_copies :
    quietMemory compassKnows ∧ spanMeets (0x9000, 1) (0xA000, 1) = false ∧
    ∀ (k : Want) (va : Nat), (k = { r := true } ∧ va = 0x9000) ∨ (k = { w := true } ∧ va = 0xA000) → ∀ (mem : Memory) (fr : Nat),
      let u : State := { compassKnows with free := fr, ms := { compassKnows.ms with mem := mem } }
      u.resolve (compassAgent 0) k va 1 = .ok [⟨0, 1, .device va, some blockEntry.leaf⟩] ∧ u.setAD blockEntry.leaf k.w = u := by
  refine ⟨by unfold quietMemory memoryOk; decide +kernel, by decide, fun k va h mem fr => ⟨?_, ?_⟩⟩
  · have e : ∀ va ∈ [0x9000, 0xA000], compassKnows.tlbFind (compassAgent 0).core (compassAgent 0).ctx va =
        some { blockEntry with core := 96 } := by decide +kernel
    have m : va ∈ [0x9000, 0xA000] := by rcases h with ⟨-, rfl⟩ | ⟨-, rfl⟩ <;> decide
    have d : ∀ p ∈ [(({ r := true } : Want), 0x9000), ({ w := true }, 0xA000)],
        compassKnows.resolve (compassAgent 0) p.1 p.2 1 = .ok [⟨0, 1, .device p.2, some blockEntry.leaf⟩] := by decide +kernel
    have x := resolve_other_free { compassKnows with ms := { compassKnows.ms with mem := mem } } (compassAgent 0) k va 1 fr
    rw [resolve_other_memory compassKnows mem (compassAgent 0) k va _ (e va m) (by decide)] at x
    exact x.trans (d (k, va) (by rcases h with ⟨rfl, rfl⟩ | ⟨rfl, rfl⟩ <;> simp))
  · unfold State.setAD
    exact if_pos (.inl (by rcases h with ⟨rfl, rfl⟩ | ⟨rfl, rfl⟩ <;> decide))
def edgeReads (w0 : Nat) : Option (Nat × Nat) :=
  let s := having [copyNode]
  let s := { s with ms := { s.ms with mem := Memory.writeNat s.ms.mem 0xA000 8 w0 } }
  match s.readNode 0 0xA000 with
  | .ok (ws, _) => some ((ws.getD 0 0).toNat / 2 ^ 8 % 256, (ws.getD 0 0).toNat / 2 ^ 24 % 256)
  | _ => none
theorem witness_GraphEvents_edges :
    edgeReads 0x100 = some (1, 0) ∧ edgeReads 0 = some (0, 0) ∧ edgeReads 0x1000000 = some (0, 1) ∧ edgeReads 0xFF000000 = some (0, 255) := by
  decide +kernel
theorem witness_GraphEvents_signals :
    (∀ op ∈ [(0 : Nat), 1, 2], (workEnds (having [node .running 4]) (graphNode 4 [0x9000, 5, 64, BitVec.ofNat 64 op, 0])).2 = 1) ∧
    (let n := { copyNode with worked := true, failing := some ⟨0x0D, 1, 0, 0, 0⟩ }
     (workOf (having [n]) 1023).nodes = [] ++ n :: [] ∧ nodeWaits (having [n]) 1023 n.addr = false ∧ n.st = .running ∧ n.worked = true) ∧
    (workOf (having [copyNode]) 1023).resetting = false := by
  decide +kernel

theorem witness_KvRowWritten_header : devicePlaced (onPage .fp32 1) true [pagePart] ∧ 0x40000 % 2 ^ 16 = 0 ∧ pagePart.place = .device 0x40000 ∧
    (∀ x ∈ [1, 3], x * 2 ^ 12 / 2 ^ 12 % 8 = x) :=
  ⟨devicePlaced_of (by decide +kernel), by decide, by decide +kernel, by decide⟩

theorem witness_ContextEvents_suspend :
    (∀ st ∈ [CtxState.free, .created, .bound, .active, .preempted, .faulted, .destroying],
      (((context { bindable with st := st }).retireDue fun g => g.ctx == 5).ctx 5).st = st) ∧
    (∀ g ∈ base.cmp.groups, g.ctx = 5 → base.mayRetire g = false) ∧
    (∀ n ∈ [0, 1], let s := savedHalt n
      let a := (s.ctx 0).slotBase 0 + areaOffset kernel4.hdr.hpc 0
      noMigration s ∧ s.ms.poisoned a 8 = false ∧ ({ s with ms := { s.ms with poison := [a / 64] } }).ms.poisoned a 8 = true) := by
  unfold noMigration; decide +kernel

def remoteFar : FarPiece := { piece (fars 2 .n32) (.fredadd g1 true .n32 1 2) [] with port := some 11 }
theorem witness_LinkAndHostEvents_outer :
    settledOutside base ∧ ({ base with lag := { base.lag with release := true } } : State).lag.release = true ∧ base.lag.release = false ∧
    (∀ w ∈ [(⟨0x9000, [1], true⟩ : OuterWrite)], w.pa + w.bytes.length ≤ 0x8000 ∨ 0x8000 + 8 ≤ w.pa) ∧
    (∀ k < 8, UnitId.stack (base.ownerOf (0x8000 + k)) ∉ base.mgmt.fenced) ∧
    (let s := { base with mgmt := { base.mgmt with fenced := [.stack (base.ownerOf 0x8000)] } }
     ¬∀ k, k < max 1 8 → UnitId.stack (s.ownerOf (0x8000 + k)) ∉ s.mgmt.fenced) ∧
    (let s := { base with mgmt := { base.mgmt with tables := [⟨.stackMem (base.ownerOf 0x8000), .host, true, false⟩] } }
     s.permits .host (.stackMem (s.ownerOf 0x8000)) true = false) := by
  unfold settledOutside; decide +kernel
theorem witness_LinkAndHostEvents_bar0 :
    (∀ off ∈ [0, 0x300000, 0x5010000, 2 ^ 33 - 8], base.permits .host (regBlockOf off) false = true ∧ base.permits .host (regBlockOf off) true = true) ∧
    (let s := { base with mgmt := { base.mgmt with tables := [⟨regBlockOf 0x300, .host, false, false⟩] } }
     s.permits .host (regBlockOf 0x300) false = false ∧ s.permits .host (regBlockOf 0x300) true = false) ∧
    (let t := (base.regRead 0x400 8).2; t.plat.stage = 4 ∧ t.mgmt.locked = false) ∧
    (let t := (State.reset.regRead 0x400 8).2; ¬(t.plat.stage = 4 ∧ t.mgmt.locked = false) ∧ ¬(0x800 ≤ 0x400)) ∧
    (∀ b ∈ [0x300000, 0x320000, 0x5010000], hostReaches base b) ∧
    (let s := { base with mgmt := { base.mgmt with tables := [⟨.regBlock 0x5010000, .host, true, false⟩] } }
     s.plat.stage = 4 ∧ s.mgmt.locked = false ∧ s.permits .host (.regBlock 0x5010000) true = false) ∧
    ({ base with mgmt := { base.mgmt with locked := true } }).mgmt.locked = true := by
  unfold hostReaches; decide +kernel
theorem witness_LinkAndHostEvents_stores :
    (let p : PostedStore := ⟨base.hart.poster, 0, 0x8000, 8, none, some 11⟩
     let s := { atPort .up 0 4 with link := { (atPort .up 0 4).link with waiting := [p] }, far := { base.far with pieces := [remoteFar] } }
     (portOf s 11).st = .up ∧ s.link.waiting.filter (fun x => x.port == some 11) = [p] ∧ s.link.waiting.filter (fun x => x.port == some 10) = [] ∧
       s.far.pieces.filter (fun x => x.port == some 11) = [remoteFar] ∧ s.link.msis = [] ∧ (∀ x ∈ s.far.pieces, x.port ≠ some 10)) ∧
    (∀ n ∈ [0, 1, 2], (let m : HeldMsi := ⟨5, n⟩; m.behind ≤ 1 ∨ 1 < m.behind)) := by
  decide +kernel
theorem witness_PlatformEvents_units :
    (∀ g ∈ kerned.cmp.groups, kerned.mayRetire g = false) ∧
    (let s := { kerned with far := { kerned.far with pieces := [piece (fars 2 .n32) (.fredadd g1 true .n32 1 2) []] } }
     ∃ p ∈ s.far.pieces, p.hart = 0 ∧ p.pkg = s.plat.pkg.toNat) ∧
    kerned.lstoreOf kerned.hart.kern ≠ 0 ∧ (kerned.group kerned.hart.grp).isSome = true ∧ (kerned.ctx 0).st ≠ .free ∧ (kerned.ctx 0).st ≠ .destroying := by
  decide +kernel
/-- Eight corrected errors in one row within a day. -/
theorem witness_PlatformEvents_rows :
    let s := { base with mgmt := { base.mgmt with ras := List.replicate 8 (.corrected (some (0, 5)) 0) } }
    (0, 5) ∉ s.mgmt.sparing ∧ (0, 5) ∉ s.mgmt.spared ∧
    8 ≤ (s.mgmt.ras.filter fun e =>
      match e with
      | .corrected row tick => row == some (0, 5) && decide (s.plat.tick.toNat - tick.toNat ≤ 24 * 3600 * 1000000)
      | _ => false).length := by
  decide +kernel
theorem witness_MailboxAndRegisterEvents_halves :
    (∀ off ∈ [0x2000000 + 0x40 * 255, 0x2000004 + 0x40 * 255, 0x4000010 + 0x80 * 4095, 0x4000014 + 0x80 * 4095, 0x4000000 + 0x80 * 4095, 0x4000004 + 0x80 * 4095,
        0x400005C + 0x80 * 4095, 0x400006C + 0x80 * 4095, 0x1008, 0x100C, 0x201C, 0x80C, 0x808, 0x1000014 + 0x40 * 1023, 0x5010004 + 0x100 * 11,
        0x1000008 + 0x40 * 1023, 0x100000C + 0x40 * 1023],
      registerReached base off 4 = (true, true)) ∧ settledOutside base ∧ (base.ring 255).en = false ∧
    ((base.setCtx 4095 { Context.reset with st := .created }).ctx 4095).st = .created ∧
    ((0x1FFD1 : Nat) % 8 = 1 ∧ (0x3FFFF : Nat) % 8 = 7 ∧ (0x2FFF : Nat) % 2 ^ 14 / 2 ^ 12 = 2) := by
  unfold settledOutside; decide +kernel
theorem witness_MailboxAndRegisterEvents_operations :
    (∀ code ∈ [0, 1, 2, 3, 4, 5, 6, 7, 255], ∀ l ∈ [true, false],
      (asks (.op code) l).mgmt.queue = ⟨true, .op code⟩ :: [] ∧ noMigration (asks (.op code) l) ∧ settledOutside (asks (.op code) l)) ∧
    (let s := { asks .attest false with mgmt := { (asks .attest false).mgmt with queue := [⟨false, .attest⟩] } }
     s.mgmt.queue = ⟨false, .attest⟩ :: []) ∧
    (∀ w ∈ [true, false], let s := asks .attest false
      let s := { s with mgmt := { s.mgmt with tables := [⟨.stackMem (s.ownerOf 0x8000), .meridian, w, false⟩] } }
      s.permits .meridian (.stackMem (s.ownerOf 0x8000)) true = false) := by
  unfold noMigration settledOutside; decide +kernel
theorem witness_StepStopsOnlyForPower :
    (let s := { base with plat := { base.plat with powered := false } }
     s.plat.powered = false ∧ s.agenda.head? ≠ some (.event .coldReset)) ∧
    (let s := { base with plat := { base.plat with powered := false }, agenda := [.event .coldReset] }
     s.plat.powered = false ∧ s.agenda.head? = some (.event .coldReset)) := by
  decide +kernel

end Sys2Proof.Tests
end

section
/-! SUPPORT. The values of the scalar forms: each value the model computes on words is the number the entry gives (R144 to R147,
R81), whatever the width of the intermediate result. -/

namespace Sys2Proof.Machine

open Say

/-! Bits of a string. -/

@[simp] theorem bitAt_eq_testBit (x i : Nat) : bitAt x i = x.testBit i := by
  simp [bitAt, bits, Nat.testBit, Nat.and_comm]

/-! Words and integers. -/

theorem ofInt_sub (w : Nat) (x y : Int) : BitVec.ofInt w (x - y) = BitVec.ofInt w x - BitVec.ofInt w y := by
  rw [Int.sub_eq_add_neg, BitVec.ofInt_add, BitVec.ofInt_neg, BitVec.sub_eq_add_neg]

theorem add_eq_ofNat (a b : Word) : a + b = BitVec.ofNat 64 (a.toNat + b.toNat) := by
  simp [BitVec.ofNat_add]

theorem sub_eq_ofInt (a b : Word) : a - b = BitVec.ofInt 64 ((a.toNat : Int) - b.toNat) := by
  simp [ofInt_sub]

theorem mul_eq_ofNat (a b : Word) : a * b = BitVec.ofNat 64 (a.toNat * b.toNat) := by
  simp [BitVec.ofNat_mul]

/-! Shifts (R144, R146, R147). -/

theorem shiftL_eq_ofNat (a : Word) (n : Nat) : shiftL a n = BitVec.ofNat 64 (a.toNat * 2 ^ n) :=
  BitVec.eq_of_toNat_eq (by simp [shiftL, Nat.shiftLeft_eq])

theorem shiftR_eq_ofNat (a : Word) (n : Nat) : shiftR a n = BitVec.ofNat 64 (a.toNat / 2 ^ n) := by
  rw [← Nat.shiftRight_eq_div_pow, ← BitVec.toNat_ushiftRight, BitVec.ofNat_toNat, BitVec.setWidth_eq, shiftR]

theorem shiftA_eq_ofInt (a : Word) (n : Nat) : shiftA a n = BitVec.ofInt 64 (a.toInt / 2 ^ n) := by
  simp [shiftA, BitVec.sshiftRight_eq, Int.shiftRight_eq_div_pow]

/-! High products: the upper half of the product held in 128 bits (R144). -/

theorem extract_high_ofInt (z : Int) : (BitVec.ofInt 128 z).extractLsb' 64 64 = BitVec.ofInt 64 (z / 2 ^ 64) := by
  apply BitVec.eq_of_toNat_eq
  rw [BitVec.extractLsb'_toNat, BitVec.toNat_ofInt, BitVec.toNat_ofInt, Nat.shiftRight_eq_div_pow]
  norm_num
  omega

theorem mulHigh_eq_extract (a b : Word) : mulHigh a b = (BitVec.ofInt 128 (a.toInt * b.toInt)).extractLsb' 64 64 :=
  (extract_high_ofInt _).symm

theorem mulHighU_eq_extract (a b : Word) : mulHighU a b = (BitVec.ofNat 128 (a.toNat * b.toNat)).extractLsb' 64 64 := by
  rw [← BitVec.ofInt_natCast, extract_high_ofInt, mulHighU, ← BitVec.ofInt_natCast]
  norm_num

/-! Remainders (R144, R145). -/

theorem remS_eq_ofInt (a b : Word) :
    remS a b = if b = 0 then a else BitVec.ofInt 64 (a.toInt - b.toInt * a.toInt.tdiv b.toInt) := by
  by_cases h : b = 0
  · simp only [remS, if_pos h]
  · simp only [remS, quotS, if_neg h, ofInt_sub, BitVec.ofInt_mul, BitVec.ofInt_toInt]

theorem remU_eq_ofNat (a b : Word) :
    remU a b = if b = 0 then a else BitVec.ofNat 64 (a.toNat - b.toNat * (a.toNat / b.toNat)) := by
  by_cases h : b = 0
  · simp [remU, h]
  · have hle : b.toNat * (a.toNat / b.toNat) ≤ a.toNat := Nat.mul_div_le ..
    rw [remU, quotU, if_neg h, if_neg h, if_neg h, ← BitVec.ofNat_sub_ofNat_of_le _ _ (by omega) hle]
    simp [BitVec.ofNat_mul]

/-! Minima and maxima (R144). -/

theorem minS_eq (a b : Word) : minS a b = if a.toInt ≤ b.toInt then a else b := by
  simp only [minS, BitVec.slt_iff_toInt_lt, ← Int.not_le, ite_not]

theorem maxS_eq (a b : Word) : maxS a b = if a.toInt ≤ b.toInt then b else a := by
  simp only [maxS, BitVec.slt_iff_toInt_lt]
  split <;> split
  · rfl
  · omega
  · exact BitVec.eq_of_toInt_eq (by omega)
  · rfl

theorem minU_eq (a b : Word) : minU a b = if a.toNat ≤ b.toNat then a else b := by
  simp only [minU, BitVec.ult_iff_lt, BitVec.lt_def, ← Nat.not_le, ite_not]

theorem maxU_eq (a b : Word) : maxU a b = if a.toNat ≤ b.toNat then b else a := by
  simp only [maxU, BitVec.ult_iff_lt, BitVec.lt_def]
  split <;> split
  · rfl
  · omega
  · exact BitVec.eq_of_toNat_eq (by omega)
  · rfl

/-! Counts of bits (R144). -/

/-- A run ends at the first position that fails the test. -/
theorem runLength_eq {n k : Nat} {p : Nat → Bool} (hk : k ≤ n) (hrun : ∀ i < k, p i = true) (hend : k < n → p k = false) :
    runLength n p = k := by
  obtain ⟨m, rfl⟩ := Nat.exists_eq_add_of_le hk
  rw [runLength, List.range_add, List.takeWhile_append_of_pos (by simpa using hrun)]
  cases m with
  | zero => simp
  | succ m => simp [List.range_succ_eq_map, hend (by omega)]

theorem leadingZeros_eq_runLength (a : Word) : leadingZeros a.toNat 64 = runLength 64 fun i => !a.getLsbD (63 - i) := by
  by_cases h : a.toNat = 0
  · have ha : a = 0 := BitVec.eq_of_toNat_eq h
    rw [leadingZeros, if_pos h, runLength_eq Nat.le.refl (by simp [ha]) (by simp)]
  · have hlog : a.toNat.log2 < 64 := (Nat.log2_lt h).2 a.isLt
    rw [leadingZeros, if_neg h]
    refine (runLength_eq (by omega) (fun i hi => ?_) fun _ => ?_).symm
    · have hpow : a.toNat < 2 ^ (63 - i) := (Nat.log2_lt h).1 (by omega)
      simp [← BitVec.testBit_toNat, Nat.testBit_lt_two_pow hpow]
    · rw [show 63 - (64 - 1 - a.toNat.log2) = a.toNat.log2 by omega, ← BitVec.testBit_toNat, Nat.testBit_log2 h, Bool.not_true]

/-- The search for a first position counts the positions before it. -/
theorem firstFrom_getD (p : Nat → Bool) (n i : Nat) :
    (firstFrom p n i).getD (i + n) = i + ((List.range' i n).takeWhile fun j => !p j).length := by
  induction n generalizing i with
  | zero => rfl
  | succ n ih =>
    rw [firstFrom, List.range'_succ, List.takeWhile_cons]
    cases h : p i
    · simp only [Bool.not_false, if_true, List.length_cons, Bool.false_eq_true, if_false]
      rw [show i + (n + 1) = i + 1 + n by omega, ih]
      omega
    · rfl

theorem trailingZeros_eq_runLength (a : Word) : trailingZeros a.toNat 64 = runLength 64 fun i => !a.getLsbD i := by
  have h := firstFrom_getD (fun i => bitAt a.toNat i) 64 0
  simpa [trailingZeros, runLength, List.range_eq_range', BitVec.testBit_toNat] using h

theorem popcount_eq_length (x n : Nat) : popcount x n = ((List.range n).filter fun i => x.testBit i).length := by
  induction n with
  | zero => rfl
  | succ n ih =>
    rw [popcount, ih, List.range_succ, List.filter_append, List.length_append, bitAt_eq_testBit]
    cases h : x.testBit n <;> simp [h]

/-! Bit fields (R146). -/

/-- The top bit of a field of `k + 1` bits. -/
theorem testBit_top_iff {f k : Nat} (h : f < 2 ^ (k + 1)) : f.testBit k = true ↔ 2 ^ k ≤ f :=
  ⟨Nat.ge_two_pow_of_testBit, fun hle => Nat.testBit_of_two_pow_le_and_two_pow_add_one_gt hle h⟩

theorem extract_eq (a : Word) (pos k : Nat) (sx : Bool) :
    extract a pos (k + 1) sx =
      (let f := a.toNat / 2 ^ pos % 2 ^ (k + 1)
       if sx = true ∧ k + 1 < 64 ∧ 2 ^ k ≤ f then BitVec.ofInt 64 ((f : Int) - 2 ^ (k + 1)) else BitVec.ofNat 64 f) := by
  have htop := testBit_top_iff (k := k) (Nat.mod_lt (a.toNat / 2 ^ pos) (Nat.two_pow_pos (k + 1)))
  have hpow : BitVec.ofInt 64 (2 ^ (k + 1)) = BitVec.ofNat 64 (2 ^ (k + 1)) := by
    rw [← BitVec.ofInt_natCast]; norm_num
  simp only [extract, Nat.add_sub_cancel, bitAt_eq_testBit, Bool.and_eq_true, decide_eq_true_eq, htop, and_assoc, ofInt_sub,
    BitVec.ofInt_natCast, hpow]

theorem getLsbD_insertBits (old a : Word) (pos k i : Nat) (hi : i < 64) :
    (insertBits old a pos (k + 1)).getLsbD i =
      if pos ≤ i ∧ i ≤ pos + k then a.getLsbD (i - pos) else old.getLsbD i := by
  simp only [insertBits, BitVec.getLsbD_or, BitVec.getLsbD_and, BitVec.getLsbD_not, BitVec.getLsbD_shiftLeft,
    BitVec.getLsbD_ofNat, Nat.testBit_two_pow_sub_one]
  by_cases hlo : pos ≤ i
  · by_cases hhi : i ≤ pos + k
    · simp [hi, hlo, hhi, show i - pos < k + 1 by omega, show i - pos < 64 by omega, show ¬ i < pos by omega]
    · simp [hi, hhi, show ¬ i - pos < k + 1 by omega]
  · simp [hi, hlo, show i < pos by omega]

/-- ADDSH's sum (R146). -/
theorem add_shiftL_eq_ofNat (a b : Word) (n : Nat) : a + shiftL b n = BitVec.ofNat 64 (a.toNat + b.toNat * 2 ^ n) := by
  simp [shiftL_eq_ofNat, BitVec.ofNat_add]

/-- The target of a branch (R81). -/
theorem target_eq_ofInt (pc : Word) (off : BitVec 29) : target pc off = BitVec.ofInt 64 (pc.toNat + 8 * off.toInt) := by
  rw [BitVec.ofInt_add, Int.mul_comm, BitVec.ofInt_mul, BitVec.ofInt_natCast, BitVec.ofNat_toNat, BitVec.setWidth_eq]
  rfl

end Sys2Proof.Machine
end

section
/-! SUPPORT. The front end's frame (R72, R74, R130, R141): what `exec` is for an instruction that is performed, one whose guard is
false, and one that waits for a resynchronisation. -/

namespace Sys2Proof.Machine

open Say

/-! The effect of a front-end instruction. -/

theorem State.act_next (s : State) (h : Hart) (len : Nat) :
    s.act len (.next { s with hart := h }) = goesOn s h (s.hart.pc + BitVec.ofNat 64 len) := rfl

theorem State.act_goto (s : State) (h : Hart) (len : Nat) (pc : Word) :
    s.act len (.goto { s with hart := h } pc) = goesOn s h pc := rfl

theorem State.act_resync (s : State) (len : Nat) : s.act len (.wait .resync) = resynchronises s := by
  by_cases h : s.hart.wait = .resync
  · simp only [State.act, Hart.waitFor, resynchronises, h, true_or, if_true]
    rw [← h]
  · simp [State.act, Hart.waitFor, resynchronises, h]

theorem State.frontEnd_go {s : State} {i : Instr} (h : s.gate i = .go) (g : Guard) (len : Nat) (eff : State → FrontAct) :
    s.frontEnd i g len eff = s.act len (eff s) := by
  rw [State.frontEnd, h]

/-- What an instruction of the front end's frame does when it is performed. -/
theorem exec_performed {i : Instr} {g : Guard} {s : State} {len : Nat} {eff : State → FrontAct} (h : performs s i g)
    (hexec : exec i s = .next (s.frontEnd i g len eff)) : exec i s = .next (s.act len (eff s)) := by
  rw [hexec, State.frontEnd_go h.1]

/-- A scalar form that is performed writes x[D]. -/
theorem exec_scalar {i : Instr} {g : Guard} {d : XReg} {s : State} {len : Nat} {v : Hart → Word} (h : performs s i g)
    (hexec : exec i s = .next (s.scalar i g len d v)) :
    exec i s = .next (goesOn s (s.hart.setX d (v s.hart)) (s.hart.pc + BitVec.ofNat 64 len)) :=
  exec_performed h hexec

/-! The gate behind no entry that holds the front end back. -/

theorem Hart.vq_ne_nil_of_pendingK {h : Hart} {k : KReg} (hk : k ∈ h.pendingK) : h.vq ≠ [] := by
  intro hnil
  simp [Hart.pendingK, hnil] at hk

theorem Hart.vq_ne_nil_of_pendingX {h : Hart} {r : XReg} (hr : r ∈ h.pendingX) : h.vq ≠ [] := by
  intro hnil
  simp [Hart.pendingX, hnil] at hr

/-- The guard of a whole instruction waits exactly for the predicates it depends on (R74, R130). -/
theorem Hart.guardPending_iff (h : Hart) {i : Instr} {g : Guard} (hw : guardedWhole i = true) (hg : guardOf i = some g) :
    h.guardPending i = true ↔ ∃ k ∈ guardK g, k ∈ h.pendingK := by
  simp only [Hart.guardPending, hw, hg, Bool.and_true, Bool.and_eq_true, List.any_eq_true, List.contains_iff_mem]
  exact ⟨And.right, fun ⟨k, hk, hp⟩ => ⟨by simpa using vq_ne_nil_of_pendingK hp, k, hk, hp⟩⟩

/-- The gate's first test fails (R282, R291). -/
theorem not_held {s : State} (h : heldByNone s) :
    (!s.hart.vq.isEmpty && s.hart.vq.any fun e => isFirstFault e.instr || isFenceVs e.instr) = false := by
  rw [Bool.and_eq_false_iff, List.any_eq_false]
  exact .inr fun e he => by simp [h e he]

theorem State.gate_of_guardPending {s : State} {i : Instr} (hn : heldByNone s) (h : s.hart.guardPending i = true) :
    s.gate i = .hold .resync := by
  simp [State.gate, not_held hn, h]

theorem State.gate_of_guard_false {s : State} {i : Instr} {g : Guard} (hn : heldByNone s) (hw : guardedWhole i = true)
    (hg : guardOf i = some g) (hp : s.hart.guardPending i = false) (hs : s.hart.guardSpoilt i = false)
    (hf : s.hart.frontGuard g = false) : s.gate i = .skip := by
  simp [State.gate, not_held hn, hp, hs, hw, hg, hf]

theorem State.gate_of_hazard {s : State} {i : Instr} (hn : heldByNone s) (hp : guardPasses s i) (hz : s.hazard i = true) :
    s.gate i = .hold .resync := by
  obtain ⟨hpend, hspoilt, hguard⟩ := hp
  cases hg : guardOf i with
  | none => simp [State.gate, not_held hn, hpend, hspoilt, hz, hg]
  | some g =>
    have hpass : guardedWhole i = true → s.hart.frontGuard g = true := by simpa [hg, or_iff_not_imp_left] using hguard
    simpa [State.gate, not_held hn, hpend, hspoilt, hz, hg] using hpass

/-- An x register that the front end names waits for the entry that writes it (R130). -/
theorem State.hazard_of_pendingX {s : State} {i : Instr} {r : XReg} (hi : r ∈ frontX i) (hr : r ∈ s.hart.pendingX) :
    s.hazard i = true := by
  simp only [State.hazard, Bool.or_eq_true, Bool.and_eq_true, List.any_eq_true, List.contains_iff_mem]
  exact .inl ⟨by simpa using Hart.vq_ne_nil_of_pendingX hr, .inl ⟨r, hi, hr⟩⟩

/-! What `exec` answers where the instruction is not performed. -/

theorem exec_of_gate_resync {i : Instr} {s : State} (he : isEvent i = false) (hv : inVq i = false) (h : s.gate i = .hold .resync) :
    exec i s = .next (resynchronises s) := by
  obtain ⟨g, eff, -, hexec⟩ := exec_front he hv
  simp only [hexec, State.frontEnd, h, State.act_resync]

theorem exec_of_gate_skip {i : Instr} {s : State} (he : isEvent i = false) (hv : inVq i = false) (h : s.gate i = .skip) :
    exec i s = .next (goesOn s s.hart (s.hart.pc + BitVec.ofNat 64 (bytesOfInstr i))) := by
  obtain ⟨g, eff, -, hexec⟩ := exec_front he hv
  rw [hexec, State.frontEnd, h]
  rfl

end Sys2Proof.Machine
end

section
/-! Settling the scalar register forms (R144, R145). -/

namespace Sys2Proof.Machine

open Say

@[simp] theorem Hart.orFlags_zero (h : Hart) : h.orFlags ⟨0#5, 0#2⟩ = h := by
  simp [Hart.orFlags]

/-- What O1 says of a two-source form: its constructor, its result, and whether a zero divisor sets IFLAGS.DZ. -/
def TwoSourceResult (p : (Guard → XReg → XReg → XReg → Instr) × (Word → Word → Word) × Bool) : Prop :=
  ∀ (g : Guard) (d a b : XReg) (s : State), performs s (p.1 g d a b) g →
    exec (p.1 g d a b) s = .next (goesOn s
      ((s.hart.setX d (p.2.1 (xOf s a) (xOf s b))).orFlags ⟨0, if p.2.2 = true ∧ xOf s b = 0 then 1 else 0⟩) (s.hart.pc + 8))

/-- What O1 says of a one-source form. -/
def OneSourceResult (p : (Guard → XReg → XReg → Instr) × (Word → Word)) : Prop :=
  ∀ (g : Guard) (d a : XReg) (s : State), performs s (p.1 g d a) g →
    exec (p.1 g d a) s = .next (goesOn s (s.hart.setX d (p.2 (xOf s a))) (s.hart.pc + 8))

/-- A form that sets no flag, from the value it computes. -/
theorem TwoSourceResult.of_scalar {k : Guard → XReg → XReg → XReg → Instr} {v f : Word → Word → Word}
    (hv : ∀ a b, v a b = f a b)
    (hexec : ∀ g d a b s, exec (k g d a b) s = .next (s.scalar (k g d a b) g 8 d fun h => v (h.getX a) (h.getX b))) :
    TwoSourceResult (k, f, false) := by
  obtain rfl : v = f := funext₂ hv
  intro g d a b s h
  simpa using exec_scalar h (hexec g d a b s)

/-- A division, from the value it computes: IFLAGS.DZ is set by a zero divisor (R145). -/
theorem TwoSourceResult.of_divide {k : Guard → XReg → XReg → XReg → Instr} {v f : Word → Word → Word}
    (hv : ∀ a b, v a b = f a b)
    (hexec : ∀ g d a b s, exec (k g d a b) s = .next (s.divide (k g d a b) g d b fun h => v (h.getX a) (h.getX b))) :
    TwoSourceResult (k, f, true) := by
  obtain rfl : v = f := funext₂ hv
  intro g d a b s h
  have hflags : Flags.when (s.hart.getX b == 0) .idz = ⟨0, if true = true ∧ xOf s b = 0 then 1 else 0⟩ := by
    by_cases hb : s.hart.getX b = 0#64 <;> simp [xOf, hb, Flags.when, Flags.idz, Flags.none]
  rw [exec_performed h (hexec g d a b s), hflags]
  rfl

theorem OneSourceResult.of_scalar {k : Guard → XReg → XReg → Instr} {v f : Word → Word} (hv : ∀ a, v a = f a)
    (hexec : ∀ g d a s, exec (k g d a) s = .next (s.scalar (k g d a) g 8 d fun h => v (h.getX a))) :
    OneSourceResult (k, f) := by
  obtain rfl : v = f := funext hv
  exact fun g d a s h => exec_scalar h (hexec g d a s)

theorem twoSource_results : ∀ p ∈ twoSource, TwoSourceResult p := by
  simp only [twoSource, List.forall_mem_cons]
  exact ⟨.of_scalar add_eq_ofNat fun _ _ _ _ _ => rfl,
    .of_scalar sub_eq_ofInt fun _ _ _ _ _ => rfl,
    .of_scalar (fun _ _ => rfl) fun _ _ _ _ _ => rfl,
    .of_scalar (fun _ _ => rfl) fun _ _ _ _ _ => rfl,
    .of_scalar (fun _ _ => rfl) fun _ _ _ _ _ => rfl,
    .of_scalar (fun a b => shiftL_eq_ofNat a (amount b)) fun _ _ _ _ _ => rfl,
    .of_scalar (fun a b => shiftR_eq_ofNat a (amount b)) fun _ _ _ _ _ => rfl,
    .of_scalar (fun a b => shiftA_eq_ofInt a (amount b)) fun _ _ _ _ _ => rfl,
    .of_scalar mul_eq_ofNat fun _ _ _ _ _ => rfl,
    .of_scalar mulHigh_eq_extract fun _ _ _ _ _ => rfl,
    .of_scalar mulHighU_eq_extract fun _ _ _ _ _ => rfl,
    .of_divide (v := quotS) (fun _ _ => rfl) fun _ _ _ _ _ => rfl,
    .of_divide (v := quotU) (fun _ _ => rfl) fun _ _ _ _ _ => rfl,
    .of_divide remS_eq_ofInt fun _ _ _ _ _ => rfl,
    .of_divide remU_eq_ofNat fun _ _ _ _ _ => rfl,
    .of_scalar minS_eq fun _ _ _ _ _ => rfl,
    .of_scalar maxS_eq fun _ _ _ _ _ => rfl,
    .of_scalar minU_eq fun _ _ _ _ _ => rfl,
    .of_scalar maxU_eq fun _ _ _ _ _ => rfl,
    List.forall_mem_nil _⟩

theorem oneSource_results : ∀ p ∈ oneSource, OneSourceResult p := by
  simp only [oneSource, List.forall_mem_cons]
  exact ⟨.of_scalar (fun a => congrArg _ (leadingZeros_eq_runLength a)) fun _ _ _ _ => rfl,
    .of_scalar (fun a => congrArg _ (trailingZeros_eq_runLength a)) fun _ _ _ _ => rfl,
    .of_scalar (fun a => congrArg _ (popcount_eq_length a.toNat 64)) fun _ _ _ _ => rfl,
    List.forall_mem_nil _⟩

/-- Settles O1: each form is the frame of a scalar instruction around its value. -/
theorem scalarRegisterFormsResults : Obligations.ScalarRegisterFormsResults :=
  ⟨twoSource_results, oneSource_results⟩

end Sys2Proof.Machine
end

section
/-! Settling the bit fields, the immediate forms, LI, LI64 and NOP (R84, R146, R147). -/

namespace Sys2Proof.Machine

open Say

/-- What O2 says of a form with a 17-bit immediate. -/
def ImmediateResult (p : (Guard → XReg → XReg → BitVec 17 → Instr) × (Word → Word → Word)) : Prop :=
  ∀ (g : Guard) (d a : XReg) (imm : BitVec 17) (s : State), performs s (p.1 g d a imm) g →
    exec (p.1 g d a imm) s = .next (goesOn s (s.hart.setX d (p.2 (xOf s a) (BitVec.ofInt 64 imm.toInt))) (s.hart.pc + 8))

/-- What O2 says of a shift by an immediate. -/
def ShiftResult (p : (Guard → XReg → XReg → BitVec 6 → Instr) × (Word → Nat → Word)) : Prop :=
  ∀ (g : Guard) (d a : XReg) (n : BitVec 6) (s : State), performs s (p.1 g d a n) g →
    exec (p.1 g d a n) s = .next (goesOn s (s.hart.setX d (p.2 (xOf s a) n.toNat)) (s.hart.pc + 8))

theorem ShiftResult.of_scalar {k : Guard → XReg → XReg → BitVec 6 → Instr} {v f : Word → Nat → Word}
    (hv : ∀ a n, v a n = f a n)
    (hexec : ∀ g d a n s, exec (k g d a n) s = .next (s.scalar (k g d a n) g 8 d fun h => v (h.getX a) n.toNat)) :
    ShiftResult (k, f) := by
  obtain rfl : v = f := funext₂ hv
  exact fun g d a n s h => exec_scalar h (hexec g d a n s)

/-- The immediate enters each form sign-extended, which is the word of its value. -/
theorem withImmediate_results : ∀ p ∈ withImmediate, ImmediateResult p := by
  simp only [withImmediate, List.forall_mem_cons]
  exact ⟨fun _ _ _ _ _ h => exec_scalar h rfl, fun _ _ _ _ _ h => exec_scalar h rfl,
    fun _ _ _ _ _ h => exec_scalar h rfl, fun _ _ _ _ _ h => exec_scalar h rfl, List.forall_mem_nil _⟩

theorem shiftImmediate_results : ∀ p ∈ shiftImmediate, ShiftResult p := by
  simp only [shiftImmediate, List.forall_mem_cons]
  exact ⟨.of_scalar shiftL_eq_ofNat fun _ _ _ _ _ => rfl, .of_scalar shiftR_eq_ofNat fun _ _ _ _ _ => rfl,
    .of_scalar shiftA_eq_ofInt fun _ _ _ _ _ => rfl, List.forall_mem_nil _⟩

theorem exec_ext {g : Guard} {d a : XReg} {pos wm1 : BitVec 6} {sx : Bool} {s : State} (h : performs s (.ext g d a pos wm1 sx) g) :
    exec (.ext g d a pos wm1 sx) s =
      .next (goesOn s (s.hart.setX d (extract (xOf s a) pos.toNat (wm1.toNat + 1) sx)) (s.hart.pc + 8)) :=
  exec_scalar h rfl

theorem exec_ins {g : Guard} {d a : XReg} {pos wm1 : BitVec 6} {s : State} (h : performs s (.ins g d a pos wm1) g) :
    exec (.ins g d a pos wm1) s =
      .next (goesOn s (s.hart.setX d (insertBits (xOf s d) (xOf s a) pos.toNat (wm1.toNat + 1))) (s.hart.pc + 8)) :=
  exec_scalar h rfl

theorem exec_addsh {g : Guard} {d a b : XReg} {sh : BitVec 6} {s : State} (h : performs s (.addsh g d a b sh) g) :
    exec (.addsh g d a b sh) s =
      .next (goesOn s (s.hart.setX d (xOf s a + shiftL (xOf s b) sh.toNat)) (s.hart.pc + 8)) :=
  exec_scalar h rfl

/-! The words of EXT, INS and ADDSH (R84). -/

theorem boolX_zero_getLsbD (b : Bool) : (boolX b 0).getLsbD 0 = b := by cases b <;> rfl

theorem word_ext (g : Guard) (d a : XReg) (pos wm1 : BitVec 6) (sx : Bool) :
    (encode (.ext g d a pos wm1 sx)).getD 0 0 = (g.fields false 0x17 d a pos wm1 (boolX sx 0)).toWord := rfl

theorem word_ins (g : Guard) (d a : XReg) (pos wm1 : BitVec 6) :
    (encode (.ins g d a pos wm1)).getD 0 0 = (g.fields false 0x18 d a pos wm1 0).toWord := rfl

theorem word_addsh (g : Guard) (d a b : XReg) (sh : BitVec 6) :
    (encode (.addsh g d a b sh)).getD 0 0 = (g.fields false 0x19 d a b 0 (sh.setWidth 11)).toWord := rfl

theorem boolX_zero_high (b : Bool) : (boolX b 0).extractLsb' 1 10 = 0 := by cases b <;> rfl

/-- A word whose instruction is not well formed is an illegal instruction (R84, R87). -/
theorem decodeWords_illegal {f : Fields} {w2 : Word} {i : Instr} (hs : f.settle = f) (hp : parse f w2 = some i)
    (hw : i.wf = false) : decodeWords f.toWord w2 = .error .illegal := by
  simp [decodeWords, Fields.ofWord_toWord, hs, hp, hw]

theorem parse_ext_fields (g : Guard) (d a : XReg) (pos wm1 : BitVec 6) (sx : Bool) (w2 : Word) :
    parse (g.fields false 0x17 d a pos wm1 (boolX sx 0)) w2 = some (.ext g d a pos wm1 sx) := by
  have hparse : parse (g.fields false 0x17 d a pos wm1 (boolX sx 0)) w2 =
      guardZero ((boolX sx 0).extractLsb' 1 10 == 0) (.ext g d a pos wm1 ((boolX sx 0).getLsbD 0)) := rfl
  rw [hparse, boolX_zero_high, boolX_zero_getLsbD]
  rfl

theorem parse_ins_fields (g : Guard) (d a : XReg) (pos wm1 : BitVec 6) (w2 : Word) :
    parse (g.fields false 0x18 d a pos wm1 0) w2 = some (.ins g d a pos wm1) := rfl

theorem fieldOk_eq_false {pos wm1 : BitVec 6} (h : 64 < pos.toNat + (wm1.toNat + 1)) : fieldOk pos wm1 = false := by
  simpa [fieldOk] using h

/-- Settles O2: values by `extract_eq`, `getLsbD_insertBits` and the immediates' lemmas, words by cutting what was put together. -/
theorem bitFieldAndImmediateFormsResults : Obligations.BitFieldAndImmediateFormsResults := by
  refine ⟨fun g d a pos wm1 sx s h => ?ext, fun g d a pos wm1 s h => ?ins, fun g d a b sh s h => ?addsh,
    withImmediate_results, shiftImmediate_results, fun g d imm s h => exec_scalar h rfl, fun g d imm s h => exec_scalar h rfl,
    fun s h => ?nop, fun g d a b pos wm1 sh sx => ?words, fun g d a pos wm1 s hn hp hd => ?waits⟩
  case ext => rw [exec_ext h, extract_eq]
  case ins => exact ⟨_, exec_ins h, getLsbD_insertBits _ _ _ _⟩
  case addsh => rw [exec_addsh h, add_shiftL_eq_ofNat]
  case nop => exact congrArg _ (State.frontEnd_go h _ _ _)
  case words =>
    simp only [word_ext, word_ins, word_addsh, Fields.ofWord_toWord]
    refine ⟨rfl, rfl, boolX_zero_getLsbD sx, rfl, rfl, ?_, fun hlong w2 => ⟨?_, ?_⟩⟩
    · exact (extract_setWidth_low sh 6 (by omega) rfl).trans (BitVec.setWidth_eq _)
    · exact decodeWords_illegal rfl (parse_ext_fields ..) (fieldOk_eq_false hlong)
    · exact decodeWords_illegal rfl (parse_ins_fields ..) (fieldOk_eq_false hlong)
  case waits => exact exec_of_gate_resync rfl rfl (State.gate_of_hazard hn hp (State.hazard_of_pendingX List.mem_cons_self hd))

end Sys2Proof.Machine
end

section
/-! Settling control transfer and lengths (R148, R150, R161, R162). -/

namespace Sys2Proof.Machine

open Say

/-! Control transfer (R148, R150). -/

theorem Hart.setX_x0 (h : Hart) (v : Word) : h.setX 0 v = h := if_pos rfl

theorem Hart.getX_x0 (h : Hart) : h.getX 0 = 0 := if_pos rfl

/-- The low three bits of an address (R148). -/
theorem setWidth_three_eq_zero_iff (t : Word) : t.setWidth 3 = 0 ↔ t.toNat % 8 = 0 := by
  rw [← BitVec.toNat_inj, BitVec.toNat_setWidth]
  rfl

theorem exec_br {g : Guard} {off : BitVec 29} {s : State} (h : performs s (.br g off) g) :
    exec (.br g off) s = .next (goesOn s s.hart (target s.hart.pc off)) :=
  exec_performed h rfl

theorem exec_call {g : Guard} {d : XReg} {off : BitVec 29} {s : State} (h : performs s (.call g d off) g) :
    exec (.call g d off) s = .next (goesOn s (s.hart.setX d (s.hart.pc + 8)) (target s.hart.pc off)) :=
  exec_performed h rfl

theorem exec_addpc {g : Guard} {d : XReg} {off : BitVec 29} {s : State} (h : performs s (.addpc g d off) g) :
    exec (.addpc g d off) s = .next (goesOn s (s.hart.setX d (target s.hart.pc off)) (s.hart.pc + 8)) :=
  exec_performed h rfl

theorem exec_jr_aligned {g : Guard} {d a : XReg} {s : State} (h : performs s (.jr g d a) g) (ha : (xOf s a).toNat % 8 = 0) :
    exec (.jr g d a) s = .next (goesOn s (s.hart.setX d (s.hart.pc + 8)) (xOf s a)) := by
  have hlow : ¬ (xOf s a).setWidth 3 ≠ 0 := not_not.2 ((setWidth_three_eq_zero_iff _).2 ha)
  refine (exec_performed h rfl).trans ?_
  rw [if_neg hlow]
  rfl

theorem exec_jr_misaligned {g : Guard} {d a : XReg} {s : State} (h : performs s (.jr g d a) g) (ha : (xOf s a).toNat % 8 ≠ 0) :
    exec (.jr g d a) s = .next (s.frontFault ⟨0x08, 0, xOf s a, 0, 0⟩) := by
  have hlow : (xOf s a).setWidth 3 ≠ 0 := mt (setWidth_three_eq_zero_iff _).1 ha
  refine (exec_performed h rfl).trans ?_
  rw [if_pos hlow]
  rfl

/-- BSTRIP's test is of the values (R150). -/
theorem vl_ult_iff (vl : BitVec 18) (n : Word) : (vl.setWidth 64).ult n = true ↔ vl.toNat < n.toNat := by
  rw [BitVec.ult_iff_lt, BitVec.lt_def, BitVec.toNat_setWidth_of_le (by decide)]

theorem sub_vl_eq_ofNat {vl : BitVec 18} {n : Word} (h : vl.toNat < n.toNat) :
    n - vl.setWidth 64 = BitVec.ofNat 64 (n.toNat - vl.toNat) := by
  rw [← BitVec.ofNat_sub_ofNat_of_le _ _ (by omega) h.le, BitVec.ofNat_toNat, BitVec.ofNat_toNat, BitVec.setWidth_eq]

theorem exec_bstrip_above {g : Guard} {d : XReg} {off : BitVec 29} {s : State} (h : performs s (.bstrip g d off) g)
    (hn : s.hart.ctl.vl.toNat < (xOf s d).toNat) :
    exec (.bstrip g d off) s = .next (goesOn s
      (s.hart.setX d (BitVec.ofNat 64 ((xOf s d).toNat - s.hart.ctl.vl.toNat))) (target s.hart.pc off)) := by
  refine (exec_performed h rfl).trans ?_
  rw [if_pos ((vl_ult_iff _ _).2 hn), sub_vl_eq_ofNat hn]
  rfl

theorem exec_bstrip_within {g : Guard} {d : XReg} {off : BitVec 29} {s : State} (h : performs s (.bstrip g d off) g)
    (hn : (xOf s d).toNat ≤ s.hart.ctl.vl.toNat) :
    exec (.bstrip g d off) s = .next (goesOn s (s.hart.setX d 0) (s.hart.pc + 8)) := by
  refine (exec_performed h rfl).trans ?_
  rw [if_neg (mt (vl_ult_iff _ _).1 (Nat.not_lt.2 hn))]
  rfl

/-- What the five control instructions share: each is a whole instruction of the front end, one word long, under its guard. -/
theorem control_form {g : Guard} {d a : XReg} {off : BitVec 29} :
    ∀ i ∈ [Instr.br g off, .call g d off, .jr g d a, .addpc g d off, .bstrip g d off],
      isEvent i = false ∧ inVq i = false ∧ guardedWhole i = true ∧ guardOf i = some g ∧ bytesOfInstr i = 8 := by
  simp only [List.forall_mem_cons]
  exact ⟨⟨rfl, rfl, rfl, rfl, rfl⟩, ⟨rfl, rfl, rfl, rfl, rfl⟩, ⟨rfl, rfl, rfl, rfl, rfl⟩, ⟨rfl, rfl, rfl, rfl, rfl⟩,
    ⟨rfl, rfl, rfl, rfl, rfl⟩, List.forall_mem_nil _⟩

/-! SETVL and SETRC (R161, R162). -/

/-- The length SETVL grants: as many whole units as are asked for, up to VLMAX (R161). -/
def CtlRegs.granted (c : CtlRegs) (vlenb avl : Nat) (t : Fmt) (blk : Bool) : Nat :=
  let unit := if blk then 32 else 1
  min (ceilDiv avl unit * unit) (8 * vlenb / (rcRows c.rc * fmtWidth t))

theorem CtlRegs.setvl_eq (c : CtlRegs) (vlenb avl : Nat) (t : Fmt) (blk step : Bool) :
    c.setvl vlenb avl t blk step =
      { c with
        vl := BitVec.ofNat 18 (c.granted vlenb avl t blk)
        vtail := BitVec.ofNat 5 (c.granted vlenb avl t blk - avl)
        vtag := t
        vblk := blk
        sc := if step then c.sc + 1 else c.sc } := rfl

theorem Hart.vlenb_le (h : Hart) : h.vlenb ≤ 65536 := Nat.div_le_self ..

theorem fmtWidth_ge (t : Fmt) : 4 ≤ fmtWidth t := by cases t <;> decide

/-- VLMAX fits VL: a register holds at most 2^17 elements (R15, R54). -/
theorem CtlRegs.granted_lt (c : CtlRegs) {vlenb : Nat} (hv : vlenb ≤ 65536) (avl : Nat) (t : Fmt) (blk : Bool) :
    c.granted vlenb avl t blk < 2 ^ 18 := by
  have hwidth : 4 ≤ rcRows c.rc * fmtWidth t := Nat.le_trans (fmtWidth_ge t) (Nat.le_mul_of_pos_left _ (Nat.two_pow_pos _))
  calc c.granted vlenb avl t blk ≤ 8 * vlenb / (rcRows c.rc * fmtWidth t) := Nat.min_le_right ..
    _ ≤ 8 * vlenb / 4 := Nat.div_le_div_left hwidth (by decide)
    _ < 2 ^ 18 := by omega

/-- What is granted above what was asked for is less than a block (R121, R161). -/
theorem CtlRegs.granted_sub_lt (c : CtlRegs) (vlenb avl : Nat) (t : Fmt) (blk : Bool) :
    c.granted vlenb avl t blk - avl < 32 := by
  have hle : c.granted vlenb avl t blk ≤ ceilDiv avl (if blk then 32 else 1) * (if blk then 32 else 1) := Nat.min_le_left ..
  cases blk <;> simp only [ceilDiv, if_true, Bool.false_eq_true, if_false] at hle <;> omega

/-- The number of elements SETVL answers, VL less VTAIL. -/
theorem setvl_answer {n m : Nat} (hn : n < 2 ^ 18) (hm : m < 32) (hle : m ≤ n) :
    (BitVec.ofNat 18 n).setWidth 64 - (BitVec.ofNat 5 m).setWidth 64 = BitVec.ofNat 64 (n - m) := by
  rw [← BitVec.ofNat_sub_ofNat_of_le _ _ (by omega) hle]
  congr 1 <;> apply BitVec.eq_of_toNat_eq <;> simp <;> omega

theorem exec_setvl_no_block {g : Guard} {d a : XReg} {t : Fmt} {blk step : Bool} {s : State}
    (h : performs s (.setvl g d a t blk step) g) (hblk : blk = true) (ht : t.blockOk = false) :
    exec (.setvl g d a t blk step) s = .next (s.frontFault ⟨0x04, 0, 0, 0, 0⟩) := by
  subst hblk
  refine (exec_performed h rfl).trans ?_
  rw [ht]
  rfl

theorem exec_setvl {g : Guard} {d a : XReg} {t : Fmt} {blk step : Bool} {s : State}
    (h : performs s (.setvl g d a t blk step) g) (hblk : blk = false ∨ t.blockOk = true) :
    let avl := (xOf s a).toNat
    let n := s.hart.ctl.granted s.hart.vlenb avl t blk
    exec (.setvl g d a t blk step) s = .next (goesOn s
      ({ s.hart with ctl := s.hart.ctl.setvl s.hart.vlenb avl t blk step }.setX d (BitVec.ofNat 64 (n - (n - avl))))
      (s.hart.pc + 8)) := by
  intro avl n
  have hok : ¬ (blk && !t.blockOk) = true := by rcases hblk with rfl | ht <;> simp [*]
  have hanswer := setvl_answer (s.hart.ctl.granted_lt s.hart.vlenb_le avl t blk) (s.hart.ctl.granted_sub_lt s.hart.vlenb avl t blk)
    (Nat.sub_le ..)
  refine (exec_performed h rfl).trans ?_
  rw [if_neg hok, ← hanswer]
  rfl

theorem exec_setrc {g : Guard} {code : Fin 6} {s : State} (h : performs s (.setrc g code) g) :
    exec (.setrc g code) s = .next (goesOn s
      { s.hart with ctl := { s.hart.ctl with rc := code, vl := 0, vtail := 0 } } (s.hart.pc + 8)) :=
  exec_performed h rfl

/-- Settles O3: each instruction's effect by its own lemma, the waits and the false guard by what the five control forms share. -/
theorem controlAndLengthResults : Obligations.ControlAndLengthResults := by
  unfold Obligations.ControlAndLengthResults
  simp only [← target_eq_ofInt]
  refine ⟨fun g off s => exec_br, fun g d off s => exec_call, fun g d a s h => ⟨exec_jr_aligned h, exec_jr_misaligned h⟩,
    fun g d off s => exec_addpc, fun g d off s h => ⟨exec_bstrip_above h, exec_bstrip_within h⟩, fun g off s h => ?x0,
    fun g d a off s hn => ⟨fun i hi => ?frame, fun hp hd => ?waits⟩,
    fun g d a t blk step s h => ⟨fun hb => ?fault, fun hb => ?grants⟩, fun g code s => exec_setrc⟩
  case x0 =>
    have hzero : (xOf s 0).toNat = 0 := congrArg _ s.hart.getX_x0
    rw [exec_bstrip_within h (by omega), Hart.setX_x0]
  case frame =>
    obtain ⟨he, hv, hw, hg, hlen⟩ := control_form i hi
    have hpend := s.hart.guardPending_iff hw hg
    refine ⟨fun hk => exec_of_gate_resync he hv (State.gate_of_guardPending hn (hpend.2 hk)), fun hk hs hf => ?_⟩
    have hnone : s.hart.guardPending i = false := Bool.eq_false_iff.2 fun hp =>
      let ⟨k, hkg, hkp⟩ := hpend.1 hp
      hk k hkg hkp
    rw [exec_of_gate_skip he hv (State.gate_of_guard_false hn hw hg hnone hs hf), hlen]
    rfl
  case waits => exact exec_of_gate_resync rfl rfl (State.gate_of_hazard hn hp (State.hazard_of_pendingX List.mem_cons_self hd))
  case fault => exact exec_setvl_no_block h hb.1 hb.2
  case grants =>
    have htail {m n : Nat} : (if m < n then n - m else 0) = n - m := by split <;> omega
    simp only [htail]
    exact exec_setvl h hb

end Sys2Proof.Machine
end

section
/-! Settling TRAP, BKPT and ERET (R437, R442 to R444, R446). -/

namespace Sys2Proof.Machine

open Say

/-! Writes of the Compass leave the hart in focus. -/

@[simp] theorem State.devicePut_hart (s : State) (pa : Nat) (bs : List Byte) : (s.devicePut pa bs).hart = s.hart := by
  unfold State.devicePut; split <;> rfl

@[simp] theorem State.putWords_hart (s : State) (pa : Nat) (ws : List Word) : (s.putWords pa ws).hart = s.hart :=
  s.devicePut_hart ..

@[simp] theorem State.putTrapImage_hart (s : State) (h : Hart) (resume : Word) : (s.putTrapImage h resume).hart = s.hart := by
  unfold State.putTrapImage
  split
  · simp only [State.putWords_hart]
  · rfl

/-! Taking a fault that is not replayable (R106, R437). -/

theorem State.takeFault_of_hasHandler {s : State} {f : FaultInfo} (hcode : f.code ≠ 0x05) (hh : hasHandler s.hart)
    (epc resume : Word) (start : Nat) : s.takeFault f epc resume start = entersHandler s f epc resume start := by
  rw [hasHandler] at hh
  rw [State.takeFault, if_neg hcode, if_pos hh]
  simp only [State.putTrapImage_hart]
  rfl

theorem State.takeFault_of_not_hasHandler {s : State} {f : FaultInfo} (hcode : f.code ≠ 0x05) (hh : ¬hasHandler s.hart)
    (epc resume : Word) (start : Nat) : s.takeFault f epc resume start = groupFaults s f epc resume := by
  rw [hasHandler] at hh
  rw [State.takeFault, if_neg hcode, if_neg hh]
  rfl

/-- A fault that comes of no access to memory leaves nothing to fill, to tell or to use up. -/
theorem State.frontFault_of_not_walked (s : State) {f : FaultInfo} (h : f.walked = false) : s.frontFault f = s.frontTakes f := by
  simp [State.frontFault, State.met, h]

/-! A trap (R437, R442, R443). -/

theorem State.raiseTrap_waits {s : State} (hq : s.hart.vq ≠ []) (code : BitVec 8) (n : BitVec 16) :
    s.raiseTrap code n = .wait .drain := by
  simp [State.raiseTrap, hq]

theorem State.raiseTrap_takes {s : State} (hq : s.hart.vq = []) (code : BitVec 8) (n : BitVec 16) :
    s.raiseTrap code n = .goto (s.takeFault ⟨code, 0, 0, 0, n⟩ s.hart.pc (s.hart.pc + 8) 0)
      (s.takeFault ⟨code, 0, 0, 0, n⟩ s.hart.pc (s.hart.pc + 8) 0).hart.pc := by
  simp [State.raiseTrap, hq]

/-- What O38 says of an instruction that traps with a code and a number. -/
def TrapResult (s : State) (i : Instr) (code : BitVec 8) (n : BitVec 16) : Prop :=
  let f : FaultInfo := ⟨code, 0, 0, 0, n⟩
  (s.hart.vq ≠ [] → exec i s = .next { s with hart := s.hart.waitFor .drain }) ∧
  (s.hart.vq = [] → hasHandler s.hart → exec i s = .next (
    let t := entersHandler s f s.hart.pc (s.hart.pc + 8) 0
    goesOn t t.hart t.hart.pc)) ∧
  (s.hart.vq = [] → ¬hasHandler s.hart → exec i s = .next (
    let t := groupFaults s f s.hart.pc (s.hart.pc + 8)
    goesOn t t.hart t.hart.pc))

theorem TrapResult.of_raiseTrap {s : State} {i : Instr} {len : Nat} {code : BitVec 8} {n : BitVec 16} (hcode : code ≠ 0x05)
    (hexec : exec i s = .next (s.act len (s.raiseTrap code n))) : TrapResult s i code n := by
  refine ⟨fun hq => ?waits, fun hq hh => ?handled, fun hq hh => ?faults⟩
  case waits =>
    rw [hexec, State.raiseTrap_waits hq]
    rfl
  case handled =>
    rw [hexec, State.raiseTrap_takes hq, State.takeFault_of_hasHandler hcode hh]
    rfl
  case faults =>
    rw [hexec, State.raiseTrap_takes hq, State.takeFault_of_not_hasHandler hcode hh]
    rfl

theorem exec_trap_result {g : Guard} {n : BitVec 16} {s : State} (h : performs s (.trap g n) g) :
    TrapResult s (.trap g n) 0x12 n :=
  .of_raiseTrap (by decide) (exec_performed h rfl)

theorem exec_bkpt_result {g : Guard} {n : BitVec 16} {s : State} (h : performs s (.bkpt g n) g)
    (hdbg : (s.ctx s.hart.ctx).dbgEn = false) : TrapResult s (.bkpt g n) 0x11 n := by
  refine .of_raiseTrap (len := 8) (by decide) ((exec_performed h rfl).trans ?_)
  rw [hdbg]
  rfl

/-! The return from a handler (R444). -/

/-- Where the front end goes on does not depend on where the hart stood. -/
theorem goesOn_hart_pc (s : State) (h : Hart) (p pc : Word) : goesOn s { h with pc := p } pc = goesOn s h pc := by
  simp only [goesOn, State.endWait]
  split
  · rfl
  · split <;> rfl

theorem exec_eret_outside {g : Guard} {s : State} (h : performs s (.eret g) g) (hinh : s.hart.trap.inh = false) :
    exec (.eret g) s = .next (s.frontTakes ⟨0x04, 0, 0, 0, 0⟩) := by
  refine (exec_performed h rfl).trans ?_
  rw [if_pos (by simp [hinh])]
  exact congrArg _ (s.frontFault_of_not_walked rfl)

theorem exec_eret_waits {g : Guard} {s : State} (h : performs s (.eret g) g) (hinh : s.hart.trap.inh = true)
    (hq : s.hart.vq ≠ []) : exec (.eret g) s = .next { s with hart := s.hart.waitFor .drain } := by
  refine (exec_performed h rfl).trans ?_
  rw [if_neg (by simp [hinh]), if_pos (by simp [hq])]
  rfl

theorem exec_eret_returns {g : Guard} {s : State} (h : performs s (.eret g) g) (hinh : s.hart.trap.inh = true)
    (hq : s.hart.vq = []) :
    exec (.eret g) s = .next (goesOn s { s.hart.leaveHandler with pc := s.hart.pc } s.hart.leaveHandler.pc) := by
  refine (exec_performed h rfl).trans ?_
  rw [if_neg (by simp [hinh]), if_neg (by simp [hq]), goesOn_hart_pc]
  rfl

/-! The debug halt (R446). -/

theorem neededPieces_cons (q : FarPiece) (l : List FarPiece) (want : FarPiece → Bool) :
    neededPieces (q :: l) want =
      if want q || (neededPieces l want).any q.precedes then q :: neededPieces l want else neededPieces l want := rfl

/-- Nothing is needed for pieces that nobody wants. -/
theorem neededPieces_eq_nil {l : List FarPiece} {want : FarPiece → Bool} (h : ∀ p ∈ l, want p = false) :
    neededPieces l want = [] := by
  induction l with
  | nil => rfl
  | cons q l ih =>
    obtain ⟨hq, hl⟩ := List.forall_mem_cons.1 h
    simp [neededPieces_cons, ih hl, hq]

theorem State.drainFar_of_no_pieces {s : State} {no : Nat} (h : ∀ p ∈ s.far.pieces, p.hart ≠ no) : s.drainFar no = s := by
  rw [State.drainFar, State.completeWanted, neededPieces_eq_nil fun p hp => beq_false_of_ne (h p hp)]
  rfl

theorem State.piecesOf_eq_nil {s : State} {no : Nat} (h : ∀ p ∈ s.far.pieces, p.hart ≠ no) : s.piecesOf no = [] :=
  List.filter_eq_nil_iff.2 fun p hp => by simpa using h p hp

/-- The record of the halt, and the machine after the time stamp in it. -/
def State.haltRecord (s : State) : List Word × State := s.hartRecord s.hart (.of 0x11) s.hart.pc false false true none

/-- The machine with its hart halted, before the image and the record of the halt are written. -/
def State.halted (s : State) : State := { s.haltRecord.2 with hart := s.hart.halt }

/-- The image of the halted hart is written to its area, where it has one, and then the record; what the image met of
uncorrectable data, and what the registers hold of it, faults the context (R431, R446, R465). -/
def State.writeHalt (t : State) (area : Option Nat) (r : List Word) : State :=
  let y := match area with
    | some a => t.putChunks a ({ t.hart with phase := .running }.imageChunks true)
    | none => (t, false)
  if y.2 || t.hart.imageSpoilt then (y.1.record t.hart.ctx r).faultContext t.hart.ctx else y.1.record t.hart.ctx r

theorem State.debugHalt_of_no_pieces {s : State} (h : ∀ p ∈ s.far.pieces, p.hart ≠ s.hart.no) :
    s.debugHalt = s.halted.writeHalt (s.halted.hartArea s.halted.hart) s.haltRecord.1 := by
  rw [State.debugHalt, State.drainFar_of_no_pieces h]
  rfl

theorem exec_bkpt_waits {g : Guard} {n : BitVec 16} {s : State} (h : performs s (.bkpt g n) g)
    (hdbg : (s.ctx s.hart.ctx).dbgEn = true) (hq : s.hart.vq ≠ []) :
    exec (.bkpt g n) s = .next { s with hart := s.hart.waitFor .drain } := by
  refine (exec_performed h rfl).trans ?_
  rw [if_pos hdbg, if_pos (by simp [hq])]
  rfl

theorem exec_bkpt_halts {g : Guard} {n : BitVec 16} {s : State} (h : performs s (.bkpt g n) g)
    (hdbg : (s.ctx s.hart.ctx).dbgEn = true) (hq : s.hart.vq = []) (hfar : ∀ p ∈ s.far.pieces, p.hart ≠ s.hart.no) :
    exec (.bkpt g n) s = .next (
      let u := s.halted.writeHalt (s.halted.hartArea s.halted.hart) s.haltRecord.1
      goesOn u u.hart u.hart.pc) := by
  refine (exec_performed h rfl).trans ?_
  rw [if_pos hdbg, if_neg (by simp [hq, State.drainFar_of_no_pieces hfar, State.piecesOf_eq_nil hfar]),
    State.debugHalt_of_no_pieces hfar]
  rfl

/-- Settles O38: traps by `TrapResult.of_raiseTrap`, the return and the halt by what each does behind an empty queue. -/
theorem trapAndReturn : Obligations.TrapAndReturn := by
  refine ⟨fun g n s => exec_trap_result, fun g n s => exec_bkpt_result,
    fun g s h => ⟨exec_eret_outside h, exec_eret_waits h, exec_eret_returns h⟩,
    fun g n s h hdbg => ⟨exec_bkpt_waits h hdbg, fun hq hfar => ⟨fun harea => ?unsaved, fun a harea => ?saved⟩⟩⟩
  case unsaved =>
    have hnone : s.halted.hartArea s.halted.hart = none := harea
    rw [exec_bkpt_halts h hdbg hq hfar, hnone]
    rfl
  case saved =>
    have hsome : s.halted.hartArea s.halted.hart = some a := harea
    rw [exec_bkpt_halts h hdbg hq hfar, hsome]
    rfl

end Sys2Proof.Machine
end
